-- ==== Sys2Proof/Word.lean ====
section
/-! DEFINITION. The words the LS48 exchanges: characters, 16-bit fields and millisecond counts. -/

namespace Sys2Proof

/-- One character of a frame (R121: eight data bits). -/
abbrev Byte := BitVec 8

/-- A two-byte field of a frame, and the register of the frame check (R123). -/
abbrev Word16 := BitVec 16

/-- A value of the 32-bit free-running millisecond count (00 §1.5). -/
abbrev Time := BitVec 32

/-- The index of a car record, 0 to 47. -/
abbrev CarIdx := Fin 48

/-- The index of a group, 0 to 7. -/
abbrev GroupIdx := Fin 8

end Sys2Proof
end

