-- ==== Sys2Proof/Syntax.lean ====
section
/-! DEFINITION. The commands of the LS48: one constructor per row of spec/opcode_table.json, with the operands
that the row's rule says arrive. -/

namespace Sys2Proof

/-- The three link ports (07): the dispatch port and car ports A and B. -/
inductive Port where
  | dispatch
  | carA
  | carB
  deriving DecidableEq, Repr

/-- A sample of a transfer switch line (R1). -/
inductive SwitchLevel where
  | closed
  | opened
  deriving DecidableEq, Repr

/-- A sample of a plant alarm line (R106). -/
inductive AlarmLevel where
  | high
  | low
  deriving DecidableEq, Repr

/-- The payload of a CAR ORDER as sent: four fixed bytes and the dispatch controller's own bytes (R131). -/
structure OrderPayload where
  mode   : Byte
  target : Byte
  door   : Byte
  permit : Byte
  priv   : List Byte
  deriving DecidableEq, Repr

/-- The payload of a CAR REPORT as sent: eleven fixed bytes and the car's own bytes (R132). -/
structure ReportPayload where
  floor     : Byte
  status    : Byte
  direction : Byte
  motion    : Byte
  door      : Byte
  load      : Byte
  request   : Byte
  target    : Byte
  pulses    : Word16
  faults    : Byte
  priv      : List Byte
  deriving DecidableEq, Repr

/-- A complete frame whose check agrees, of one of the kinds a port may accept (07, byte layouts). -/
inductive Frame where
  | cycleMark     (number : Byte)
  | carOrder      (address : Byte) (order : OrderPayload)
  | carReport     (address : Byte) (report : ReportPayload)
  | plantPoll     (address : Byte)
  | plantReport   (address : Byte) (power freq : Word16) (flags : Byte)
  | manageRequest (address : Byte) (payload : List Byte)
  deriving DecidableEq, Repr

/-- The commands, in the order of the opcode table. Each docstring names the row and its rule. -/
inductive Instr where
  /-- HARD_RESET (R17): power-on or assertion of RESET. -/
  | hardReset
  /-- SWITCH_LINE_FILTERED (R1): one millisecond's sample of UTIL CLOSED and GEN CLOSED. -/
  | switchLineFiltered (util gen : SwitchLevel)
  /-- ALARM_LINE_FILTERED (R106): one millisecond's sample of ALARM 1 to ALARM 4. -/
  | alarmLineFiltered (a1 a2 a3 a4 : AlarmLevel)
  /-- WARM_UP_EXPIRY (R8). -/
  | warmUpExpiry
  /-- RECALL_LIMIT_EXPIRY (R95). -/
  | recallLimitExpiry
  /-- PLANT_REPORT_STALE (R16). -/
  | plantReportStale
  /-- START_TIMER_EXPIRY (R36) of one car. -/
  | startTimerExpiry (car : CarIdx)
  /-- TRIP_TIMER_EXPIRY (R36) of one car. -/
  | tripTimerExpiry (car : CarIdx)
  /-- SETTLE_EXPIRY (R79). -/
  | settleExpiry
  /-- BLIND_EXPIRY (R82). -/
  | blindExpiry
  /-- RECOVERY_EXPIRY (R81). -/
  | recoveryExpiry
  /-- HOLD_OFF_EXPIRY (R68). -/
  | holdOffExpiry
  /-- SILENCE_EXPIRY (R154). -/
  | silenceExpiry
  /-- CYCLE_PERIOD_EXPIRY (R158). -/
  | cyclePeriodExpiry
  /-- REPLY_TIMER_EXPIRY (R146) of one line. -/
  | replyTimerExpiry (port : Port)
  /-- SENDING_LINE_TIMEOUT (R159) of one line. -/
  | sendingLineTimeout (port : Port)
  /-- FRAME_FIRST_CHARACTER (R122): a character arrives on a port's line. -/
  | frameFirstCharacter (port : Port) (char : Byte)
  /-- FRAME_ABANDONED (R122): a character fault, or a length above 32. -/
  | frameAbandoned (port : Port)
  /-- FRAME_TRUNCATED (R122): the line stays idle for more than 20 µs. -/
  | frameTruncated (port : Port)
  /-- RECEIVER_IDLE_RESYNC (R122): the line stays idle for 20 µs. -/
  | receiverIdleResync (port : Port)
  /-- FRAME_DISCARDED (R124): a frame is complete with these characters and is judged. -/
  | frameDiscarded (port : Port) (chars : List Byte)
  /-- TRANSMIT_START (R121): the line has been idle for 20 µs. -/
  | transmitStart (port : Port)
  /-- TRANSMIT_COMPLETE (R129): the last character of the frame being sent has gone out. -/
  | transmitComplete (port : Port)
  /-- CYCLE_MARK (R139) on the dispatch port. -/
  | cycleMark (number : Byte)
  /-- CAR_ORDER (R140) on the dispatch port. -/
  | carOrder (address : Byte) (order : OrderPayload)
  /-- PLANT_POLL (R138) on the dispatch port. -/
  | plantPoll (address : Byte)
  /-- PLANT_REPORT (R15) on the dispatch port. -/
  | plantReport (address : Byte) (power freq : Word16) (flags : Byte)
  /-- MANAGE_REQUEST_OTHER_ADDRESS (R138) on the dispatch port. -/
  | manageRequestOtherAddress (address : Byte) (payload : List Byte)
  /-- CAR_REPORT (R147) on a car port. -/
  | carReport (port : Port) (address : Byte) (report : ReportPayload)
  /-- MASTER_CAR_REPORT (R159) on a car port. -/
  | masterCarReport (port : Port) (address : Byte) (report : ReportPayload)
  /-- MASTER_PLANT_REPORT (R160) on the dispatch port. -/
  | masterPlantReport (address : Byte) (power freq : Word16) (flags : Byte)
  /-- MASTER_CYCLE_MARK (R162) on the dispatch port. -/
  | masterCycleMark (number : Byte)
  /-- MASTER_DISPATCH_FRAME_IGNORED (R161) on the dispatch port. -/
  | masterDispatchFrameIgnored (frame : Frame)
  /-- HANDBACK_FRAME_DROPPED (R163) on the dispatch port. -/
  | handbackFrameDropped (frame : Frame)
  /-- MANAGE_REQUEST_BAD_KIND (R167): a request to the part with this request kind and these arguments. -/
  | manageRequestBadKind (kind : Byte) (args : List Byte)
  /-- READ (R168); the arguments after the request kind: table, selector, index. -/
  | read (args : List Byte)
  /-- WRITE_CAR_IDENTITY (R19); the arguments after the table code: index, fields. -/
  | writeCarIdentity (args : List Byte)
  /-- WRITE_CAR_CONFIGURATION (R20); the arguments after the table code. -/
  | writeCarConfiguration (args : List Byte)
  /-- WRITE_CLASS (R48); the arguments after the table code. -/
  | writeClass (args : List Byte)
  /-- WRITE_PLANT (R49); the arguments after the table code. -/
  | writePlant (args : List Byte)
  /-- WRITE_GROUP (R89); the arguments after the table code. -/
  | writeGroup (args : List Byte)
  /-- WRITE_RECALL_ORDER (R90); the arguments after the table code: start position, indices. -/
  | writeRecallOrder (args : List Byte)
  /-- WRITE_TRIP_MAP (R108); the arguments after the table code. -/
  | writeTripMap (args : List Byte)
  /-- WRITE_SCHEDULE (R156); the arguments after the table code. -/
  | writeSchedule (args : List Byte)
  /-- WRITE_LINK_SETTINGS (R135); the arguments after the table code. -/
  | writeLinkSettings (args : List Byte)
  /-- COPY_ACTIVE_TO_SHADOW (R170); any argument bytes (none fit). -/
  | copyActiveToShadow (args : List Byte)
  /-- APPLY (R171); any argument bytes (none fit). -/
  | apply (args : List Byte)
  /-- START_SERVICE (R94, R171); any argument bytes (none fit). -/
  | startService (args : List Byte)
  /-- ENABLE (R22): CAR CONTROL action 0 on a car index; any bytes after the action. -/
  | enable (index : Byte) (args : List Byte)
  /-- DISABLE (R23): CAR CONTROL action 1. -/
  | disable (index : Byte) (args : List Byte)
  /-- ISOLATE (R42): CAR CONTROL action 2. -/
  | isolate (index : Byte) (args : List Byte)
  /-- RESTORE (R43): CAR CONTROL action 3. -/
  | restore (index : Byte) (args : List Byte)
  /-- CLEAR_UNFIT (R44): CAR CONTROL action 4. -/
  | clearUnfit (index : Byte) (args : List Byte)
  /-- CLEAR_FLAGS (R174); two bytes name the flags. -/
  | clearFlags (args : List Byte)
  /-- SET_NOTICE_MASK (R175); two bytes give the mask. -/
  | setNoticeMask (args : List Byte)
  /-- CLEAR_COUNTERS (R137). -/
  | clearCounters (args : List Byte)
  /-- SUMMARY (R176). -/
  | summary (args : List Byte)
  /-- LOCK (R177). -/
  | lock (args : List Byte)
  /-- RESTART (R178). -/
  | restart (args : List Byte)
  /-- CHARACTER_FAULT_BETWEEN_FRAMES (R122). -/
  | characterFaultBetweenFrames (port : Port)
  deriving DecidableEq, Repr

end Sys2Proof
end

