-- ==== Sys2Proof/Config.lean ====
section
/-! DEFINITION. Free values: what the manual leaves open and the machine nevertheless produces. Nothing can evaluate them. -/

namespace Sys2Proof.Config

/-- Which of several events that come due at one instant an idle part takes first, as a function of the
model's own counter of choices. The manual gives no order (R113, R148, R155, R162, R171). Log entry 2. -/
opaque freeChoice : Nat → Nat

/-- The byte that stands at a position of a READ reply for a live field that is "not yet heard": R166 gives
no code for it. Log entry 17. -/
opaque unheardByte : Nat → Byte

end Sys2Proof.Config
end

