-- ==== Sys2Proof/Machine/State.lean ====
section
/-! DEFINITION. The state of the LS48 as plain data, block by block, and its reset values. -/

namespace Sys2Proof.Machine

/-- A timer (00 §1.5): stopped, running with the time left (ms; µs for a reply timer), or expired. A running timer
with 0 left is due. -/
inductive Timer where
  | stopped
  | running (left : Nat)
  | expired
  deriving DecidableEq, Repr

/-! ### Transfer supervisor (01) -/

/-- A line filter (R1, R2, R106): the filtered level (none is UNKNOWN), the candidate and the run count. -/
structure LineFilter (α : Type) where
  level     : Option α := none
  candidate : Option α := none
  count     : Nat := 0
  deriving DecidableEq, Repr

/-- The switch position (R3). -/
inductive Position where
  | utility
  | generator
  | opened
  | invalid
  | unknown
  deriving DecidableEq, Repr

/-- The transfer state (01). -/
inductive TransferState where
  | normal
  | outage
  | standby
  | recall
  | service
  | returning
  deriving DecidableEq, Repr

/-- The last cause of the transfer record (R4). -/
inductive Cause where
  | switchOpen
  | switchInvalid
  | switchGenerator
  | switchUtility
  | warmUp
  | recallDone
  | retransferSet
  | retransferClear
  deriving DecidableEq, Repr

/-- The remembered state (R12) when it is not NONE. -/
inductive Remembered where
  | recall
  | service
  deriving DecidableEq, Repr

/-- The held plant report (R15). -/
structure PlantReport where
  power      : Word16
  freq       : Word16
  retransfer : Bool
  arrival    : Time
  deriving DecidableEq, Repr

/-- The transfer supervisor's state; the defaults are the hard reset values (R17). -/
structure Supervisor where
  util        : LineFilter SwitchLevel := {}
  gen         : LineFilter SwitchLevel := {}
  position    : Position := .unknown
  state       : TransferState := .normal
  previous    : TransferState := .normal
  changeTime  : Time := 0
  cause       : Cause := .switchUtility
  remembered  : Option Remembered := none
  warmUp      : Timer := .stopped
  recallLimit : Timer := .stopped
  report      : Option PlantReport := none
  fresh       : Bool := false
  deriving DecidableEq, Repr

/-! ### Car records (02) -/

/-- Line assignment of a record or a schedule entry (R19, R156). -/
inductive Lines where
  | a
  | b
  | both
  deriving DecidableEq, Repr

inductive Zone where
  | zoneOut
  | zoneIn
  deriving DecidableEq, Repr

/-- A travel direction or a run request: NONE, UP or DOWN (R132). -/
inductive Direction where
  | none
  | up
  | down
  deriving DecidableEq, Repr

inductive Motion where
  | stopped
  | moving
  | levelling
  deriving DecidableEq, Repr

inductive Door where
  | opened
  | closed
  | moving
  deriving DecidableEq, Repr

/-- The reported fault set (R132). -/
structure FaultSet where
  safetyOpen : Bool
  driveFault : Bool
  inspection : Bool
  overload   : Bool
  deriving DecidableEq, Repr

/-- The live fields of a record that has been heard (02, car table); a report as the car tracker takes it. -/
structure Live where
  floor     : Nat
  zone      : Zone
  direction : Direction
  motion    : Motion
  door      : Door
  load      : Option Nat
  request   : Direction
  target    : Nat
  pulses    : Word16
  faults    : FaultSet
  deriving DecidableEq, Repr

/-- What the part requires of a car (02). -/
inductive Duty where
  | normal
  | stopped
  | recall
  | parked
  | service
  | isolated
  | lost
  | disabled
  deriving DecidableEq, Repr

/-- The run state (R24). -/
inductive Run where
  | idle
  | queued
  | starting
  | running
  deriving DecidableEq, Repr

/-- The priority class fixed at joining (R64): P0 TRAPPED, P1 RECALL, P2 SERVICE. -/
inductive Priority where
  | trapped
  | recall
  | service
  deriving DecidableEq, Repr

/-- The direction d of a trip (R51). -/
inductive Travel where
  | up
  | down
  deriving DecidableEq, Repr

/-- A set of car figures, and the snapshot written at a grant (R51, R76), in 0.01 kW. -/
structure Figures where
  start : Nat
  mRun  : Nat
  rRun  : Nat
  dir   : Travel
  deriving DecidableEq, Repr

/-- The UNFIT mark with the load value held when it was set, which may be ABSENT (R28). -/
structure UnfitMark where
  load : Option Nat
  deriving DecidableEq, Repr

/-- The health of one line of a car (R151). -/
structure LineHealth where
  faulty : Bool := false
  count  : Nat := 0
  deriving DecidableEq, Repr

/-- A car record without its staged fields (02, car table); the defaults are the hard reset values (R45). -/
structure Car where
  address        : Option Byte := none
  lines          : Lines := .both
  live           : Option Live := none
  reportTime     : Time := 0
  duty           : Duty := .disabled
  prior          : Option Duty := none
  pendingRecall  : Bool := false
  run            : Run := .idle
  priority       : Option Priority := none
  joinSeq        : Option Nat := none
  skipCount      : Nat := 0
  snapshot       : Option Figures := none
  m              : Nat := 0
  r              : Nat := 0
  grantTime      : Time := 0
  arrivalTime    : Time := 0
  moved          : Bool := false
  startTimer     : Timer := .stopped
  tripTimer      : Timer := .stopped
  stagnant       : Nat := 0
  reverse        : Nat := 0
  goodRun        : Nat := 0
  stallCount     : Nat := 0
  missCount      : Nat := 0
  unfit          : Option UnfitMark := none
  shed           : Bool := false
  stalled        : Bool := false
  isolatePending : Bool := false
  disablePending : Bool := false
  order          : Option OrderPayload := none
  lineA          : LineHealth := {}
  lineB          : LineHealth := {}
  deriving DecidableEq, Repr

/-! ### Staged tables -/

/-- The staged fields of a car record (R20). -/
structure CarConfig where
  cls      : Fin 16 := 0
  group    : GroupIdx := 0
  override : Option Nat := none
  deriving DecidableEq, Repr

/-- A class record (03, class table). -/
structure ClassRec where
  a           : Nat := 0
  k           : Nat := 0
  b           : Nat := 45
  acc         : Nat := 0
  minProgress : Nat := 1
  startLimit  : Nat := 30
  tripLimit   : Nat := 600
  deriving DecidableEq, Repr

/-- The plant table (03). -/
structure Plant where
  g             : Nat := 0
  usePct        : Nat := 90
  baseKW        : Nat := 0
  stepPct       : Nat := 25
  revPct        : Nat := 0
  brakeKW       : Nat := 0
  staleKW       : Nat := 0
  fOk           : Nat := 4900
  settleCode    : Nat := 49
  recoveryLimit : Nat := 50
  holdOff       : Nat := 10
  staleLimit    : Nat := 20
  warmUp        : Nat := 10
  recallLimit   : Nat := 0
  maxMoving     : Nat := 1
  skipLimit     : Nat := 3
  stallLimit    : Nat := 3
  utilDepth     : Nat := 5
  genDepth      : Nat := 5
  deriving DecidableEq, Repr

/-- A group record (R89). -/
structure GroupRec where
  recallFloor  : Nat := 0
  maxRunning   : Nat := 1
  serviceCount : Nat := 0
  serviceList  : List CarIdx := []
  deriving DecidableEq, Repr

/-- What an alarm line does while in effect (R108). -/
inductive Action where
  | halt
  | shedRegen
  | shedAll
  | derate
  deriving DecidableEq, Repr

/-- A trip map entry (R108). -/
structure TripEntry where
  enabled : Bool := false
  level   : AlarmLevel := .high
  depth   : Nat := 5
  action  : Action := .halt
  groups  : BitVec 8 := 0
  percent : Nat := 0
  deriving DecidableEq, Repr

/-- What a schedule entry polls (R156): a car on some lines, or the plant node. -/
inductive SlotTarget where
  | car (address : Byte) (lines : Lines)
  | plant
  deriving DecidableEq, Repr

/-- A schedule table entry (R156). -/
structure ScheduleEntry where
  used   : Bool := false
  target : SlotTarget := .car 1 .both
  value  : Nat := 0
  mask   : Nat := 0
  deriving DecidableEq, Repr

/-- One copy of every staged table; the defaults are the hard reset values (R45, R48, R49, R105, R119, R156). -/
structure Tables where
  config      : Vector CarConfig 48 := Vector.replicate 48 {}
  classes     : Vector ClassRec 16 := Vector.replicate 16 {}
  plant       : Plant := {}
  groups      : Vector GroupRec 8 := Vector.replicate 8 {}
  recallOrder : List CarIdx := []
  tripMap     : Vector TripEntry 4 := Vector.replicate 4 {}
  schedule    : Vector ScheduleEntry 64 := Vector.replicate 64 {}
  deriving DecidableEq, Repr

/-! ### Admission unit (04) -/

/-- Where a settle window stands (04, settle window table), when it is not NONE. -/
inductive WindowPhase where
  | settling
  | waiting
  | blind
  deriving DecidableEq, Repr

/-- The settle window and the window car (R76). -/
structure Window where
  phase : WindowPhase
  car   : CarIdx
  deriving DecidableEq, Repr

/-- The admission unit's state; the defaults are the hard reset values (R87). -/
structure Admission where
  joinCounter    : Nat := 0
  sumM           : Nat := 0
  sumR           : Nat := 0
  window         : Option Window := none
  settleDuration : Nat := 1000
  reportMark     : Bool := false
  settle         : Timer := .stopped
  recovery       : Timer := .stopped
  holdOff        : Timer := .stopped
  deriving DecidableEq, Repr

/-! ### Alarm and shed unit (06) -/

/-- The alarm status of one line (R107). -/
structure AlarmStatus where
  asserted   : Bool := false
  inEffect   : Bool := false
  changeTime : Time := 0
  deriving DecidableEq, Repr

/-- The alarm and shed unit's state; the defaults are the hard reset values (R119). -/
structure Alarms where
  filters   : Vector (LineFilter AlarmLevel) 4 := Vector.replicate 4 {}
  status    : Vector AlarmStatus 4 := Vector.replicate 4 {}
  halted    : BitVec 8 := 0
  regenShed : BitVec 8 := 0
  q         : Nat := 0
  deriving DecidableEq, Repr

/-! ### Link ports, link settings and counters (07) -/

/-- A port's receiver (R122); IN FRAME holds the characters received so far. -/
inductive Receiver where
  | betweenFrames
  | inFrame (chars : List Byte)
  | discarding
  deriving DecidableEq, Repr

/-- A frame in a transmit queue. `forSlot` is the model's own mark: it is the frame that opened the slot now open,
so that its last character starts the reply timer (R146). Log entry 23. -/
structure TxFrame where
  chars   : List Byte
  forSlot : Bool := false
  deriving DecidableEq, Repr

/-- A link port (07); the defaults are the hard reset values (R122, R129, R137). -/
structure PortState where
  receiver    : Receiver := .betweenFrames
  queue       : List TxFrame := []
  sending     : Bool := false
  checkErrors : Nat := 0
  overflow    : Nat := 0
  deriving DecidableEq, Repr

/-- The link settings record (07, link settings table). -/
structure LinkSettings where
  partAddress  : Byte := 120
  plantNode    : Byte := 96
  replyLimit   : Nat := 500
  silenceLimit : Nat := 200
  cyclePeriod  : Nat := 50
  lossLimit    : Nat := 8
  lineLimit    : Nat := 16
  deriving DecidableEq, Repr

/-- The three ports, the shared counters and the link settings; the defaults are the hard reset values (R135, R137). -/
structure Link where
  dispatch  : PortState := {}
  carA      : PortState := {}
  carB      : PortState := {}
  malformed : Nat := 0
  strays    : Nat := 0
  dropped   : Nat := 0
  settings  : LinkSettings := {}
  pending   : Option LinkSettings := none
  deriving DecidableEq, Repr

/-! ### Slot records (08, 09) -/

/-- Where an expected line stands in a poll (R146). -/
inductive LineStatus where
  | sending
  | waiting
  | receiving
  | answered
  | silent
  deriving DecidableEq, Repr

/-- An expected line of a slot: its status and its reply timer (R146). -/
structure SlotLine where
  status : LineStatus
  timer  : Timer
  deriving DecidableEq, Repr

/-- What a slot polls (09, master slot record); a slot in relay is always CAR. -/
inductive SlotKind where
  | car
  | plant
  deriving DecidableEq, Repr

/-- A slot record that is not IDLE (R146, R159, R160); an expected line is `some`. `sendBound` is the bound of R159 on
a line that stays SENDING. -/
structure Slot where
  kind       : SlotKind
  answered   : Bool
  address    : Byte
  dispatch   : Option SlotLine
  carA       : Option SlotLine
  carB       : Option SlotLine
  replyLimit : Nat
  held       : Bool
  sendBound  : Timer
  deriving DecidableEq, Repr

/-! ### Link master unit (09) -/

inductive LinkMode where
  | relay
  | master
  | handback
  deriving DecidableEq, Repr

inductive CyclePhase where
  | none
  | slots
  | wait
  deriving DecidableEq, Repr

/-- The link master unit's state; the defaults are the hard reset values (R165). -/
structure Master where
  mode      : LinkMode := .relay
  silent    : Bool := false
  silence   : Timer := .running 200
  nextCycle : Nat := 0
  phase     : CyclePhase := .none
  cycle     : Option Nat := none
  walk      : Option (Fin 64) := none
  period    : Timer := .stopped
  slot      : Option Slot := none
  deriving DecidableEq, Repr

/-! ### Management unit (10) -/

/-- A request waiting in the deferred slot (R171). -/
inductive Deferred where
  | apply
  | startService
  deriving DecidableEq, Repr

/-- The management unit's state; the defaults are the hard reset values (R179). -/
structure Management where
  deferred : Option Deferred := none
  flags    : BitVec 12 := 0
  mask     : BitVec 12 := 0
  locked   : Bool := false
  deriving DecidableEq, Repr

/-! ### The part, and the machine -/

/-- The level on the six discrete inputs, as last driven (00 §1.4). The two `Sampled` marks are the model's own: this
millisecond's sample was given by a command (log entries 5 and 6). -/
structure Pins where
  util          : SwitchLevel := .opened
  gen           : SwitchLevel := .opened
  a1            : AlarmLevel := .low
  a2            : AlarmLevel := .low
  a3            : AlarmLevel := .low
  a4            : AlarmLevel := .low
  switchSampled : Bool := false
  alarmSampled  : Bool := false
  deriving DecidableEq, Repr

/-- Everything the manual gives the part; the defaults are the hard reset values. -/
structure Part where
  now      : Time := 0
  pins     : Pins := {}
  sup      : Supervisor := {}
  cars     : Vector Car 48 := Vector.replicate 48 {}
  standing : Nat := 0
  adm      : Admission := {}
  alarms   : Alarms := {}
  link     : Link := {}
  slot     : Option Slot := none
  master   : Master := {}
  mgmt     : Management := {}
  active   : Tables := {}
  shadow   : Tables := {}
  deriving DecidableEq, Repr

/-- The machine: the part, the commands waiting for it (first in, first out), and the model's own count of the free
choices an idle part has taken (log entry 2). -/
structure State where
  part      : Part := {}
  pending   : List Instr := []
  freeCount : Nat := 0
  deriving DecidableEq, Repr

/-- The machine right after hard reset (R17, R45, R48, R49, R59, R87, R105, R119, R122, R135, R137, R153, R165, R179). -/
def State.reset : State := {}

/-- Why a step stops with a fault. No event of this part stops it (INVENTORY, Faults), so there is no reason and no
meaning raises one. -/
inductive Fault where
  deriving DecidableEq, Repr

/-- Why a step is refused. -/
inductive Refusal where
  /-- Raised by an arm of `exec` whose command has no meaning yet. Safe: the model stops where the part goes on. -/
  | notModelled (mnemonic : String)
  deriving DecidableEq, Repr

end Sys2Proof.Machine
end

