-- ==== Sys2Proof/Machine/Flags.lean ====
section
/-! DEFINITION. The event flags (R174), the two outputs ALERT (R175) and QUIET (R14), and the conditions over a car
record that other rules name: BLOCKED (R27), holding a run, the stop-at-landing condition (R37). -/

namespace Sys2Proof.Machine

/-- The twelve event flags (10, event flag table). -/
inductive Event where
  | transfer
  | recallDone
  | stepFault
  | blindSettle
  | unfit
  | stall
  | lost
  | shed
  | plantStale
  | dispatchSilent
  | lineFault
  | applied
  deriving DecidableEq, Repr

/-- The bit of an event flag (10, event flag table). -/
def eventBit : Event → Nat
  | .transfer => 0
  | .recallDone => 1
  | .stepFault => 2
  | .blindSettle => 3
  | .unfit => 4
  | .stall => 5
  | .lost => 6
  | .shed => 7
  | .plantStale => 8
  | .dispatchSilent => 9
  | .lineFault => 10
  | .applied => 11

/-- An event sets its flag, whatever the notice mask holds (R174). -/
def raiseEvent (e : Event) (p : Part) : Part :=
  { p with mgmt.flags := p.mgmt.flags ||| (1#12 <<< eventBit e) }

/-- Whether an event flag is SET. -/
def Part.flag (p : Part) (e : Event) : Bool := p.mgmt.flags.getLsbD (eventBit e)

/-- The ALERT output (R175): some event flag and its notice mask bit are both set. -/
def Part.alert (p : Part) : Bool := p.mgmt.flags &&& p.mgmt.mask != 0

/-- The indices of the car table, ascending. -/
def allCars : List CarIdx := List.finRange 48

/-- The record of a car. -/
def Part.car (p : Part) (i : CarIdx) : Car := p.cars[i.val]

/-- An enabled record (02). -/
def Car.enabled (c : Car) : Bool := c.duty != .disabled

/-- A record holds a run: STARTING or RUNNING. -/
def Car.holdsRun (c : Car) : Bool := c.run == .starting || c.run == .running

/-- BLOCKED (R27): SAFETY OPEN, DRIVE FAULT or INSPECTION in the latest report; NO while not heard. -/
def Car.blocked (c : Car) : Bool :=
  match c.live with
  | some l => l.faults.safetyOpen || l.faults.driveFault || l.faults.inspection
  | none => false

/-- The stop-at-landing condition (R37). -/
def Car.stopAtLanding (c : Car) : Bool := c.holdsRun && (c.shed || c.stalled || c.isolatePending)

/-- The QUIET output (R14): transfer state RETURN and no record holds a run. -/
def Part.quiet (p : Part) : Bool := p.sup.state == .returning && !allCars.any (fun i => (p.car i).holdsRun)

/-- The held plant report carries retransfer pending set; an absent report has no flag set (R12). -/
def Part.retransferHeld (p : Part) : Bool :=
  match p.sup.report with
  | some r => r.retransfer
  | none => false

/-- The timer is running (00 §1.5). -/
def Timer.isRunning : Timer → Bool
  | .running _ => true
  | _ => false

/-- The step gap is OPEN (R68): no car STARTING, hold-off not running, RECALL or SERVICE, no retransfer pending held. -/
def Part.gapOpen (p : Part) : Bool :=
  !allCars.any (fun i => (p.car i).run == .starting) && !p.adm.holdOff.isRunning
    && (p.sup.state == .recall || p.sup.state == .service) && !p.retransferHeld

end Sys2Proof.Machine
end

