-- ==== Sys2Proof/Machine/Frames.lean ====
section
/-! DEFINITION. Frames on the line: the check (R123), the characters of each kind, reading a kind from
characters, and the tests of judgement 3 to 6 (R124 to R134). -/

namespace Sys2Proof.Machine

/-- The high and low byte of a 16-bit number, most significant first (00 §1.5). -/
def be16 (w : Word16) : List Byte := [w.extractLsb' 8 8, w.extractLsb' 0 8]

/-- A two-byte number read most significant byte first. -/
def word16 (hi lo : Byte) : Word16 := hi ++ lo

/-- One bit of the check (R123): shift, and add the polynomial where the top bit and the message bit differ. -/
def crcBit (reg : Word16) (bit : Bool) : Word16 :=
  if reg.msb != bit then (reg <<< 1) ^^^ 0x1021#16 else reg <<< 1

/-- One character of the check, most significant bit first (R123). -/
def crcByte (reg : Word16) (b : Byte) : Word16 :=
  [7, 6, 5, 4, 3, 2, 1, 0].foldl (fun r k => crcBit r (b.getLsbD k)) reg

/-- The check over kind, address, length and payload; the register starts at all ones (R123). -/
def crc (chars : List Byte) : Word16 := chars.foldl crcByte 0xFFFF#16

/-- The characters of a frame: kind, address, length, payload, check high byte first (07, frame table). -/
def frameChars (kind address : Byte) (payload : List Byte) : List Byte :=
  let body := kind :: address :: BitVec.ofNat 8 payload.length :: payload
  body ++ be16 (crc body)

/-- The payload bytes of a CAR ORDER (07, byte layouts). -/
def orderBytes (o : OrderPayload) : List Byte :=
  [o.mode, o.target, o.door, o.permit] ++ o.priv

/-- The payload bytes of a CAR REPORT (07, byte layouts). -/
def reportBytes (r : ReportPayload) : List Byte :=
  [r.floor, r.status, r.direction, r.motion, r.door, r.load, r.request, r.target]
    ++ be16 r.pulses ++ [r.faults] ++ r.priv

/-- The kind code of a frame (07, byte layouts). -/
def frameKind : Frame → Byte
  | .cycleMark _ => 0x01
  | .carOrder _ _ => 0x10
  | .carReport _ _ => 0x11
  | .plantPoll _ => 0x20
  | .plantReport _ _ _ _ => 0x21
  | .manageRequest _ _ => 0x30

/-- The address character of a frame; a CYCLE MARK carries address 0 (R126). -/
def frameAddress : Frame → Byte
  | .cycleMark _ => 0
  | .carOrder a _ => a
  | .carReport a _ => a
  | .plantPoll a => a
  | .plantReport a _ _ _ => a
  | .manageRequest a _ => a

/-- The payload bytes of a frame (07, byte layouts). -/
def framePayload : Frame → List Byte
  | .cycleMark n => [n]
  | .carOrder _ o => orderBytes o
  | .carReport _ r => reportBytes r
  | .plantPoll _ => []
  | .plantReport _ power freq flags => be16 power ++ be16 freq ++ [flags]
  | .manageRequest _ p => p

/-- The characters of a frame on the line, check included. -/
def wireChars (f : Frame) : List Byte :=
  frameChars (frameKind f) (frameAddress f) (framePayload f)

/-- The frame that a kind, address and payload spell, if the kind is one a port may accept and the length suits
it (R124 tests 2 and 4; R125 refuses a MANAGE REPLY on every port). A CYCLE MARK suits address 0 alone (R126). -/
def parseFrame (kind address : Byte) (payload : List Byte) : Option Frame :=
  if kind = 0x01 then
    match payload with
    | [n] => if address = 0 then some (.cycleMark n) else none
    | _ => none
  else if kind = 0x10 then
    match payload with
    | mode :: target :: door :: permit :: priv => some (.carOrder address ⟨mode, target, door, permit, priv⟩)
    | _ => none
  else if kind = 0x11 then
    match payload with
    | floor :: status :: dir :: motion :: door :: load :: req :: target :: hi :: lo :: faults :: priv =>
      some (.carReport address ⟨floor, status, dir, motion, door, load, req, target, word16 hi lo, faults, priv⟩)
    | _ => none
  else if kind = 0x20 then
    match payload with
    | [] => some (.plantPoll address)
    | _ => none
  else if kind = 0x21 then
    match payload with
    | [p1, p0, f1, f0, flags] => some (.plantReport address (word16 p1 p0) (word16 f1 f0) flags)
    | _ => none
  else if kind = 0x30 then some (.manageRequest address payload)
  else none

/-- An address of a car, 1 to 63 (R126). -/
def isCarAddress (a : Byte) : Bool := 1 ≤ a.toNat && a.toNat ≤ 63

/-- An address of a non-car node, 64 to 126 (R126). -/
def isNodeAddress (a : Byte) : Bool := 64 ≤ a.toNat && a.toNat ≤ 126

/-- Every field of a CAR ORDER holds a value its kind defines (R131). -/
def orderValid (o : OrderPayload) : Bool :=
  o.mode.toNat ≤ 4 && (o.target.toNat ≤ 127 || o.target = 255) && o.door.toNat ≤ 2 && o.permit.toNat ≤ 1
    && o.priv.length ≤ 8

/-- Every field of a CAR REPORT holds a value its kind defines (R132). -/
def reportValid (r : ReportPayload) : Bool :=
  r.floor.toNat ≤ 127 && r.direction.toNat ≤ 2 && r.motion.toNat ≤ 2 && r.door.toNat ≤ 2 && r.request.toNat ≤ 2
    && r.target.toNat ≤ 127 && r.priv.length ≤ 8

/-- The kinds each port accepts (R125). -/
def frameAccepted : Port → Frame → Bool
  | .dispatch, .carReport _ _ => false
  | .dispatch, _ => true
  | _, .carReport _ _ => true
  | _, _ => false

/-- The address suits the kind (R126). -/
def addressSuits : Frame → Bool
  | .cycleMark _ => true
  | .carOrder a _ => isCarAddress a
  | .carReport a _ => isCarAddress a
  | .plantPoll a => isNodeAddress a
  | .plantReport a _ _ _ => isNodeAddress a
  | .manageRequest a _ => isNodeAddress a

/-- The fields hold values the kind defines, and the length suits the kind (R124 tests 4 and 6; R130 to R134). -/
def fieldsValid : Frame → Bool
  | .cycleMark n => n.toNat ≤ 63
  | .carOrder _ o => orderValid o
  | .carReport _ r => reportValid r
  | .plantPoll _ => true
  | .plantReport _ _ _ _ => true
  | .manageRequest _ p => 1 ≤ p.length && p.length ≤ 32

/-- A frame whose check agrees is valid on a port (R124 tests 3 to 6). -/
def frameValid (port : Port) (f : Frame) : Bool :=
  frameAccepted port f && addressSuits f && fieldsValid f

end Sys2Proof.Machine
end

