-- ==== Sys2Proof/Machine/Ops.lean ====
section
/-! DEFINITION. The named operations every meaning is built from: the car table, timers, commitments, the admission
queue, addresses, the ports and their transmit queues. -/

namespace Sys2Proof.Machine

/-- The outcome of a command: the part changes, the queue of commands and the model's counter stay. -/
def completes (f : Part → Part) (s : State) : Host.Outcome State Fault Refusal :=
  .next { s with part := f s.part }

/-! ### Car table -/

def Part.setCar (p : Part) (i : CarIdx) (c : Car) : Part := { p with cars := p.cars.set i.val c }

def Part.modCar (p : Part) (i : CarIdx) (f : Car → Car) : Part := p.setCar i (f (p.car i))

/-- The same change to every record that holds at once (the bulk effects of 01 and 05). -/
def Part.mapCars (p : Part) (f : Car → Car) : Part := { p with cars := p.cars.map f }

/-- The staged fields in force for a record (R20). -/
def Part.config (p : Part) (i : CarIdx) : CarConfig := p.active.config[i.val]

/-- The active group of a record. -/
def Part.group (p : Part) (i : CarIdx) : GroupIdx := (p.config i).group

/-- The active record of a group (R89). -/
def Part.groupRec (p : Part) (g : GroupIdx) : GroupRec := p.active.groups[g.val]

/-- The active class record of a car (R51). -/
def Part.classOf (p : Part) (i : CarIdx) : ClassRec := p.active.classes[(p.config i).cls.val]

/-- The effective recall floor (R20): the override, or the recall floor of the active group. -/
def Part.recallFloor (p : Part) (i : CarIdx) : Nat :=
  match (p.config i).override with
  | some f => f
  | none => (p.groupRec (p.group i)).recallFloor

/-- The enabled record that holds a car address (02). -/
def Part.findEnabled (p : Part) (address : Byte) : Option CarIdx :=
  allCars.find? (fun i => (p.car i).enabled && (p.car i).address == some address)

/-- The age of a recorded time, modulo 2^32 (00 §1.5). -/
def Part.age (p : Part) (t : Time) : Nat := (p.now - t).toNat

/-- A count that saturates. -/
def satInc (top n : Nat) : Nat := if n < top then n + 1 else n

/-! ### Timers -/

/-- A running timer expires; a stopped or expired one does nothing (00 §1.5). -/
def expireTimer : Timer → Timer
  | .running _ => .expired
  | t => t

/-- One millisecond passes on a timer. -/
def tickTimer : Timer → Timer
  | .running n => .running (n - 1)
  | t => t

/-- A running timer whose duration has passed. -/
def timerDue : Timer → Bool
  | .running n => n == 0
  | _ => false

/-! ### Commitments (R85) -/

/-- A car's commitments change together with the sums M and R (R85). -/
def setCommit (i : CarIdx) (m r : Nat) (p : Part) : Part :=
  let c := p.car i
  { p.setCar i { c with m := m, r := r } with
    adm.sumM := p.adm.sumM + m - c.m
    adm.sumR := p.adm.sumR + r - c.r }

/-! ### Admission queue (R62 to R67) -/

/-- Insertion into a list ordered by `before`. -/
def insertCar (before : CarIdx → CarIdx → Bool) (i : CarIdx) : List CarIdx → List CarIdx
  | [] => [i]
  | j :: js => if before j i then j :: insertCar before i js else i :: j :: js

/-- The list in the order of `before`. -/
def sortCars (before : CarIdx → CarIdx → Bool) (l : List CarIdx) : List CarIdx :=
  l.foldr (insertCar before) []

/-- Position in a list counted from 0 at its head. -/
def position (i : CarIdx) : List CarIdx → Option Nat
  | [] => none
  | j :: js => if j = i then some 0 else (position i js).map (· + 1)

/-- The recall rank (R65): the position in the active recall order list, absent cars after all listed ones by index. -/
def Part.recallRank (p : Part) (i : CarIdx) : Nat :=
  match position i p.active.recallOrder with
  | some k => k
  | none => 48 + i.val

/-- The place of a queued car: its class, then its recall rank (P0, P1) or its join sequence (P2) (R65). -/
def Part.queueKey (p : Part) (i : CarIdx) : Nat × Nat :=
  match (p.car i).priority with
  | some .trapped => (0, p.recallRank i)
  | some .recall => (1, p.recallRank i)
  | some .service => (2, ((p.car i).joinSeq).getD 0)
  | none => (3, i.val)

/-- A queued car stands ahead of another (R65). -/
def Part.ahead (p : Part) (i j : CarIdx) : Bool :=
  (p.queueKey i).1 < (p.queueKey j).1
    || ((p.queueKey i).1 == (p.queueKey j).1 && (p.queueKey i).2 < (p.queueKey j).2)

/-- The cars whose run is QUEUED, ascending. -/
def Part.queuedCars (p : Part) : List CarIdx := allCars.filter (fun i => (p.car i).run == .queued)

/-- The admission queue (R62, R65): exactly the QUEUED cars, in order, the head first. -/
def Part.queue (p : Part) : List CarIdx := sortCars p.ahead p.queuedCars

/-- The join counter becomes 0 whenever the queue is empty (R64). -/
def settleJoinCounter (p : Part) : Part :=
  if p.queuedCars.isEmpty then { p with adm.joinCounter := 0 } else p

/-- A car leaves the queue for a cause other than grant (R64, R66): run IDLE, class and sequence none. -/
def leaveQueue (i : CarIdx) (p : Part) : Part :=
  settleJoinCounter (p.modCar i fun c => { c with run := .idle, priority := none, joinSeq := none })

/-- A flush (R67): every QUEUED car leaves, and the join counter becomes 0. -/
def flushQueue (p : Part) : Part :=
  { p.mapCars (fun c => if c.run = .queued then { c with run := .idle, priority := none, joinSeq := none } else c) with
    adm.joinCounter := 0 }

/-! ### Ports and transmit queues (07) -/

def Link.port (l : Link) : Port → PortState
  | .dispatch => l.dispatch
  | .carA => l.carA
  | .carB => l.carB

def Link.setPort (l : Link) (port : Port) (x : PortState) : Link :=
  match port with
  | .dispatch => { l with dispatch := x }
  | .carA => { l with carA := x }
  | .carB => { l with carB := x }

def Part.modPort (p : Part) (port : Port) (f : PortState → PortState) : Part :=
  { p with link := p.link.setPort port (f (p.link.port port)) }

/-- The port's check-error counter increases by 1, saturating (R137). -/
def countCheckError (port : Port) (p : Part) : Part :=
  p.modPort port fun x => { x with checkErrors := satInc 65535 x.checkErrors }

/-- The malformed counter increases by 1, saturating (R137). -/
def countMalformed (p : Part) : Part := { p with link.malformed := satInc 65535 p.link.malformed }

/-- The stray counter increases by 1, saturating (R147). -/
def countStray (p : Part) : Part := { p with link.strays := satInc 65535 p.link.strays }

/-- The dropped-during-handback counter increases by 1, saturating (R163). -/
def countDropped (p : Part) : Part := { p with link.dropped := satInc 65535 p.link.dropped }

/-- The transmit queue of a port has room (R129: at most 4 frames). -/
def Part.hasRoom (p : Part) (port : Port) : Bool := (p.link.port port).queue.length < 4

/-- A frame is handed to a port's transmit queue; a full queue drops it and counts an overflow (R129). -/
def handFrame (port : Port) (f : TxFrame) (p : Part) : Part :=
  p.modPort port fun x =>
    if x.queue.length < 4 then { x with queue := x.queue ++ [f] } else { x with overflow := satInc 65535 x.overflow }

/-- No queued frame belongs to an open slot any more. -/
def unmarkQueues (p : Part) : Part :=
  let clear (x : PortState) : PortState := { x with queue := x.queue.map fun f => { f with forSlot := false } }
  ((p.modPort .dispatch clear).modPort .carA clear).modPort .carB clear

/-- The car ports that a line assignment names (R140). -/
def linePorts : Lines → List Port
  | .a => [.carA]
  | .b => [.carB]
  | .both => [.carA, .carB]

end Sys2Proof.Machine
end

