-- ==== Sys2Proof/Machine/Power.lean ====
section
/-! DEFINITION. The power figure unit (03): car figures, plant limits, the measured check. -/

namespace Sys2Proof.Machine

/-- The figures of a car for a trip (R51 to R54), in 0.01 kW. A known load is clamped at 125; an ABSENT load is charged
at the worst load for the direction. -/
def computeFigures (c : ClassRec) (d : Travel) (load : Option Nat) : Figures :=
  match load with
  | some l =>
    let u : Int := (min l 125 : Nat) - (c.b : Int)
    let duk : Int := (match d with | .up => u | .down => -u) * c.k
    let run : Int := 100 * c.a + duk
    { start := (100 * c.a + c.acc * c.k + max 0 duk).toNat, mRun := run.toNat, rRun := (-run).toNat, dir := d }
  | none =>
    let mRun := match d with | .up => 100 * c.a + (125 - c.b) * c.k | .down => 100 * c.a + c.b * c.k
    let rRun := match d with | .up => c.b * c.k - 100 * c.a | .down => (125 - c.b) * c.k - 100 * c.a
    { start := mRun + c.acc * c.k, mRun := mRun, rRun := rRun, dir := d }

/-- The direction d of a run request (R51); a queued car's request is UP or DOWN (log entry 26). -/
def travelOf : Direction → Travel
  | .up => .up
  | _ => .down

/-- A car's figures from its record as it stands (R51). -/
def Part.figures (p : Part) (i : CarIdx) : Figures :=
  match (p.car i).live with
  | some l => computeFigures (p.classOf i) (travelOf l.request) l.load
  | none => computeFigures (p.classOf i) .down none

/-- Cap (R56), clamped at 0. -/
def Part.cap (p : Part) : Nat := p.active.plant.g * p.active.plant.usePct - 100 * p.active.plant.baseKW

/-- Cap_eff (R57): the derating with its floor, then the stale margin, clamped at 0. -/
def Part.capEff (p : Part) : Nat :=
  let derated := p.cap * (100 - p.alarms.q) / 100
  if p.sup.fresh then derated else derated - 100 * p.active.plant.staleKW

/-- StepMax (R58). -/
def Part.stepMax (p : Part) : Nat := p.active.plant.g * p.active.plant.stepPct

/-- RegenMax (R58). -/
def Part.regenMax (p : Part) : Nat := p.active.plant.g * p.active.plant.revPct + 100 * p.active.plant.brakeKW

/-- P_meas: the output power of the held plant report (R60). -/
def Part.measured (p : Part) : Nat :=
  match p.sup.report with
  | some r => r.power.toNat
  | none => 0

/-- The measured check of R60; not made while freshness is STALE. -/
def Part.measuredCheck (p : Part) (start : Nat) : Bool :=
  !p.sup.fresh || 100 * p.measured + start ≤ p.active.plant.g * p.active.plant.usePct

/-- A figure as reported: kW, rounded up (R61). -/
def kW (figure : Nat) : Nat := (figure + 99) / 100

end Sys2Proof.Machine
end

