-- ==== Sys2Proof/Machine/Alarms.lean ====
section
/-! DEFINITION. The alarm and shed unit (06): shedding, derate shedding, the limit record's standing value, and the
actions in effect. The unit's own command stands in Machine/Samples.lean. -/

namespace Sys2Proof.Machine

/-! ### Shedding -/

/-- A shed (R111): a car that holds a run and carries no mark takes the SHED mark and sets the SHED flag. -/
def shedCar (i : CarIdx) (p : Part) : Part :=
  if (p.car i).holdsRun && !(p.car i).shed then raiseEvent .shed (p.modCar i fun c => { c with shed := true }) else p

/-- Every SERVICE car that holds a run is shed (R12, R102). -/
def shedServiceCars (p : Part) : Part :=
  allCars.foldl (fun p i => if (p.car i).duty = .service then shedCar i p else p) p

/-- The retained motoring figure (R114): M less the commitments of the cars that carry the SHED mark. -/
def Part.retained (p : Part) : Nat :=
  p.adm.sumM - (allCars.map fun i => if (p.car i).shed then (p.car i).m else 0).sum

/-- A candidate of derate shedding (R114). -/
def Part.derateCandidate (p : Part) (i : CarIdx) : Bool :=
  (p.car i).holdsRun && (p.car i).duty != .lost && !(p.car i).shed && 0 < (p.car i).m

/-- The order of candidates (R114): SERVICE before RECALL, the latest grant first, then descending index. -/
def Part.derateBefore (p : Part) (i j : CarIdx) : Bool :=
  let rank (k : CarIdx) : Nat := if (p.car k).duty = .service then 0 else 1
  let age (k : CarIdx) : Nat := p.age (p.car k).grantTime
  rank i < rank j || (rank i == rank j && (age i < age j || (age i == age j && j < i)))

/-- Shed from the head of the list while the retained figure exceeds the limit (R114). -/
def shedWhileAbove (limit : Nat) : List CarIdx → Nat → Part → Part
  | [], _, p => p
  | i :: rest, retained, p =>
    if limit < retained then shedWhileAbove limit rest (retained - (p.car i).m) (shedCar i p) else p

/-- Derate shedding at a fall of Cap_eff (R114). -/
def derateShed (limit : Nat) (p : Part) : Part :=
  shedWhileAbove limit (sortCars p.derateBefore (allCars.filter p.derateCandidate)) p.retained p

/-- The limits are computed afresh and a fall of Cap_eff below its standing value is handed on (R59). -/
def recomputeLimits (p : Part) : Part :=
  let shed := if p.capEff < p.standing then derateShed p.capEff p else p
  { shed with standing := p.capEff }

/-! ### Actions in effect -/

def allLines : List (Fin 4) := List.finRange 4

def Part.tripEntry (p : Part) (k : Fin 4) : TripEntry := p.active.tripMap[k.val]

def Part.alarmStatus (p : Part) (k : Fin 4) : AlarmStatus := p.alarms.status[k.val]

def Part.alarmFilter (p : Part) (k : Fin 4) : LineFilter AlarmLevel := p.alarms.filters[k.val]

/-- The transfer states in which actions apply and runs exist: RECALL, SERVICE, RETURN. -/
def TransferState.onGenerator : TransferState → Bool
  | .recall => true
  | .service => true
  | .returning => true
  | _ => false

/-- A line is asserted while its filtered level equals its active level; UNKNOWN is not asserted (R107). -/
def Part.lineAsserted (p : Part) (k : Fin 4) : Bool :=
  (p.alarmFilter k).level == some (p.tripEntry k).level

/-- A line is in effect while asserted, enabled, and the transfer state is RECALL, SERVICE or RETURN (R107). -/
def Part.lineInEffect (p : Part) (k : Fin 4) : Bool :=
  p.lineAsserted k && (p.tripEntry k).enabled && p.sup.state.onGenerator

/-- One line's status derived afresh; a change captures the millisecond count (R107). -/
def deriveLine (p : Part) (k : Fin 4) : AlarmStatus :=
  let old := p.alarmStatus k
  let asserted := p.lineAsserted k
  let inEffect := p.lineInEffect k
  if old.asserted = asserted ∧ old.inEffect = inEffect then old
  else { asserted := asserted, inEffect := inEffect, changeTime := p.now }

def deriveStatus (p : Part) : Part :=
  { p with alarms.status := #v[deriveLine p 0, deriveLine p 1, deriveLine p 2, deriveLine p 3] }

/-- A line's action is in effect and is the one named. -/
def Part.actionOn (p : Part) (a : Action) (k : Fin 4) : Bool :=
  (p.alarmStatus k).inEffect && (p.tripEntry k).action == a

/-- The groups covered by an action in effect: the union over the lines (R110). -/
def Part.covered (p : Part) (a : Action) : BitVec 8 :=
  allLines.foldl (fun acc k => if p.actionOn a k then acc ||| (p.tripEntry k).groups else acc) 0

/-- The coverage of each group (R110). -/
def deriveCoverage (p : Part) : Part :=
  { p with
    alarms.halted := p.covered .halt ||| p.covered .shedAll
    alarms.regenShed := p.covered .shedRegen }

/-- The derate total (R57, R110), clamped at 100. -/
def Part.derateTotal (p : Part) : Nat :=
  min 100 (allLines.map fun k => if p.actionOn .derate k then (p.tripEntry k).percent else 0).sum

def hasGroup (mask : BitVec 8) (g : GroupIdx) : Bool := mask.getLsbD g.val

/-- A shed sweep (R112), in ascending index. With no SHED ALL or SHED REGEN in effect no group is covered. -/
def shedSweep (p : Part) : Part :=
  let all := p.covered .shedAll
  let regen := p.covered .shedRegen
  allCars.foldl (fun p i =>
    if hasGroup all (p.group i) || (hasGroup regen (p.group i) && 0 < (p.car i).r) then shedCar i p else p) p

/-- The statuses, the coverage, the sweep and then the derate total, in the order of R109. -/
def deriveActions (p : Part) : Part :=
  let swept := shedSweep (deriveCoverage (deriveStatus p))
  { swept with alarms.q := swept.derateTotal }

/-- Actions derived afresh, with the hand-over of a changed q to the power figure unit (R110). -/
def rederiveActions (p : Part) : Part :=
  let derived := deriveActions p
  if derived.alarms.q = p.alarms.q then derived else recomputeLimits derived

/-- Some line that was in effect is no longer (R109). -/
def actionEnded (before after : Part) : Bool :=
  allLines.any fun k => (before.alarmStatus k).inEffect && !(after.alarmStatus k).inEffect

end Sys2Proof.Machine
end

