-- ==== Sys2Proof/Machine/Sequencing.lean ====
section
/-! DEFINITION. The sequencing unit (05) with the moves of the transfer state it causes: the standing test, duty
changes, recall assignment and completion, service selection, the end of recall, and the retransfer check (R12). -/

namespace Sys2Proof.Machine

/-! ### Transfer record -/

/-- A change of transfer state (R4): the record in one step, and the TRANSFER flag. -/
def moveState (new : TransferState) (cause : Cause) (p : Part) : Part :=
  raiseEvent .transfer
    { p with
      sup.previous := p.sup.state
      sup.state := new
      sup.changeTime := p.now
      sup.cause := cause }

/-- The move to RETURN (R12): flush, SERVICE cars with a run shed, recall limit timer stopped. -/
def enterReturn (from_ : Remembered) (p : Part) : Part :=
  let moved := moveState .returning .retransferSet p
  shedServiceCars (flushQueue { moved with sup.remembered := some from_, sup.recallLimit := .stopped })

/-- The retransfer check (R12). -/
def retransferCheck (p : Part) : Part :=
  if p.retransferHeld then
    match p.sup.state with
    | .recall => enterReturn .recall p
    | .service => enterReturn .service p
    | _ => p
  else p

/-! ### Standing test and duty -/

/-- The standing test (05, R21): heard, run IDLE, STOPPED, zone IN, at the effective recall floor. -/
def passesStanding (floor : Nat) (c : Car) : Bool :=
  match c.live with
  | some l => c.run == .idle && l.motion == .stopped && l.zone == .zoneIn && l.floor == floor
  | none => false

/-- The restored duty (R21). -/
def Part.restoredDuty (p : Part) (i : CarIdx) : Duty :=
  match p.sup.state with
  | .normal => .normal
  | .outage => .stopped
  | .standby => .stopped
  | _ => if passesStanding (p.recallFloor i) (p.car i) then .parked else .recall

/-- A direct change of a record's duty; the pending duty becomes NONE (R25). -/
def setDuty (i : CarIdx) (d : Duty) (p : Part) : Part :=
  p.modCar i fun c => { c with duty := d, pendingRecall := false }

/-! ### Service selection (R97 to R99) -/

/-- Counted service cars of a group (R97). -/
def Part.isCounted (p : Part) (g : GroupIdx) (i : CarIdx) : Bool :=
  p.group i == g && (p.car i).duty == .service && !(p.car i).pendingRecall

def Part.counted (p : Part) (g : GroupIdx) : Nat := (allCars.filter (p.isCounted g)).length

/-- A listed record of the group that may be promoted (R97). -/
def Part.isCandidate (p : Part) (g : GroupIdx) (i : CarIdx) : Bool :=
  p.group i == g
    && (((p.car i).duty == .parked && !(p.car i).blocked) || ((p.car i).duty == .service && (p.car i).pendingRecall))

/-- A demotion (R99, R25): at once while the run is IDLE or QUEUED, and PARKED if the standing test then passes;
held as pending duty RECALL while the car holds a run. -/
def demote (i : CarIdx) (p : Part) : Part :=
  if (p.car i).holdsRun then p.modCar i fun c => { c with pendingRecall := true }
  else setDuty i (if passesStanding (p.recallFloor i) (p.car i) then .parked else .recall) p

/-- A promotion (R99, R25): a PARKED candidate takes SERVICE; a pending demotion is cancelled. -/
def promote (i : CarIdx) (p : Part) : Part := setDuty i .service p

/-- Step 1 of R98: every unlisted service car of the group is demoted. -/
def demoteUnlisted (g : GroupIdx) (p : Part) : Part :=
  allCars.foldl (fun p i =>
    if p.group i = g ∧ (p.car i).duty = .service ∧ i ∉ (p.groupRec g).serviceList then demote i p else p) p

/-- Step 2 of R98: while too many are counted, the one standing last in the list is demoted. -/
def demoteExcess (g : GroupIdx) (p : Part) : Part :=
  (p.groupRec g).serviceList.reverse.foldl (fun p i =>
    if (p.groupRec g).serviceCount < p.counted g && p.isCounted g i then demote i p else p) p

/-- Step 3 of R98: while too few are counted, the first candidate in list order is promoted. -/
def promoteCandidates (g : GroupIdx) (p : Part) : Part :=
  (p.groupRec g).serviceList.foldl (fun p i =>
    if p.counted g < (p.groupRec g).serviceCount && p.isCandidate g i then promote i p else p) p

/-- A service selection (R98): the groups in turn. -/
def serviceSelection (p : Part) : Part :=
  (List.finRange 8).foldl (fun p g => promoteCandidates g (demoteExcess g (demoteUnlisted g p))) p

/-! ### The end of recall (R93, R96) -/

/-- Recall is complete (R93): no enabled record has duty RECALL without UNFIT. -/
def Part.recallComplete (p : Part) : Bool :=
  !allCars.any fun i => (p.car i).duty == .recall && (p.car i).unfit.isNone

/-- The recall limit timer is stopped (R9). -/
def stopRecallLimit (p : Part) : Part := { p with sup.recallLimit := .stopped }

/-- The end of recall (R96): RECALL DONE, the move to SERVICE, selection, retransfer check. -/
def endRecall (p : Part) : Part :=
  retransferCheck (serviceSelection (stopRecallLimit (moveState .service .recallDone (raiseEvent .recallDone p))))

/-- An evaluation of recall completion, made in transfer state RECALL alone (R93). -/
def evaluateCompletion (p : Part) : Part :=
  if p.sup.state = .recall ∧ p.recallComplete then endRecall p else p

/-- The duty changes that cause a service selection in SERVICE (R100). -/
def selectionCause (old new : Duty) : Bool :=
  (old == .service && new != .service) || new == .parked || (old == .parked && new == .recall)

/-- A change of duty is handed to the sequencing unit (R93, R100). -/
def handDutyChange (old new : Duty) (p : Part) : Part :=
  match p.sup.state with
  | .recall => evaluateCompletion p
  | .service => if selectionCause old new then serviceSelection p else p
  | _ => p

/-- A record's duty changes and the change is handed on. -/
def changeDuty (i : CarIdx) (d : Duty) (p : Part) : Part :=
  if (p.car i).duty = d then setDuty i d p else handDutyChange (p.car i).duty d (setDuty i d p)

/-! ### Recall assignment (R91) and drift (R92) -/

/-- The duty a record takes at the recall assignment (R91). -/
def assignedDuty (floor : Nat) (c : Car) : Duty :=
  match c.duty with
  | .stopped => if passesStanding floor c then .parked else .recall
  | .parked => if passesStanding floor c then .parked else .recall
  | d => d

/-- The recall assignment (R91), in ascending index; it starts no selection and no evaluation. -/
def recallAssignment (p : Part) : Part :=
  allCars.foldl (fun p i =>
    if (p.car i).duty = .stopped ∨ (p.car i).duty = .parked then setDuty i (assignedDuty (p.recallFloor i) (p.car i)) p
    else p) p

/-- After an APPLY (R101): PARKED records that fail the standing test take RECALL. -/
def retestParked (p : Part) : Part :=
  allCars.foldl (fun p i =>
    if (p.car i).duty = .parked ∧ passesStanding (p.recallFloor i) (p.car i) = false then setDuty i .recall p else p) p

/-- The sequencing unit's work on an APPLY (R101). -/
def sequenceApply (p : Part) : Part :=
  match p.sup.state with
  | .recall => evaluateCompletion (retestParked p)
  | .service => serviceSelection (retestParked p)
  | .returning => retestParked p
  | _ => p

end Sys2Proof.Machine
end

