-- ==== Sys2Proof/Machine/Admission.lean ====
section
/-! DEFINITION. The admission unit (04): joining, the walk, grants, the step gap's opening with the deferred request
(R68, R171), the execution of an APPLY (R172), step completion and the settle window's events. -/

namespace Sys2Proof.Machine

/-! ### Joining (R63, R64) -/

/-- The conditions of joining (R63). -/
def Part.mayJoin (p : Part) (i : CarIdx) : Bool :=
  let c := p.car i
  match c.live with
  | none => false
  | some l =>
    l.request != .none && l.motion == .stopped && (c.duty == .recall || c.duty == .service) && c.run == .idle
      && !c.blocked && c.unfit.isNone && !c.isolatePending && !c.disablePending
      && (p.sup.state == .recall || p.sup.state == .service)

/-- The priority class at joining (R64). -/
def joinClass (c : Car) : Priority :=
  match c.live with
  | some l =>
    if l.zone = .zoneOut then .trapped else if c.duty = .recall then .recall else .service
  | none => .service

/-- The queued cars in the order of their present join sequences (R64). -/
def Part.bySequence (p : Part) : List CarIdx :=
  sortCars (fun i j => ((p.car i).joinSeq).getD 0 < ((p.car j).joinSeq).getD 0) p.queuedCars

/-- Every queued car takes a new join sequence 0, 1, 2, … and the counter the next unused value (R64). -/
def renumber (p : Part) : Part :=
  let order := p.bySequence
  { order.foldl (fun p i => p.modCar i fun c => { c with joinSeq := position i order }) p with
    adm.joinCounter := order.length }

/-- A car joins the queue (R63, R64). -/
def join (i : CarIdx) (p : Part) : Part :=
  let p := if 65535 ≤ p.adm.joinCounter then renumber p else p
  let joined := p.modCar i fun c =>
    { c with run := .queued, priority := some (joinClass c), joinSeq := some p.adm.joinCounter, skipCount := 0 }
  { joined with adm.joinCounter := p.adm.joinCounter + 1 }

/-! ### Grant checks (R72 to R74) -/

/-- The cars that hold a run, in all or of one group (R73). -/
def Part.movingCount (p : Part) : Nat := (allCars.filter fun i => (p.car i).holdsRun).length

def Part.groupCount (p : Part) (g : GroupIdx) : Nat :=
  (allCars.filter fun i => (p.car i).holdsRun && p.group i == g).length

/-- The group, halt and regenerating shed checks (R72), which single-car mode makes too (R77). -/
def Part.groupChecks (p : Part) (i : CarIdx) (f : Figures) : Bool :=
  p.groupCount (p.group i) < (p.groupRec (p.group i)).maxRunning
    && !hasGroup p.alarms.halted (p.group i)
    && (f.rRun == 0 || !hasGroup p.alarms.regenShed (p.group i))

/-- Every grant check of rated mode (R72). -/
def Part.grantChecks (p : Part) (i : CarIdx) (f : Figures) : Bool :=
  decide (p.adm.sumM + f.start ≤ p.capEff) && decide (p.adm.sumR + f.rRun ≤ p.regenMax) && p.measuredCheck f.start
    && decide (p.movingCount < p.active.plant.maxMoving) && p.groupChecks i f

/-! ### Grant (R76, R33, R103) -/

/-- The record of a granted car: the trip record opens (R33) and the snapshot is written (R76). The priority class and the
join sequence stay as the join wrote them (R64; log entry 44). -/
def grantedCar (now : Time) (cls : ClassRec) (f : Figures) (c : Car) : Car :=
  { c with
    run := .starting
    skipCount := 0
    snapshot := some f
    grantTime := now
    moved := false
    stagnant := 0
    reverse := 0
    goodRun := 0
    stalled := false
    startTimer := .running (cls.startLimit * 1000)
    tripTimer := .running (cls.tripLimit * 1000) }

/-- The settle window a grant opens (R76), of the given duration. -/
def openWindow (i : CarIdx) (duration : Nat) (p : Part) : Part :=
  { p with
    adm.window := some ⟨.settling, i⟩
    adm.reportMark := false
    adm.settleDuration := duration
    adm.settle := .running duration }

/-- A SERVICE car granted while the part is link master is shed in the same step (R103). -/
def shedIfMaster (i : CarIdx) (p : Part) : Part :=
  if p.master.mode ≠ .relay ∧ (p.car i).duty = .service then shedCar i p else p

/-- A grant (R76) with the given settle duration. -/
def grant (i : CarIdx) (f : Figures) (duration : Nat) (p : Part) : Part :=
  let run := p.modCar i (grantedCar p.now (p.classOf i) f)
  shedIfMaster i (openWindow i duration (settleJoinCounter (setCommit i f.start f.rRun run)))

/-! ### The walk (R70, R71, R75, R77) -/

/-- UNFIT marking (R71): the car leaves the queue, and the setting is handed to the sequencing unit (R93). -/
def markUnfit (i : CarIdx) (p : Part) : Part :=
  let load := match (p.car i).live with | some l => l.load | none => none
  evaluateCompletion (raiseEvent .unfit ((leaveQueue i p).modCar i fun c => { c with unfit := some ⟨load⟩ }))

/-- A skip (R75). -/
def skipCar (i : CarIdx) (p : Part) : Part := p.modCar i fun c => { c with skipCount := satInc 15 c.skipCount }

/-- The walk in rated mode (R70). A car that has left the queue is dropped from it (R66). -/
def walkRated : List CarIdx → Part → Part
  | [], p => p
  | i :: rest, p =>
    if (p.car i).run ≠ .queued then walkRated rest p
    else if p.stepMax < (p.figures i).start then walkRated rest (markUnfit i p)
    else if p.grantChecks i (p.figures i) then
      grant i (p.figures i) ((p.active.plant.settleCode + 1) * 20) p
    else if p.active.plant.skipLimit ≤ ((skipCar i p).car i).skipCount then skipCar i p
    else walkRated rest (skipCar i p)

/-- The walk in single-car mode (R77), made when no car holds a run. -/
def walkSingle : List CarIdx → Part → Part
  | [], p => p
  | i :: rest, p =>
    if p.groupChecks i (p.figures i) then grant i (p.figures i) 5120 p else walkSingle rest p

/-- An admission attempt (R69): made when the queue is not empty and the step gap is OPEN. -/
def attempt (p : Part) : Part :=
  if p.gapOpen then
    if p.active.plant.g = 0 then (if p.movingCount = 0 then walkSingle p.queue p else p)
    else walkRated p.queue p
  else p

/-! ### Execution of an APPLY (R172) and of the deferred request (R171) -/

/-- The tables an APPLY makes active: all but the plant table and trip map under the site lock (R172). -/
def copyTables (locked : Bool) (to_ from_ : Tables) : Tables :=
  if locked then { from_ with plant := to_.plant, tripMap := to_.tripMap } else from_

/-- A FRESH report older than the active stale limit becomes STALE, with the event (R16). -/
def Part.overAge (p : Part) : Bool :=
  p.sup.fresh &&
    match p.sup.report with
    | some r => p.active.plant.staleLimit * 100 < p.age r.arrival
    | none => false

/-- Freshness becomes STALE and PLANT STALE is set (R16). -/
def becomeStale (p : Part) : Part := raiseEvent .plantStale { p with sup.fresh := false }

/-- Steps 1 to 4 of an APPLY (R172): the tables, UNFIT, APPLIED; then the alarm unit (R118), the limits from all inputs
at once (R59, R16), and the sequencing unit (R101). -/
def executeApply (p : Part) : Part :=
  let copied := { p with active := copyTables p.mgmt.locked p.active p.shadow }
  let applied := raiseEvent .applied (copied.mapCars fun c => { c with unfit := none })
  let alarmed := deriveActions applied
  let aged := if alarmed.overAge then becomeStale alarmed else alarmed
  sequenceApply (recomputeLimits aged)

/-- A START SERVICE executes (R94): it ends recall in RECALL and has no other effect. -/
def executeStartService (p : Part) : Part := if p.sup.state = .recall then endRecall p else p

/-- The request in the deferred slot is executed and the slot becomes EMPTY (R171). -/
def executeDeferred (p : Part) : Part :=
  match p.mgmt.deferred with
  | none => p
  | some .apply => executeApply { p with mgmt.deferred := none }
  | some .startService => executeStartService { p with mgmt.deferred := none }

/-- The step gap has opened: the deferred request first, then one attempt (R68). -/
def gapOpened (p : Part) : Part := attempt (executeDeferred p)

/-- The gap is judged after it was CLOSED: an opening is acted on (R68). -/
def judgeGap (p : Part) : Part := if p.gapOpen then gapOpened p else p

/-! ### Step completion (R83) and the settle window's events -/

/-- The window and its two timers end (R83, R84). -/
def closeWindow (p : Part) : Part :=
  { p with adm.window := none, adm.settle := .stopped, adm.recovery := .stopped }

/-- Step completion (R83) of a STARTING car, before the gap is judged: RUNNING with m its m_run. -/
def completeRun (i : CarIdx) (p : Part) : Part :=
  let c := p.car i
  let mRun := match c.snapshot with | some f => f.mRun | none => c.m
  closeWindow (setCommit i mRun c.r (p.modCar i fun c => { c with run := .running }))

/-- Step completion (R83) with the judgement of the gap. -/
def completeStep (i : CarIdx) (p : Part) : Part := judgeGap (completeRun i p)

/-- The window car's step completes. -/
def completeWindow (p : Part) : Part :=
  match p.adm.window with
  | some w => completeStep w.car p
  | none => p

/-- The held frequency is at least f_ok (R79, R80). -/
def Part.recovered (p : Part) : Bool :=
  match p.sup.report with
  | some r => p.active.plant.fOk ≤ r.freq.toNat
  | none => false

/-- The settle timer expires in SETTLING (R79). -/
def judgeSettle (w : Window) (p : Part) : Part :=
  if p.sup.fresh then
    if p.adm.reportMark && p.recovered then completeStep w.car p
    else
      { p with
        adm.window := some { w with phase := .waiting }
        adm.recovery := .running (p.active.plant.recoveryLimit * 100) }
  else
    raiseEvent .blindSettle
      { p with adm.window := some { w with phase := .blind }, adm.settle := .running p.adm.settleDuration }

/-- The settle timer expires: judged in SETTLING (R79), completion in BLIND (R82). It acts by the window that stands,
whichever of its two rows names the event (log entry 46). -/
def settleExpires (p : Part) : Part :=
  if p.adm.settle.isRunning then
    let expired := { p with adm.settle := .expired }
    match p.adm.window with
    | some w =>
      match w.phase with
      | .settling => judgeSettle w expired
      | .blind => completeStep w.car expired
      | .waiting => expired
    | none => expired
  else p

/-- The hold-off timer starts; a hold-off of 0 expires at once (R81). -/
def startHoldOff (p : Part) : Part :=
  { p with adm.holdOff := if p.active.plant.holdOff = 0 then .expired else .running (p.active.plant.holdOff * 1000) }

/-- The recovery timer expires in WAITING (R81). -/
def recoveryExpires (p : Part) : Part :=
  if p.adm.recovery.isRunning then
    let expired := { p with adm.recovery := .expired }
    match p.adm.window with
    | some w => if w.phase = .waiting then completeStep w.car (startHoldOff (raiseEvent .stepFault expired)) else expired
    | none => expired
  else p

/-- The hold-off timer expires and the gap may open (R68). -/
def holdOffExpires (p : Part) : Part :=
  if p.adm.holdOff.isRunning then judgeGap { p with adm.holdOff := .expired } else p

/-- The admission unit takes the arrival of a plant report (R78, R80). In WAITING and in BLIND the report mark stays as it is
(log entry 45). -/
def admitReport (p : Part) : Part :=
  match p.adm.window with
  | some w =>
    match w.phase with
    | .settling => { p with adm.reportMark := true }
    | .waiting => if p.recovered then completeStep w.car p else p
    | .blind => p
  | none => p

/-! ### The commands of the settle window -/

/-- SETTLE_EXPIRY (R79). -/
def execSettleExpiry (s : State) : Host.Outcome State Fault Refusal := completes settleExpires s

/-- BLIND_EXPIRY (R82): the settle timer's second run. -/
def execBlindExpiry (s : State) : Host.Outcome State Fault Refusal := completes settleExpires s

/-- RECOVERY_EXPIRY (R81). -/
def execRecoveryExpiry (s : State) : Host.Outcome State Fault Refusal := completes recoveryExpires s

/-- HOLD_OFF_EXPIRY (R68). -/
def execHoldOffExpiry (s : State) : Host.Outcome State Fault Refusal := completes holdOffExpires s

end Sys2Proof.Machine
end

