-- ==== Sys2Proof/Machine/Cars.lean ====
section
/-! DEFINITION. The car tracker (02): release and settlement, stalls, loss, report intake, and the timer commands of a
trip. -/

namespace Sys2Proof.Machine

/-! ### Enabling and disabling -/

/-- A record as it is when disabled (R23, R141, R152): identity and staged fields keep their values. -/
def disabledCar (c : Car) : Car := { address := c.address, lines := c.lines }

/-- A record as it is when enabled with a duty (R22). -/
def enabledCar (d : Duty) (c : Car) : Car := { disabledCar c with duty := d }

/-- A record is disabled (R23); its commitments are 0 at this moment, and leave the sums if they are not. -/
def disableRecord (i : CarIdx) (p : Part) : Part := (setCommit i 0 0 p).modCar i disabledCar

/-! ### Release (R38) and settlement (R39) -/

/-- The duty that the settlement gives (R39): the flags and the stall count as they were when the release began, the pending
duty as the settlement finds it (log entry 43); none is "disabled". -/
def settledDuty (c : Car) (held : Duty) : Option Duty :=
  if c.disablePending then none
  else if c.isolatePending || decide (2 ≤ c.stallCount) then some .isolated
  else if c.pendingRecall then some .recall
  else some held

/-- The settlement of R39: the duty, or the prior duty of a LOST record; the pending duty becomes NONE. -/
def settleDuty (before : Car) (i : CarIdx) (p : Part) : Part :=
  let c := p.car i
  let held := if c.duty = .lost then c.prior.getD .stopped else c.duty
  match settledDuty before held with
  | none => disableRecord i p
  | some d =>
    if c.duty = .lost then p.modCar i fun c => { c with prior := c.prior.map fun _ => d, pendingRecall := false }
    else setDuty i d p

/-- What a release does to the record itself (R38), commitments apart. The priority class and the join sequence of the last
join stay (log entry 44). -/
def releasedCar (c : Car) : Car :=
  { c with
    run := .idle
    snapshot := none
    shed := false
    stalled := false
    isolatePending := false
    startTimer := .stopped
    tripTimer := .stopped
    stagnant := 0
    reverse := 0
    goodRun := 0 }

/-- The window ends when its car is released (R84). -/
def endWindowOf (i : CarIdx) (p : Part) : Part :=
  match p.adm.window with
  | some w => if w.car = i then closeWindow p else p
  | none => p

/-- A release before the admission unit looks for an attempt: record, sums and window (R38, R84, R85). -/
def releaseRun (i : CarIdx) (p : Part) : Part :=
  endWindowOf i ((setCommit i 0 0 p).modCar i releasedCar)

/-- The attempt a release causes: one, whether it also opened the gap or not (R68, R69). -/
def afterRelease (wasOpen : Bool) (p : Part) : Part := if wasOpen then attempt p else judgeGap p

/-- The settlement is handed to the sequencing unit as a change of duty, where there is one (R39). -/
def handSettlement (i : CarIdx) (before : Duty) (p : Part) : Part :=
  if (p.car i).duty = before then p else handDutyChange before (p.car i).duty p

/-- A release (R38) followed by the settlement (R39). The settlement reads the pending duty that stands when it is made, so
an APPLY executed at the gap opening of this release acts on it first (log entries 12 and 43). -/
def release (i : CarIdx) (p : Part) : Part :=
  let before := p.car i
  let freed := afterRelease p.gapOpen (releaseRun i p)
  handSettlement i (freed.car i).duty (settleDuty { before with pendingRecall := (freed.car i).pendingRecall } i freed)

/-! ### Stall (R36, R37) -/

/-- A car stalls (R37): the flag, STALLED, the stall count; a STARTING car's step completes at once. -/
def stall (i : CarIdx) (p : Part) : Part :=
  let marked := raiseEvent .stall (p.modCar i fun c => { c with stalled := true, stallCount := satInc 255 c.stallCount })
  if (p.car i).run = .starting then completeStep i marked else marked

/-- The start timer expires (R36). -/
def startTimerExpires (i : CarIdx) (p : Part) : Part :=
  if (p.car i).startTimer.isRunning then
    let expired := p.modCar i fun c => { c with startTimer := .expired }
    if (p.car i).holdsRun && !(p.car i).stalled then stall i expired else expired
  else p

/-- The trip timer expires (R36, R31). -/
def tripTimerExpires (i : CarIdx) (p : Part) : Part :=
  if (p.car i).tripTimer.isRunning then
    let expired := p.modCar i fun c => { c with tripTimer := .expired }
    if (p.car i).holdsRun then
      if (p.car i).duty = .lost then release i expired
      else if (p.car i).stalled then expired
      else stall i expired
    else expired
  else p

/-! ### Loss (R30, R31) -/

/-- The record becomes LOST (R30), the duty change is handed on, and the run state decides the rest. -/
def becomeLost (i : CarIdx) (p : Part) : Part :=
  let old := (p.car i).duty
  let lost := raiseEvent .lost (p.modCar i fun c => { c with prior := some c.duty, duty := .lost })
  let handed := handDutyChange old .lost lost
  if (handed.car i).run = .queued then leaveQueue i handed
  else if (handed.car i).holdsRun ∧ (handed.car i).tripTimer = .expired then release i handed
  else handed

/-- A miss of an enabled record (R30): the count, and loss at the loss limit. -/
def countMiss (i : CarIdx) (p : Part) : Part :=
  let counted := p.modCar i fun c => { c with missCount := satInc 255 c.missCount }
  if p.link.settings.lossLimit ≤ (counted.car i).missCount ∧ (p.car i).duty ≠ .lost then becomeLost i counted
  else counted

/-! ### Report intake (R26) -/

/-- Steps 1 to 3 of R26: the miss count, the live fields, BLOCKED (derived) and the UNFIT check (R28). -/
def takeLive (now : Time) (l : Live) (c : Car) : Car :=
  { c with
    missCount := 0
    live := some l
    reportTime := now
    unfit := match c.unfit with
      | some mark => if mark.load = l.load then some mark else none
      | none => none }

/-- The progress (R34): the difference modulo 65536 read as signed. -/
def progressOf (baseline pulses : Word16) : Int := (pulses - baseline).toInt

/-- The progress has the sign of the granted direction (R34). -/
def forward (d : Travel) (progress : Int) : Bool :=
  match d with
  | .up => decide (0 < progress)
  | .down => decide (progress < 0)

/-- The progress is non-zero with the sign opposite to the granted direction (R34). -/
def backward (d : Travel) (progress : Int) : Bool :=
  match d with
  | .up => decide (progress < 0)
  | .down => decide (0 < progress)

/-- The counts of R35 after a report in motion with this progress. -/
def countProgress (minProgress : Nat) (d : Travel) (progress : Int) (c : Car) : Car :=
  let stagnant := decide (progress.natAbs < minProgress)
  let reversed := backward d progress
  if !stagnant && forward d progress then
    let good := min 2 (c.goodRun + 1)
    if good = 2 then { c with goodRun := good, stagnant := 0, reverse := 0 } else { c with goodRun := good }
  else
    { c with
      stagnant := if stagnant then satInc 15 c.stagnant else c.stagnant
      reverse := if reversed then satInc 15 c.reverse else c.reverse
      goodRun := if stagnant || reversed then 0 else c.goodRun }

/-- The first motion since the grant sets moved and stops the start timer (R35). -/
def noteMotion (c : Car) : Car :=
  if c.moved then c else { c with moved := true, startTimer := .stopped }

/-- The granted direction of a trip (R33): the snapshot's. -/
def grantedTravel (c : Car) : Travel :=
  match c.snapshot with
  | some f => f.dir
  | none => .up

/-- The counts of R35 after a report that is not a baseline report: a STOPPED one leaves them. -/
def countReport (i : CarIdx) (baseline : Word16) (l : Live) (p : Part) : Part :=
  if l.motion = .stopped then p
  else p.modCar i fun c =>
    countProgress (p.classOf i).minProgress (grantedTravel c) (progressOf baseline l.pulses) c

/-- Progress and stall counting (R34, R35) of a report that is not a baseline report: the update, and then, whatever its
motion, the test against the stall limit in force at this report. -/
def evaluateProgress (i : CarIdx) (baseline : Word16) (l : Live) (p : Part) : Part :=
  if (p.car i).stalled then p
  else
    let counted := countReport i baseline l p
    let c := counted.car i
    if p.active.plant.stallLimit ≤ c.stagnant ∨ p.active.plant.stallLimit ≤ c.reverse then stall i counted else counted

/-- An arrival parks a RECALL car that stands in zone at its recall floor (R40). -/
def parkOnArrival (i : CarIdx) (l : Live) (p : Part) : Part :=
  if (p.car i).duty = .recall ∧ l.zone = .zoneIn ∧ l.floor = p.recallFloor i then changeDuty i .parked p else p

/-- An arrival (R40). -/
def arrive (i : CarIdx) (l : Live) (p : Part) : Part :=
  parkOnArrival i l (release i (p.modCar i fun c => { c with arrivalTime := p.now }))

/-- The end of a trip by a STOPPED report: arrival (R40), or withdrawal and stop before motion (R41). -/
def endTrip (i : CarIdx) (l : Live) (p : Part) : Part :=
  if (p.car i).moved then arrive i l p
  else if l.request = .none ∨ (p.car i).stopAtLanding then release i p
  else p

/-- A report in motion is noted (R35), and one that is not a baseline report is counted. -/
def countTrip (i : CarIdx) (baseline : Option Word16) (l : Live) (p : Part) : Part :=
  let noted := if l.motion = .stopped then p else p.modCar i noteMotion
  match baseline with
  | some b => evaluateProgress i b l noted
  | none => noted

/-- Step 4 of R26: while the car holds a run, progress and stall counting, and then the ending of the trip. -/
def evaluateTrip (i : CarIdx) (baseline : Option Word16) (l : Live) (p : Part) : Part :=
  if (p.car i).holdsRun then
    let counted := countTrip i baseline l p
    if l.motion = .stopped then endTrip i l counted else counted
  else p

/-- The end of a loss (R32). -/
def endLoss (i : CarIdx) (p : Part) : Part :=
  let d := if (p.car i).prior = some .isolated then .isolated else p.restoredDuty i
  changeDuty i d (p.modCar i fun c => { c with prior := none })

/-- The first-hearing check (R29). -/
def firstHearing (i : CarIdx) (p : Part) : Part :=
  if p.sup.state.onGenerator ∧ (p.car i).duty = .recall ∧ passesStanding (p.recallFloor i) (p.car i) then
    changeDuty i .parked p
  else p

/-- Step 6 of R26: the record is handed to the admission unit, which removes it from the queue or evaluates joining;
a join causes an attempt (R63, R66, R69). -/
def handToAdmission (i : CarIdx) (l : Live) (p : Part) : Part :=
  let left := if (p.car i).run = .queued ∧ (l.request = .none ∨ (p.car i).blocked) then leaveQueue i p else p
  if left.mayJoin i then attempt (join i left) else left

/-- After the last step of R26, for a PARKED record: the drift check (R92), and the selection when the report has ended
BLOCKED (R100). -/
def afterIntake (i : CarIdx) (wasBlocked : Bool) (p : Part) : Part :=
  if (p.car i).duty = .parked then
    if p.sup.state.onGenerator && !passesStanding (p.recallFloor i) (p.car i) then changeDuty i .recall p
    else if p.sup.state = .service ∧ wasBlocked ∧ (p.car i).blocked = false then serviceSelection p
    else p
  else p

/-- The baseline for progress (R26): the pulse count held before the report; none for a baseline report, which is the first
report heard or one taken for a LOST record. -/
def baselineOf (old : Car) : Option Word16 :=
  match old.live with
  | some held => if old.duty = .lost then none else some held.pulses
  | none => none

/-- Step 5 of R26: the end of a loss, or the first-hearing check. -/
def endLossOrHear (first : Bool) (i : CarIdx) (p : Part) : Part :=
  if (p.car i).duty = .lost then endLoss i p else if first then firstHearing i p else p

/-- Report intake (R26) for the record of a car. -/
def intake (i : CarIdx) (l : Live) (p : Part) : Part :=
  let old := p.car i
  let evaluated := evaluateTrip i (baselineOf old) l (p.modCar i (takeLive p.now l))
  afterIntake i old.blocked (handToAdmission i l (endLossOrHear old.live.isNone i evaluated))

/-- The tracker takes a report for the enabled record that holds its address, if any (R26). -/
def takeReport (address : Byte) (l : Live) (p : Part) : Part :=
  match p.findEnabled address with
  | some i => intake i l p
  | none => p

/-! ### The commands of a trip's timers -/

/-- START_TIMER_EXPIRY (R36). -/
def execStartTimerExpiry (car : CarIdx) (s : State) : Host.Outcome State Fault Refusal :=
  completes (startTimerExpires car) s

/-- TRIP_TIMER_EXPIRY (R36, R31). -/
def execTripTimerExpiry (car : CarIdx) (s : State) : Host.Outcome State Fault Refusal :=
  completes (tripTimerExpires car) s

end Sys2Proof.Machine
end

