-- ==== Sys2Proof/Machine/Transfer.lean ====
section
/-! DEFINITION. The transfer supervisor (01): the bulk effects, the entries to each state, the reaction to a change of
switch position, and the taking of a plant report. -/

namespace Sys2Proof.Machine

/-! ### Bulk effects on the car table -/

/-- A duty that a bulk effect replaces: every listed duty takes the new one, and so does the prior duty of a LOST record
that `hit` names (R5, R6, R10). -/
def bulkDuty (hit : Duty → Bool) (lostHit : Duty → Bool) (d : Duty) (c : Car) : Car :=
  if c.duty = .lost then
    match c.prior with
    | some prior => if lostHit prior then { c with prior := some d } else c
    | none => c
  else if hit c.duty then { c with duty := d, pendingRecall := false }
  else c

/-- A LOST record's prior duty that the stopping and restoring effects replace: any but ISOLATED (R5, R6). -/
def notIsolated : Duty → Bool
  | .isolated => false
  | _ => true

/-- The stopping effect (R5). -/
def stoppingEffect (p : Part) : Part :=
  p.mapCars (bulkDuty (fun d => match d with
    | .normal | .stopped | .recall | .parked | .service => true
    | _ => false) notIsolated .stopped)

/-- The restoring effect (R6). -/
def restoringEffect (p : Part) : Part :=
  p.mapCars (bulkDuty (fun d => match d with
    | .stopped | .recall | .parked | .service => true
    | _ => false) notIsolated .normal)

/-- The breaker-open duty effect (R10). -/
def breakerEffect (p : Part) : Part :=
  let hit : Duty → Bool := fun d => match d with
    | .recall | .service => true
    | _ => false
  p.mapCars (bulkDuty hit hit .stopped)

/-- One record of the bulk release: released and settled (R10, R38, R39). -/
def bulkReleaseCar (i : CarIdx) (p : Part) : Part :=
  if (p.car i).holdsRun then settleDuty (p.car i) i (releaseRun i p) else p

/-- The bulk release (R10): flush, every run released, all commitments and sums 0, the admission timers stopped. -/
def bulkRelease (p : Part) : Part :=
  let released := allCars.foldl (fun p i => bulkReleaseCar i p) (flushQueue p)
  { (closeWindow released).mapCars (fun c => { c with m := 0, r := 0 }) with
    adm.sumM := 0
    adm.sumR := 0
    adm.holdOff := .stopped }

/-! ### Entries -/

/-- What leaving a state for OUTAGE or NORMAL stops: the warm-up timer on leaving STANDBY (R7); on leaving RECALL, SERVICE
or RETURN both timers, and the remembered state becomes NONE (R10, R11). -/
def stopTransferTimers (left : TransferState) (p : Part) : Part :=
  match left with
  | .standby => { p with sup.warmUp := .stopped }
  | .normal => p
  | .outage => p
  | _ => { p with sup.warmUp := .stopped, sup.recallLimit := .stopped, sup.remembered := none }

/-- On every entry to RECALL the recall limit timer starts; a limit of 0 leaves it stopped (R9). -/
def startRecallLimit (p : Part) : Part :=
  { p with sup.recallLimit :=
      if p.active.plant.recallLimit = 0 then .stopped else .running (p.active.plant.recallLimit * 1000) }

/-- An entry to RECALL (R8, R9, R13): timer, actions (from STANDBY alone, R109), assignment and completion, the gap's
opening, the retransfer check. -/
def enterRecall (cause : Cause) (p : Part) : Part :=
  let entered := startRecallLimit (moveState .recall cause p)
  let acting := if p.sup.state = .standby then rederiveActions entered else entered
  retransferCheck (judgeGap (evaluateCompletion (recallAssignment acting)))

/-- The return to SERVICE (R13): selection, the gap's opening, the retransfer check. -/
def reenterService (p : Part) : Part :=
  retransferCheck (judgeGap (serviceSelection (moveState .service .retransferClear p)))

/-- The warm-up timer expires: in STANDBY the state moves to RECALL (R8). -/
def warmUpExpires (p : Part) : Part :=
  if p.sup.warmUp.isRunning then
    let expired := { p with sup.warmUp := .expired }
    if p.sup.state = .standby then enterRecall .warmUp expired else expired
  else p

/-- An entry to STANDBY (R7); a warm-up of 0 expires on entry. -/
def enterStandby (p : Part) : Part :=
  let entered := moveState .standby .switchGenerator p
  let started := { entered with sup.warmUp := .running (p.active.plant.warmUp * 1000) }
  if p.active.plant.warmUp = 0 then warmUpExpires started else started

/-- The recall limit timer expires: in RECALL recall ends with cause LIMIT (R95). -/
def recallLimitExpires (p : Part) : Part :=
  if p.sup.recallLimit.isRunning then
    let expired := { p with sup.recallLimit := .expired }
    if p.sup.state = .recall then endRecall expired else expired
  else p

/-- The move to OUTAGE from NORMAL (R5), STANDBY (R7) or a generator breaker open (R10), each with what it does to the
cars; then the deferred request (R171). -/
def enterOutage (cause : Cause) (p : Part) : Part :=
  let left := stopTransferTimers p.sup.state (moveState .outage cause p)
  executeDeferred (match p.sup.state with
    | .normal => stoppingEffect left
    | .recall => rederiveActions (breakerEffect (bulkRelease left))
    | .service => rederiveActions (breakerEffect (bulkRelease left))
    | .returning => rederiveActions (breakerEffect (bulkRelease left))
    | _ => left)

/-- The move to NORMAL from OUTAGE or STANDBY (R6, R7) or by a closed transition (R11); then the deferred request
(R171). -/
def enterNormal (p : Part) : Part :=
  let left := stopTransferTimers p.sup.state (moveState .normal .switchUtility p)
  executeDeferred (match p.sup.state with
    | .recall => rederiveActions (restoringEffect (bulkRelease left))
    | .service => rederiveActions (restoringEffect (bulkRelease left))
    | .returning => rederiveActions (restoringEffect (bulkRelease left))
    | _ => restoringEffect left)

/-! ### Switch position (R3) -/

/-- The position derived from the two filtered levels (R3). -/
def positionOf : Option SwitchLevel → Option SwitchLevel → Position
  | some .closed, some .opened => .utility
  | some .opened, some .closed => .generator
  | some .opened, some .opened => .opened
  | some .closed, some .closed => .invalid
  | _, _ => .unknown

/-- The transfer state reacts to a position OPEN or INVALID (R5, R7, R10). -/
def reactOpen (cause : Cause) (p : Part) : Part :=
  match p.sup.state with
  | .outage => p
  | _ => enterOutage cause p

/-- The transfer state reacts to a position GENERATOR (R5, R6). -/
def reactGenerator (p : Part) : Part :=
  match p.sup.state with
  | .normal => enterStandby (stoppingEffect p)
  | .outage => enterStandby p
  | _ => p

/-- The transfer state reacts to a position UTILITY (R5, R6, R7, R11). -/
def reactUtility (p : Part) : Part :=
  match p.sup.state with
  | .normal => p
  | _ => enterNormal p

/-- Each time the position becomes INVALID the last cause is SWITCH INVALID and the TRANSFER flag is set (R3). -/
def noteInvalid (p : Part) : Part := raiseEvent .transfer { p with sup.cause := .switchInvalid }

/-- A change between OPEN and INVALID is no change of position for the transfer state (R3). -/
def openLike : Position → Bool
  | .opened => true
  | .invalid => true
  | _ => false

/-- The position takes a newly derived value, and the transfer state reacts to a change (R3). -/
def takePosition (new : Position) (p : Part) : Part :=
  let taken := { p with sup.position := new }
  if p.sup.position = new then p
  else match new with
    | .unknown => taken
    | .utility => reactUtility taken
    | .generator => reactGenerator taken
    | .opened => if openLike p.sup.position then taken else reactOpen .switchOpen taken
    | .invalid => noteInvalid (if openLike p.sup.position then taken else reactOpen .switchInvalid taken)

/-- One sample of a filtered line (R1, R2). -/
def filterSample {α : Type} [DecidableEq α] (depth : Nat) (x : α) (f : LineFilter α) : LineFilter α :=
  match f.level with
  | some level =>
    if x = level then { f with count := 0 }
    else if depth ≤ f.count + 1 then { f with level := some x, count := 0 }
    else { f with count := f.count + 1 }
  | none =>
    let count := if f.candidate = some x then f.count + 1 else 1
    if depth ≤ count then { level := some x, candidate := none, count := 0 }
    else { f with candidate := some x, count := count }

/-- One sample of both switch lines, and the position derived from them (R1, R2, R3). -/
def sampleSwitch (util gen : SwitchLevel) (p : Part) : Part :=
  let sampled := { p with
    sup.util := filterSample p.active.plant.utilDepth util p.sup.util
    sup.gen := filterSample p.active.plant.genDepth gen p.sup.gen }
  takePosition (positionOf sampled.sup.util.level sampled.sup.gen.level) sampled

/-- One sample of the four alarm lines; a change of a filtered level derives the actions afresh, and the end of an action
is a cause of an attempt (R106, R107, R109, R116). -/
def sampleAlarms (a1 a2 a3 a4 : AlarmLevel) (p : Part) : Part :=
  let next (k : Fin 4) (x : AlarmLevel) := filterSample (p.tripEntry k).depth x (p.alarmFilter k)
  let sampled := { p with alarms.filters := #v[next 0 a1, next 1 a2, next 2 a3, next 3 a4] }
  if allLines.all fun k => (sampled.alarmFilter k).level == (p.alarmFilter k).level then sampled
  else
    let derived := rederiveActions sampled
    if actionEnded sampled derived then attempt derived else derived

/-! ### Plant reports (R15) -/

/-- In RETURN, a report with the flag clear moves the state to the remembered state (R13). -/
def leaveReturn (p : Part) : Part :=
  match p.sup.remembered with
  | some .recall => enterRecall .retransferClear { p with sup.remembered := none }
  | some .service => reenterService { p with sup.remembered := none }
  | none => p

/-- The taking of a plant report (R15): held and FRESH, the limits when it was STALE (R59); then the retransfer check or the move of R13; then the
admission unit (R78, R80). -/
def takePlantReport (power freq : Word16) (retransfer : Bool) (p : Part) : Part :=
  let taken := { p with
    sup.report := some ⟨power, freq, retransfer, p.now⟩
    sup.fresh := true }
  let held := if p.sup.fresh then taken else recomputeLimits taken
  let moved := if held.sup.state = .returning ∧ retransfer = false then leaveReturn held else retransferCheck held
  admitReport moved

/-- The held report is judged too old (R16): STALE, the event, and the limits (R59). -/
def reportStale (p : Part) : Part := if p.sup.fresh then recomputeLimits (becomeStale p) else p

/-! ### The supervisor's timer commands -/

/-- WARM_UP_EXPIRY (R8). -/
def execWarmUpExpiry (s : State) : Host.Outcome State Fault Refusal := completes warmUpExpires s

/-- RECALL_LIMIT_EXPIRY (R95). -/
def execRecallLimitExpiry (s : State) : Host.Outcome State Fault Refusal := completes recallLimitExpires s

/-- PLANT_REPORT_STALE (R16). -/
def execPlantReportStale (s : State) : Host.Outcome State Fault Refusal := completes reportStale s

end Sys2Proof.Machine
end

