-- ==== Sys2Proof/Machine/Orders.lean ====
section
/-! DEFINITION. The issued order (R142 to R145) and the car report's fields as held (R132). -/

namespace Sys2Proof.Machine

/-- A direction code (07, byte layouts). -/
def directionOf (b : Byte) : Direction :=
  if b = 1 then .up else if b = 2 then .down else .none

def motionOf (b : Byte) : Motion :=
  if b = 1 then .moving else if b = 2 then .levelling else .stopped

def doorOf (b : Byte) : Door :=
  if b = 1 then .closed else if b = 2 then .moving else .opened

/-- A load byte as held (R132): 0..150 as it stands, 151..254 as 150, 255 ABSENT. -/
def loadOf (b : Byte) : Option Nat := if b = 255 then none else some (min b.toNat 150)

def faultsOf (b : Byte) : FaultSet := ⟨b.getLsbD 0, b.getLsbD 1, b.getLsbD 2, b.getLsbD 3⟩

/-- A valid CAR REPORT as the part holds it (R132); bits the layout does not name are ignored. -/
def reportLive (r : ReportPayload) : Live where
  floor := r.floor.toNat
  zone := if r.status.getLsbD 0 then .zoneIn else .zoneOut
  direction := directionOf r.direction
  motion := motionOf r.motion
  door := doorOf r.door
  load := loadOf r.load
  request := directionOf r.request
  target := r.target.toNat
  pulses := r.pulses
  faults := faultsOf r.faults

/-- The modes of a CAR ORDER (R131). -/
inductive Mode where
  | auto
  | recall
  | park
  | halt
  | stopAtLanding
  deriving DecidableEq, Repr

def modeCode : Mode → Byte
  | .auto => 0
  | .recall => 1
  | .park => 2
  | .halt => 3
  | .stopAtLanding => 4

/-- The door orders of a CAR ORDER (R131). -/
inductive DoorOrder where
  | none
  | opening
  | closing
  deriving DecidableEq, Repr

def doorCode : DoorOrder → Byte
  | .none => 0
  | .opening => 1
  | .closing => 2

/-- The run permit byte: 1 GRANTED, 0 WITHHELD. -/
def permitCode (granted : Bool) : Byte := if granted then 1 else 0

/-- A target floor; NONE is 255. -/
def targetCode : Option Nat → Byte
  | some f => BitVec.ofNat 8 f
  | none => 255

/-- The private bytes an OWN order carries (R145): the stored order's, or none. -/
def storedPrivate : Option Car → List Byte
  | some c => match c.order with | some o => o.priv | none => []
  | none => []

/-- An OWN order (R145). -/
def ownOrder (rec_ : Option Car) (mode : Mode) (target : Option Nat) (door : DoorOrder) (granted : Bool) : OrderPayload :=
  ⟨modeCode mode, targetCode target, doorCode door, permitCode granted, storedPrivate rec_⟩

/-- OWN: HALT, no target, door NONE, WITHHELD. -/
def ownHalt (rec_ : Option Car) : OrderPayload := ownOrder rec_ .halt none .none false

/-- The effective duty (R143): the prior duty while LOST. -/
def effectiveDuty (c : Car) : Duty := if c.duty = .lost then c.prior.getD .stopped else c.duty

/-- The latest report shows zone IN (R143). -/
def inZone (c : Car) : Bool :=
  match c.live with
  | some l => l.zone == .zoneIn
  | none => false

/-- The order of an enabled record outside NORMAL, with whether it is held (R143, R145). -/
def Part.recordOrder (p : Part) (i : CarIdx) : OrderPayload × Bool :=
  let c := p.car i
  let own := ownOrder (some c)
  if c.stopAtLanding then (own .stopAtLanding none .none true, true)
  else match effectiveDuty c with
    | .service =>
      if p.master.mode = .relay then
        match c.order with
        | some o => ({ o with permit := permitCode c.holdsRun }, false)
        | none => (own .halt none .none c.holdsRun, true)
      else (own .halt none (if inZone c then .opening else .none) c.holdsRun, true)
    | .recall => (own .recall (some (p.recallFloor i)) .closing c.holdsRun, true)
    | .parked => (own .park (some (p.recallFloor i)) .opening false, true)
    | _ => (own .halt none .none false, true)

/-- The issued order for an address (R142, R143), with whether it is held (R145). `received` is the CAR ORDER just
received in RELAY; there is none when the part is master. -/
def Part.issuedOrder (p : Part) (address : Byte) (received : Option OrderPayload) : OrderPayload × Bool :=
  if p.sup.state = .normal then
    match received with
    | some o => (o, false)
    | none =>
      match p.findEnabled address with
      | some i =>
        match (p.car i).order with
        | some o => (o, false)
        | none => (ownHalt none, true)
      | none => (ownHalt none, true)
  else
    match p.findEnabled address with
    | some i => p.recordOrder i
    | none =>
      match received with
      | some o => ({ o with permit := permitCode false }, true)
      | none => (ownHalt none, true)

end Sys2Proof.Machine
end

