-- ==== Sys2Proof/Machine/Slots.lean ====
section
/-! DEFINITION. Slots (R146 to R151, R159, R160), the master cycle (R157, R158), takeover (R155) and the completion of a
handback (R164); and the commands of the slot and cycle timers. -/

namespace Sys2Proof.Machine

/-! ### The lines of a slot -/

def slotLine (sl : Slot) : Port → Option SlotLine
  | .dispatch => sl.dispatch
  | .carA => sl.carA
  | .carB => sl.carB

def setSlotLine (sl : Slot) (port : Port) (x : SlotLine) : Slot :=
  match port with
  | .dispatch => { sl with dispatch := some x }
  | .carA => { sl with carA := some x }
  | .carB => { sl with carB := some x }

/-- The expected lines of a slot. -/
def expectedLines (sl : Slot) : List SlotLine := sl.dispatch.toList ++ sl.carA.toList ++ sl.carB.toList

/-- Each expected line is ANSWERED or SILENT (R148, R159). -/
def slotDone (sl : Slot) : Bool :=
  (expectedLines sl).all fun x => x.status == .answered || x.status == .silent

def anyAnswered (sl : Slot) : Bool := (expectedLines sl).any fun x => x.status == .answered

/-- The slot record that the link mode gives the poll in progress: the forwarding unit's or the master's. -/
def Part.slotNow (p : Part) : Option Slot := if p.master.mode = .relay then p.slot else p.master.slot

def Part.setSlotNow (p : Part) (sl : Option Slot) : Part :=
  if p.master.mode = .relay then { p with slot := sl } else { p with master.slot := sl }

/-- A change of one expected line of the slot in progress. -/
def modLine (port : Port) (f : SlotLine → SlotLine) (p : Part) : Part :=
  match p.slotNow with
  | some sl =>
    match slotLine sl port with
    | some x => p.setSlotNow (some (setSlotLine sl port (f x)))
    | none => p
  | none => p

/-- A line's status when its slot opens (R146): SENDING, or WAITING with its timer when the order was not queued. -/
def openedLine (p : Part) (limit : Nat) (ports : List Port) (port : Port) : Option SlotLine :=
  if port ∈ ports then some (if p.hasRoom port then ⟨.sending, .stopped⟩ else ⟨.waiting, .running limit⟩) else none

/-- The slot record that opens for a frame about to be handed to the ports (R146, R159, R160). -/
def Part.newSlot (p : Part) (kind : SlotKind) (address : Byte) (ports : List Port) (held : Bool) (bound : Timer) : Slot where
  kind := kind
  answered := false
  address := address
  dispatch := openedLine p p.link.settings.replyLimit ports .dispatch
  carA := openedLine p p.link.settings.replyLimit ports .carA
  carB := openedLine p p.link.settings.replyLimit ports .carB
  replyLimit := p.link.settings.replyLimit
  held := held
  sendBound := bound

/-- A frame is handed to each of the ports, in order (R121, R129). -/
def handAll (ports : List Port) (f : TxFrame) (p : Part) : Part :=
  ports.foldl (fun p port => handFrame port f p) p

/-! ### The outcome of a poll -/

/-- A line that answered is sound with count 0 (R151). -/
def soundLine : LineHealth := {}

/-- A line that was silent while the other answered (R151), and whether it newly becomes FAULTY. -/
def silentLine (limit : Nat) (h : LineHealth) : LineHealth :=
  { count := satInc 255 h.count, faulty := h.faulty || decide (limit ≤ satInc 255 h.count) }

/-- The silence of a line is counted, with LINE FAULT when the mark becomes FAULTY (R151). -/
def countSilentA (i : CarIdx) (p : Part) : Part :=
  let new := silentLine p.link.settings.lineLimit (p.car i).lineA
  let marked := p.modCar i fun c => { c with lineA := new }
  if new.faulty && !(p.car i).lineA.faulty then raiseEvent .lineFault marked else marked

def countSilentB (i : CarIdx) (p : Part) : Part :=
  let new := silentLine p.link.settings.lineLimit (p.car i).lineB
  let marked := p.modCar i fun c => { c with lineB := new }
  if new.faulty && !(p.car i).lineB.faulty then raiseEvent .lineFault marked else marked

def lineAnswered (x : SlotLine) : Bool := x.status == .answered

/-- Line health at the close of a slot (R151). -/
def judgeLines (i : CarIdx) (sl : Slot) (p : Part) : Part :=
  match sl.carA, sl.carB with
  | some a, some b =>
    if lineAnswered a then
      let sound := p.modCar i fun c => { c with lineA := soundLine }
      if lineAnswered b then sound.modCar i fun c => { c with lineB := soundLine } else countSilentB i sound
    else if lineAnswered b then countSilentA i (p.modCar i fun c => { c with lineB := soundLine })
    else p
  | some a, none => if lineAnswered a then p.modCar i fun c => { c with lineA := soundLine } else p
  | none, some b => if lineAnswered b then p.modCar i fun c => { c with lineB := soundLine } else p
  | none, none => p

/-- The outcome of a poll is settled (R149, R151): a miss, or line health. A plant slot has no car record (R160). -/
def settleSlot (sl : Slot) (p : Part) : Part :=
  if sl.kind = .plant then p
  else match p.findEnabled sl.address with
    | none => p
    | some i => if anyAnswered sl then judgeLines i sl p else countMiss i p

/-- The forwarding unit's slot record closes (R148), each line not ANSWERED judged SILENT. -/
def closeSlot (p : Part) : Part :=
  match p.slot with
  | none => p
  | some sl => settleSlot sl (unmarkQueues { p with slot := none })

/-! ### The master cycle (R157, R158) -/

/-- A pending link settings record comes into force (R136). -/
def takePendingSettings (p : Part) : Part :=
  match p.link.pending with
  | some r => { p with link.settings := r, link.pending := none }
  | none => p

def Part.entry (p : Part) (k : Fin 64) : ScheduleEntry := p.active.schedule[k.val]

/-- An entry is matched by a cycle number (R158). -/
def entryMatched (cycle : Nat) (e : ScheduleEntry) : Bool := e.used && cycle &&& e.mask == e.value &&& e.mask

/-- The first matched entry from a walk position on (R158). -/
def Part.nextEntry (p : Part) (position : Nat) : Option (Fin 64) :=
  (List.finRange 64).find? fun k => position ≤ k.val && entryMatched (p.master.cycle.getD 0) (p.entry k)

/-- The slot of a matched entry: a car slot (R159) or a plant slot (R160). -/
def openEntry (k : Fin 64) (p : Part) : Part :=
  let bound := Timer.running p.link.settings.cyclePeriod
  let walked := { p with master.walk := some k }
  match (p.entry k).target with
  | .car address lines =>
    let order := p.issuedOrder address none
    let slot := p.newSlot .car address (linePorts lines) order.2 bound
    { handAll (linePorts lines) ⟨wireChars (.carOrder address order.1), true⟩ walked with master.slot := some slot }
  | .plant =>
    let node := p.link.settings.plantNode
    let slot := p.newSlot .plant node [.dispatch] false bound
    { handAll [.dispatch] ⟨wireChars (.plantPoll node), true⟩ walked with master.slot := some slot }

/-- The start of a master cycle (R157): number, mark, pending settings, period timer, phase SLOTS. -/
def beginCycle (p : Part) : Part :=
  let number := p.master.nextCycle
  let marked := takePendingSettings
    (handAll [.carA, .carB, .dispatch] ⟨wireChars (.cycleMark (BitVec.ofNat 8 number)), false⟩ p)
  { marked with
    master.cycle := some number
    master.nextCycle := (number + 1) % 64
    master.period := .running marked.link.settings.cyclePeriod
    master.phase := .slots
    master.walk := some 0 }

/-- The walk of a cycle just begun: its first slot, or WAIT, the period timer running (R158). -/
def startCycle (p : Part) : Part :=
  let begun := beginCycle p
  match begun.nextEntry 0 with
  | some k => openEntry k begun
  | none => { begun with master.walk := none, master.phase := .wait }

/-- The handback completes (R164). -/
def completeHandback (p : Part) : Part :=
  { p with
    master.period := .stopped
    master.phase := .none
    master.cycle := none
    master.walk := none
    master.slot := none
    master.mode := .relay
    master.silence := .running p.link.settings.silenceLimit
    master.silent := false }

/-- The walk goes on behind an entry (R158): the next matched slot; or the walk is done, which completes a handback, begins
the next cycle when the period has expired, or waits. -/
def continueWalk (position : Nat) (p : Part) : Part :=
  match p.nextEntry position with
  | some k => openEntry k p
  | none =>
    let done := { p with master.walk := none }
    if p.master.mode = .handback then completeHandback done
    else if p.master.period = .expired then startCycle done
    else { done with master.phase := .wait }

/-- The walk position behind the entry in progress. -/
def Part.walkNext (p : Part) : Nat :=
  match p.master.walk with
  | some k => k.val + 1
  | none => 64

/-- The master slot ends (R159, R160): its outcome is settled and the walk goes on. -/
def endMasterSlot (sl : Slot) (p : Part) : Part :=
  let settled := settleSlot sl (unmarkQueues { p with master.slot := none })
  continueWalk settled.walkNext settled

/-- The slot in progress ends when each expected line is ANSWERED or SILENT (R148, R159). -/
def checkSlot (p : Part) : Part :=
  match p.slotNow with
  | some sl => if slotDone sl then (if p.master.mode = .relay then closeSlot p else endMasterSlot sl p) else p
  | none => p

/-! ### Takeover (R155) -/

/-- Takeover (R155, R102): the relay slot closes, the mode becomes MASTER, SERVICE cars with a run are shed, and the first
master cycle begins. -/
def takeOver (p : Part) : Part :=
  startCycle (shedServiceCars { closeSlot p with master.mode := .master })

/-- Takeover is made in RELAY while SILENT and outside NORMAL (R155). -/
def takeOverIfSilent (p : Part) : Part :=
  if p.master.mode = .relay ∧ p.master.silent ∧ p.sup.state ≠ .normal then takeOver p else p

/-- The silence timer expires (R154). -/
def silenceExpires (p : Part) : Part :=
  if p.master.silence.isRunning then
    let expired := { p with master.silence := .expired }
    if p.master.mode = .relay then
      takeOverIfSilent (raiseEvent .dispatchSilent { expired with master.silent := true })
    else expired
  else p

/-- The cycle period timer expires (R158): in WAIT the next cycle begins. -/
def periodExpires (p : Part) : Part :=
  if p.master.period.isRunning then
    let expired := { p with master.period := .expired }
    if p.master.phase = .wait ∧ p.master.mode = .master then startCycle expired else expired
  else p

/-! ### Line events of the slot in progress (R146, R159) -/

/-- A line's reply timer expires: a WAITING line becomes SILENT (R146). -/
def replyTimerExpires (port : Port) (p : Part) : Part :=
  checkSlot (modLine port (fun x =>
    match x.timer with
    | .running _ => ⟨if x.status = .waiting then .silent else x.status, .expired⟩
    | _ => x) p)

/-- A master slot's line still SENDING takes status SILENT (R159). -/
def sendingLineExpires (port : Port) (p : Part) : Part :=
  if p.master.mode = .relay then p
  else checkSlot (modLine port (fun x => if x.status = .sending then { x with status := .silent } else x) p)

/-- The first character of a frame on a WAITING line makes it RECEIVING (R146). -/
def lineReceiving (port : Port) (p : Part) : Part :=
  modLine port (fun x => if x.status = .waiting ∧ x.timer.isRunning then { x with status := .receiving } else x) p

/-- A frame that ends without being an answer or a duplicate returns its line to WAITING, or to SILENT when the timer has
expired (R146). R128 would end the slot at an answer that is abandoned or discarded; R146 is followed (log entry 41). -/
def frameEnds (port : Port) (p : Part) : Part :=
  checkSlot (modLine port (fun x =>
    if x.status = .receiving then { x with status := if x.timer.isRunning then .waiting else .silent } else x) p)

/-- The order's last character has been sent on a line: WAITING, and its reply timer starts (R146). -/
def lineSent (port : Port) (p : Part) : Part :=
  match p.slotNow with
  | some sl => modLine port (fun x => if x.status = .sending then ⟨.waiting, .running sl.replyLimit⟩ else x) p
  | none => p

/-- A port begins sending the head of its queue (R121), its receiver BETWEEN FRAMES. -/
def transmitStarts (port : Port) (p : Part) : Part :=
  let x := p.link.port port
  if !x.sending && !x.queue.isEmpty && x.receiver == .betweenFrames then p.modPort port fun x => { x with sending := true }
  else p

/-- The last character of the frame being sent has gone out (R121, R129). -/
def transmitEnds (port : Port) (p : Part) : Part :=
  let x := p.link.port port
  if x.sending then
    let idle := p.modPort port fun x => { x with sending := false, queue := x.queue.tail }
    match x.queue.head? with
    | some f => if f.forSlot then lineSent port idle else idle
    | none => idle
  else p

/-! ### Commands -/

/-- SILENCE_EXPIRY (R154, R155). -/
def execSilenceExpiry (s : State) : Host.Outcome State Fault Refusal := completes silenceExpires s

/-- CYCLE_PERIOD_EXPIRY (R158). -/
def execCyclePeriodExpiry (s : State) : Host.Outcome State Fault Refusal := completes periodExpires s

/-- REPLY_TIMER_EXPIRY (R146). -/
def execReplyTimerExpiry (port : Port) (s : State) : Host.Outcome State Fault Refusal :=
  completes (replyTimerExpires port) s

/-- SENDING_LINE_TIMEOUT (R159). -/
def execSendingLineTimeout (port : Port) (s : State) : Host.Outcome State Fault Refusal :=
  completes (sendingLineExpires port) s

/-- TRANSMIT_START (R121). -/
def execTransmitStart (port : Port) (s : State) : Host.Outcome State Fault Refusal := completes (transmitStarts port) s

/-- TRANSMIT_COMPLETE (R129, R146). -/
def execTransmitComplete (port : Port) (s : State) : Host.Outcome State Fault Refusal :=
  completes (transmitEnds port) s

end Sys2Proof.Machine
end

