-- ==== Sys2Proof/Machine/Operands.lean ====
section
/-! DEFINITION. The operands of manage requests and the data of manage replies, byte by byte (R166, R168, R169): for each
table the fields a WRITE carries, with the ranges of its owning chapter, and the fields a READ returns. -/

namespace Sys2Proof.Machine

/-! ### Fields (R166) -/

def byte (n : Nat) : Byte := BitVec.ofNat 8 n

/-- A numeric field of two bytes. -/
def two (n : Nat) : List Byte := be16 (BitVec.ofNat 16 n)

/-- A value of the millisecond count: four bytes, most significant first. -/
def four (t : Time) : List Byte :=
  [t.extractLsb' 24 8, t.extractLsb' 16 8, t.extractLsb' 8 8, t.extractLsb' 0 8]

def nat2 (hi lo : Byte) : Nat := (word16 hi lo).toNat

/-- YES, SET and FAULTY are 1; NO, CLEAR and sound are 0. -/
def yes (b : Bool) : Byte := if b then 1 else 0

def inRange (lo hi n : Nat) : Bool := decide (lo ≤ n) && decide (n ≤ hi)

/-- NONE, none and ABSENT are 255 in a one-byte field and all bytes 255 in a wider one. -/
def oneOrNone : Option Nat → Byte
  | some n => byte n
  | none => 255

def twoOrNone : Option Nat → List Byte
  | some n => two n
  | none => [255, 255]

/-- An index below n carried in one byte. -/
def indexOf (n : Nat) (b : Byte) : Option (Fin n) := if h : b.toNat < n then some ⟨b.toNat, h⟩ else none

def flagOf (b : Byte) : Option Bool := if b = 1 then some true else if b = 0 then some false else none

/-! ### Names carried by their position (R166) -/

def linesCode : Lines → Byte
  | .a => 0
  | .b => 1
  | .both => 2

def linesOf (b : Byte) : Option Lines :=
  if b = 0 then some .a else if b = 1 then some .b else if b = 2 then some .both else none

def alarmCode : AlarmLevel → Byte
  | .high => 0
  | .low => 1

def alarmOf (b : Byte) : Option AlarmLevel := if b = 0 then some .high else if b = 1 then some .low else none

/-- The filtered level of an alarm line: HIGH, LOW or UNKNOWN. -/
def filteredCode : Option AlarmLevel → Byte
  | some l => alarmCode l
  | none => 2

def actionCode : Action → Byte
  | .halt => 0
  | .shedRegen => 1
  | .shedAll => 2
  | .derate => 3

def actionOf (b : Byte) : Option Action :=
  if b = 0 then some .halt else if b = 1 then some .shedRegen else if b = 2 then some .shedAll
  else if b = 3 then some .derate else none

def directionCode : Direction → Byte
  | .none => 0
  | .up => 1
  | .down => 2

def motionCode : Motion → Byte
  | .stopped => 0
  | .moving => 1
  | .levelling => 2

def doorStateCode : Door → Byte
  | .opened => 0
  | .closed => 1
  | .moving => 2

def zoneCode : Zone → Byte
  | .zoneOut => 0
  | .zoneIn => 1

def dutyCode : Duty → Byte
  | .normal => 0
  | .stopped => 1
  | .recall => 2
  | .parked => 3
  | .service => 4
  | .isolated => 5
  | .lost => 6
  | .disabled => 7

def runCode : Run → Byte
  | .idle => 0
  | .queued => 1
  | .starting => 2
  | .running => 3

def priorityCode : Option Priority → Byte
  | some .trapped => 0
  | some .recall => 1
  | some .service => 2
  | none => 255

/-- A direction d: 1 for UP and 2 for DOWN. -/
def travelCode : Travel → Byte
  | .up => 1
  | .down => 2

def stateCode : TransferState → Byte
  | .normal => 0
  | .outage => 1
  | .standby => 2
  | .recall => 3
  | .service => 4
  | .returning => 5

def causeCode : Cause → Byte
  | .switchOpen => 0
  | .switchInvalid => 1
  | .switchGenerator => 2
  | .switchUtility => 3
  | .warmUp => 4
  | .recallDone => 5
  | .retransferSet => 6
  | .retransferClear => 7

def rememberedCode : Option Remembered → Byte
  | some .recall => 0
  | some .service => 1
  | none => 255

def positionCode : Position → Byte
  | .utility => 0
  | .generator => 1
  | .opened => 2
  | .invalid => 3
  | .unknown => 4

def linkModeCode : LinkMode → Byte
  | .relay => 0
  | .master => 1
  | .handback => 2

/-- EMPTY, APPLY, START SERVICE (R176). -/
def deferredCode : Option Deferred → Byte
  | none => 0
  | some .apply => 1
  | some .startService => 2

/-- The fault set, SAFETY OPEN in bit 0 (07, byte layouts). -/
def faultsByte (f : FaultSet) : Byte :=
  byte (f.safetyOpen.toNat + 2 * f.driveFault.toNat + 4 * f.inspection.toNat + 8 * f.overload.toNat)

/-- The flags of a car record in the order of the car table: UNFIT, SHED, STALLED, ISOLATE PENDING, DISABLE PENDING. -/
def carFlagsByte (c : Car) : Byte :=
  byte (c.unfit.isSome.toNat + 2 * c.shed.toNat + 4 * c.stalled.toNat + 8 * c.isolatePending.toNat
    + 16 * c.disablePending.toNat)

/-! ### Tables: what a WRITE carries and a READ returns -/

/-- Car identity (R19): address 1..63, line assignment. -/
def readIdentity (fields : List Byte) : Option (Byte × Lines) :=
  match fields with
  | [address, lines] => if isCarAddress address then (linesOf lines).map (address, ·) else none
  | _ => none

def identityBytes (c : Car) : List Byte := [c.address.getD 255, linesCode c.lines]

/-- Car configuration (R20): class, group, recall floor override or ABSENT. -/
def readConfig (fields : List Byte) : Option CarConfig :=
  match fields with
  | [cls, group, override] =>
    match indexOf 16 cls, indexOf 8 group with
    | some c, some g =>
      if override = 255 then some ⟨c, g, none⟩
      else if override.toNat ≤ 127 then some ⟨c, g, some override.toNat⟩ else none
    | _, _ => none
  | _ => none

def configBytes (c : CarConfig) : List Byte := [byte c.cls.val, byte c.group.val, oneOrNone c.override]

/-- The ranges of the class table (R48). -/
def classInRange (c : ClassRec) : Bool :=
  inRange 0 100 c.a && inRange 0 500 c.k && inRange 30 60 c.b && inRange 0 300 c.acc && inRange 1 255 c.minProgress
    && inRange 1 30 c.startLimit && inRange 10 600 c.tripLimit

/-- Class record (R48). -/
def readClass (fields : List Byte) : Option ClassRec :=
  match fields with
  | [a, k1, k0, b, a1, a0, mp, sl, t1, t0] =>
    let c : ClassRec := ⟨a.toNat, nat2 k1 k0, b.toNat, nat2 a1 a0, mp.toNat, sl.toNat, nat2 t1 t0⟩
    if classInRange c then some c else none
  | _ => none

def classBytes (c : ClassRec) : List Byte :=
  [byte c.a] ++ two c.k ++ [byte c.b] ++ two c.acc ++ [byte c.minProgress, byte c.startLimit] ++ two c.tripLimit

/-- The ranges of the plant table (R49); G is 0 or 20..4000. -/
def plantInRange (t : Plant) : Bool :=
  (t.g == 0 || inRange 20 4000 t.g) && inRange 50 100 t.usePct && inRange 0 4000 t.baseKW && inRange 5 100 t.stepPct
    && inRange 0 20 t.revPct && inRange 0 1000 t.brakeKW && inRange 0 4000 t.staleKW && inRange 4000 7000 t.fOk
    && inRange 1 255 t.recoveryLimit && inRange 1 255 t.staleLimit && inRange 1 48 t.maxMoving && inRange 0 15 t.skipLimit
    && inRange 2 15 t.stallLimit && inRange 1 15 t.utilDepth && inRange 1 15 t.genDepth

/-- Plant table (R49), in the order of its table. -/
def readPlant (fields : List Byte) : Option Plant :=
  match fields with
  | [g1, g0, use, b1, b0, step, rev, k1, k0, s1, s0, f1, f0, settle, recovery, hold, stale, warm, l1, l0, moving, skip,
      stall, util, gen] =>
    let t : Plant :=
      { g := nat2 g1 g0, usePct := use.toNat, baseKW := nat2 b1 b0, stepPct := step.toNat, revPct := rev.toNat
        brakeKW := nat2 k1 k0, staleKW := nat2 s1 s0, fOk := nat2 f1 f0, settleCode := settle.toNat
        recoveryLimit := recovery.toNat, holdOff := hold.toNat, staleLimit := stale.toNat, warmUp := warm.toNat
        recallLimit := nat2 l1 l0, maxMoving := moving.toNat, skipLimit := skip.toNat, stallLimit := stall.toNat
        utilDepth := util.toNat, genDepth := gen.toNat }
    if plantInRange t then some t else none
  | _ => none

def plantBytes (t : Plant) : List Byte :=
  two t.g ++ [byte t.usePct] ++ two t.baseKW ++ [byte t.stepPct, byte t.revPct] ++ two t.brakeKW ++ two t.staleKW
    ++ two t.fOk ++ [byte t.settleCode, byte t.recoveryLimit, byte t.holdOff, byte t.staleLimit, byte t.warmUp]
    ++ two t.recallLimit ++ [byte t.maxMoving, byte t.skipLimit, byte t.stallLimit, byte t.utilDepth, byte t.genDepth]

/-- Car indices carried one byte each. -/
def readIndices : List Byte → Option (List CarIdx)
  | [] => some []
  | b :: rest =>
    match indexOf 48 b, readIndices rest with
    | some i, some is => some (i :: is)
    | _, _ => none

/-- No index stands twice. -/
def distinct : List CarIdx → Bool
  | [] => true
  | i :: rest => !rest.contains i && distinct rest

/-- The ranges of a group record (R89): at most 8 entries in the service list, none twice. -/
def groupInRange (g : GroupRec) : Bool :=
  inRange 0 127 g.recallFloor && inRange 0 16 g.maxRunning && inRange 0 8 g.serviceCount
    && inRange 0 8 g.serviceList.length && distinct g.serviceList

/-- Group record (R89); the service list is carried as its length and its entries (log entry 18). -/
def readGroup (fields : List Byte) : Option GroupRec :=
  match fields with
  | floor :: maxRunning :: count :: len :: list =>
    match readIndices list with
    | some is =>
      let g : GroupRec := ⟨floor.toNat, maxRunning.toNat, count.toNat, is⟩
      if groupInRange g && len.toNat == list.length then some g else none
    | none => none
  | _ => none

def indexBytes (l : List CarIdx) : List Byte := l.map fun i => byte i.val

def groupBytes (g : GroupRec) : List Byte :=
  [byte g.recallFloor, byte g.maxRunning, byte g.serviceCount, byte g.serviceList.length] ++ indexBytes g.serviceList

/-- The recall order list after a run of indices is written at a start position (R90). -/
def readRecallOrder (old : List CarIdx) (start : Nat) (run : List Byte) : Option (List CarIdx) :=
  match readIndices run with
  | some is =>
    let new := old.take start ++ is
    if start ≤ old.length && new.length ≤ 48 && distinct new then some new else none
  | none => none

/-- The list's length and the entries from a position on, up to 29 of them (R168). -/
def recallOrderBytes (l : List CarIdx) (start : Nat) : List Byte :=
  byte l.length :: indexBytes ((l.drop start).take 29)

/-- The ranges of a trip map entry (R108). -/
def tripInRange (t : TripEntry) : Bool := inRange 1 15 t.depth && inRange 0 100 t.percent

/-- Trip map entry (R108). -/
def readTrip (fields : List Byte) : Option TripEntry :=
  match fields with
  | [enable, level, depth, action, groups, percent] =>
    match flagOf enable, alarmOf level, actionOf action with
    | some e, some l, some a =>
      let t : TripEntry := ⟨e, l, depth.toNat, a, groups, percent.toNat⟩
      if tripInRange t then some t else none
    | _, _, _ => none
  | _ => none

def tripBytes (t : TripEntry) : List Byte :=
  [yes t.enabled, alarmCode t.level, byte t.depth, actionCode t.action, t.groups, byte t.percent]

/-- Schedule entry (R156). The address and the line assignment belong to CAR entries only (log entry 20). -/
def readSchedule (fields : List Byte) : Option ScheduleEntry :=
  match fields with
  | [used, kind, address, lines, value, mask] =>
    match flagOf used with
    | none => none
    | some u =>
      if inRange 0 63 value.toNat && inRange 0 63 mask.toNat then
        if kind = 1 then some ⟨u, .plant, value.toNat, mask.toNat⟩
        else if kind = 0 ∧ isCarAddress address then
          (linesOf lines).map fun l => ⟨u, .car address l, value.toNat, mask.toNat⟩
        else none
      else none
  | _ => none

def scheduleBytes (e : ScheduleEntry) : List Byte :=
  match e.target with
  | .car address lines => [yes e.used, 0, address, linesCode lines, byte e.value, byte e.mask]
  | .plant => [yes e.used, 1, 255, 255, byte e.value, byte e.mask]

/-- The ranges of the link settings (07, link settings table); the two addresses differ (R135). -/
def settingsInRange (l : LinkSettings) : Bool :=
  isNodeAddress l.partAddress && isNodeAddress l.plantNode && l.plantNode != l.partAddress
    && inRange 100 2000 l.replyLimit && inRange 20 2000 l.silenceLimit && inRange 10 1000 l.cyclePeriod
    && inRange 2 64 l.lossLimit && inRange 1 255 l.lineLimit

/-- Link settings record (R135). -/
def readSettings (fields : List Byte) : Option LinkSettings :=
  match fields with
  | [part, node, r1, r0, s1, s0, c1, c0, loss, line] =>
    let l : LinkSettings := ⟨part, node, nat2 r1 r0, nat2 s1 s0, nat2 c1 c0, loss.toNat, line.toNat⟩
    if settingsInRange l then some l else none
  | _ => none

def settingsBytes (l : LinkSettings) : List Byte :=
  [l.partAddress, l.plantNode] ++ two l.replyLimit ++ two l.silenceLimit ++ two l.cyclePeriod
    ++ [byte l.lossLimit, byte l.lineLimit]

/-! ### The four parts of a car status record (R168) -/

/-- Part 0: the live fields. A field "not yet heard" has a free byte (log entry 17). -/
def statusPart0 (c : Car) : List Byte :=
  (match c.live with
    | some l =>
      [1, byte l.floor, zoneCode l.zone, directionCode l.direction, motionCode l.motion, doorStateCode l.door,
        oneOrNone l.load, directionCode l.request, byte l.target] ++ be16 l.pulses ++ [faultsByte l.faults]
    | none => 0 :: (List.range 11).map Config.unheardByte)
  ++ [yes c.blocked] ++ four c.reportTime

/-- Part 1: the runtime fields. -/
def statusPart1 (c : Car) : List Byte :=
  [dutyCode c.duty, (c.prior.map dutyCode).getD 255, if c.pendingRecall then dutyCode .recall else 255, runCode c.run,
    priorityCode c.priority] ++ twoOrNone c.joinSeq
  ++ [byte c.skipCount, byte c.stallCount, byte c.missCount, byte c.stagnant, byte c.reverse, byte c.goodRun,
    yes c.moved, carFlagsByte c]

/-- Part 2: the figures in kW (R61), the direction and the times. -/
def statusPart2 (c : Car) : List Byte :=
  (match c.snapshot with
    | some f => two (kW f.start) ++ two (kW f.mRun) ++ two (kW f.rRun) ++ [travelCode f.dir]
    | none => [255, 255, 255, 255, 255, 255, 255])
  ++ two (kW c.m) ++ two (kW c.r) ++ four c.grantTime ++ four c.arrivalTime

/-- Part 3: the stored dispatch order, and the line marks and counts (log entry 19). -/
def statusPart3 (c : Car) : List Byte :=
  (match c.order with
    | some o => byte (orderBytes o).length :: orderBytes o
    | none => [0])
  ++ [yes c.lineA.faulty, byte c.lineA.count, yes c.lineB.faulty, byte c.lineB.count]

/-- Alarm status (R107). -/
def alarmStatusBytes (p : Part) (k : Fin 4) : List Byte :=
  let x := p.alarmStatus k
  [filteredCode (p.alarmFilter k).level, yes x.asserted, yes x.inEffect] ++ four x.changeTime

/-- The nine link counters (R137, R168), in the order of R137's table; the three ports of a counter in the order dispatch, A, B
(log entry 50). -/
def counterBytes (l : Link) : List Byte :=
  two l.dispatch.checkErrors ++ two l.carA.checkErrors ++ two l.carB.checkErrors ++ two l.malformed
    ++ two l.dispatch.overflow ++ two l.carA.overflow ++ two l.carB.overflow ++ two l.strays ++ two l.dropped

/-- The transfer record (R168). -/
def transferBytes (x : Supervisor) : List Byte :=
  [stateCode x.state, stateCode x.previous] ++ four x.changeTime
    ++ [causeCode x.cause, rememberedCode x.remembered, positionCode x.position]

/-- The plant report age (R166): one byte, then the age or 0. -/
def reportAgeBytes (p : Part) : List Byte :=
  match p.sup.report with
  | some r => 1 :: four (p.now - r.arrival)
  | none => [0, 0, 0, 0, 0]

/-- SUMMARY (R176). -/
def summaryBytes (p : Part) : List Byte :=
  [stateCode p.sup.state, linkModeCode p.master.mode] ++ two (kW p.adm.sumM) ++ two (kW p.adm.sumR)
    ++ two (kW p.capEff) ++ two (kW p.stepMax) ++ two (kW p.regenMax)
    ++ [byte p.queue.length, oneOrNone (p.queue.head?.map (·.val)), if p.gapOpen then 0 else 1,
      deferredCode p.mgmt.deferred] ++ be16 (p.mgmt.flags.zeroExtend 16) ++ [yes p.mgmt.locked] ++ reportAgeBytes p

end Sys2Proof.Machine
end

