-- ==== Sys2Proof/Machine/Management.lean ====
section
/-! DEFINITION. The management unit (10): what each request does and answers. A request is judged in the order of R167:
kind, table, index, lock, state, length and fields. -/

namespace Sys2Proof.Machine

/-- The result codes (R166). -/
inductive Result where
  | done
  | pending
  | busy
  | locked
  | badTable
  | badIndex
  | badValue
  | wrongState
  deriving DecidableEq, Repr

def resultCode : Result → Byte
  | .done => 0
  | .pending => 1
  | .busy => 2
  | .locked => 3
  | .badTable => 4
  | .badIndex => 5
  | .badValue => 6
  | .wrongState => 7

/-- What a MANAGE REPLY carries (R134). -/
structure Reply where
  code : Result
  data : List Byte
  deriving DecidableEq, Repr

/-- A result without data, and the part as the request leaves it. -/
def answer (code : Result) (p : Part) : Reply × Part := (⟨code, []⟩, p)

/-- A request with no arguments that takes effect when it carries none (R167, test 6). -/
def plain (args : List Byte) (f : Part → Part) (p : Part) : Reply × Part :=
  if args.isEmpty then answer .done (f p) else answer .badValue p

/-! ### READ (R168) -/

/-- The tables (R166). -/
inductive Table where
  | carIdentity
  | carConfiguration
  | carStatus
  | classes
  | plant
  | group
  | recallOrder
  | tripMap
  | schedule
  | linkSettings
  | alarmStatus
  | linkCounters
  | transferRecord
  deriving DecidableEq, Repr

def tableOf (code : Byte) : Option Table :=
  match code.toNat with
  | 1 => some .carIdentity
  | 2 => some .carConfiguration
  | 3 => some .carStatus
  | 4 => some .classes
  | 5 => some .plant
  | 6 => some .group
  | 7 => some .recallOrder
  | 8 => some .tripMap
  | 9 => some .schedule
  | 10 => some .linkSettings
  | 11 => some .alarmStatus
  | 12 => some .linkCounters
  | 13 => some .transferRecord
  | _ => none

/-- The selectors a table allows (R168): part 0..3 of a car status record; 1 only where there is a shadow copy or a pending
record. -/
def selectorAllowed (t : Table) (selector : Nat) : Bool :=
  match t with
  | .carStatus => selector ≤ 3
  | .carIdentity => selector = 0
  | .alarmStatus => selector = 0
  | .linkCounters => selector = 0
  | .transferRecord => selector = 0
  | _ => selector ≤ 1

/-- The data of a single-entry table, whose index is 0. -/
def onlyEntry (index : Byte) (data : List Byte) : Option (List Byte) := if index = 0 then some data else none

/-- One part of a car status record (R168). -/
def statusPart (c : Car) (part : Nat) : List Byte :=
  match part with
  | 0 => statusPart0 c
  | 1 => statusPart1 c
  | 2 => statusPart2 c
  | _ => statusPart3 c

/-- The link settings: in force with whether a pending record is held, or the pending record (R135, R168). -/
def settingsData (l : Link) (selector : Nat) : List Byte :=
  if selector = 0 then settingsBytes l.settings ++ [yes l.pending.isSome]
  else match l.pending with
    | some r => settingsBytes r
    | none => []

/-- One entry of a table (R168); none when the index lies outside it. -/
def tableEntry (p : Part) (t : Table) (selector : Nat) (index : Byte) : Option (List Byte) :=
  let copy := if selector = 0 then p.active else p.shadow
  match t with
  | .carIdentity => (indexOf 48 index).map fun i => identityBytes (p.car i)
  | .carConfiguration => (indexOf 48 index).map fun i => configBytes copy.config[i.val]
  | .carStatus => (indexOf 48 index).map fun i => statusPart (p.car i) selector
  | .classes => (indexOf 16 index).map fun i => classBytes copy.classes[i.val]
  | .plant => onlyEntry index (plantBytes copy.plant)
  | .group => (indexOf 8 index).map fun i => groupBytes copy.groups[i.val]
  | .recallOrder => (indexOf 49 index).map fun i => recallOrderBytes copy.recallOrder i.val
  | .tripMap => (indexOf 4 index).map fun i => tripBytes copy.tripMap[i.val]
  | .schedule => (indexOf 64 index).map fun i => scheduleBytes copy.schedule[i.val]
  | .linkSettings => onlyEntry index (settingsData p.link selector)
  | .alarmStatus => (indexOf 4 index).map fun i => alarmStatusBytes p i
  | .linkCounters => onlyEntry index (counterBytes p.link)
  | .transferRecord => onlyEntry index (transferBytes p.sup)

/-- READ (R168). It changes no state. -/
def serveRead (args : List Byte) (p : Part) : Reply × Part :=
  match args with
  | [] => answer .badValue p
  | code :: rest =>
    match tableOf code with
    | none => answer .badTable p
    | some t =>
      match rest with
      | [] => answer .badValue p
      | selector :: rest =>
        if selectorAllowed t selector.toNat then
          match rest with
          | [] => answer .badValue p
          | index :: extra =>
            match tableEntry p t selector.toNat index with
            | none => answer .badIndex p
            | some data => if extra.isEmpty then (⟨.done, data⟩, p) else answer .badValue p
        else answer .badTable p

/-! ### WRITE (R169) -/

/-- WRITE car identity (R19): directly, DISABLED records only. -/
def serveWriteIdentity (args : List Byte) (p : Part) : Reply × Part :=
  match args with
  | [] => answer .badValue p
  | index :: fields =>
    match indexOf 48 index with
    | none => answer .badIndex p
    | some i =>
      if (p.car i).enabled then answer .wrongState p
      else match readIdentity fields with
        | some (address, lines) => answer .done (p.modCar i fun c => { c with address := some address, lines := lines })
        | none => answer .badValue p

/-- A WRITE to an indexed shadow table: the index, then the whole entry. -/
def writeEntry {α : Type} (n : Nat) (decode : List Byte → Option α) (store : Fin n → α → Part → Part) (args : List Byte)
    (p : Part) : Reply × Part :=
  match args with
  | [] => answer .badValue p
  | index :: fields =>
    match indexOf n index with
    | none => answer .badIndex p
    | some i =>
      match decode fields with
      | some x => answer .done (store i x p)
      | none => answer .badValue p

/-- A WRITE refused under the site lock (R49, R108): the index is judged first, where it is carried (R167). -/
def underLock (n : Nat) (args : List Byte) (p : Part) (write : List Byte → Part → Reply × Part) : Reply × Part :=
  match args with
  | [] => if p.mgmt.locked then answer .locked p else write args p
  | index :: _ => if p.mgmt.locked && (indexOf n index).isSome then answer .locked p else write args p

/-- WRITE car configuration (R20). -/
def serveWriteConfig (args : List Byte) (p : Part) : Reply × Part :=
  writeEntry 48 readConfig (fun i x p => { p with shadow.config := p.shadow.config.set i.val x }) args p

/-- WRITE class (R48). -/
def serveWriteClass (args : List Byte) (p : Part) : Reply × Part :=
  writeEntry 16 readClass (fun i x p => { p with shadow.classes := p.shadow.classes.set i.val x }) args p

/-- WRITE plant (R49). -/
def serveWritePlant (args : List Byte) (p : Part) : Reply × Part :=
  underLock 1 args p (writeEntry 1 readPlant fun _ x p => { p with shadow.plant := x })

/-- WRITE group (R89). -/
def serveWriteGroup (args : List Byte) (p : Part) : Reply × Part :=
  writeEntry 8 readGroup (fun i x p => { p with shadow.groups := p.shadow.groups.set i.val x }) args p

/-- WRITE recall order list (R90): a run of indices from a start position 0..48. -/
def serveWriteRecallOrder (args : List Byte) (p : Part) : Reply × Part :=
  match args with
  | [] => answer .badValue p
  | index :: run =>
    match indexOf 49 index with
    | none => answer .badIndex p
    | some start =>
      match readRecallOrder p.shadow.recallOrder start.val run with
      | some l => answer .done { p with shadow.recallOrder := l }
      | none => answer .badValue p

/-- WRITE trip map (R108). -/
def serveWriteTrip (args : List Byte) (p : Part) : Reply × Part :=
  underLock 4 args p
    (writeEntry 4 readTrip fun i x p => { p with shadow.tripMap := p.shadow.tripMap.set i.val x })

/-- WRITE schedule (R156). -/
def serveWriteSchedule (args : List Byte) (p : Part) : Reply × Part :=
  writeEntry 64 readSchedule (fun i x p => { p with shadow.schedule := p.shadow.schedule.set i.val x }) args p

/-- WRITE link settings (R135): into the pending slot. -/
def serveWriteSettings (args : List Byte) (p : Part) : Reply × Part :=
  writeEntry 1 readSettings (fun _ x p => { p with link.pending := some x }) args p

/-- WRITE (R169), by table code; a table that cannot be written is refused with BAD TABLE. -/
def serveWrite (args : List Byte) (p : Part) : Reply × Part :=
  match args with
  | [] => answer .badValue p
  | code :: rest =>
    match tableOf code with
    | some .carIdentity => serveWriteIdentity rest p
    | some .carConfiguration => serveWriteConfig rest p
    | some .classes => serveWriteClass rest p
    | some .plant => serveWritePlant rest p
    | some .group => serveWriteGroup rest p
    | some .recallOrder => serveWriteRecallOrder rest p
    | some .tripMap => serveWriteTrip rest p
    | some .schedule => serveWriteSchedule rest p
    | some .linkSettings => serveWriteSettings rest p
    | _ => answer .badTable p

/-! ### Tables as a whole and the deferred slot (R170, R171) -/

/-- COPY ACTIVE TO SHADOW (R170): locked tables are not copied. -/
def copyActive (p : Part) : Part := { p with shadow := copyTables p.mgmt.locked p.shadow p.active }

def serveCopy (args : List Byte) (p : Part) : Reply × Part := plain args copyActive p

/-- A deferred request may execute at once (R171). -/
def Part.mayExecute (p : Part) : Bool :=
  p.sup.state == .normal || p.sup.state == .outage || p.sup.state == .standby || p.gapOpen

/-- APPLY (R171, R172): executed at once with its attempt, or placed in the slot. -/
def serveApply (args : List Byte) (p : Part) : Reply × Part :=
  if p.mgmt.deferred.isSome then answer .busy p
  else if !args.isEmpty then answer .badValue p
  else if p.mayExecute then answer .done (attempt (executeApply p))
  else answer .pending { p with mgmt.deferred := some .apply }

/-- START SERVICE (R171, R94). -/
def serveStartService (args : List Byte) (p : Part) : Reply × Part :=
  if p.sup.state ≠ .recall then answer .wrongState p
  else if p.mgmt.deferred.isSome then answer .busy p
  else if !args.isEmpty then answer .badValue p
  else if p.mayExecute then answer .done (executeStartService p)
  else answer .pending { p with mgmt.deferred := some .startService }

/-! ### CAR CONTROL (R173) -/

/-- A car control request: the index, then the state, then the length (R167). `act` answers the record's own result, or
nothing where the state forbids the request. -/
def control (index : Byte) (tail : List Byte) (act : CarIdx → Part → Option (Result × Part)) (p : Part) : Reply × Part :=
  match indexOf 48 index with
  | none => answer .badIndex p
  | some i =>
    match act i p with
    | none => answer .wrongState p
    | some (code, new) => if tail.isEmpty then answer code new else answer .badValue p

/-- ENABLE (R22). -/
def enableCar (i : CarIdx) (p : Part) : Option (Result × Part) :=
  if (p.car i).enabled then none
  else match (p.car i).address with
    | none => none
    | some a =>
      if (p.findEnabled a).isSome then none
      else
        let cleared := (setCommit i 0 0 p).modCar i disabledCar
        let d := cleared.restoredDuty i
        some (.done, handDutyChange .disabled d (cleared.modCar i (enabledCar d)))

/-- A record is disabled at once and the change is handed to the sequencing unit (R23). -/
def disableNow (i : CarIdx) (p : Part) : Part :=
  handDutyChange (p.car i).duty .disabled (settleJoinCounter (disableRecord i p))

/-- DISABLE (R23). -/
def disableCar (i : CarIdx) (p : Part) : Option (Result × Part) :=
  let c := p.car i
  if !c.enabled then some (.done, p)
  else if c.holdsRun then some (.pending, p.modCar i fun c => { c with disablePending := true })
  else some (.done, disableNow i p)

/-- ISOLATE (R42). -/
def isolateCar (i : CarIdx) (p : Part) : Option (Result × Part) :=
  let c := p.car i
  if !c.enabled || c.disablePending then none
  else if c.holdsRun then some (.pending, p.modCar i fun c => { c with isolatePending := true })
  else if c.duty = .lost then some (.done, p.modCar i fun c => { c with prior := some .isolated })
  else if c.duty = .isolated then some (.done, p)
  else
    let left := if c.run = .queued then leaveQueue i p else p
    some (.done, changeDuty i .isolated left)

/-- RESTORE (R43). -/
def restoreCar (i : CarIdx) (p : Part) : Option (Result × Part) :=
  let c := p.car i
  if !c.enabled || c.disablePending then none
  else if c.isolatePending then
    some (.done, p.modCar i fun c => { c with isolatePending := false, stallCount := 0 })
  else if c.duty = .isolated ∧ c.run = .idle then
    some (.done, changeDuty i (p.restoredDuty i) (p.modCar i fun c => { c with stallCount := 0 }))
  else if c.duty = .lost ∧ c.prior = some .isolated then
    some (.done, p.modCar i fun c => { c with prior := some .stopped, stallCount := 0 })
  else none

/-- CLEAR UNFIT (R44). -/
def clearUnfitCar (i : CarIdx) (p : Part) : Option (Result × Part) :=
  let c := p.car i
  if !c.enabled || c.disablePending then none else some (.done, p.modCar i fun c => { c with unfit := none })

/-- CAR CONTROL (R173), by action code. -/
def serveControl (args : List Byte) (p : Part) : Reply × Part :=
  match args with
  | [] => answer .badValue p
  | index :: rest =>
    match rest with
    | [] => if (indexOf 48 index).isSome then answer .badValue p else answer .badIndex p
    | action :: tail =>
      match action.toNat with
      | 0 => control index tail enableCar p
      | 1 => control index tail disableCar p
      | 2 => control index tail isolateCar p
      | 3 => control index tail restoreCar p
      | 4 => control index tail clearUnfitCar p
      | _ => if (indexOf 48 index).isSome then answer .badValue p else answer .badIndex p

/-! ### Flags, counters, summary, lock (R174 to R177) -/

/-- A set of event flags: two bytes, bits 12 to 15 ignored (R174, R175). -/
def flagSet (hi lo : Byte) : BitVec 12 := (word16 hi lo).setWidth 12

/-- CLEAR FLAGS (R174). -/
def serveClearFlags (args : List Byte) (p : Part) : Reply × Part :=
  match args with
  | [hi, lo] => answer .done { p with mgmt.flags := p.mgmt.flags &&& ~~~flagSet hi lo }
  | _ => answer .badValue p

/-- SET NOTICE MASK (R175). -/
def serveSetMask (args : List Byte) (p : Part) : Reply × Part :=
  match args with
  | [hi, lo] => answer .done { p with mgmt.mask := flagSet hi lo }
  | _ => answer .badValue p

def clearPortCounters (x : PortState) : PortState := { x with checkErrors := 0, overflow := 0 }

/-- All nine link counters become 0 (R137). -/
def clearAllCounters (p : Part) : Part :=
  { p with
    link.dispatch := clearPortCounters p.link.dispatch
    link.carA := clearPortCounters p.link.carA
    link.carB := clearPortCounters p.link.carB
    link.malformed := 0
    link.strays := 0
    link.dropped := 0 }

def serveClearCounters (args : List Byte) (p : Part) : Reply × Part := plain args clearAllCounters p

/-- SUMMARY (R176). It changes no state. -/
def serveSummary (args : List Byte) (p : Part) : Reply × Part :=
  if args.isEmpty then (⟨.done, summaryBytes p⟩, p) else answer .badValue p

/-- LOCK (R177). -/
def serveLock (args : List Byte) (p : Part) : Reply × Part :=
  plain args (fun p => { p with mgmt.locked := true }) p

/-! ### RESTART (R178) and hard reset -/

/-- A record after RESTART (R46, R88, R141, R152); the priority class and join sequence are not named there and stay. -/
def restartedCar (c : Car) : Car :=
  if c.enabled then
    { enabledCar .normal c with priority := c.priority, joinSeq := c.joinSeq }
  else disabledCar c

/-- RESTART's effects in every block (R178): 01 R18, 02 R46, 04 R88, 06 R120, 07 R137, 08 R153, 09 R165. The limit record
is what its inputs give (R59). -/
def restartPart (p : Part) : Part :=
  let cleared := unmarkQueues (clearAllCounters (closeWindow (p.mapCars restartedCar)))
  recomputeLimits { cleared with
    sup.remembered := none
    sup.warmUp := .stopped
    sup.recallLimit := .stopped
    adm.joinCounter := 0
    adm.sumM := 0
    adm.sumR := 0
    adm.reportMark := false
    adm.holdOff := .stopped
    slot := none
    master.silent := false
    master.silence := .running p.link.settings.silenceLimit
    master.nextCycle := 0
    mgmt.deferred := none
    mgmt.flags := 0 }

/-- RESTART (R178): in NORMAL with link mode RELAY only. -/
def serveRestart (args : List Byte) (p : Part) : Reply × Part :=
  if p.sup.state = .normal ∧ p.master.mode = .relay then plain args restartPart p else answer .wrongState p

/-- The request kinds (R166), by the first payload byte. -/
def serveRequest (payload : List Byte) (p : Part) : Reply × Part :=
  match payload with
  | [] => answer .badValue p
  | kind :: args =>
    match kind.toNat with
    | 1 => serveRead args p
    | 2 => serveWrite args p
    | 3 => serveCopy args p
    | 4 => serveApply args p
    | 5 => serveStartService args p
    | 6 => serveControl args p
    | 7 => serveClearFlags args p
    | 8 => serveSetMask args p
    | 9 => serveClearCounters args p
    | 10 => serveSummary args p
    | 11 => serveLock args p
    | 12 => serveRestart args p
    | _ => answer .badValue p

end Sys2Proof.Machine
end

