-- ==== Sys2Proof/Machine/Receive.lean ====
section
/-! DEFINITION. What the three ports receive (R121, R122, R124) and what becomes of a valid frame: the forwarding unit's
work in RELAY (R138 to R150) and the link master unit's in MASTER and HANDBACK (R159 to R163). -/

namespace Sys2Proof.Machine

/-! ### The receiver (R122) -/

def setReceiver (port : Port) (x : Receiver) (p : Part) : Part := p.modPort port fun q => { q with receiver := x }

/-- A frame is abandoned (R122): a check error, DISCARDING, and the end of the frame for its line. -/
def abandonFrame (port : Port) (p : Part) : Part :=
  frameEnds port (setReceiver port .discarding (countCheckError port p))

/-- A frame is discarded as malformed (R122, R124). -/
def discardMalformed (port : Port) (p : Part) : Part := frameEnds port (countMalformed p)

/-- A frame is discarded for its check (R124). -/
def discardCheck (port : Port) (p : Part) : Part := frameEnds port (countCheckError port p)

/-- A port takes characters from its line unless its transmitter is SENDING (R121). -/
def Part.listens (p : Part) (port : Port) : Bool := !(p.link.port port).sending

/-! ### Car reports (R147, R150, R159) -/

/-- The class of a valid CAR REPORT against a slot record (R147); a plant slot has no car to answer for (R161). -/
inductive ReportClass where
  | answer
  | duplicate
  | stray
  deriving DecidableEq, Repr

/-- The line is expected and RECEIVING. -/
def lineIsReceiving (sl : Slot) (port : Port) : Bool :=
  match slotLine sl port with
  | some x => x.status == .receiving
  | none => false

/-- The class of a report by the rows of R147. What no row names is a stray: a report from the slot's address on a line that is
WAITING, its frame begun before the line was (log entry 47). -/
def classifyReport (slot : Option Slot) (port : Port) (address : Byte) : ReportClass :=
  match slot with
  | none => .stray
  | some sl =>
    if sl.kind = .car ∧ sl.address = address ∧ lineIsReceiving sl port then
      if sl.answered then .duplicate else .answer
    else .stray

/-- The line becomes ANSWERED, and the record with it (R147, R160). -/
def answerLine (port : Port) (p : Part) : Part :=
  match p.slotNow with
  | some sl =>
    match slotLine sl port with
    | some x => p.setSlotNow (some { setSlotLine sl port { x with status := .answered } with answered := true })
    | none => p
  | none => p

/-- The power-held marker of a forwarded answer (R150): the slot record's held value counts in NORMAL too (log entry 48). -/
def Part.heldMarker (p : Part) (address : Byte) : Bool :=
  (match p.slot with
    | some sl => sl.held
    | none => false)
  || (p.sup.state != .normal && (p.findEnabled address).isNone)

/-- The status byte with its power-held marker, bit 1, written (R150). -/
def markedStatus (held : Bool) (status : Byte) : Byte := (status &&& 0xFD#8) ||| (if held then 2#8 else 0#8)

/-- The characters of a forwarded answer: as received but for the marker, the check afresh (R150). -/
def forwardedReport (held : Bool) (address : Byte) (r : ReportPayload) : List Byte :=
  wireChars (.carReport address { r with status := markedStatus held r.status })

/-- An answer in RELAY: forwarded to the dispatch port and taken by the car tracker (R147, R150); log entry 15. -/
def relayAnswer (port : Port) (address : Byte) (r : ReportPayload) (p : Part) : Part :=
  let sent := handFrame .dispatch ⟨forwardedReport (p.heldMarker address) address r, false⟩ (answerLine port p)
  checkSlot (takeReport address (reportLive r) sent)

/-- An answer in MASTER or HANDBACK goes to the car tracker and is not forwarded (R159). The tracker takes it before the slot
ends (log entry 51). -/
def masterAnswer (port : Port) (address : Byte) (r : ReportPayload) (p : Part) : Part :=
  checkSlot (takeReport address (reportLive r) (answerLine port p))

/-- A valid CAR REPORT on a car port, classed against the slot record of the link mode (R147, R159, R161). -/
def takeCarReport (port : Port) (address : Byte) (r : ReportPayload) (p : Part) : Part :=
  match classifyReport p.slotNow port address with
  | .answer => if p.master.mode = .relay then relayAnswer port address r p else masterAnswer port address r p
  | .duplicate => checkSlot (answerLine port p)
  | .stray => frameEnds port (countStray p)

/-! ### Dispatch traffic in RELAY (R138) -/

/-- A mark restarts the silence timer with the limit in force, and the status is LIVE (R154). -/
def restartSilence (p : Part) : Part :=
  { p with master.silence := .running p.link.settings.silenceLimit, master.silent := false }

/-- CYCLE MARK in RELAY (R139, R136, R148, R154). -/
def relayMark (number : Byte) (p : Part) : Part :=
  restartSilence (takePendingSettings (handAll [.carA, .carB] ⟨wireChars (.cycleMark number), false⟩ (closeSlot p)))

/-- The order becomes the stored dispatch order of the enabled record that holds the address (R140, step 2). -/
def storeOrder (address : Byte) (o : OrderPayload) (p : Part) : Part :=
  match p.findEnabled address with
  | some i => p.modCar i fun c => { c with order := some o }
  | none => p

/-- The lines an issued order goes out on in RELAY (R140, step 4). -/
def Part.orderPorts (p : Part) (address : Byte) : List Port :=
  match p.findEnabled address with
  | some i => linePorts (p.car i).lines
  | none => [.carA, .carB]

/-- Steps 3 to 5 of R140: the issued order is built, handed out, and a slot opens. -/
def issueOrder (address : Byte) (o : OrderPayload) (p : Part) : Part :=
  let issued := p.issuedOrder address (some o)
  let ports := p.orderPorts address
  let slot := p.newSlot .car address ports issued.2 .stopped
  { handAll ports ⟨wireChars (.carOrder address issued.1), true⟩ p with slot := some slot }

/-- CAR ORDER in RELAY (R140). -/
def relayOrder (address : Byte) (o : OrderPayload) (p : Part) : Part :=
  issueOrder address o (storeOrder address o (closeSlot p))

/-- The MANAGE REPLY to a request of the part, in the dispatch port's transmit queue (R167, R134). -/
def sendReply (reply : Reply) (p : Part) : Part :=
  handFrame .dispatch ⟨frameChars 0x31 p.link.settings.partAddress (resultCode reply.code :: reply.data), false⟩ p

/-- A request of the part is served, then answered (R167). -/
def serveAndReply (payload : List Byte) (p : Part) : Part :=
  let served := serveRequest payload p
  sendReply served.1 served.2

/-- MANAGE REQUEST in RELAY (R138): the slot closes first (log entry 16). -/
def relayRequest (address : Byte) (payload : List Byte) (p : Part) : Part :=
  if address = p.link.settings.partAddress then serveAndReply payload (closeSlot p) else closeSlot p

/-- PLANT REPORT in RELAY (R138, R15). -/
def relayPlantReport (address : Byte) (power freq : Word16) (flags : Byte) (p : Part) : Part :=
  if address = p.link.settings.plantNode then takePlantReport power freq (flags.getLsbD 0) p else p

/-- A valid frame in RELAY (R138, R147). -/
def relayFrame (port : Port) (f : Frame) (p : Part) : Part :=
  match f with
  | .cycleMark number => relayMark number p
  | .carOrder address o => relayOrder address o p
  | .carReport address r => takeCarReport port address r p
  | .plantPoll _ => closeSlot p
  | .plantReport address power freq flags => relayPlantReport address power freq flags p
  | .manageRequest address payload => relayRequest address payload p

/-! ### Traffic in MASTER and HANDBACK (R159 to R163) -/

/-- A PLANT REPORT answers the open plant slot (R160). -/
def Part.answersPlantSlot (p : Part) (address : Byte) : Bool :=
  match p.master.slot with
  | some sl => sl.kind == .plant && sl.address == address && lineIsReceiving sl .dispatch
  | none => false

/-- A frame on the dispatch port that answers no slot: ignored in MASTER (R161), counted in HANDBACK (R163). -/
def passDispatchFrame (p : Part) : Part :=
  frameEnds .dispatch (if p.master.mode = .handback then countDropped p else p)

/-- PLANT REPORT in MASTER or HANDBACK (R160). -/
def masterPlant (address : Byte) (power freq : Word16) (flags : Byte) (p : Part) : Part :=
  if p.answersPlantSlot address then
    checkSlot (takePlantReport power freq (flags.getLsbD 0) (answerLine .dispatch p))
  else passDispatchFrame p

/-- CYCLE MARK in MASTER begins a handback, which completes at once when the walk is done (R162); in HANDBACK it is dropped
(R163). Where the mark's own frame ends the slot in progress, the mark is taken first (log entry 52). -/
def masterMark (p : Part) : Part :=
  if p.master.mode = .master then
    let begun := { p with master.mode := .handback }
    if p.master.phase = .slots then frameEnds .dispatch begun else completeHandback begun
  else passDispatchFrame p

/-- A valid frame in MASTER or HANDBACK (R159 to R163). -/
def masterFrame (port : Port) (f : Frame) (p : Part) : Part :=
  match f with
  | .cycleMark _ => masterMark p
  | .carReport address r => takeCarReport port address r p
  | .plantReport address power freq flags => masterPlant address power freq flags p
  | .carOrder _ _ => passDispatchFrame p
  | .plantPoll _ => passDispatchFrame p
  | .manageRequest _ _ => passDispatchFrame p

/-! ### Judgement and hand-over (R124) -/

/-- A valid frame is handed on by link mode (R124). -/
def handOn (port : Port) (f : Frame) (p : Part) : Part :=
  if p.master.mode = .relay then relayFrame port f p else masterFrame port f p

/-- A complete frame whose check agrees is judged by the tests 2 to 6 of R124; a payload no length character up to 32 can
announce is abandoned (R122). -/
def judgeFrame (port : Port) (f : Frame) (p : Part) : Part :=
  if 32 < (framePayload f).length then abandonFrame port p
  else if frameValid port f then handOn port f p
  else discardMalformed port p

/-- The characters of a frame split into kind, address, payload and check, when their number is the 3 + n + 2 that the
length character asks for (R122). -/
def splitFrame (chars : List Byte) : Option (Byte × Byte × List Byte × List Byte) :=
  match chars with
  | kind :: address :: len :: rest =>
    if len.toNat ≤ 32 ∧ rest.length = len.toNat + 2 then
      some (kind, address, rest.take len.toNat, rest.drop len.toNat)
    else none
  | _ => none

/-- A complete frame is judged by its characters (R124). -/
def judgeSplit (port : Port) (kind address : Byte) (payload check : List Byte) (p : Part) : Part :=
  if check ≠ be16 (crc (kind :: address :: BitVec.ofNat 8 payload.length :: payload)) then discardCheck port p
  else match parseFrame kind address payload with
    | none => discardMalformed port p
    | some f => judgeFrame port f p

/-- A length character above 32 (R122). -/
def overLong (chars : List Byte) : Bool :=
  match chars with
  | _ :: _ :: len :: _ => decide (32 < len.toNat)
  | _ => false

/-- The characters between two idle times are judged; those that make no frame are abandoned or truncated (R122; log
entry 25). -/
def judgeChars (port : Port) (chars : List Byte) (p : Part) : Part :=
  match splitFrame chars with
  | some (kind, address, payload, check) => judgeSplit port kind address payload check p
  | none => if overLong chars then abandonFrame port p else discardMalformed port p

/-- A character takes the receiver to IN FRAME: from BETWEEN FRAMES it is a frame's first, which a WAITING line notes
(R122, R146). -/
def noteFirst (port : Port) (p : Part) : Part :=
  match (p.link.port port).receiver with
  | .betweenFrames => lineReceiving port p
  | _ => p

/-- A whole frame completes on a port that listens and is not DISCARDING: the receiver becomes BETWEEN FRAMES at once and
the frame is judged (R122). Its first character is noted unless the receiver was IN FRAME already (log entry 8). -/
def completeFrame (port : Port) (judge : Part → Part) (p : Part) : Part :=
  if p.listens port ∧ (p.link.port port).receiver ≠ .discarding then
    judge (setReceiver port .betweenFrames (noteFirst port p))
  else p

/-- A frame whose check agrees completes on a port. -/
def frameArrives (port : Port) (f : Frame) (p : Part) : Part := completeFrame port (judgeFrame port f) p

/-- The character added to a frame in progress: abandoned at a length above 32, judged at 3 + n + 2 characters (R122). -/
def addCharacter (port : Port) (chars : List Byte) (p : Part) : Part :=
  if overLong chars then abandonFrame port p
  else match splitFrame chars with
    | some (kind, address, payload, check) =>
      judgeSplit port kind address payload check (setReceiver port .betweenFrames p)
    | none => setReceiver port (.inFrame chars) p

/-- A character arrives (R122). -/
def characterArrives (port : Port) (c : Byte) (p : Part) : Part :=
  if p.listens port then
    match (p.link.port port).receiver with
    | .betweenFrames => setReceiver port (.inFrame [c]) (lineReceiving port p)
    | .inFrame chars => addCharacter port (chars ++ [c]) p
    | .discarding => p
  else p

/-- A character fault (R122). -/
def characterFault (port : Port) (p : Part) : Part :=
  if p.listens port then
    match (p.link.port port).receiver with
    | .betweenFrames => setReceiver port .discarding p
    | .inFrame _ => abandonFrame port p
    | .discarding => p
  else p

/-- The line has been idle for 20 µs: DISCARDING ends (R122). -/
def lineIdle (port : Port) (p : Part) : Part :=
  match (p.link.port port).receiver with
  | .discarding => setReceiver port .betweenFrames p
  | _ => p

/-- The line stays idle for more than 20 µs: a frame in progress is truncated, and DISCARDING has ended (R122). -/
def lineStaysIdle (port : Port) (p : Part) : Part :=
  match (p.link.port port).receiver with
  | .inFrame _ => discardMalformed port (setReceiver port .betweenFrames p)
  | _ => lineIdle port p

/-! ### Commands of the line -/

/-- FRAME_FIRST_CHARACTER (R122, R146); a character while IN FRAME is the frame's next (log entry 9). -/
def execFrameFirstCharacter (port : Port) (char : Byte) (s : State) : Host.Outcome State Fault Refusal :=
  completes (characterArrives port char) s

/-- FRAME_ABANDONED (R122). -/
def execFrameAbandoned (port : Port) (s : State) : Host.Outcome State Fault Refusal :=
  completes (characterFault port) s

/-- FRAME_TRUNCATED (R122). -/
def execFrameTruncated (port : Port) (s : State) : Host.Outcome State Fault Refusal := completes (lineStaysIdle port) s

/-- RECEIVER_IDLE_RESYNC (R122). -/
def execReceiverIdleResync (port : Port) (s : State) : Host.Outcome State Fault Refusal := completes (lineIdle port) s

/-- FRAME_DISCARDED (R124). -/
def execFrameDiscarded (port : Port) (chars : List Byte) (s : State) : Host.Outcome State Fault Refusal :=
  completes (completeFrame port (judgeChars port chars)) s

/-- CHARACTER_FAULT_BETWEEN_FRAMES (R122). -/
def execCharacterFaultBetweenFrames (port : Port) (s : State) : Host.Outcome State Fault Refusal :=
  completes (characterFault port) s

/-! ### Commands that are valid frames -/

/-- CYCLE_MARK (R139). -/
def execCycleMark (number : Byte) (s : State) : Host.Outcome State Fault Refusal :=
  completes (frameArrives .dispatch (.cycleMark number)) s

/-- CAR_ORDER (R140). -/
def execCarOrder (address : Byte) (order : OrderPayload) (s : State) : Host.Outcome State Fault Refusal :=
  completes (frameArrives .dispatch (.carOrder address order)) s

/-- PLANT_POLL (R138). -/
def execPlantPoll (address : Byte) (s : State) : Host.Outcome State Fault Refusal :=
  completes (frameArrives .dispatch (.plantPoll address)) s

/-- PLANT_REPORT (R15). -/
def execPlantReport (address : Byte) (power freq : Word16) (flags : Byte) (s : State) :
    Host.Outcome State Fault Refusal :=
  completes (frameArrives .dispatch (.plantReport address power freq flags)) s

/-- MANAGE_REQUEST_OTHER_ADDRESS (R138). -/
def execManageRequestOtherAddress (address : Byte) (payload : List Byte) (s : State) :
    Host.Outcome State Fault Refusal :=
  completes (frameArrives .dispatch (.manageRequest address payload)) s

/-- CAR_REPORT (R147). -/
def execCarReport (port : Port) (address : Byte) (report : ReportPayload) (s : State) :
    Host.Outcome State Fault Refusal :=
  completes (frameArrives port (.carReport address report)) s

/-- MASTER_CAR_REPORT (R159). -/
def execMasterCarReport (port : Port) (address : Byte) (report : ReportPayload) (s : State) :
    Host.Outcome State Fault Refusal :=
  completes (frameArrives port (.carReport address report)) s

/-- MASTER_PLANT_REPORT (R160). -/
def execMasterPlantReport (address : Byte) (power freq : Word16) (flags : Byte) (s : State) :
    Host.Outcome State Fault Refusal :=
  completes (frameArrives .dispatch (.plantReport address power freq flags)) s

/-- MASTER_CYCLE_MARK (R162). -/
def execMasterCycleMark (number : Byte) (s : State) : Host.Outcome State Fault Refusal :=
  completes (frameArrives .dispatch (.cycleMark number)) s

/-- MASTER_DISPATCH_FRAME_IGNORED (R161). -/
def execMasterDispatchFrameIgnored (frame : Frame) (s : State) : Host.Outcome State Fault Refusal :=
  completes (frameArrives .dispatch frame) s

/-- HANDBACK_FRAME_DROPPED (R163). -/
def execHandbackFrameDropped (frame : Frame) (s : State) : Host.Outcome State Fault Refusal :=
  completes (frameArrives .dispatch frame) s

end Sys2Proof.Machine
end

