-- ==== Sys2Proof/Machine/Requests.lean ====
section
/-! DEFINITION. The commands that are manage requests to the part (10): each is the valid MANAGE REQUEST that its codes spell
(R166), addressed to the part address in force. -/

namespace Sys2Proof.Machine

/-- A MANAGE REQUEST that names the part address in force completes on the dispatch port (R138, R167). -/
def requestArrives (payload : List Byte) (p : Part) : Part :=
  frameArrives .dispatch (.manageRequest p.link.settings.partAddress payload) p

/-- MANAGE_REQUEST_BAD_KIND (R167). -/
def execManageRequestBadKind (kind : Byte) (args : List Byte) (s : State) : Host.Outcome State Fault Refusal :=
  completes (requestArrives (kind :: args)) s

/-- READ (R168). -/
def execRead (args : List Byte) (s : State) : Host.Outcome State Fault Refusal :=
  completes (requestArrives (1 :: args)) s

/-- WRITE_CAR_IDENTITY (R19). -/
def execWriteCarIdentity (args : List Byte) (s : State) : Host.Outcome State Fault Refusal :=
  completes (requestArrives (2 :: 1 :: args)) s

/-- WRITE_CAR_CONFIGURATION (R20). -/
def execWriteCarConfiguration (args : List Byte) (s : State) : Host.Outcome State Fault Refusal :=
  completes (requestArrives (2 :: 2 :: args)) s

/-- WRITE_CLASS (R48). -/
def execWriteClass (args : List Byte) (s : State) : Host.Outcome State Fault Refusal :=
  completes (requestArrives (2 :: 4 :: args)) s

/-- WRITE_PLANT (R49). -/
def execWritePlant (args : List Byte) (s : State) : Host.Outcome State Fault Refusal :=
  completes (requestArrives (2 :: 5 :: args)) s

/-- WRITE_GROUP (R89). -/
def execWriteGroup (args : List Byte) (s : State) : Host.Outcome State Fault Refusal :=
  completes (requestArrives (2 :: 6 :: args)) s

/-- WRITE_RECALL_ORDER (R90). -/
def execWriteRecallOrder (args : List Byte) (s : State) : Host.Outcome State Fault Refusal :=
  completes (requestArrives (2 :: 7 :: args)) s

/-- WRITE_TRIP_MAP (R108). -/
def execWriteTripMap (args : List Byte) (s : State) : Host.Outcome State Fault Refusal :=
  completes (requestArrives (2 :: 8 :: args)) s

/-- WRITE_SCHEDULE (R156). -/
def execWriteSchedule (args : List Byte) (s : State) : Host.Outcome State Fault Refusal :=
  completes (requestArrives (2 :: 9 :: args)) s

/-- WRITE_LINK_SETTINGS (R135). -/
def execWriteLinkSettings (args : List Byte) (s : State) : Host.Outcome State Fault Refusal :=
  completes (requestArrives (2 :: 10 :: args)) s

/-- COPY_ACTIVE_TO_SHADOW (R170). -/
def execCopyActiveToShadow (args : List Byte) (s : State) : Host.Outcome State Fault Refusal :=
  completes (requestArrives (3 :: args)) s

/-- APPLY (R171, R172). -/
def execApply (args : List Byte) (s : State) : Host.Outcome State Fault Refusal :=
  completes (requestArrives (4 :: args)) s

/-- START_SERVICE (R171, R94). -/
def execStartService (args : List Byte) (s : State) : Host.Outcome State Fault Refusal :=
  completes (requestArrives (5 :: args)) s

/-- ENABLE (R22). -/
def execEnable (index : Byte) (args : List Byte) (s : State) : Host.Outcome State Fault Refusal :=
  completes (requestArrives (6 :: index :: 0 :: args)) s

/-- DISABLE (R23). -/
def execDisable (index : Byte) (args : List Byte) (s : State) : Host.Outcome State Fault Refusal :=
  completes (requestArrives (6 :: index :: 1 :: args)) s

/-- ISOLATE (R42). -/
def execIsolate (index : Byte) (args : List Byte) (s : State) : Host.Outcome State Fault Refusal :=
  completes (requestArrives (6 :: index :: 2 :: args)) s

/-- RESTORE (R43). -/
def execRestore (index : Byte) (args : List Byte) (s : State) : Host.Outcome State Fault Refusal :=
  completes (requestArrives (6 :: index :: 3 :: args)) s

/-- CLEAR_UNFIT (R44). -/
def execClearUnfit (index : Byte) (args : List Byte) (s : State) : Host.Outcome State Fault Refusal :=
  completes (requestArrives (6 :: index :: 4 :: args)) s

/-- CLEAR_FLAGS (R174). -/
def execClearFlags (args : List Byte) (s : State) : Host.Outcome State Fault Refusal :=
  completes (requestArrives (7 :: args)) s

/-- SET_NOTICE_MASK (R175). -/
def execSetNoticeMask (args : List Byte) (s : State) : Host.Outcome State Fault Refusal :=
  completes (requestArrives (8 :: args)) s

/-- CLEAR_COUNTERS (R137). -/
def execClearCounters (args : List Byte) (s : State) : Host.Outcome State Fault Refusal :=
  completes (requestArrives (9 :: args)) s

/-- SUMMARY (R176). -/
def execSummary (args : List Byte) (s : State) : Host.Outcome State Fault Refusal :=
  completes (requestArrives (10 :: args)) s

/-- LOCK (R177). -/
def execLock (args : List Byte) (s : State) : Host.Outcome State Fault Refusal :=
  completes (requestArrives (11 :: args)) s

/-- RESTART (R178). -/
def execRestart (args : List Byte) (s : State) : Host.Outcome State Fault Refusal :=
  completes (requestArrives (12 :: args)) s

end Sys2Proof.Machine
end

