-- ==== Sys2Proof/Machine/Samples.lean ====
section
/-! DEFINITION. The discrete inputs: the millisecond samples of the switch and alarm lines, and RESET. -/

namespace Sys2Proof.Machine

/-- One sample of the switch lines; a move out of NORMAL while SILENT takes the link (R1 to R3, R155; log entry 13). -/
def switchSample (util gen : SwitchLevel) (p : Part) : Part :=
  let sampled := sampleSwitch util gen p
  if p.sup.state = .normal then takeOverIfSilent sampled else sampled

/-- The switch lines are driven to these levels and this millisecond's sample is taken. -/
def driveSwitch (util gen : SwitchLevel) (p : Part) : Part :=
  switchSample util gen { p with pins.util := util, pins.gen := gen, pins.switchSampled := true }

/-- The alarm lines are driven to these levels and this millisecond's sample is taken. -/
def driveAlarms (a1 a2 a3 a4 : AlarmLevel) (p : Part) : Part :=
  sampleAlarms a1 a2 a3 a4
    { p with pins.a1 := a1, pins.a2 := a2, pins.a3 := a3, pins.a4 := a4, pins.alarmSampled := true }

/-- Every block at its hard reset values; the pins stay as they are driven, and with them the model's marks that this millisecond
has been sampled, so that a millisecond sampled before the reset is not sampled again after it (R17; log entry 27). -/
def resetPart (p : Part) : Part := { pins := p.pins }

/-- HARD_RESET (R17). -/
def execHardReset (s : State) : Host.Outcome State Fault Refusal := completes resetPart s

/-- SWITCH_LINE_FILTERED (R1). -/
def execSwitchLineFiltered (util gen : SwitchLevel) (s : State) : Host.Outcome State Fault Refusal :=
  completes (driveSwitch util gen) s

/-- ALARM_LINE_FILTERED (R106). -/
def execAlarmLineFiltered (a1 a2 a3 a4 : AlarmLevel) (s : State) : Host.Outcome State Fault Refusal :=
  completes (driveAlarms a1 a2 a3 a4) s

end Sys2Proof.Machine
end

