-- ==== Sys2Proof/Machine/Dispatch.lean ====
section
/-! DEFINITION. The meaning of each command. -/

namespace Sys2Proof.Machine

/-- The effect of a command on everything but the queue of commands. -/
def exec (i : Instr) (s : State) : Host.Outcome State Fault Refusal :=
  match i with
  | .hardReset => Sys2Proof.Machine.execHardReset s
  | .switchLineFiltered util gen => Sys2Proof.Machine.execSwitchLineFiltered util gen s
  | .alarmLineFiltered a1 a2 a3 a4 => Sys2Proof.Machine.execAlarmLineFiltered a1 a2 a3 a4 s
  | .warmUpExpiry => Sys2Proof.Machine.execWarmUpExpiry s
  | .recallLimitExpiry => Sys2Proof.Machine.execRecallLimitExpiry s
  | .plantReportStale => Sys2Proof.Machine.execPlantReportStale s
  | .startTimerExpiry car => Sys2Proof.Machine.execStartTimerExpiry car s
  | .tripTimerExpiry car => Sys2Proof.Machine.execTripTimerExpiry car s
  | .settleExpiry => Sys2Proof.Machine.execSettleExpiry s
  | .blindExpiry => Sys2Proof.Machine.execBlindExpiry s
  | .recoveryExpiry => Sys2Proof.Machine.execRecoveryExpiry s
  | .holdOffExpiry => Sys2Proof.Machine.execHoldOffExpiry s
  | .silenceExpiry => Sys2Proof.Machine.execSilenceExpiry s
  | .cyclePeriodExpiry => Sys2Proof.Machine.execCyclePeriodExpiry s
  | .replyTimerExpiry port => Sys2Proof.Machine.execReplyTimerExpiry port s
  | .sendingLineTimeout port => Sys2Proof.Machine.execSendingLineTimeout port s
  | .frameFirstCharacter port char => Sys2Proof.Machine.execFrameFirstCharacter port char s
  | .frameAbandoned port => Sys2Proof.Machine.execFrameAbandoned port s
  | .frameTruncated port => Sys2Proof.Machine.execFrameTruncated port s
  | .receiverIdleResync port => Sys2Proof.Machine.execReceiverIdleResync port s
  | .frameDiscarded port chars => Sys2Proof.Machine.execFrameDiscarded port chars s
  | .transmitStart port => Sys2Proof.Machine.execTransmitStart port s
  | .transmitComplete port => Sys2Proof.Machine.execTransmitComplete port s
  | .cycleMark number => Sys2Proof.Machine.execCycleMark number s
  | .carOrder address order => Sys2Proof.Machine.execCarOrder address order s
  | .plantPoll address => Sys2Proof.Machine.execPlantPoll address s
  | .plantReport address power freq flags => Sys2Proof.Machine.execPlantReport address power freq flags s
  | .manageRequestOtherAddress address payload => Sys2Proof.Machine.execManageRequestOtherAddress address payload s
  | .carReport port address report => Sys2Proof.Machine.execCarReport port address report s
  | .masterCarReport port address report => Sys2Proof.Machine.execMasterCarReport port address report s
  | .masterPlantReport address power freq flags => Sys2Proof.Machine.execMasterPlantReport address power freq flags s
  | .masterCycleMark number => Sys2Proof.Machine.execMasterCycleMark number s
  | .masterDispatchFrameIgnored frame => Sys2Proof.Machine.execMasterDispatchFrameIgnored frame s
  | .handbackFrameDropped frame => Sys2Proof.Machine.execHandbackFrameDropped frame s
  | .manageRequestBadKind kind args => Sys2Proof.Machine.execManageRequestBadKind kind args s
  | .read args => Sys2Proof.Machine.execRead args s
  | .writeCarIdentity args => Sys2Proof.Machine.execWriteCarIdentity args s
  | .writeCarConfiguration args => Sys2Proof.Machine.execWriteCarConfiguration args s
  | .writeClass args => Sys2Proof.Machine.execWriteClass args s
  | .writePlant args => Sys2Proof.Machine.execWritePlant args s
  | .writeGroup args => Sys2Proof.Machine.execWriteGroup args s
  | .writeRecallOrder args => Sys2Proof.Machine.execWriteRecallOrder args s
  | .writeTripMap args => Sys2Proof.Machine.execWriteTripMap args s
  | .writeSchedule args => Sys2Proof.Machine.execWriteSchedule args s
  | .writeLinkSettings args => Sys2Proof.Machine.execWriteLinkSettings args s
  | .copyActiveToShadow args => Sys2Proof.Machine.execCopyActiveToShadow args s
  | .apply args => Sys2Proof.Machine.execApply args s
  | .startService args => Sys2Proof.Machine.execStartService args s
  | .enable index args => Sys2Proof.Machine.execEnable index args s
  | .disable index args => Sys2Proof.Machine.execDisable index args s
  | .isolate index args => Sys2Proof.Machine.execIsolate index args s
  | .restore index args => Sys2Proof.Machine.execRestore index args s
  | .clearUnfit index args => Sys2Proof.Machine.execClearUnfit index args s
  | .clearFlags args => Sys2Proof.Machine.execClearFlags args s
  | .setNoticeMask args => Sys2Proof.Machine.execSetNoticeMask args s
  | .clearCounters args => Sys2Proof.Machine.execClearCounters args s
  | .summary args => Sys2Proof.Machine.execSummary args s
  | .lock args => Sys2Proof.Machine.execLock args s
  | .restart args => Sys2Proof.Machine.execRestart args s
  | .characterFaultBetweenFrames port => Sys2Proof.Machine.execCharacterFaultBetweenFrames port s

end Sys2Proof.Machine
end

