-- ==== Sys2Proof/Machine/Time.lean ====
section
/-! DEFINITION. The 1 ms timebase (00 §1.5) when no command waits: the events that have come due, and one millisecond. -/

namespace Sys2Proof.Machine

/-! ### One millisecond -/

/-- The lines that no command sampled in this millisecond are sampled at the level they hold (R1, R106): the switch lines
first, then the alarm lines (log entry 42). -/
def sampleHeldPins (p : Part) : Part :=
  let switched := if p.pins.switchSampled then p else driveSwitch p.pins.util p.pins.gen p
  if switched.pins.alarmSampled then switched
  else driveAlarms switched.pins.a1 switched.pins.a2 switched.pins.a3 switched.pins.a4 switched

def tickSupervisor (x : Supervisor) : Supervisor :=
  { x with warmUp := tickTimer x.warmUp, recallLimit := tickTimer x.recallLimit }

def tickCar (c : Car) : Car := { c with startTimer := tickTimer c.startTimer, tripTimer := tickTimer c.tripTimer }

def tickAdmission (x : Admission) : Admission :=
  { x with settle := tickTimer x.settle, recovery := tickTimer x.recovery, holdOff := tickTimer x.holdOff }

/-- A slot's reply timers count µs and are not counted on the timebase (00 §1.5; log entry 28). -/
def tickSlot (sl : Slot) : Slot := { sl with sendBound := tickTimer sl.sendBound }

def tickMaster (x : Master) : Master :=
  { x with silence := tickTimer x.silence, period := tickTimer x.period, slot := x.slot.map tickSlot }

/-- The millisecond count goes on by 1, wrapping, and every timer of the timebase with it. -/
def tickTimers (p : Part) : Part :=
  { p with
    now := p.now + 1
    pins.switchSampled := false
    pins.alarmSampled := false
    sup := tickSupervisor p.sup
    cars := p.cars.map tickCar
    adm := tickAdmission p.adm
    master := tickMaster p.master }

/-- One millisecond passes in a part with nothing due: the sample of the held levels stands behind every expiry that was due
(log entry 49). -/
def tick (p : Part) : Part := tickTimers (sampleHeldPins p)

/-! ### Events that have come due -/

/-- The command of a timer, when it is due. -/
def whenDue (t : Timer) (c : Instr) : List Instr := if timerDue t then [c] else []

def dueSupervisor (p : Part) : List Instr :=
  whenDue p.sup.warmUp .warmUpExpiry ++ whenDue p.sup.recallLimit .recallLimitExpiry
    ++ (if p.overAge then [.plantReportStale] else [])

def dueCar (p : Part) (i : CarIdx) : List Instr :=
  whenDue (p.car i).startTimer (.startTimerExpiry i) ++ whenDue (p.car i).tripTimer (.tripTimerExpiry i)

/-- The settle timer's expiry by the window it runs in (R79, R82). -/
def settleCommand (p : Part) : Instr :=
  match p.adm.window with
  | some w => if w.phase = .blind then .blindExpiry else .settleExpiry
  | none => .settleExpiry

def dueAdmission (p : Part) : List Instr :=
  whenDue p.adm.settle (settleCommand p) ++ whenDue p.adm.recovery .recoveryExpiry
    ++ whenDue p.adm.holdOff .holdOffExpiry

/-- The lines of the master slot that are still SENDING at its bound (R159). -/
def dueLine (sl : Slot) (port : Port) : List Instr :=
  match slotLine sl port with
  | some x => if x.status = .sending then [.sendingLineTimeout port] else []
  | none => []

def dueMaster (p : Part) : List Instr :=
  whenDue p.master.silence .silenceExpiry ++ whenDue p.master.period .cyclePeriodExpiry
    ++ match p.master.slot with
      | some sl =>
        if p.master.mode ≠ .relay ∧ timerDue sl.sendBound then
          dueLine sl .dispatch ++ dueLine sl .carA ++ dueLine sl .carB
        else []
      | none => []

/-- Every event of the timebase that has come due. -/
def dueCommands (p : Part) : List Instr :=
  dueSupervisor p ++ allCars.flatMap (dueCar p) ++ dueAdmission p ++ dueMaster p

/-- The event an idle part takes next, if one is due. The manual orders no two events of one instant: which is taken first
is a free choice (log entry 2). -/
def nextDue (s : State) : Option (Instr × State) :=
  match dueCommands s.part with
  | [] => none
  | [c] => some (c, s)
  | c :: d :: rest =>
    some ((c :: d :: rest).getD (Config.freeChoice s.freeCount % (rest.length + 2)) c,
      { s with freeCount := s.freeCount + 1 })

end Sys2Proof.Machine
end

