-- ==== Sys2Proof/Machine/Step.lean ====
section
/-! DEFINITION. One step of the block: the command at the front of the queue, or, when none waits, an event that has come
due or one millisecond (log entry 1). -/

namespace Sys2Proof.Machine

/-- A step with no command waiting (log entry 1). Every event that has come due is taken before the lines are next sampled at
their held levels, an expiry before the sample of its own millisecond (R1, R8; log entry 49). -/
def idleStep (s : State) : Host.Outcome State Fault Refusal :=
  match nextDue s with
  | some (c, chosen) => exec c chosen
  | none => .next { s with part := tick s.part }

def step (s : State) : Host.Outcome State Fault Refusal :=
  match s.pending with
  | c :: rest => exec c { s with pending := rest }
  | [] => idleStep s

/-- The state with the command that a word spells at the front of its queue; unchanged where the word spells none. -/
def State.withFetchWord (s : State) (nbits w : Nat) : State :=
  match decodeTableWord nbits w with
  | some c => { s with pending := c :: s.pending }
  | none => s

end Sys2Proof.Machine
end

