-- ==== Sys2Proof/Safety.lean ====
section
/-! DEFINITION. What must hold of the part at every step: the sums of commitments (R85), the bounds of the queues, counters and
link settings (R129, R135, R137), the shape of the link mastership state (09), lists without repeats (R89, R90), and what the site
lock protects (R108, R177). And what the statements name: the selection's outcome, the end of recall, a port that takes a
frame, the reply to a request, a master cycle and its walk, takeover. -/

namespace Sys2Proof.Machine

/-! ### Sums of commitments (R85) -/

/-- The sum of the motoring commitments of all car records. -/
def Part.totalM (p : Part) : Nat := (allCars.map fun i => (p.car i).m).sum

/-- The sum of the regenerating commitments of all car records. -/
def Part.totalR (p : Part) : Nat := (allCars.map fun i => (p.car i).r).sum

/-- M and R are the sums of the commitments (R85). -/
def Part.sumsAgree (p : Part) : Prop := p.adm.sumM = p.totalM ∧ p.adm.sumR = p.totalR

/-! ### Bounds of the link (R129, R135, R137) -/

/-- A port's transmit queue holds at most 4 frames and its counters at most 65535. -/
def PortState.bounded (x : PortState) : Prop :=
  x.queue.length ≤ 4 ∧ x.checkErrors ≤ 65535 ∧ x.overflow ≤ 65535

/-- The link settings in force, and those that are pending, lie in their ranges (R135). -/
def Link.settingsFit (l : Link) : Prop :=
  settingsInRange l.settings = true ∧ ∀ r, l.pending = some r → settingsInRange r = true

/-- The bounds of the three ports, the shared counters and the link settings. -/
def Link.bounded (l : Link) : Prop :=
  l.dispatch.bounded ∧ l.carA.bounded ∧ l.carB.bounded ∧ l.malformed ≤ 65535 ∧ l.strays ≤ 65535 ∧ l.dropped ≤ 65535
    ∧ l.settingsFit

/-! ### Link mastership (R154 to R165) -/

/-- In RELAY no master cycle stands; in MASTER and HANDBACK the forwarding unit's slot record is IDLE and the cycle is in
SLOTS or WAIT; the next cycle number is 0..63 (R155, R157, R164). -/
def Part.masteryFits (p : Part) : Prop :=
  (p.master.mode = .relay →
    p.master.phase = .none ∧ p.master.cycle = none ∧ p.master.walk = none ∧ p.master.slot = none
      ∧ p.master.period = .stopped)
  ∧ (p.master.mode ≠ .relay → p.slot = none ∧ p.master.phase ≠ .none)
  ∧ p.master.nextCycle ≤ 63

/-! ### The site lock (R108, R177) -/

/-- What the site lock protects: both copies of the plant table and of the trip map. -/
def Part.lockedTables (p : Part) : Plant × Vector TripEntry 4 × Plant × Vector TripEntry 4 :=
  (p.active.plant, p.active.tripMap, p.shadow.plant, p.shadow.tripMap)

/-! ### Lists of cars (R89, R90) -/

/-- No car stands twice in a service list or in the recall order list. -/
def Tables.listsDistinct (t : Tables) : Prop :=
  (∀ g : GroupIdx, t.groups[g.val].serviceList.Nodup) ∧ t.recallOrder.Nodup

/-- No car stands twice in a list of the active or the shadow tables. -/
def Part.listsDistinct (p : Part) : Prop := p.active.listsDistinct ∧ p.shadow.listsDistinct

/-! ### The transfer table (01) -/

/-- The state that the table of 01 gives after a change of switch position. -/
def transferTable : TransferState → Position → TransferState
  | _, .opened => .outage
  | _, .invalid => .outage
  | _, .utility => .normal
  | .normal, .generator => .standby
  | .outage, .generator => .standby
  | s, .generator => s
  | s, .unknown => s

/-- The cause of a change of state that a change of switch position makes (R4). -/
def positionCause : Position → Cause
  | .opened => .switchOpen
  | .invalid => .switchInvalid
  | .generator => .switchGenerator
  | _ => .switchUtility

/-! ### Steps and commitments (04) -/

/-- The part after the step completion of car i with snapshot f (R83), the gap not yet judged: RUNNING, m the m_run, M less
the difference, the window NONE and its timers stopped. -/
def Part.stepCompleted (p : Part) (i : CarIdx) (f : Figures) : Part :=
  { p.modCar i fun c => { c with run := .running, m := f.mRun } with
    adm := { p.adm with
      sumM := p.adm.sumM + f.mRun - (p.car i).m
      window := none
      settle := .stopped
      recovery := .stopped } }

/-- Nothing waits for the step gap: no car is QUEUED and the deferred slot is EMPTY. -/
def Part.nothingWaits (p : Part) : Prop := p.queuedCars = [] ∧ p.mgmt.deferred = none

/-! ### Service selection (R97 to R99) -/

/-- The record of a car after a service selection: of its group's listed counted cars the first ones up to the service count
stay, and the first listed candidates make up what is missing; every other counted or unlisted SERVICE car of the group is
demoted. -/
def Part.afterSelection (p : Part) (i : CarIdx) : Car :=
  let c := p.car i
  let g := p.group i
  let listed := (p.groupRec g).serviceList
  let count := (p.groupRec g).serviceCount
  let counted := listed.filter fun j => p.group j = g ∧ (p.car j).duty = .service ∧ (p.car j).pendingRecall = false
  let candidates := listed.filter fun j => p.group j = g
    ∧ ((p.car j).duty = .parked ∧ (p.car j).blocked = false ∨ (p.car j).duty = .service ∧ (p.car j).pendingRecall = true)
  let kept :=
    if count ≤ counted.length then counted.take count else counted ++ candidates.take (count - counted.length)
  if i ∈ kept then { c with
    duty := .service
    pendingRecall := false }
  else if c.duty = .service ∧ (i ∉ listed ∨ c.pendingRecall = false) then
    if c.holdsRun then { c with pendingRecall := true }
    else { c with
      duty := if passesStanding (p.recallFloor i) c then .parked else .recall
      pendingRecall := false }
  else c

/-! ### The end of recall (R96) and the move to RETURN (R12) -/

/-- q is p after a move of the transfer state to RETURN, f remembered (R12): the record of the change, the queue flushed, the
recall limit timer stopped, each SERVICE car with a run shed, with the SHED flag where a mark is newly set. Nothing else has
changed. -/
def Part.entersReturn (p q : Part) (f : Remembered) : Prop :=
  let toShed (i : CarIdx) : Prop := (p.car i).duty = .service ∧ (p.car i).holdsRun = true
  q = { p with
    sup := { p.sup with
      state := .returning
      previous := p.sup.state
      changeTime := p.now
      cause := .retransferSet
      remembered := some f
      recallLimit := .stopped }
    cars := q.cars
    adm.joinCounter := 0
    mgmt.flags := q.mgmt.flags }
  ∧ (∀ i, ((p.car i).run = .queued → q.car i = { p.car i with
        run := .idle
        priority := none
        joinSeq := none })
      ∧ (toShed i → q.car i = { p.car i with shed := true })
      ∧ ((p.car i).run ≠ .queued → ¬ toShed i → q.car i = p.car i))
  ∧ q.flag .transfer = true
  ∧ (q.flag .shed = true ↔ p.flag .shed = true ∨ ∃ i, toShed i ∧ (p.car i).shed = false)
  ∧ ∀ e, e ≠ .transfer → e ≠ .shed → q.flag e = p.flag e

/-- q is p after the end of recall (R96): RECALL DONE and TRANSFER set, the transfer state SERVICE with cause RECALL DONE, the
recall limit timer stopped (R9), and a service selection; then, with a report of retransfer pending held, the move to RETURN (R12).
Nothing else has changed. -/
def Part.endsRecall (p q : Part) : Prop :=
  ∃ x : Part,
    x = { p with
      sup := { p.sup with
        state := .service
        previous := p.sup.state
        changeTime := p.now
        cause := .recallDone
        recallLimit := .stopped }
      cars := x.cars
      mgmt.flags := x.mgmt.flags }
    ∧ (p.listsDistinct → ∀ i, x.car i = p.afterSelection i)
    ∧ x.flag .recallDone = true ∧ x.flag .transfer = true
    ∧ (∀ e, e ≠ .recallDone → e ≠ .transfer → x.flag e = p.flag e)
    ∧ (p.retransferHeld = false → q = x) ∧ (p.retransferHeld = true → x.entersReturn q .service)

/-! ### Characters one by one (R122) -/

/-- The state after a character arrives on a port. -/
def feedCharacter (port : Port) (s : State) (c : Byte) : State :=
  match exec (.frameFirstCharacter port c) s with
  | .next t => t
  | .fault _ => s
  | .refused _ => s

/-- The state after the characters arrive on a port, in order. -/
def feedCharacters (port : Port) (chars : List Byte) (s : State) : State := chars.foldl (feedCharacter port) s

/-! ### A port that takes a frame (R121, R122) -/

/-- The port takes characters and is not DISCARDING. -/
def Part.takesFrame (p : Part) (port : Port) : Prop :=
  (p.link.port port).sending = false ∧ (p.link.port port).receiver ≠ .discarding

/-- The port takes characters and no frame is in progress on it. -/
def Part.lineFree (p : Part) (port : Port) : Prop :=
  (p.link.port port).sending = false ∧ (p.link.port port).receiver = .betweenFrames

/-- No line is expected on the port (R122, R146): no slot is open, or the one in progress expects other lines only, one of
which is still awaited. -/
def Part.lineUnexpected (p : Part) (port : Port) : Prop :=
  p.slotNow = none ∨
    ∃ sl other y, p.slotNow = some sl ∧ slotLine sl port = none ∧ slotLine sl other = some y ∧ y.status ≠ .answered
      ∧ y.status ≠ .silent

/-- The part serves a request of its own now (R138, R167): link mode RELAY, and the dispatch port takes a frame. -/
def Part.takesRequest (p : Part) : Prop := p.master.mode = .relay ∧ p.takesFrame .dispatch

/-- The part serves a request addressed to it: as before, with a part address in its range (R135). -/
def Part.servesRequest (p : Part) : Prop := p.takesRequest ∧ isNodeAddress p.link.settings.partAddress = true

/-- The part when a whole frame has just been received on a port: the receiver BETWEEN FRAMES, the frame not yet judged. -/
def Part.received (p : Part) (port : Port) : Part := setReceiver port .betweenFrames (noteFirst port p)

/-- The part when a dispatch frame that closes the slot record has been received in RELAY (R148). -/
def Part.slotClosed (p : Part) : Part := closeSlot (p.received .dispatch)

/-! ### The reply to a request (R134, R167) -/

/-- The part with a MANAGE REPLY of this result code and data handed to the dispatch port: its characters at the tail of the
transmit queue, or an overflow counted where the queue is full (R129, R134). -/
def Part.replied (code : Byte) (data : List Byte) (p : Part) : Part :=
  let body := 0x31#8 :: p.link.settings.partAddress :: BitVec.ofNat 8 (1 + data.length) :: code :: data
  { p with link.dispatch :=
      if p.link.dispatch.queue.length < 4 then
        { p.link.dispatch with queue := p.link.dispatch.queue ++ [⟨body ++ be16 (crc body), false⟩] }
      else { p.link.dispatch with
        overflow := if p.link.dispatch.overflow < 65535 then p.link.dispatch.overflow + 1 else p.link.dispatch.overflow } }

/-! ### Master cycles (R157, R158) -/

/-- A schedule entry is matched by cycle c: it is used and c AND mask equals value AND mask (R158). -/
def ScheduleEntry.matchedBy (e : ScheduleEntry) (c : Nat) : Prop := e.used = true ∧ c &&& e.mask = e.value &&& e.mask

/-- A port that takes a frame at the tail of its transmit queue, or counts an overflow (R129). -/
def PortState.handed (x : PortState) (f : TxFrame) : PortState :=
  if x.queue.length < 4 then { x with queue := x.queue ++ [f] }
  else { x with overflow := if x.overflow < 65535 then x.overflow + 1 else x.overflow }

/-- The CYCLE MARK that carries a number (R130). -/
def markFrame (n : Nat) : TxFrame :=
  let body := [0x01#8, 0x00#8, 0x01#8, BitVec.ofNat 8 n]
  ⟨body ++ be16 (crc body), false⟩

/-- The ports in t when the slot sl has opened over the ports as they stood before (R159, R160): each polled port holds the frame f
at the tail of its queue and its line is SENDING, or WAITING with the reply limit where the queue had no room for f; every other
port is as before, and no line is expected on it. -/
def Part.pollsOn (t : Part) (before : Port → PortState) (sl : Slot) (ports : List Port) (f : TxFrame) : Prop :=
  ∀ port,
    (port ∈ ports → t.link.port port = (before port).handed f
      ∧ slotLine sl port = some (if (before port).queue.length < 4 then ⟨.sending, .stopped⟩
          else ⟨.waiting, .running t.link.settings.replyLimit⟩))
    ∧ (port ∉ ports → t.link.port port = before port ∧ slotLine sl port = none)

/-- What a matched entry polls, on the slot sl that opens for it: a CAR entry its address with the issued order, a PLANT entry the
plant node with a PLANT POLL (R159, R160). -/
def Part.polls (q t : Part) (before : Port → PortState) (sl : Slot) : SlotTarget → Prop
  | .car address lines =>
      let issued := q.issuedOrder address none
      sl.kind = .car ∧ sl.address = address ∧ sl.held = issued.2
        ∧ t.pollsOn before sl (linePorts lines) ⟨wireChars (.carOrder address issued.1), true⟩
  | .plant =>
      let node := t.link.settings.plantNode
      sl.kind = .plant ∧ sl.address = node ∧ sl.held = false
        ∧ t.pollsOn before sl [.dispatch] ⟨wireChars (.plantPoll node), true⟩

/-- The slot of schedule entry k is open in t, over the ports as they stood before it (R158 to R160). -/
def Part.opensEntry (q t : Part) (before : Port → PortState) (k : Fin 64) : Prop :=
  ∃ sl, t.master.slot = some sl ∧ sl.answered = false ∧ sl.replyLimit = t.link.settings.replyLimit
    ∧ sl.sendBound = .running t.link.settings.cyclePeriod ∧ q.polls t before sl q.active.schedule[k.val].target

/-- t is q after a master cycle has begun (R157): the next number is current and counted up modulo 64, pending link settings
are in force, the period timer runs with their period; the walk stands at the first matched entry with its slot open and its
frame handed to the ports behind the mark, or, with none matched, the phase is WAIT and nothing but the mark has been handed to
the ports (R158). Nothing else has changed. -/
def Part.beginsCycle (q t : Part) : Prop :=
  let c := q.master.nextCycle
  let marked (port : Port) : PortState := (q.link.port port).handed (markFrame c)
  let settings := q.link.pending.getD q.link.settings
  t = { q with
    link := { q.link with
      dispatch := t.link.dispatch
      carA := t.link.carA
      carB := t.link.carB
      settings := settings
      pending := none }
    master := { q.master with
      cycle := some c
      nextCycle := (c + 1) % 64
      period := .running settings.cyclePeriod
      phase := t.master.phase
      walk := t.master.walk
      slot := t.master.slot } }
  ∧ ((∀ k : Fin 64, ¬ q.active.schedule[k.val].matchedBy c) →
      t.master.phase = .wait ∧ t.master.walk = none ∧ t.master.slot = q.master.slot
      ∧ ∀ port, t.link.port port = marked port)
  ∧ ∀ k : Fin 64, q.active.schedule[k.val].matchedBy c →
      (∀ j : Fin 64, j.val < k.val → ¬ q.active.schedule[j.val].matchedBy c) →
      t.master.phase = .slots ∧ t.master.walk = some k ∧ q.opensEntry t marked k

/-- The part when the handback has completed: RELAY, no cycle, the silence timer running, the status LIVE (R164). -/
def Part.handedBack (p : Part) : Part :=
  { p with master := { p.master with
      mode := .relay
      phase := .none
      cycle := none
      walk := none
      slot := none
      period := .stopped
      silence := .running p.link.settings.silenceLimit
      silent := false } }

/-- t is q after its walk has gone on from a position (R158): the first matched entry from there on has its slot opened; where none
is matched the walk is done, which completes a handback (R164), begins the next cycle where the period timer has expired, and
otherwise makes the phase WAIT. Nothing else has changed. -/
def Part.walksOn (q t : Part) (position : Nat) : Prop :=
  let done : Part := { q with master.walk := none }
  let matched (k : Fin 64) : Prop :=
    position ≤ k.val ∧ q.active.schedule[k.val].matchedBy (q.master.cycle.getD 0)
  (∀ k, matched k → (∀ j, matched j → k.val ≤ j.val) →
    t = { q with
      link := { q.link with
        dispatch := t.link.dispatch
        carA := t.link.carA
        carB := t.link.carB }
      master := { q.master with
        walk := some k
        slot := t.master.slot } }
    ∧ q.opensEntry t q.link.port k)
  ∧ ((∀ k, ¬ matched k) →
    (q.master.mode = .handback → t = done.handedBack)
    ∧ (q.master.mode ≠ .handback → q.master.period = .expired → done.beginsCycle t)
    ∧ (q.master.mode ≠ .handback → q.master.period ≠ .expired → t = { done with master.phase := .wait }))

/-- t is p, in RELAY with the status SILENT, after takeover (R155): the relay slot has closed, the link mode is MASTER, each
SERVICE car with a run is shed, with the SHED flag where a mark is newly set (R102), and the first master cycle has begun. Nothing
else has changed. -/
def Part.takesOver (p t : Part) : Prop :=
  let closed := closeSlot p
  let toShed (i : CarIdx) : Prop := (closed.car i).duty = .service ∧ (closed.car i).holdsRun = true
  ∃ q : Part, q.beginsCycle t
    ∧ q = { closed with
        cars := q.cars
        slot := none
        master := { p.master with mode := .master }
        mgmt := { closed.mgmt with flags := q.mgmt.flags } }
    ∧ (∀ i, q.car i = if toShed i then { closed.car i with shed := true } else closed.car i)
    ∧ (∀ e, e ≠ .shed → q.flag e = closed.flag e)
    ∧ (q.flag .shed = true ↔ closed.flag .shed = true ∨ ∃ i, toShed i ∧ (closed.car i).shed = false)

/-! ### The slot in progress (R146, R148, R159, R160) -/

/-- A line of the slot is awaited: it is expected, and neither ANSWERED nor SILENT. -/
def Slot.awaits (sl : Slot) (port : Port) : Prop :=
  ∃ x, slotLine sl port = some x ∧ x.status ≠ .answered ∧ x.status ≠ .silent

/-- t is p once its slot in progress has become sl. While a line of sl is awaited the slot stays. When none is, it closes in RELAY
(R148); in MASTER and HANDBACK it ends: its outcome is settled as at the close of the same slot in RELAY, and the walk goes on
behind its entry (R158 to R160). There the forwarding unit's record is IDLE, as every step keeps it. -/
def Part.slotGoesOn (p t : Part) (sl : Slot) : Prop :=
  ((∃ port, sl.awaits port) → t = p.setSlotNow (some sl))
  ∧ ((∀ port, ¬ sl.awaits port) →
    (p.master.mode = .relay → t = closeSlot { p with slot := some sl })
    ∧ ∀ k : Fin 64, p.master.mode ≠ .relay → p.slot = none → p.master.walk = some k →
      (closeSlot { p with
        slot := some sl
        master.slot := none }).walksOn t (k.val + 1))

/-- t is p once a frame that is neither an answer nor a duplicate has ended on a port, sl being the slot in progress (R146): a
RECEIVING line is WAITING again while its reply timer runs and SILENT when it has expired, any other line is as it was, and the
slot goes on. -/
def Part.frameEndsOn (p t : Part) (port : Port) (sl : Slot) : Prop :=
  (∀ x, slotLine sl port = some x → x.status = .receiving →
    (∀ n, x.timer = .running n → p.slotGoesOn t (setSlotLine sl port { x with status := .waiting }))
    ∧ (x.timer.isRunning = false → p.slotGoesOn t (setSlotLine sl port { x with status := .silent })))
  ∧ ((∀ x, slotLine sl port = some x → x.status ≠ .receiving) → p.slotGoesOn t sl)

end Sys2Proof.Machine
end

