-- ==== Sys2Proof/WellFormed.lean ====
section
/-! DEFINITION. When a command is one that the row's rule can mean: the values of a frame's fields (R124 to R134), the
port a frame may arrive on (R125), and the lengths a request may have (R134). `exec` gives a meaning to the others too. -/

namespace Sys2Proof

open Machine

/-- The argument bytes that fit behind k bytes of a MANAGE REQUEST (R134: 1..32 in all). -/
def argsFit (k : Nat) (args : List Byte) : Bool := decide (k + args.length ≤ 32)

/-- A request kind outside the twelve codes (R166). -/
def unknownKind (kind : Byte) : Bool := kind = 0 || decide (12 < kind.toNat)

/-- Characters that make a complete frame (R122): 3 + n + 2 of them, n the length character, at most 32. -/
def completeShape (chars : List Byte) : Bool :=
  match chars with
  | _ :: _ :: len :: rest => decide (len.toNat ≤ 32) && decide (rest.length = len.toNat + 2)
  | _ => false

/-- A complete frame passes every test of R124: its check agrees (the register over all characters ends at 0, R123), and it
is a valid frame of a kind that the port accepts. -/
def passesJudgement (port : Port) (chars : List Byte) : Bool :=
  crc chars == 0 &&
    match chars with
    | kind :: address :: len :: rest =>
      match parseFrame kind address (rest.take len.toNat) with
      | some f => frameValid port f
      | none => false
    | _ => false

/-- A car port (R125). -/
def carPort : Port → Bool
  | .dispatch => false
  | _ => true

/-- A frame that a dispatch port may hand on in MASTER without effect (R161). -/
def ignoredKind : Frame → Bool
  | .cycleMark _ => false
  | .carReport _ _ => false
  | _ => true

def Instr.wellFormed : Instr → Bool
  | .frameDiscarded port chars => completeShape chars && !passesJudgement port chars
  | .cycleMark number => frameValid .dispatch (.cycleMark number)
  | .carOrder address order => frameValid .dispatch (.carOrder address order)
  | .plantPoll address => frameValid .dispatch (.plantPoll address)
  | .plantReport address power freq flags => frameValid .dispatch (.plantReport address power freq flags)
  | .manageRequestOtherAddress address payload => frameValid .dispatch (.manageRequest address payload)
  | .carReport port address report => carPort port && frameValid port (.carReport address report)
  | .masterCarReport port address report => carPort port && frameValid port (.carReport address report)
  | .masterPlantReport address power freq flags => frameValid .dispatch (.plantReport address power freq flags)
  | .masterCycleMark number => frameValid .dispatch (.cycleMark number)
  | .masterDispatchFrameIgnored frame => ignoredKind frame && frameValid .dispatch frame
  | .handbackFrameDropped frame => frameValid .dispatch frame
  | .manageRequestBadKind kind args => unknownKind kind && argsFit 1 args
  | .read args => argsFit 1 args
  | .writeCarIdentity args => argsFit 2 args
  | .writeCarConfiguration args => argsFit 2 args
  | .writeClass args => argsFit 2 args
  | .writePlant args => argsFit 2 args
  | .writeGroup args => argsFit 2 args
  | .writeRecallOrder args => argsFit 2 args
  | .writeTripMap args => argsFit 2 args
  | .writeSchedule args => argsFit 2 args
  | .writeLinkSettings args => argsFit 2 args
  | .copyActiveToShadow args => argsFit 1 args
  | .apply args => argsFit 1 args
  | .startService args => argsFit 1 args
  | .enable _ args => argsFit 3 args
  | .disable _ args => argsFit 3 args
  | .isolate _ args => argsFit 3 args
  | .restore _ args => argsFit 3 args
  | .clearUnfit _ args => argsFit 3 args
  | .clearFlags args => argsFit 1 args
  | .setNoticeMask args => argsFit 1 args
  | .clearCounters args => argsFit 1 args
  | .summary args => argsFit 1 args
  | .lock args => argsFit 1 args
  | .restart args => argsFit 1 args
  | _ => true

end Sys2Proof
end

