-- ==== Sys2Proof/Certificates/Slice0/Obligations.lean ====
section
/-! DEFINITION. The statements for the provers, each a `Prop`. -/

section

open Sys2Proof Sys2Proof.Machine

/-! ### The queue of commands and time -/

/-- A step runs the command at the front of the queue, on the state with the rest of the queue. -/
def Obligations.StepRunsFrontCommand : Prop :=
  ∀ (s : State) (c : Instr) (rest : List Instr), s.pending = c :: rest → step s = exec c { s with pending := rest }

/-- With no command waiting, a step takes an event that has come due, or one millisecond when none has (the model's own
choice, log entries 1 and 2: it holds for every order in which events of one instant are taken; and log entry 49: what has come
due stands before the sample of the held levels). One millisecond: the switch lines and then the alarm lines are sampled at the
levels they hold, unless a command has sampled them (log entries 5 and 42); then the count goes on by one modulo 2^32, every
running millisecond timer has one millisecond less to run, and nothing else changes. What is due: each timer with no time left to
run, by its command; a FRESH report older than the active stale limit (R16); and each line of the master slot that is still SENDING
when its bound has passed. -/
def Obligations.IdleStepTakesDueEventOrMillisecond : Prop :=
  (∀ s : State, s.pending = [] →
    (dueCommands s.part = [] → step s = .next { s with part := tick s.part })
    ∧ (dueCommands s.part ≠ [] →
        ∃ c ∈ dueCommands s.part, ∃ n, step s = exec c { s with freeCount := n }))
  ∧ (∀ s : State, ∃ x y : State,
    let p := y.part
    let t := tick s.part
    let less (timer : Timer) : Timer := match timer with | .running n => .running (n - 1) | other => other
    (s.part.pins.switchSampled = true → x = s)
    ∧ (s.part.pins.switchSampled = false → exec (.switchLineFiltered s.part.pins.util s.part.pins.gen) s = .next x)
    ∧ (x.part.pins.alarmSampled = true → y = x)
    ∧ (x.part.pins.alarmSampled = false →
      exec (.alarmLineFiltered x.part.pins.a1 x.part.pins.a2 x.part.pins.a3 x.part.pins.a4) x = .next y)
    ∧ t = { p with
        now := t.now
        pins := { p.pins with
          switchSampled := false
          alarmSampled := false }
        sup := { p.sup with
          warmUp := less p.sup.warmUp
          recallLimit := less p.sup.recallLimit }
        cars := t.cars
        adm := { p.adm with
          settle := less p.adm.settle
          recovery := less p.adm.recovery
          holdOff := less p.adm.holdOff }
        master := { p.master with
          silence := less p.master.silence
          period := less p.master.period
          slot := p.master.slot.map fun sl => { sl with sendBound := less sl.sendBound } } }
    ∧ t.now.toNat = (s.part.now.toNat + 1) % 2 ^ 32
    ∧ ∀ i, t.car i = { p.car i with
        startTimer := less (p.car i).startTimer
        tripTimer := less (p.car i).tripTimer })
  ∧ ∀ (p : Part) (c : Instr), c ∈ dueCommands p ↔
    (c = .warmUpExpiry ∧ p.sup.warmUp = .running 0)
    ∨ (c = .recallLimitExpiry ∧ p.sup.recallLimit = .running 0)
    ∨ (c = .plantReportStale ∧ p.sup.fresh = true
      ∧ ∃ r, p.sup.report = some r ∧ p.active.plant.staleLimit * 100 < (p.now - r.arrival).toNat)
    ∨ (∃ i, c = .startTimerExpiry i ∧ (p.car i).startTimer = .running 0)
    ∨ (∃ i, c = .tripTimerExpiry i ∧ (p.car i).tripTimer = .running 0)
    ∨ (c = .settleExpiry ∧ p.adm.settle = .running 0 ∧ ∀ i, p.adm.window ≠ some ⟨.blind, i⟩)
    ∨ (c = .blindExpiry ∧ p.adm.settle = .running 0 ∧ ∃ i, p.adm.window = some ⟨.blind, i⟩)
    ∨ (c = .recoveryExpiry ∧ p.adm.recovery = .running 0)
    ∨ (c = .holdOffExpiry ∧ p.adm.holdOff = .running 0)
    ∨ (c = .silenceExpiry ∧ p.master.silence = .running 0)
    ∨ (c = .cyclePeriodExpiry ∧ p.master.period = .running 0)
    ∨ ∃ port sl x, c = .sendingLineTimeout port ∧ p.master.mode ≠ .relay ∧ p.master.slot = some sl
      ∧ sl.sendBound = .running 0 ∧ slotLine sl port = some x ∧ x.status = .sending

/-! ### Reset -/

/-- The machine right after hard reset holds the values that the manual gives each block (R17, R45, R48, R49, R59, R87,
R105, R119, R122, R135, R137, R153, R156, R165, R179), and no command waits. -/
def Obligations.ResetValues : Prop :=
  let p := State.reset.part
  State.reset.pending = []
  ∧ p.now = 0
  ∧ p.sup.util = ⟨none, none, 0⟩ ∧ p.sup.gen = ⟨none, none, 0⟩ ∧ p.sup.position = .unknown ∧ p.sup.state = .normal
  ∧ p.sup.previous = .normal ∧ p.sup.changeTime = 0 ∧ p.sup.cause = .switchUtility ∧ p.sup.remembered = none
  ∧ p.sup.warmUp = .stopped ∧ p.sup.recallLimit = .stopped ∧ p.sup.report = none ∧ p.sup.fresh = false
  ∧ p.quiet = false
  ∧ (∀ i : CarIdx, p.config i = ⟨0, 0, none⟩ ∧ p.car i = {
      address := none
      lines := .both
      live := none
      reportTime := 0
      duty := .disabled
      prior := none
      pendingRecall := false
      run := .idle
      priority := none
      joinSeq := none
      skipCount := 0
      snapshot := none
      m := 0
      r := 0
      grantTime := 0
      arrivalTime := 0
      moved := false
      startTimer := .stopped
      tripTimer := .stopped
      stagnant := 0
      reverse := 0
      goodRun := 0
      stallCount := 0
      missCount := 0
      unfit := none
      shed := false
      stalled := false
      isolatePending := false
      disablePending := false
      order := none
      lineA := ⟨false, 0⟩
      lineB := ⟨false, 0⟩ })
  ∧ p.capEff = 0 ∧ p.stepMax = 0 ∧ p.regenMax = 0 ∧ p.standing = 0
  ∧ p.adm.joinCounter = 0 ∧ p.adm.sumM = 0 ∧ p.adm.sumR = 0 ∧ p.adm.window = none ∧ p.adm.settleDuration = 1000
  ∧ p.adm.reportMark = false ∧ p.adm.settle = .stopped ∧ p.adm.recovery = .stopped ∧ p.adm.holdOff = .stopped
  ∧ p.queue = [] ∧ p.gapOpen = false
  ∧ (∀ k : Fin 4, p.alarmFilter k = ⟨none, none, 0⟩ ∧ p.alarmStatus k = ⟨false, false, 0⟩)
  ∧ p.alarms.halted = 0 ∧ p.alarms.regenShed = 0 ∧ p.alarms.q = 0
  ∧ p.link.dispatch = ⟨.betweenFrames, [], false, 0, 0⟩ ∧ p.link.carA = ⟨.betweenFrames, [], false, 0, 0⟩
  ∧ p.link.carB = ⟨.betweenFrames, [], false, 0, 0⟩
  ∧ p.link.malformed = 0 ∧ p.link.strays = 0 ∧ p.link.dropped = 0
  ∧ p.link.settings = ⟨120, 96, 500, 200, 50, 8, 16⟩ ∧ p.link.pending = none
  ∧ p.slot = none
  ∧ p.master.mode = .relay ∧ p.master.silent = false ∧ p.master.silence = .running 200 ∧ p.master.nextCycle = 0
  ∧ p.master.phase = .none ∧ p.master.cycle = none ∧ p.master.walk = none ∧ p.master.period = .stopped
  ∧ p.master.slot = none
  ∧ p.mgmt.deferred = none ∧ p.mgmt.flags = 0 ∧ p.mgmt.mask = 0 ∧ p.mgmt.locked = false ∧ p.alert = false
  ∧ p.active.plant = ⟨0, 90, 0, 25, 0, 0, 0, 4900, 49, 50, 10, 20, 10, 0, 1, 3, 3, 5, 5⟩
  ∧ (∀ i : Fin 16, p.active.classes[i.val] = ⟨0, 0, 45, 0, 1, 30, 600⟩)
  ∧ (∀ g : Fin 8, p.active.groups[g.val] = ⟨0, 1, 0, []⟩) ∧ p.active.recallOrder = []
  ∧ (∀ k : Fin 4, p.active.tripMap[k.val] = ⟨false, .high, 5, .halt, 0, 0⟩)
  ∧ (∀ k : Fin 64, p.active.schedule[k.val] = ⟨false, .car 1 .both, 0, 0⟩)
  ∧ p.shadow = p.active

/-- HARD_RESET completes in every state: every block takes its values after reset; the pins stay as they are driven, with the
model's marks that this millisecond has been sampled, and the queue of commands stays (the model's choice, log entry 27). -/
def Obligations.HardResetReturnsEveryBlock : Prop :=
  ∀ s : State, exec .hardReset s = .next { s with part := { State.reset.part with pins := s.part.pins } }

/-! ### What every step keeps -/

/-- M and R are the sums of the cars' commitments at reset, the bounds of the link hold there, the link mastership state has
its shape there, and no list of the tables holds a car twice. -/
def Obligations.ResetKeepsInvariants : Prop :=
  State.reset.part.sumsAgree ∧ State.reset.part.link.bounded ∧ State.reset.part.masteryFits
  ∧ State.reset.part.listsDistinct

/-- Every step keeps M the sum of the motoring commitments of all car records and R the sum of the regenerating ones
(R85). -/
def Obligations.EveryStepKeepsSums : Prop :=
  ∀ s t : State, s.part.sumsAgree → step s = .next t → t.part.sumsAgree

/-- Every step keeps the transmit queues at no more than 4 frames, the counters at no more than 65535, the link settings in
force and pending in their ranges (R129, R135, R137), and every service list and recall order list of the active and the shadow
tables without a car that stands twice (R89, R90). -/
def Obligations.EveryStepKeepsLinkBounds : Prop :=
  (∀ s t : State, s.part.link.bounded → step s = .next t → t.part.link.bounded)
  ∧ ∀ s t : State, s.part.listsDistinct → step s = .next t → t.part.listsDistinct

/-- Every step keeps the shape of the link mastership state: no master cycle stands in RELAY; the forwarding unit's slot is
IDLE and a cycle is in SLOTS or WAIT otherwise; the next cycle number is 0 to 63 (R155, R157, R164). -/
def Obligations.EveryStepKeepsMasteryShape : Prop :=
  ∀ s t : State, s.part.masteryFits → step s = .next t → t.part.masteryFits

/-- While the site lock is set, no step but a hard reset clears it or changes the active or shadow plant table or trip map
(R108, R177). -/
def Obligations.LockGuardsPlantAndTripMap : Prop :=
  ∀ s t : State, s.part.mgmt.locked = true → s.pending.head? ≠ some .hardReset → step s = .next t →
    t.part.mgmt.locked = true ∧ t.part.active.plant = s.part.active.plant ∧ t.part.active.tripMap = s.part.active.tripMap
      ∧ t.part.shadow.plant = s.part.shadow.plant ∧ t.part.shadow.tripMap = s.part.shadow.tripMap

/-- No step stops the part: every state has a next state. That no event of the manual is a stop is the model's own reading (log
entry 32). -/
def Obligations.EveryStepAnswersNext : Prop :=
  ∀ s : State, ∃ t, step s = .next t

/-! ### The transfer supervisor -/

/-- QUIET is asserted exactly while the transfer state is RETURN and no record has run STARTING or RUNNING, a LOST record
counted; it is deasserted after hard reset, and after a RESTART taken in NORMAL (R14). -/
def Obligations.QuietOutput : Prop :=
  (∀ p : Part, p.quiet = true ↔
    p.sup.state = .returning ∧ ∀ i : CarIdx, (p.car i).run ≠ .starting ∧ (p.car i).run ≠ .running)
  ∧ State.reset.part.quiet = false
  ∧ ∀ p : Part, p.sup.state = .normal → (restartPart p).quiet = false

/-- One sample of the two switch lines (R1, R2, R3). A sample that accepts no new level moves the two run counts alone of what the
manual gives the part. In general each line is filtered with its depth, a line of level UNKNOWN too: its first level is the one that
a whole depth of agreeing samples has shown. The position follows from the two levels and is UNKNOWN while either is; where it stays,
the filters alone have moved, and where it changes, the transfer state reacts to it as in TransferStateTable. A change out of NORMAL
while the status is SILENT in RELAY then makes the takeover of R155. That the command is one millisecond's sample, which also sets
the pins and the sampled mark, and that the takeover stands behind the effects on the cars, are the model's own choices (log entries
5 and 13). -/
def Obligations.SwitchSampleBelowDepth : Prop :=
  (∀ (s : State) (u g lu lg : SwitchLevel),
    s.part.sup.util.level = some lu → s.part.sup.gen.level = some lg →
    s.part.sup.position = positionOf (some lu) (some lg) →
    (u ≠ lu → s.part.sup.util.count + 1 < s.part.active.plant.utilDepth) →
    (g ≠ lg → s.part.sup.gen.count + 1 < s.part.active.plant.genDepth) →
    exec (.switchLineFiltered u g) s = .next { s with
      part.pins.util := u
      part.pins.gen := g
      part.pins.switchSampled := true
      part.sup.util.count := if u = lu then 0 else s.part.sup.util.count + 1
      part.sup.gen.count := if g = lg then 0 else s.part.sup.gen.count + 1 })
  ∧ ∀ (s : State) (u g : SwitchLevel),
    let next (depth : Nat) (x : SwitchLevel) (old : LineFilter SwitchLevel) : LineFilter SwitchLevel :=
      let agreeing := if old.candidate = some x then old.count + 1 else 1
      match old.level with
      | some level =>
        if x = level then { old with count := 0 }
        else if depth ≤ old.count + 1 then { old with
          level := some x
          count := 0 }
        else { old with count := old.count + 1 }
      | none =>
        if depth ≤ agreeing then ⟨some x, none, 0⟩
        else { old with
          candidate := some x
          count := agreeing }
    let util := next s.part.active.plant.utilDepth u s.part.sup.util
    let gen := next s.part.active.plant.genDepth g s.part.sup.gen
    let position : Position := match util.level, gen.level with
      | some .closed, some .opened => .utility
      | some .opened, some .closed => .generator
      | some .opened, some .opened => .opened
      | some .closed, some .closed => .invalid
      | _, _ => .unknown
    let sampled : Part := { s.part with
      pins.util := u
      pins.gen := g
      pins.switchSampled := true
      sup.util := util
      sup.gen := gen }
    let moved := takePosition position sampled
    let becomes (t : Part) : Prop := exec (.switchLineFiltered u g) s = .next { s with part := t }
    (position = s.part.sup.position → becomes sampled)
    ∧ (position ≠ s.part.sup.position →
      (s.part.sup.state ≠ .normal ∨ moved.sup.state = .normal ∨ s.part.master.mode ≠ .relay ∨ s.part.master.silent = false →
        becomes moved)
      ∧ (s.part.sup.state = .normal → moved.sup.state ≠ .normal → s.part.master.mode = .relay →
        s.part.master.silent = true → ∃ t, becomes t ∧ moved.takesOver t))

/-- When the UTIL CLOSED line reaches its depth in NORMAL, the state moves to OUTAGE with cause SWITCH OPEN and the TRANSFER
flag, and the stopping effect acts on the cars; runs, commitments, link, tables and timers of admission stay (R1, R3, R4, R5).
While the status is SILENT in RELAY the takeover follows at once: the slot record closes, the link mode is MASTER and the first
master cycle begins (R155). No request waits in the deferred slot. That the command is one millisecond's sample, and that the
takeover stands behind the effects on the cars, are the model's own choices (log entries 5 and 13). -/
def Obligations.UtilityLossStopsCars : Prop :=
  ∀ s : State,
    s.part.sup.util.level = some .closed → s.part.sup.gen.level = some .opened → s.part.sup.position = .utility →
    s.part.sup.state = .normal → s.part.active.plant.utilDepth ≤ s.part.sup.util.count + 1 →
    s.part.mgmt.deferred = none →
    ∃ x t : Part, exec (.switchLineFiltered .opened .opened) s = .next { s with part := t }
      ∧ (s.part.master.mode ≠ .relay ∨ s.part.master.silent = false → t = x)
      ∧ (s.part.master.mode = .relay → s.part.master.silent = true → x.takesOver t)
      ∧ x.sup.util = ⟨some .opened, s.part.sup.util.candidate, 0⟩ ∧ x.sup.position = .opened
      ∧ x.sup.state = .outage ∧ x.sup.previous = .normal ∧ x.sup.changeTime = s.part.now
      ∧ x.sup.cause = .switchOpen ∧ x.flag .transfer = true
      ∧ (∀ e : Event, e ≠ .transfer → x.flag e = s.part.flag e)
      ∧ (∀ i : CarIdx,
          (x.car i).run = (s.part.car i).run ∧ (x.car i).m = (s.part.car i).m
            ∧ (x.car i).r = (s.part.car i).r ∧ (x.car i).address = (s.part.car i).address
            ∧ (x.car i).live = (s.part.car i).live
          ∧ ((s.part.car i).duty ∈ [Duty.normal, .stopped, .recall, .parked, .service] →
              (x.car i).duty = .stopped ∧ (x.car i).pendingRecall = false)
          ∧ ((s.part.car i).duty = .lost → (x.car i).duty = .lost
              ∧ (x.car i).prior = (s.part.car i).prior.map fun d => if d = .isolated then .isolated else .stopped)
          ∧ ((s.part.car i).duty = .isolated ∨ (s.part.car i).duty = .disabled → x.car i = s.part.car i))
      ∧ x.adm = s.part.adm ∧ x.alarms = s.part.alarms ∧ x.link = s.part.link
      ∧ x.slot = s.part.slot ∧ x.master = s.part.master ∧ x.active = s.part.active
      ∧ x.shadow = s.part.shadow ∧ x.now = s.part.now ∧ x.sup.report = s.part.sup.report
      ∧ x.sup.fresh = s.part.sup.fresh ∧ x.sup.warmUp = s.part.sup.warmUp

/-- The transfer state after a change of switch position is the one of the manual's table, and a change of state is recorded
with its cause (01; R3 to R7, R10, R11). Where the table gives no change of state, and between OPEN and INVALID, the position alone
changes; a position that becomes INVALID also sets the cause SWITCH INVALID and the TRANSFER flag. For a change of state no request
waits in the deferred slot, and the warm-up is not 0. -/
def Obligations.TransferStateTable : Prop :=
  ∀ (p : Part) (new : Position), p.sup.position ≠ new →
    let taken : Part := { p with sup.position := new }
    ((openLike p.sup.position && openLike new) = true ∨ transferTable p.sup.state new = p.sup.state →
      takePosition new p =
        if new = .invalid then raiseEvent .transfer { taken with sup.cause := .switchInvalid } else taken)
    ∧ (p.mgmt.deferred = none → p.active.plant.warmUp ≠ 0 → (openLike p.sup.position && openLike new) = false →
      (takePosition new p).sup.position = new
      ∧ (takePosition new p).sup.state = transferTable p.sup.state new
      ∧ (transferTable p.sup.state new ≠ p.sup.state →
          (takePosition new p).sup.previous = p.sup.state ∧ (takePosition new p).sup.changeTime = p.now
            ∧ (takePosition new p).sup.cause = positionCause new ∧ (takePosition new p).flag .transfer = true))

/-- When the switch position leaves GENERATOR in RECALL, SERVICE or RETURN: every QUEUED car leaves the queue and every run is
released, with the duty that the settlement gives it, or the prior duty of a LOST record (a pending DISABLE disables the record;
a pending ISOLATE or a stall count of 2 isolates; else a pending RECALL, else the duty held), no arrival time, no parking, and the
SHED mark cleared; commitments and sums are 0, and the window and all admission and transfer timers ended (R10, R38, R39). Then, at
a breaker open, duty RECALL and SERVICE become STOPPED, and so does the prior duty of a LOST record (R10); at a closed transition
duty STOPPED, RECALL, PARKED and SERVICE become NORMAL, and so does the prior duty of a LOST record that is not ISOLATED (R6, R11).
Every line is out of effect, the coverage of every group clear and q 0, with the limits computed afresh when q has changed (R59,
R117). Nothing else changes but the flags. No request waits in the deferred slot. That a released record keeps its priority class and
join sequence is the model's own choice (log entry 44). -/
def Obligations.LeavingGeneratorReleasesEveryRun : Prop :=
  ∀ (p : Part) (new : Position), p.sup.state.onGenerator = true → p.sup.position = .generator →
    new = .opened ∨ new = .invalid ∨ new = .utility → p.mgmt.deferred = none →
    let q := takePosition new p
    let settled (c : Car) (held : Duty) : Duty :=
      if c.isolatePending = true ∨ 2 ≤ c.stallCount then .isolated
      else if c.pendingRecall = true then .recall
      else held
    let replaces (d : Duty) : Bool := match d with
      | .recall | .service => true
      | .stopped | .parked => new = .utility
      | _ => false
    let replacesPrior (d : Duty) : Bool := if new = .utility then d ≠ .isolated else d = .recall ∨ d = .service
    let given : Duty := if new = .utility then .normal else .stopped
    let taking (d : Duty) : Duty := if replacesPrior d then given else d
    q = { p with
      sup := { p.sup with
        position := new
        state := if new = .utility then .normal else .outage
        previous := p.sup.state
        changeTime := p.now
        cause := positionCause new
        remembered := none
        warmUp := .stopped
        recallLimit := .stopped }
      cars := q.cars
      adm := { p.adm with
        joinCounter := 0
        sumM := 0
        sumR := 0
        window := none
        settle := .stopped
        recovery := .stopped
        holdOff := .stopped }
      alarms := { p.alarms with
        status := q.alarms.status
        halted := 0
        regenShed := 0
        q := 0 }
      standing := if p.alarms.q = 0 then p.standing else q.capEff
      mgmt.flags := q.mgmt.flags }
    ∧ q.flag .transfer = true ∧ (∀ e, e ≠ .transfer → q.flag e = p.flag e)
    ∧ (∀ k : Fin 4, (q.alarmStatus k).inEffect = false
      ∧ ((q.alarmStatus k).asserted = true ↔ (p.alarmFilter k).level = some (p.tripEntry k).level))
    ∧ ∀ i : CarIdx,
      let c := p.car i
      let freed : Car :=
        if c.run = .queued then { c with run := .idle, priority := none, joinSeq := none, m := 0, r := 0 }
        else if c.holdsRun = true then
          if c.disablePending = true then { ({} : Car) with
            address := c.address
            lines := c.lines }
          else { c with
            run := .idle, m := 0, r := 0, snapshot := none, shed := false, stalled := false, isolatePending := false
            startTimer := .stopped, tripTimer := .stopped, stagnant := 0, reverse := 0, goodRun := 0
            duty := if c.duty = .lost then .lost else settled c c.duty
            prior := if c.duty = .lost then c.prior.map (settled c) else c.prior
            pendingRecall := false }
        else { c with m := 0, r := 0 }
      (q.car i =
        if freed.duty = .lost then { freed with prior := freed.prior.map taking }
        else if replaces freed.duty then { freed with
          duty := given
          pendingRecall := false }
        else freed)
      ∧ (q.car i).run = .idle ∧ (q.car i).m = 0 ∧ (q.car i).r = 0 ∧ (q.car i).duty ≠ .recall ∧ (q.car i).duty ≠ .service
      ∧ (new ≠ .utility → c.duty = .parked → c.run = .idle → (q.car i).duty = .parked)
      ∧ (new = .utility → (q.car i).duty ≠ .parked ∧ (q.car i).duty ≠ .stopped)

/-- The restored duty by transfer state (R21). A record that has not been heard fails the standing test. -/
def Obligations.RestoredDutyTable : Prop :=
  ∀ (p : Part) (i : CarIdx),
    (p.sup.state = .normal → p.restoredDuty i = .normal)
    ∧ (p.sup.state = .outage ∨ p.sup.state = .standby → p.restoredDuty i = .stopped)
    ∧ (p.sup.state = .recall ∨ p.sup.state = .service ∨ p.sup.state = .returning →
        (p.restoredDuty i = .parked ∨ p.restoredDuty i = .recall)
        ∧ (p.restoredDuty i = .parked ↔
            (p.car i).run = .idle ∧ ∃ l, (p.car i).live = some l ∧ l.motion = .stopped ∧ l.zone = .zoneIn
              ∧ l.floor = p.recallFloor i)
        ∧ ((p.car i).live = none → p.restoredDuty i = .recall))

/-- WARM_UP_EXPIRY in STANDBY moves the state to RECALL with cause WARM-UP, starts the recall limit timer, and assigns PARKED
or RECALL to the STOPPED and PARKED cars by the standing test; other duties stay (R8, R9, R91). Here recall is not complete
at once, the report carries no retransfer flag, and nothing waits for the gap. -/
def Obligations.WarmUpExpiryEntersRecall : Prop :=
  ∀ (s : State) (n : Nat) (k : CarIdx), s.part.sup.state = .standby → s.part.sup.warmUp = .running n →
    s.part.retransferHeld = false → s.part.nothingWaits →
    (s.part.car k).duty = .stopped → passesStanding (s.part.recallFloor k) (s.part.car k) = false →
    (s.part.car k).unfit = none →
    ∃ t, exec .warmUpExpiry s = .next t
      ∧ t.part.sup.state = .recall ∧ t.part.sup.previous = .standby ∧ t.part.sup.changeTime = s.part.now
      ∧ t.part.sup.cause = .warmUp ∧ t.part.flag .transfer = true ∧ t.part.sup.warmUp = .expired
      ∧ t.part.sup.recallLimit = (if s.part.active.plant.recallLimit = 0 then .stopped
          else .running (s.part.active.plant.recallLimit * 1000))
      ∧ (∀ i : CarIdx, (t.part.car i).run = (s.part.car i).run ∧ (t.part.car i).m = (s.part.car i).m
          ∧ (t.part.car i).r = (s.part.car i).r ∧ (t.part.car i).live = (s.part.car i).live
          ∧ (t.part.car i).duty =
              (if (s.part.car i).duty = .stopped ∨ (s.part.car i).duty = .parked then
                (if passesStanding (s.part.recallFloor i) (s.part.car i) then .parked else .recall)
              else (s.part.car i).duty))
      ∧ t.part.link = s.part.link ∧ t.part.slot = s.part.slot ∧ t.part.master = s.part.master
      ∧ t.part.active = s.part.active ∧ t.part.shadow = s.part.shadow ∧ t.part.now = s.part.now

/-- RECALL_LIMIT_EXPIRY in RECALL ends recall: RECALL DONE and TRANSFER are set, the state moves to SERVICE with cause RECALL
DONE, the timer is stopped, and a service selection gives each record the duty of R97 to R99: the first listed cars up to the
group's service count serve, the others are demoted; runs, commitments, UNFIT marks, queue places and the settle window stay
(R95, R96, R9, R97, R98, R99). No list holds a car twice, as every step keeps it. -/
def Obligations.RecallLimitExpiryEndsRecall : Prop :=
  ∀ (s : State) (n : Nat), s.part.sup.state = .recall → s.part.sup.recallLimit = .running n →
    s.part.retransferHeld = false →
    ∃ t, exec .recallLimitExpiry s = .next t
      ∧ t.part.sup.state = .service ∧ t.part.sup.previous = .recall ∧ t.part.sup.changeTime = s.part.now
      ∧ t.part.sup.cause = .recallDone ∧ t.part.flag .recallDone = true ∧ t.part.flag .transfer = true
      ∧ t.part.sup.recallLimit = .stopped
      ∧ (∀ i : CarIdx, (t.part.car i).run = (s.part.car i).run ∧ (t.part.car i).m = (s.part.car i).m
          ∧ (t.part.car i).r = (s.part.car i).r ∧ (t.part.car i).unfit = (s.part.car i).unfit
          ∧ (t.part.car i).priority = (s.part.car i).priority ∧ (t.part.car i).joinSeq = (s.part.car i).joinSeq)
      ∧ (s.part.listsDistinct → ∀ i : CarIdx, t.part.car i = s.part.afterSelection i)
      ∧ t.part.adm = s.part.adm ∧ t.part.alarms = s.part.alarms ∧ t.part.link = s.part.link
      ∧ t.part.slot = s.part.slot ∧ t.part.master = s.part.master ∧ t.part.active = s.part.active
      ∧ t.part.shadow = s.part.shadow

/-- PLANT_REPORT_STALE on a FRESH report makes it STALE and sets PLANT STALE, and the limits are computed afresh with the stale
margin taken: a fall of Cap_eff below its standing value is handed on and sheds cars, as recomputeLimits does in DerateShedding
(R16, R59, R114). The report's fields stay, and a car changes at most by a new SHED mark while it holds a run, with the SHED
flag. On a STALE one it does nothing. (It acts whatever the report's age, the model's choice of log entry 4.) -/
def Obligations.PlantReportBecomesStale : Prop :=
  ∀ s : State,
    (s.part.sup.fresh = true →
      let stale : Part := raiseEvent .plantStale { s.part with sup.fresh := false }
      let t := recomputeLimits stale
      exec .plantReportStale s = .next { s with part := t }
      ∧ stale.flag .plantStale = true ∧ (∀ e, e ≠ .plantStale → stale.flag e = s.part.flag e)
      ∧ t.sup = { s.part.sup with fresh := false } ∧ t.flag .plantStale = true
      ∧ t.standing = t.capEff ∧ t.adm = s.part.adm ∧ t.alarms = s.part.alarms ∧ t.link = s.part.link
      ∧ t.slot = s.part.slot ∧ t.master = s.part.master ∧ t.active = s.part.active ∧ t.shadow = s.part.shadow
      ∧ t.now = s.part.now ∧ t.pins = s.part.pins
      ∧ (∀ e, e ≠ .plantStale → e ≠ .shed → t.flag e = s.part.flag e)
      ∧ (stale.capEff < s.part.standing → t.retained ≤ t.capEff ∨ ∀ i : CarIdx, t.derateCandidate i = false)
      ∧ ∀ i : CarIdx, t.car i = s.part.car i
          ∨ ((s.part.car i).holdsRun = true ∧ t.car i = { s.part.car i with shed := true } ∧ t.flag .shed = true))
    ∧ (s.part.sup.fresh = false → exec .plantReportStale s = .next s)

/-- A PLANT_REPORT from the plant node, taken in RELAY, replaces the held report and is FRESH, and the limits follow when it was
STALE (R15, R59); one from another node is not taken (R138). Where it moves no state: in a settle window it sets the report mark
while SETTLING, and in WAITING a frequency of at least f_ok completes the step (R78, R80, R83). In RETURN with the flag clear it
moves the state back to the remembered one with cause RETRANSFER CLEAR, to RECALL with the timer and the assignment or to
SERVICE with a selection, and then acts on the window as before (R13, R9, R91, R97). That the mark stays as it is in WAITING and
BLIND is the model's own choice (log entry 45). For the moves nothing waits for the gap and, in RECALL, recall is not complete.
Neither closes the slot record. -/
def Obligations.PlantReportTaken : Prop :=
  ∀ (s : State) (address : Byte) (power freq : Word16) (flags : Byte),
    s.part.takesRequest → isNodeAddress address = true →
    let command := Instr.plantReport address power freq flags
    let retransfer := flags.getLsbD 0
    let q := s.part.received .dispatch
    let held : Part := { q with
      sup.report := some ⟨power, freq, retransfer, s.part.now⟩
      sup.fresh := true }
    let taken := if s.part.sup.fresh = true then held else recomputeLimits held
    let admitted (x t : Part) : Prop :=
      (x.adm.window = none → t = x)
      ∧ ∀ i, (x.adm.window = some ⟨.settling, i⟩ → t = { x with adm.reportMark := true })
        ∧ (x.adm.window = some ⟨.blind, i⟩ → t = x)
        ∧ (x.adm.window = some ⟨.waiting, i⟩ →
          (freq.toNat < x.active.plant.fOk → t = x)
          ∧ ∀ f, x.active.plant.fOk ≤ freq.toNat → (x.car i).snapshot = some f → t = judgeGap (x.stepCompleted i f))
    (address ≠ s.part.link.settings.plantNode → exec command s = .next { s with part := q })
    ∧ (address = s.part.link.settings.plantNode → s.part.sup.state.onGenerator = false → s.part.adm.window = none →
      ∃ t, exec command s = .next t
        ∧ t.part.sup = { s.part.sup with
            report := some ⟨power, freq, flags.getLsbD 0, s.part.now⟩
            fresh := true }
        ∧ t.part.adm = s.part.adm ∧ t.part.link = (s.part.received .dispatch).link
        ∧ t.part.slot = (s.part.received .dispatch).slot ∧ t.part.master = s.part.master
        ∧ (s.part.sup.fresh = false → t.part.standing = t.part.capEff)
        ∧ (s.part.sup.fresh = true → t.part.standing = s.part.standing)
        ∧ ∀ i : CarIdx, t.part.car i = s.part.car i
          ∨ ((s.part.car i).holdsRun = true ∧ t.part.car i = { s.part.car i with shed := true }
              ∧ t.part.flag .shed = true))
    ∧ (address = s.part.link.settings.plantNode →
      (s.part.sup.state.onGenerator = false ∨ (s.part.sup.state = .returning ↔ retransfer = true)) →
      ∃ t, exec command s = .next { s with part := t } ∧ admitted taken t)
    ∧ (address = s.part.link.settings.plantNode → s.part.sup.state = .returning → retransfer = false → s.part.nothingWaits →
      (s.part.sup.remembered = some .service → ∃ x t,
        exec command s = .next { s with part := t } ∧ admitted x t
        ∧ x.sup = { taken.sup with
            state := .service
            previous := .returning
            changeTime := s.part.now
            cause := .retransferClear
            remembered := none }
        ∧ (s.part.listsDistinct → ∀ i, x.car i = taken.afterSelection i)
        ∧ x.flag .transfer = true ∧ (∀ e, taken.flag e = true → x.flag e = true)
        ∧ x.adm = taken.adm ∧ x.alarms = taken.alarms ∧ x.standing = taken.standing ∧ x.link = taken.link
        ∧ x.slot = taken.slot ∧ x.master = taken.master ∧ x.active = taken.active ∧ x.shadow = taken.shadow)
      ∧ (∀ k, s.part.sup.remembered = some .recall → (s.part.car k).duty = .recall → (s.part.car k).unfit = none → ∃ x t,
        exec command s = .next { s with part := t } ∧ admitted x t
        ∧ x.sup = { taken.sup with
            state := .recall
            previous := .returning
            changeTime := s.part.now
            cause := .retransferClear
            remembered := none
            recallLimit := if s.part.active.plant.recallLimit = 0 then .stopped
              else .running (s.part.active.plant.recallLimit * 1000) }
        ∧ (∀ i, x.car i =
            if (taken.car i).duty = .stopped ∨ (taken.car i).duty = .parked then { taken.car i with
              duty := if passesStanding (s.part.recallFloor i) (taken.car i) then .parked else .recall
              pendingRecall := false }
            else taken.car i)
        ∧ x.flag .transfer = true ∧ (∀ e, taken.flag e = true → x.flag e = true)
        ∧ x.adm = taken.adm ∧ x.alarms = taken.alarms ∧ x.standing = taken.standing ∧ x.link = taken.link
        ∧ x.slot = taken.slot ∧ x.master = taken.master ∧ x.active = taken.active ∧ x.shadow = taken.shadow))

/-- A plant report with retransfer pending, taken in RECALL or SERVICE, moves the state to RETURN with cause RETRANSFER SET
and the state that was left remembered: the queue is flushed, the recall limit timer stopped, SERVICE cars that hold a run
are shed; runs and commitments stay (R12). The report finds a FRESH one and no settle window. -/
def Obligations.RetransferReportMovesToReturn : Prop :=
  ∀ (p : Part) (power freq : Word16), p.sup.state = .recall ∨ p.sup.state = .service → p.sup.fresh = true →
    p.adm.window = none →
    let q := takePlantReport power freq true p
    q.sup.state = .returning ∧ q.sup.previous = p.sup.state ∧ q.sup.changeTime = p.now ∧ q.sup.cause = .retransferSet
    ∧ q.sup.remembered = some (if p.sup.state = .recall then .recall else .service) ∧ q.sup.recallLimit = .stopped
    ∧ q.sup.report = some ⟨power, freq, true, p.now⟩ ∧ q.flag .transfer = true
    ∧ q.queue = [] ∧ q.adm.joinCounter = 0 ∧ q.adm.sumM = p.adm.sumM ∧ q.adm.sumR = p.adm.sumR
    ∧ q.alarms = p.alarms ∧ q.link = p.link ∧ q.master = p.master ∧ q.slot = p.slot ∧ q.active = p.active
    ∧ q.shadow = p.shadow
    ∧ ∀ i : CarIdx, (q.car i).duty = (p.car i).duty ∧ (q.car i).m = (p.car i).m ∧ (q.car i).r = (p.car i).r
        ∧ (q.car i).run = (if (p.car i).run = .queued then .idle else (p.car i).run)
        ∧ (q.car i).shed = ((p.car i).shed || ((p.car i).holdsRun && (p.car i).duty == .service))

/-! ### Figures and limits -/

/-- The figures of a car with a known load: with U the clamped load less the balance and d the direction, P = 100a + dUK is
split by its sign into m_run and r_run, and S = 100a + AK + max(0, dUK); an exact balance, or K = 0, gives m_run = 100a and
r_run = 0 (R52, R53; U of R51). A queued car's figures come from its active class, its run request and its latest load
(R51). -/
def Obligations.KnownLoadFigures : Prop :=
  (∀ (p : Part) (i : CarIdx) (l : Live), (p.car i).live = some l →
    (l.request = .up → p.figures i = computeFigures p.active.classes[(p.config i).cls.val] .up l.load)
    ∧ (l.request = .down → p.figures i = computeFigures p.active.classes[(p.config i).cls.val] .down l.load))
  ∧ ∀ (c : ClassRec) (d : Travel) (load : Nat),
    let sign : Int := match d with | .up => 1 | .down => -1
    let u : Int := (min load 125 : Nat) - (c.b : Int)
    let run : Int := 100 * c.a + sign * u * c.k
    let f := computeFigures c d (some load)
    (0 ≤ run → (f.mRun : Int) = run ∧ f.rRun = 0)
    ∧ (run < 0 → f.mRun = 0 ∧ (f.rRun : Int) = -run)
    ∧ (f.start : Int) = 100 * c.a + c.acc * c.k + max 0 (sign * u * c.k)
    ∧ (u = 0 ∨ c.k = 0 → f.mRun = 100 * c.a ∧ f.rRun = 0)
    ∧ f.dir = d

/-- The figures of a car whose load is ABSENT take the worst load for each direction, and S is m_run and the acceleration
allowance (R54); the balance is at most 125, as its range says. -/
def Obligations.AbsentLoadFigures : Prop :=
  ∀ c : ClassRec, c.b ≤ 125 →
    let up := computeFigures c .up none
    let down := computeFigures c .down none
    (up.mRun : Int) = 100 * c.a + (125 - c.b) * c.k ∧ (up.rRun : Int) = max 0 (c.b * c.k - 100 * c.a)
    ∧ (down.mRun : Int) = 100 * c.a + c.b * c.k ∧ (down.rRun : Int) = max 0 ((125 - c.b) * c.k - 100 * c.a)
    ∧ up.start = up.mRun + c.acc * c.k ∧ down.start = down.mRun + c.acc * c.k

/-- The plant limits: Cap (R56), Cap_eff (R57), StepMax and RegenMax (R58), and the measured check (R60) with a report of the
power given; a figure in kW is rounded up (R61). -/
def Obligations.PlantLimits : Prop :=
  ∀ (p : Part) (start : Nat),
    let t := p.active.plant
    (p.cap : Int) = max 0 (t.g * t.usePct - 100 * t.baseKW)
    ∧ (p.alarms.q ≤ 100 → (p.capEff : Int) =
        if p.sup.fresh then p.cap * (100 - p.alarms.q) / 100
        else max 0 (p.cap * (100 - p.alarms.q) / 100 - 100 * t.staleKW))
    ∧ p.stepMax = t.g * t.stepPct ∧ p.regenMax = t.g * t.revPct + 100 * t.brakeKW
    ∧ (p.sup.fresh = false → p.measuredCheck start = true)
    ∧ (∀ r, p.sup.report = some r → p.sup.fresh = true →
        (p.measuredCheck start = true ↔ 100 * r.power.toNat + start ≤ t.g * t.usePct))
    ∧ ∀ n, kW n = n / 100 + (if n % 100 = 0 then 0 else 1)

/-! ### Trips -/

/-- START_TIMER_EXPIRY of a car that holds a run and is not STALLED stalls it: the STALL flag, STALLED, the stall count; a
STARTING car's step completes at once and the gap is judged afresh; on a car already STALLED the timer expires and nothing
else changes (R36, R37, R83). A timer that does not run expires in no way: the model's reading, log entry 7. -/
def Obligations.StartTimerExpiryStallsCar : Prop :=
  ∀ (s : State) (i : CarIdx),
    let c := s.part.car i
    let stalled := raiseEvent .stall (s.part.setCar i
      { c with startTimer := .expired, stalled := true, stallCount := if c.stallCount < 255 then c.stallCount + 1 else c.stallCount })
    (∀ n, c.startTimer = .running n → c.run = .running → c.stalled = false →
      exec (.startTimerExpiry i) s = .next { s with part := stalled })
    ∧ (∀ n f, c.startTimer = .running n → c.run = .starting → c.stalled = false → c.snapshot = some f →
      exec (.startTimerExpiry i) s = .next { s with part := judgeGap (stalled.stepCompleted i f) })
    ∧ (∀ n, c.startTimer = .running n → c.stalled = true →
      exec (.startTimerExpiry i) s = .next { s with part := s.part.setCar i { c with startTimer := .expired } })
    ∧ (c.startTimer.isRunning = false → exec (.startTimerExpiry i) s = .next s)

/-- TRIP_TIMER_EXPIRY stalls a car that holds a run, is not LOST and not yet STALLED, and the step of a STARTING one completes
at once; it releases a LOST car that holds a run: run IDLE, commitments 0 and out of the sums, flags cleared, timers stopped, the
settlement written to the prior duty, the record still LOST, no arrival (R31, R36 to R39). For the release nothing waits for the
gap and no DISABLE is pending. That the released record keeps its priority class and join sequence is the model's own choice (log
entry 44). -/
def Obligations.TripTimerExpiryStallsOrReleases : Prop :=
  ∀ (s : State) (i : CarIdx) (n : Nat),
    let c := s.part.car i
    let stalled := raiseEvent .stall (s.part.setCar i { c with
      tripTimer := .expired
      stalled := true
      stallCount := if c.stallCount < 255 then c.stallCount + 1 else c.stallCount })
    c.tripTimer = .running n →
    (c.run = .running → c.duty ≠ .lost → c.stalled = false →
      exec (.tripTimerExpiry i) s = .next { s with part := stalled })
    ∧ (∀ f, c.run = .starting → c.duty ≠ .lost → c.stalled = false → c.snapshot = some f →
      exec (.tripTimerExpiry i) s = .next { s with part := judgeGap (stalled.stepCompleted i f) })
    ∧ (c.holdsRun = true → c.duty ≠ .lost → c.stalled = true →
      exec (.tripTimerExpiry i) s = .next { s with part := s.part.setCar i { c with tripTimer := .expired } })
    ∧ (c.holdsRun = true → c.duty = .lost → c.disablePending = false → s.part.nothingWaits →
      ∃ t, exec (.tripTimerExpiry i) s = .next t
        ∧ t.part.car i = { c with
            run := .idle, m := 0, r := 0, snapshot := none, shed := false, stalled := false, isolatePending := false
            startTimer := .stopped, tripTimer := .stopped, stagnant := 0, reverse := 0, goodRun := 0
            pendingRecall := false
            prior := c.prior.map fun d =>
              if c.isolatePending ∨ 2 ≤ c.stallCount then .isolated else if c.pendingRecall then .recall else d }
        ∧ (∀ j, j ≠ i → t.part.car j = s.part.car j)
        ∧ t.part.adm.sumM = s.part.adm.sumM - c.m ∧ t.part.adm.sumR = s.part.adm.sumR - c.r
        ∧ (∀ w, s.part.adm.window = some w → w.car = i → t.part.adm.window = none ∧ t.part.adm.settle = .stopped
            ∧ t.part.adm.recovery = .stopped)
        ∧ t.part.adm.holdOff = s.part.adm.holdOff ∧ t.part.sup = s.part.sup ∧ t.part.mgmt = s.part.mgmt
        ∧ t.part.link = s.part.link ∧ t.part.slot = s.part.slot ∧ t.part.master = s.part.master
        ∧ t.part.active = s.part.active ∧ t.part.shadow = s.part.shadow)

/-- What a report in motion does to the stagnant count, the reverse count and the good run, by whether its progress is good,
stagnant or reversed (R34, R35); the counts saturate at 15. -/
def Obligations.ProgressCounts : Prop :=
  ∀ (c : Car) (least : Nat) (d : Travel) (progress : Int),
    let sign : Int := match d with | .up => 1 | .down => -1
    let good : Prop := (least : Int) ≤ sign * progress ∧ 0 < sign * progress
    let stagnant : Prop := progress.natAbs < least
    let reversed : Prop := sign * progress < 0
    let plus (n : Nat) : Nat := if n < 15 then n + 1 else n
    let q := countProgress least d progress c
    (good → q = { c with
        goodRun := min 2 (c.goodRun + 1)
        stagnant := if 1 ≤ c.goodRun then 0 else c.stagnant
        reverse := if 1 ≤ c.goodRun then 0 else c.reverse })
    ∧ (stagnant → ¬ reversed → q = { c with stagnant := plus c.stagnant, goodRun := 0 })
    ∧ (reversed → ¬ stagnant → q = { c with reverse := plus c.reverse, goodRun := 0 })
    ∧ (stagnant → reversed → q = { c with stagnant := plus c.stagnant, reverse := plus c.reverse, goodRun := 0 })

/-- A miss counts up, saturating at 255; at the loss limit a car that is not LOST becomes LOST: the prior duty takes the duty held,
the LOST flag is set, and the change of duty is handed to the sequencing unit. Then an idle car keeps its state, a QUEUED one leaves
the queue, and one that holds a run keeps it, but is released as at the expiry of its trip timer when that has expired (R30, R31).
What the sequencing unit does with a change of duty: in RECALL, with no enabled record in duty RECALL without UNFIT, recall ends,
and otherwise nothing changes (R93, R96); in SERVICE a record that leaves SERVICE, takes PARKED, or falls from PARKED to RECALL
makes a service selection, and no other change does anything (R100); elsewhere nothing. -/
def Obligations.MissesLoseTheCar : Prop :=
  (∀ (p : Part) (i : CarIdx),
    let c := p.car i
    let count := if c.missCount < 255 then c.missCount + 1 else c.missCount
    let lost := raiseEvent .lost (p.setCar i { c with missCount := count, prior := some c.duty, duty := .lost })
    let handed := handDutyChange c.duty .lost lost
    let without (x : Part) : Part :=
      if (∃ j, (x.car j).run = .queued) then x else { x with adm := { x.adm with joinCounter := 0 } }
    (count < p.link.settings.lossLimit ∨ c.duty = .lost → countMiss i p = p.setCar i { c with missCount := count })
    ∧ (p.link.settings.lossLimit ≤ count → c.duty ≠ .lost →
      (c.run = .idle → countMiss i p = handed)
      ∧ (c.run = .queued →
        ((handed.car i).run = .queued → countMiss i p = without (handed.setCar i { handed.car i with
          run := .idle
          priority := none
          joinSeq := none }))
        ∧ ((handed.car i).run ≠ .queued → countMiss i p = handed))
      ∧ (c.holdsRun = true → c.tripTimer ≠ .expired → countMiss i p = handed)
      ∧ (c.holdsRun = true → c.tripTimer = .expired → ∀ s : State,
        exec (.tripTimerExpiry i) { s with part := handed.setCar i { handed.car i with tripTimer := .running 0 } }
          = .next { s with part := countMiss i p })))
  ∧ (∀ p : Part,
    (p.sup.state = .recall → (∀ i, (p.car i).duty = .recall → (p.car i).unfit ≠ none) → p.endsRecall (evaluateCompletion p))
    ∧ (p.sup.state ≠ .recall ∨ (∃ i, (p.car i).duty = .recall ∧ (p.car i).unfit = none) → evaluateCompletion p = p))
  ∧ ∀ (p : Part) (a b : Duty),
    let selects : Prop := a = .service ∧ b ≠ .service ∨ b = .parked ∨ a = .parked ∧ b = .recall
    let q := handDutyChange a b p
    (p.sup.state = .recall → q = evaluateCompletion p)
    ∧ (p.sup.state = .service →
      (selects → q = { p with cars := q.cars } ∧ (p.listsDistinct → ∀ i, q.car i = p.afterSelection i))
      ∧ (¬ selects → q = p))
    ∧ (p.sup.state ≠ .recall → p.sup.state ≠ .service → q = p)

/-! ### Admission -/

/-- The step gap is OPEN while no car is STARTING, the hold-off timer does not run, the state is RECALL or SERVICE, and no
retransfer pending is held; judging it does nothing while it is CLOSED, and otherwise executes the deferred request and then
makes one attempt; where nothing waits that changes nothing (R68, R69). -/
def Obligations.StepGap : Prop :=
  ∀ p : Part,
    (p.gapOpen = true ↔
      (∀ i : CarIdx, (p.car i).run ≠ .starting) ∧ (∀ n, p.adm.holdOff ≠ .running n)
        ∧ (p.sup.state = .recall ∨ p.sup.state = .service) ∧ ∀ r, p.sup.report = some r → r.retransfer = false)
    ∧ (p.gapOpen = false → judgeGap p = p)
    ∧ (p.gapOpen = true → judgeGap p = attempt (executeDeferred p))
    ∧ (p.nothingWaits → judgeGap p = p)

/-- SETTLE_EXPIRY judges the held report: FRESH with the mark set and a frequency of at least f_ok completes the step; FRESH
otherwise the window becomes WAITING with the recovery timer running; STALE it becomes BLIND, with BLIND SETTLE and the settle
timer a second time (R79, R83). -/
def Obligations.SettleExpiryJudgesTheReport : Prop :=
  ∀ (s : State) (i : CarIdx) (n : Nat), s.part.adm.window = some ⟨.settling, i⟩ → s.part.adm.settle = .running n →
    (∀ r f, s.part.sup.fresh = true → s.part.adm.reportMark = true → s.part.sup.report = some r →
      s.part.active.plant.fOk ≤ r.freq.toNat → (s.part.car i).snapshot = some f →
      exec .settleExpiry s = .next { s with part := judgeGap (s.part.stepCompleted i f) })
    ∧ (s.part.sup.fresh = true →
      s.part.adm.reportMark = false ∨ (∀ r, s.part.sup.report = some r → r.freq.toNat < s.part.active.plant.fOk) →
      exec .settleExpiry s = .next { s with
        part.adm.settle := .expired
        part.adm.window := some ⟨.waiting, i⟩
        part.adm.recovery := .running (s.part.active.plant.recoveryLimit * 100) })
    ∧ (s.part.sup.fresh = false →
      exec .settleExpiry s = .next { s with part := raiseEvent .blindSettle { s.part with
        adm.window := some ⟨.blind, i⟩
        adm.settle := .running s.part.adm.settleDuration } })

/-- BLIND_EXPIRY completes the step (R82). RECOVERY_EXPIRY sets STEP FAULT, starts the hold-off timer (0 expires at once) and
completes the step (R81). HOLD_OFF_EXPIRY expires the timer and the gap is judged (R68). -/
def Obligations.WindowTimersComplete : Prop :=
  (∀ (s : State) (i : CarIdx) (n : Nat) (f : Figures), (s.part.car i).snapshot = some f →
    s.part.adm.window = some ⟨.blind, i⟩ → s.part.adm.settle = .running n →
    exec .blindExpiry s = .next { s with part := judgeGap (s.part.stepCompleted i f) })
  ∧ (∀ (s : State) (i : CarIdx) (n : Nat) (f : Figures), (s.part.car i).snapshot = some f →
    s.part.adm.window = some ⟨.waiting, i⟩ → s.part.adm.recovery = .running n →
    exec .recoveryExpiry s = .next { s with part := judgeGap (Part.stepCompleted
      (raiseEvent .stepFault { s.part with
        adm.holdOff := if s.part.active.plant.holdOff = 0 then .expired
          else .running (s.part.active.plant.holdOff * 1000) }) i f) })
  ∧ ∀ (s : State) (n : Nat), s.part.adm.holdOff = .running n →
    exec .holdOffExpiry s = .next { s with part := judgeGap { s.part with adm.holdOff := .expired } }

/-- The admission queue holds exactly the QUEUED cars, none twice, in the order of R65: class before class, P0 and P1 by recall
rank, P2 by join sequence; a listed car's recall rank is its position in the list, counted from 0, and listed cars rank before
absent ones, which rank by index (R62, R65). -/
def Obligations.QueueOrder : Prop :=
  ∀ p : Part,
    (∀ i : CarIdx, i ∈ p.queue ↔ (p.car i).run = .queued)
    ∧ p.queue.Nodup
    ∧ p.queue.Pairwise (fun i j => p.ahead j i = false)
    ∧ (∀ i j a b, (p.car i).priority = some a → (p.car j).priority = some b →
        (a = .trapped ∧ b ≠ .trapped ∨ a = .recall ∧ b = .service → p.ahead i j = true ∧ p.ahead j i = false)
        ∧ (a = b → a ≠ .service → (p.ahead i j = true ↔ p.recallRank i < p.recallRank j))
        ∧ (a = .service → b = .service → ∀ m n, (p.car i).joinSeq = some m → (p.car j).joinSeq = some n →
            (p.ahead i j = true ↔ m < n)))
    ∧ (∀ (i : CarIdx) (earlier later : List CarIdx), p.active.recallOrder = earlier ++ i :: later → i ∉ earlier →
        p.recallRank i = earlier.length)
    ∧ ∀ i j : CarIdx, j ∉ p.active.recallOrder → p.active.recallOrder.length ≤ 48 →
        (i ∈ p.active.recallOrder → p.recallRank i < p.recallRank j)
        ∧ (i ∉ p.active.recallOrder → (p.recallRank i < p.recallRank j ↔ i < j))

/-- In rated mode an attempt with the gap OPEN grants the head of the queue when its start fits the step limit and every
check of the table holds: STARTING with the snapshot, commitments and timers of the trip; M and R take S and r_run; the window
SETTLING; every other car and unit unchanged (R70 to R73, R76, R33). There the car is not a SERVICE car under the link master.
The whole walk: from the head, a car whose start exceeds the step limit is marked UNFIT, leaves the queue and the marking is
handed to the evaluation of recall completion (R71); one that fails a check has its skip count raised, and the walk stops at it
when the count has reached the skip limit (R75); the first other one is granted and the walk ends, a SERVICE car under the link
master being shed at once (R76, R103). In single-car mode a grant is made only while no car holds a run, to the first car that
passes the group, halt and regenerating shed checks, with a settle duration of 5120 ms (R77). That the granted record keeps its
priority class and join sequence is the model's own choice (log entry 44). -/
def Obligations.HeadOfQueueIsGranted : Prop :=
  (∀ (p : Part) (i : CarIdx) (rest : List CarIdx),
    let f := p.figures i
    let g := p.group i
    p.gapOpen = true → p.active.plant.g ≠ 0 → p.queue = i :: rest →
    (p.master.mode = .relay ∨ (p.car i).duty ≠ .service) →
    f.start ≤ p.stepMax → p.adm.sumM + f.start ≤ p.capEff → p.adm.sumR + f.rRun ≤ p.regenMax →
    (p.sup.fresh = true → 100 * p.measured + f.start ≤ p.active.plant.g * p.active.plant.usePct) →
    p.groupCount g < (p.groupRec g).maxRunning → p.movingCount < p.active.plant.maxMoving →
    hasGroup p.alarms.halted g = false → (f.rRun = 0 ∨ hasGroup p.alarms.regenShed g = false) →
    let q := attempt p
    q.car i = { p.car i with
        run := .starting, skipCount := 0, snapshot := some f, m := f.start, r := f.rRun, grantTime := p.now, moved := false
        stagnant := 0, reverse := 0, goodRun := 0, stalled := false
        startTimer := .running ((p.classOf i).startLimit * 1000)
        tripTimer := .running ((p.classOf i).tripLimit * 1000) }
    ∧ (∀ j, j ≠ i → q.car j = p.car j)
    ∧ q.adm.sumM = p.adm.sumM + f.start - (p.car i).m ∧ q.adm.sumR = p.adm.sumR + f.rRun - (p.car i).r
    ∧ q.adm.window = some ⟨.settling, i⟩ ∧ q.adm.reportMark = false
    ∧ q.adm.settleDuration = (p.active.plant.settleCode + 1) * 20
    ∧ q.adm.settle = .running ((p.active.plant.settleCode + 1) * 20)
    ∧ q.adm.recovery = p.adm.recovery ∧ q.adm.holdOff = p.adm.holdOff ∧ q.gapOpen = false
    ∧ q.sup = p.sup ∧ q.alarms = p.alarms ∧ q.link = p.link ∧ q.slot = p.slot ∧ q.master = p.master ∧ q.mgmt = p.mgmt
    ∧ q.active = p.active ∧ q.shadow = p.shadow ∧ q.standing = p.standing)
  ∧ (let up (n : Nat) : Nat := if n < 15 then n + 1 else n
    let moving (p : Part) : Nat := (allCars.filter fun i => (p.car i).run = .starting ∨ (p.car i).run = .running).length
    let settled (p : Part) : Part := { p with
      adm.joinCounter := if (∃ j, (p.car j).run = .queued) then p.adm.joinCounter else 0 }
    let groupPasses (p : Part) (i : CarIdx) : Prop :=
      p.groupCount (p.group i) < (p.groupRec (p.group i)).maxRunning ∧ hasGroup p.alarms.halted (p.group i) = false
        ∧ ((p.figures i).rRun = 0 ∨ hasGroup p.alarms.regenShed (p.group i) = false)
    let passes (p : Part) (i : CarIdx) : Prop :=
      p.adm.sumM + (p.figures i).start ≤ p.capEff ∧ p.adm.sumR + (p.figures i).rRun ≤ p.regenMax
        ∧ (p.sup.fresh = true → 100 * p.measured + (p.figures i).start ≤ p.active.plant.g * p.active.plant.usePct)
        ∧ moving p < p.active.plant.maxMoving ∧ groupPasses p i
    let unfit (p : Part) (i : CarIdx) : Part :=
      evaluateCompletion (raiseEvent .unfit (settled (p.setCar i { p.car i with
        run := .idle
        priority := none
        joinSeq := none
        unfit := some ⟨match (p.car i).live with | some l => l.load | none => none⟩ })))
    let skipped (p : Part) (i : CarIdx) : Part := p.setCar i { p.car i with skipCount := up (p.car i).skipCount }
    let granted (p : Part) (i : CarIdx) (duration : Nat) : Part :=
      let f := p.figures i
      let c : Car := { p.car i with
        run := .starting, skipCount := 0, snapshot := some f, m := f.start, r := f.rRun, grantTime := p.now, moved := false
        stagnant := 0, reverse := 0, goodRun := 0, stalled := false
        startTimer := .running ((p.classOf i).startLimit * 1000)
        tripTimer := .running ((p.classOf i).tripLimit * 1000) }
      let run := settled (p.setCar i c)
      let opened : Part := { run with adm := { run.adm with
        sumM := p.adm.sumM + f.start - (p.car i).m
        sumR := p.adm.sumR + f.rRun - (p.car i).r
        window := some ⟨.settling, i⟩
        reportMark := false
        settleDuration := duration
        settle := .running duration } }
      if p.master.mode ≠ .relay ∧ c.duty = .service ∧ c.shed = false then
        raiseEvent .shed (opened.setCar i { c with shed := true })
      else opened
    (∃ walk : List CarIdx → Part → Part,
      (∀ p, p.gapOpen = true → p.active.plant.g ≠ 0 → attempt p = walk p.queue p)
      ∧ (∀ p, walk [] p = p)
      ∧ ∀ p i rest,
        ((p.car i).run ≠ .queued → walk (i :: rest) p = walk rest p)
        ∧ ((p.car i).run = .queued →
          (p.stepMax < (p.figures i).start → walk (i :: rest) p = walk rest (unfit p i))
          ∧ ((p.figures i).start ≤ p.stepMax →
            (passes p i → walk (i :: rest) p = granted p i ((p.active.plant.settleCode + 1) * 20))
            ∧ (¬ passes p i → up (p.car i).skipCount < p.active.plant.skipLimit →
                walk (i :: rest) p = walk rest (skipped p i))
            ∧ (¬ passes p i → p.active.plant.skipLimit ≤ up (p.car i).skipCount → walk (i :: rest) p = skipped p i))))
    ∧ ∀ p, p.gapOpen = true → p.active.plant.g = 0 →
      (moving p ≠ 0 → attempt p = p)
      ∧ (moving p = 0 →
        (∀ passed i rest, p.queue = passed ++ i :: rest → (∀ k, k ∈ passed → ¬ groupPasses p k) → groupPasses p i →
          attempt p = granted p i 5120)
        ∧ ((∀ k, k ∈ p.queue → ¬ groupPasses p k) → attempt p = p)))

/-! ### Alarms -/

/-- A sample of the alarm lines that accepts no new level moves the four run counts alone of what the manual gives the part (R106,
R1); a sample that reaches a depth is in ActionsInEffect. That the command is one millisecond's sample, which also sets the pins
and the sampled mark, is the model's own choice (log entry 5). -/
def Obligations.AlarmSampleBelowDepth : Prop :=
  ∀ (s : State) (a1 a2 a3 a4 : AlarmLevel) (level : Fin 4 → AlarmLevel),
    let x (k : Fin 4) : AlarmLevel := [a1, a2, a3, a4].getD k.val a1
    (∀ k, (s.part.alarmFilter k).level = some (level k)) →
    (∀ k, x k ≠ level k → (s.part.alarmFilter k).count + 1 < (s.part.tripEntry k).depth) →
    let next (k : Fin 4) : LineFilter AlarmLevel :=
      { s.part.alarmFilter k with count := if x k = level k then 0 else (s.part.alarmFilter k).count + 1 }
    exec (.alarmLineFiltered a1 a2 a3 a4) s = .next { s with
      part.pins.a1 := a1
      part.pins.a2 := a2
      part.pins.a3 := a3
      part.pins.a4 := a4
      part.pins.alarmSampled := true
      part.alarms.filters := #v[next 0, next 1, next 2, next 3] }

/-- The actions derived afresh: a line is asserted at its active level, and in effect when also enabled in RECALL, SERVICE or
RETURN, with a change of either captured; HALT and SHED ALL halt their groups, SHED REGEN covers its own, DERATE percents add
up to at most 100; a car that holds a run is shed in a group under SHED ALL, or under SHED REGEN with r above 0, and no other
(R107, R109, R110, R112). And when they are derived: a sample of the alarm lines that reaches a line's depth makes the sampled
level the filtered one; where a filtered level has changed the actions are derived afresh, a changed derate total is handed to
the limits, and the end of an action in effect causes one attempt; where none has changed only the filters move (R1, R2, R106,
R109, R110, R116). That the command is one millisecond's sample, which also sets the pins and the sampled mark, is the model's
own choice (log entry 5). -/
def Obligations.ActionsInEffect : Prop :=
  (∀ p : Part,
    let q := deriveActions p
    let on (a : Action) (k : Fin 4) : Prop := (q.alarmStatus k).inEffect = true ∧ (p.tripEntry k).action = a
    (∀ k : Fin 4,
      ((q.alarmStatus k).asserted = true ↔ (p.alarmFilter k).level = some (p.tripEntry k).level)
      ∧ ((q.alarmStatus k).inEffect = true ↔
          (q.alarmStatus k).asserted = true ∧ (p.tripEntry k).enabled = true ∧ p.sup.state.onGenerator = true)
      ∧ (q.alarmStatus k).changeTime =
          if (q.alarmStatus k).asserted = (p.alarmStatus k).asserted
            ∧ (q.alarmStatus k).inEffect = (p.alarmStatus k).inEffect then (p.alarmStatus k).changeTime else p.now)
    ∧ (∀ g : GroupIdx,
      (hasGroup q.alarms.halted g = true ↔ ∃ k, (on .halt k ∨ on .shedAll k) ∧ hasGroup (p.tripEntry k).groups g = true)
      ∧ (hasGroup q.alarms.regenShed g = true ↔ ∃ k, on .shedRegen k ∧ hasGroup (p.tripEntry k).groups g = true))
    ∧ q.alarms.q = min 100 ((List.finRange 4).map fun k =>
        if (q.alarmStatus k).inEffect ∧ (p.tripEntry k).action = .derate then (p.tripEntry k).percent else 0).sum
    ∧ (∀ i : CarIdx,
      let hit : Prop := (p.car i).holdsRun = true ∧ ∃ k, hasGroup (p.tripEntry k).groups (p.group i) = true
        ∧ (on .shedAll k ∨ (on .shedRegen k ∧ 0 < (p.car i).r))
      (hit → q.car i = { p.car i with shed := true }) ∧ (¬ hit → q.car i = p.car i)
      ∧ (hit → (p.car i).shed = false → q.flag .shed = true))
    ∧ q.sup = p.sup ∧ q.adm = p.adm ∧ q.link = p.link ∧ q.active = p.active ∧ q.standing = p.standing
    ∧ q.alarms.filters = p.alarms.filters)
  ∧ ∀ (s : State) (a1 a2 a3 a4 : AlarmLevel),
    let x (k : Fin 4) : AlarmLevel := [a1, a2, a3, a4].getD k.val a1
    let next (k : Fin 4) : LineFilter AlarmLevel :=
      let old := s.part.alarmFilter k
      let depth := (s.part.tripEntry k).depth
      let agreeing := if old.candidate = some (x k) then old.count + 1 else 1
      match old.level with
      | some level =>
        if x k = level then { old with count := 0 }
        else if depth ≤ old.count + 1 then { old with
          level := some (x k)
          count := 0 }
        else { old with count := old.count + 1 }
      | none =>
        if depth ≤ agreeing then ⟨some (x k), none, 0⟩
        else { old with
          candidate := some (x k)
          count := agreeing }
    let sampled : Part := { s.part with
      pins.a1 := a1
      pins.a2 := a2
      pins.a3 := a3
      pins.a4 := a4
      pins.alarmSampled := true
      alarms.filters := #v[next 0, next 1, next 2, next 3] }
    let derived := deriveActions sampled
    let handed := if derived.alarms.q = s.part.alarms.q then derived else recomputeLimits derived
    let accepted : Prop := ∃ k, (next k).level ≠ (s.part.alarmFilter k).level
    let ended : Prop := ∃ k, (s.part.alarmStatus k).inEffect = true ∧ (derived.alarmStatus k).inEffect = false
    (¬ accepted → exec (.alarmLineFiltered a1 a2 a3 a4) s = .next { s with part := sampled })
    ∧ (accepted → ended → exec (.alarmLineFiltered a1 a2 a3 a4) s = .next { s with part := attempt handed })
    ∧ (accepted → ¬ ended → exec (.alarmLineFiltered a1 a2 a3 a4) s = .next { s with part := handed })

/-- Derate shedding: when Cap_eff has fallen below its standing value, SHED marks are set, one car after another, while the
retained motoring figure (M less the commitments of the shed cars) exceeds Cap_eff and a candidate is left: the cars that hold a
run, are not LOST, carry no mark and have m above 0, SERVICE before RECALL, the latest grant first, then descending index.
Shedding stops once the figure is at or below Cap_eff, and a shed sets the SHED flag; where the figure does not exceed Cap_eff
no car is shed; the standing value takes the new Cap_eff (R59, R111, R114). -/
def Obligations.DerateShedding : Prop :=
  ∀ p : Part,
    let q := recomputeLimits p
    let candidate (i : CarIdx) : Prop :=
      (p.car i).holdsRun = true ∧ (p.car i).duty ≠ .lost ∧ (p.car i).shed = false ∧ 0 < (p.car i).m
    let rank (i : CarIdx) : Nat := if (p.car i).duty = .service then 0 else 1
    let age (i : CarIdx) : Nat := (p.now - (p.car i).grantTime).toNat
    let before (i j : CarIdx) : Prop :=
      rank i < rank j ∨ (rank i = rank j ∧ (age i < age j ∨ (age i = age j ∧ j < i)))
    let left (shed : List CarIdx) : Nat := p.retained - (shed.map fun i => (p.car i).m).sum
    q.standing = p.capEff ∧ q.capEff = p.capEff ∧ q.adm = p.adm
    ∧ (∀ i : CarIdx, q.car i = p.car i ∨ (p.derateCandidate i = true ∧ q.car i = { p.car i with shed := true }))
    ∧ (p.capEff < p.standing → q.retained ≤ q.capEff ∨ ∀ i : CarIdx, q.derateCandidate i = false)
    ∧ (p.standing ≤ p.capEff ∨ p.retained ≤ p.capEff → ∀ i : CarIdx, q.car i = p.car i)
    ∧ ∃ (order : List CarIdx) (n : Nat),
        order.Nodup ∧ (∀ i, i ∈ order ↔ candidate i) ∧ order.Pairwise before ∧ n ≤ order.length
        ∧ (∀ i, q.car i = if i ∈ order.take n then { p.car i with shed := true } else p.car i)
        ∧ q.retained = left (order.take n)
        ∧ (∀ k, k < n → p.capEff < p.standing ∧ p.capEff < left (order.take k))
        ∧ (n < order.length → p.standing ≤ p.capEff ∨ left (order.take n) ≤ p.capEff)
        ∧ (0 < n → q.flag .shed = true)

/-! ### The link ports -/

/-- The receiver of a port on which no line is expected (no slot is open, or one is open on other lines): a first character opens
a frame; between frames a character fault discards silently; in a frame a fault abandons it with a check error, and an idle line
truncates it as malformed; idle time ends DISCARDING; DISCARDING takes no character, and a sending port none either (R121,
R122). -/
def Obligations.ReceiverEvents : Prop :=
  ∀ (s : State) (port : Port) (c : Byte), s.part.lineUnexpected port →
    let x := s.part.link.port port
    let becomes (r : Receiver) (p : Part) : State := { s with part := p.modPort port fun y => { y with receiver := r } }
    (x.sending = false → x.receiver = .betweenFrames →
      exec (.frameFirstCharacter port c) s = .next (becomes (.inFrame [c]) s.part)
      ∧ exec (.characterFaultBetweenFrames port) s = .next (becomes .discarding s.part)
      ∧ exec (.receiverIdleResync port) s = .next s)
    ∧ (∀ chars, x.sending = false → x.receiver = .inFrame chars →
      exec (.frameAbandoned port) s = .next (becomes .discarding (s.part.modPort port fun y =>
        { y with checkErrors := if y.checkErrors < 65535 then y.checkErrors + 1 else y.checkErrors }))
      ∧ exec (.frameTruncated port) s = .next (becomes .betweenFrames { s.part with
          link.malformed := if s.part.link.malformed < 65535 then s.part.link.malformed + 1 else s.part.link.malformed }))
    ∧ (x.receiver = .discarding →
      exec (.receiverIdleResync port) s = .next (becomes .betweenFrames s.part)
      ∧ exec (.frameFirstCharacter port c) s = .next s ∧ exec (.frameAbandoned port) s = .next s)
    ∧ (x.sending = true →
      exec (.frameFirstCharacter port c) s = .next s ∧ exec (.frameAbandoned port) s = .next s)

/-- On an expected line the first character of a frame makes a WAITING line RECEIVING. When the frame is truncated, abandoned or
discarded, its line is WAITING again while its reply timer runs; when the timer has expired it is SILENT, and the slot ends where no
other line is awaited (R122, R124, R146, R148). That R128's end of a slot at such a frame is this one, so that the slot stays while
the timer runs, is the model's own reading (log entry 41). -/
def Obligations.FirstCharacterMovesTheLine : Prop :=
  ∀ (s : State) (port : Port) (c : Byte) (sl : Slot), s.part.slotNow = some sl →
    (s.part.link.port port).sending = false →
    let up (n : Nat) : Nat := if n < 65535 then n + 1 else n
    let ended : Part := s.part.modPort port fun y => { y with receiver := .betweenFrames }
    let malformed : Part := { ended with link.malformed := up ended.link.malformed }
    (∀ n, (s.part.link.port port).receiver = .betweenFrames → slotLine sl port = some ⟨.waiting, .running n⟩ →
      exec (.frameFirstCharacter port c) s = .next { s with
        part := (s.part.setSlotNow (some (setSlotLine sl port ⟨.receiving, .running n⟩))).modPort port fun y =>
          { y with receiver := .inFrame [c] } })
    ∧ ∀ chars, (s.part.link.port port).receiver = .inFrame chars →
      (∃ t, exec (.frameTruncated port) s = .next { s with part := t } ∧ malformed.frameEndsOn t port sl)
      ∧ (∃ t, exec (.frameAbandoned port) s = .next { s with part := t }
        ∧ (s.part.modPort port fun y => { y with
          receiver := .discarding
          checkErrors := up y.checkErrors }).frameEndsOn t port sl)
      ∧ ∀ whole kind address payload check, splitFrame whole = some (kind, address, payload, check) →
        ∃ t, exec (.frameDiscarded port whole) s = .next { s with part := t }
          ∧ (check ≠ be16 (crc (kind :: address :: BitVec.ofNat 8 payload.length :: payload)) →
            (ended.modPort port fun y => { y with checkErrors := up y.checkErrors }).frameEndsOn t port sl)
          ∧ (check = be16 (crc (kind :: address :: BitVec.ofNat 8 payload.length :: payload)) →
            (∀ f, parseFrame kind address payload = some f → frameValid port f = false) → malformed.frameEndsOn t port sl)

/-- Every valid frame that arrives character by character, check and all, does what the whole frame does when it is taken at
once: no bit of a frame is dropped or misread by the characters that carry it (R122 to R134). That a frame command stands for all
its characters, and that FRAME_FIRST_CHARACTER in a frame is the next one, are the model's own choices (log entries 8 and 9). -/
def Obligations.FramesAreTheirCharacters : Prop :=
  ∀ (s : State) (port : Port) (f : Frame), frameValid port f = true → s.part.lineFree port →
    feedCharacters port (wireChars f) s = { s with part := frameArrives port f s.part }

/-- FRAME_DISCARDED of a complete frame on a port on which no line is expected: a check that does not agree counts a check
error; a frame whose check agrees but that is no valid frame of the port counts as malformed; nothing else changes (R124). -/
def Obligations.DiscardedFramesAreCounted : Prop :=
  ∀ (s : State) (port : Port) (chars : List Byte) (kind address : Byte) (payload check : List Byte),
    s.part.takesFrame port → s.part.lineUnexpected port → splitFrame chars = some (kind, address, payload, check) →
    let ended := s.part.modPort port fun y => { y with receiver := .betweenFrames }
    let sum := crc (kind :: address :: BitVec.ofNat 8 payload.length :: payload)
    (check ≠ be16 sum → exec (.frameDiscarded port chars) s = .next { s with part := ended.modPort port fun y =>
      { y with checkErrors := if y.checkErrors < 65535 then y.checkErrors + 1 else y.checkErrors } })
    ∧ (check = be16 sum → (∀ f, parseFrame kind address payload = some f → frameValid port f = false) →
      exec (.frameDiscarded port chars) s = .next { s with part := { ended with
        link.malformed := if ended.link.malformed < 65535 then ended.link.malformed + 1 else ended.link.malformed } })

/-- The worked check of a poll of node 60H: the register goes from FFFF to C592, 774F and 4170, and the frame's characters are
20 60 00 41 70 (R123). -/
def Obligations.WorkedCheck : Prop :=
  crcByte 0xFFFF#16 0x20 = 0xC592#16 ∧ crcByte 0xC592#16 0x60 = 0x774F#16 ∧ crcByte 0x774F#16 0x00 = 0x4170#16
  ∧ crc [0x20, 0x60, 0x00] = 0x4170#16 ∧ wireChars (.plantPoll 0x60) = [0x20, 0x60, 0x00, 0x41, 0x70]

/-- TRANSMIT_START begins the head of a queue when the transmitter is IDLE and no frame is coming in. TRANSMIT_COMPLETE takes
it off the queue; where it is the frame that opened the slot, its SENDING line becomes WAITING and its reply timer starts with
the slot's reply limit (R121, R129, R146). -/
def Obligations.TransmitterEvents : Prop :=
  ∀ (s : State) (port : Port),
    let x := s.part.link.port port
    let sent : Part := s.part.modPort port fun y => { y with sending := false, queue := y.queue.tail }
    (x.sending = false → x.queue ≠ [] → x.receiver = .betweenFrames →
      exec (.transmitStart port) s = .next { s with part := s.part.modPort port fun y => { y with sending := true } })
    ∧ (x.sending = true ∨ x.queue = [] ∨ x.receiver ≠ .betweenFrames → exec (.transmitStart port) s = .next s)
    ∧ (∀ f rest, x.sending = true → x.queue = f :: rest → f.forSlot = false →
      exec (.transmitComplete port) s = .next { s with part := sent })
    ∧ (∀ f rest sl t, x.sending = true → x.queue = f :: rest → f.forSlot = true → s.part.slotNow = some sl →
      slotLine sl port = some ⟨.sending, t⟩ →
      exec (.transmitComplete port) s = .next { s with
        part := sent.setSlotNow (some (setSlotLine sl port ⟨.waiting, .running sl.replyLimit⟩)) })
    ∧ (x.sending = false → exec (.transmitComplete port) s = .next s)

/-! ### Relay -/

/-- A PLANT_POLL, and a MANAGE_REQUEST_OTHER_ADDRESS, in RELAY close the slot record and do nothing else (R138, R148). -/
def Obligations.DispatchFramesCloseTheSlot : Prop :=
  ∀ (s : State) (address : Byte) (payload : List Byte), s.part.takesRequest → isNodeAddress address = true →
    exec (.plantPoll address) s = .next { s with part := s.part.slotClosed }
    ∧ (address ≠ s.part.link.settings.partAddress → 1 ≤ payload.length → payload.length ≤ 32 →
      exec (.manageRequestOtherAddress address payload) s = .next { s with part := s.part.slotClosed })

/-- What closing a slot settles: a plant slot settles nothing; a car slot with no line ANSWERED is a miss for the record that holds
the address; with a line ANSWERED, the health of the expected lines: a line that answered is sound with count 0, and one silent
while the other answered counts up, becoming FAULTY with LINE FAULT at the line limit. An address that no enabled record holds
settles nothing (R148, R149, R151, R160). The frames in the transmit queues stay; that none belongs to a slot any more is the
model's own mark (log entry 23). -/
def Obligations.ClosedSlotSettlesThePoll : Prop :=
  ∀ (p : Part) (sl : Slot), p.slot = some sl →
    let unmarked (x : PortState) : PortState := { x with queue := x.queue.map fun f => { f with forSlot := false } }
    let closed : Part := { p with
      slot := none
      link := { p.link with
        dispatch := unmarked p.link.dispatch
        carA := unmarked p.link.carA
        carB := unmarked p.link.carB } }
    let up (n : Nat) : Nat := if n < 255 then n + 1 else n
    let worse (h : LineHealth) : LineHealth := ⟨h.faulty || decide (p.link.settings.lineLimit ≤ up h.count), up h.count⟩
    let answered (x : Option SlotLine) : Prop := ∃ y, x = some y ∧ y.status = .answered
    let silent (x : Option SlotLine) : Prop := ∃ y, x = some y ∧ y.status ≠ .answered
    let fault (h : LineHealth) (q : Part) : Part :=
      if (worse h).faulty = true ∧ h.faulty = false then raiseEvent .lineFault q else q
    (sl.kind = .plant → closeSlot p = closed)
    ∧ (sl.kind = .car → p.findEnabled sl.address = none → closeSlot p = closed)
    ∧ ∀ i, sl.kind = .car → p.findEnabled sl.address = some i → sl.dispatch = none →
      let c := p.car i
      ((¬ answered sl.carA ∧ ¬ answered sl.carB) → closeSlot p = countMiss i closed)
      ∧ (answered sl.carA → answered sl.carB → closeSlot p = closed.setCar i { c with lineA := ⟨false, 0⟩, lineB := ⟨false, 0⟩ })
      ∧ (answered sl.carA → silent sl.carB →
          closeSlot p = fault c.lineB (closed.setCar i { c with lineA := ⟨false, 0⟩, lineB := worse c.lineB }))
      ∧ (silent sl.carA → answered sl.carB →
          closeSlot p = fault c.lineA (closed.setCar i { c with lineA := worse c.lineA, lineB := ⟨false, 0⟩ }))
      ∧ (answered sl.carA → sl.carB = none → closeSlot p = closed.setCar i { c with lineA := ⟨false, 0⟩ })
      ∧ (sl.carA = none → answered sl.carB → closeSlot p = closed.setCar i { c with lineB := ⟨false, 0⟩ })

/-- A CYCLE_MARK in RELAY closes the slot record, goes out on both car lines as received (a full queue counts an overflow),
brings pending link settings into force, and restarts the silence timer with the limit then in force, the status LIVE (R139,
R136, R154). -/
def Obligations.CycleMarkRelayed : Prop :=
  ∀ (s : State) (number : Byte), s.part.takesRequest → number.toNat ≤ 63 →
    let q := s.part.slotClosed
    let mark : TxFrame := ⟨[0x01, 0x00, 0x01, number] ++ be16 (crc [0x01, 0x00, 0x01, number]), false⟩
    ∃ t, exec (.cycleMark number) s = .next t
      ∧ (∀ port, t.part.link.port port =
          if port = .dispatch then q.link.port port
          else if (q.link.port port).queue.length < 4 then
            { q.link.port port with queue := (q.link.port port).queue ++ [mark] }
          else { q.link.port port with
            overflow := if (q.link.port port).overflow < 65535 then (q.link.port port).overflow + 1
              else (q.link.port port).overflow })
      ∧ t.part.link.settings = q.link.pending.getD q.link.settings ∧ t.part.link.pending = none
      ∧ t.part.master = { q.master with silence := .running t.part.link.settings.silenceLimit, silent := false }
      ∧ t.part.slot = none ∧ t.part.cars = q.cars ∧ t.part.sup = q.sup ∧ t.part.adm = q.adm ∧ t.part.mgmt = q.mgmt
      ∧ t.part.alarms = q.alarms ∧ t.part.active = q.active ∧ t.part.shadow = q.shadow
      ∧ t.part.link.strays = q.link.strays ∧ t.part.link.malformed = q.link.malformed

/-- A CAR_ORDER in RELAY closes the slot record, becomes the stored dispatch order of the record that holds the address, and
its issued order goes out on that record's lines, or on both for an address that no record holds; a slot opens for it with
those lines SENDING, or WAITING where the queue was full (R140, R146). The issued order is that of IssuedOrderTable. -/
def Obligations.CarOrderRelayed : Prop :=
  ∀ (s : State) (address : Byte) (o : OrderPayload), s.part.takesRequest → isCarAddress address = true →
    orderValid o = true →
    let q := s.part.slotClosed
    let r := match q.findEnabled address with
      | some i => q.setCar i { q.car i with order := some o }
      | none => q
    let ports := match q.findEnabled address with
      | some i => (match (q.car i).lines with | .a => [Port.carA] | .b => [.carB] | .both => [.carA, .carB])
      | none => [.carA, .carB]
    let issued := r.issuedOrder address (some o)
    let frame : TxFrame := ⟨wireChars (.carOrder address issued.1), true⟩
    let line (port : Port) : Option SlotLine :=
      if port ∈ ports then
        some (if (q.link.port port).queue.length < 4 then ⟨.sending, .stopped⟩
          else ⟨.waiting, .running q.link.settings.replyLimit⟩)
      else none
    ∃ t, exec (.carOrder address o) s = .next t
      ∧ t.part.cars = r.cars
      ∧ (∀ port, t.part.link.port port =
          if port ∈ ports then
            (if (q.link.port port).queue.length < 4 then
              { q.link.port port with queue := (q.link.port port).queue ++ [frame] }
            else { q.link.port port with
              overflow := if (q.link.port port).overflow < 65535 then (q.link.port port).overflow + 1
                else (q.link.port port).overflow })
          else q.link.port port)
      ∧ (∃ bound, t.part.slot = some ⟨.car, false, address, none, line .carA, line .carB, q.link.settings.replyLimit, issued.2, bound⟩)
      ∧ t.part.link.settings = q.link.settings ∧ t.part.link.pending = q.link.pending
      ∧ t.part.sup = q.sup ∧ t.part.adm = q.adm ∧ t.part.alarms = q.alarms ∧ t.part.master = q.master
      ∧ t.part.mgmt = q.mgmt ∧ t.part.active = q.active ∧ t.part.shadow = q.shadow

/-- The issued order, with whether it is held, row by row: in NORMAL the dispatch order character for character; outside NORMAL
by the record that holds the address; and outside NORMAL a GRANTED permit only to a car that holds a run (R142 to R145). -/
def Obligations.IssuedOrderTable : Prop :=
  ∀ (p : Part) (address : Byte) (received : Option OrderPayload),
    let halt : OrderPayload := ⟨3, 255, 0, 0, []⟩
    (∀ o, p.sup.state = .normal → received = some o → p.issuedOrder address received = (o, false))
    ∧ (∀ i o, p.sup.state = .normal → received = none → p.findEnabled address = some i → (p.car i).order = some o →
        p.issuedOrder address received = (o, false))
    ∧ (p.sup.state = .normal → received = none →
        (∀ i, p.findEnabled address = some i → (p.car i).order = none) → p.issuedOrder address received = (halt, true))
    ∧ (p.sup.state ≠ .normal → p.findEnabled address = none →
        (∀ o, received = some o → p.issuedOrder address received = ({ o with permit := 0 }, true))
        ∧ (received = none → p.issuedOrder address received = (halt, true)))
    ∧ (∀ i d, p.sup.state ≠ .normal → p.findEnabled address = some i →
        ((p.car i).duty ≠ .lost ∧ (p.car i).duty = d ∨ (p.car i).duty = .lost ∧ (p.car i).prior = some d) →
        let c := p.car i
        let own := match c.order with | some o => o.priv | none => []
        let permit : Byte := if c.run = .starting ∨ c.run = .running then 1 else 0
        let floor : Byte := BitVec.ofNat 8 (p.recallFloor i)
        let issued := p.issuedOrder address received
        (c.stopAtLanding = true → issued = (⟨4, 255, 0, 1, own⟩, true))
        ∧ (c.stopAtLanding = false →
          (d = .service → p.master.mode = .relay →
            (∀ o, c.order = some o → issued = ({ o with permit := permit }, false))
            ∧ (c.order = none → issued = (⟨3, 255, 0, permit, []⟩, true)))
          ∧ (d = .service → p.master.mode ≠ .relay →
            (∀ l, c.live = some l → l.zone = .zoneIn → issued = (⟨3, 255, 1, permit, own⟩, true))
            ∧ ((∀ l, c.live = some l → l.zone = .zoneOut) → issued = (⟨3, 255, 0, permit, own⟩, true)))
          ∧ (d = .recall → issued = (⟨1, floor, 2, permit, own⟩, true))
          ∧ (d = .parked → issued = (⟨2, floor, 1, 0, own⟩, true))
          ∧ (d = .stopped ∨ d = .isolated → issued = (⟨3, 255, 0, 0, own⟩, true))))
    ∧ (p.sup.state ≠ .normal → (p.issuedOrder address received).1.permit = 1 →
        ∃ i, p.findEnabled address = some i ∧ (p.car i).holdsRun = true)

/-- A CAR_REPORT in RELAY, classed against the slot record. From the slot's address on a RECEIVING line it is the answer: the
line and the slot become ANSWERED, it is forwarded to the dispatch port with the power-held marker written and the check afresh,
and is taken by the car tracker; a later one is a duplicate and marks its line. Every other report is a stray, counted and
dropped: one from another address returns its RECEIVING line to WAITING, or to SILENT when its timer has expired (R146); on a
line that is not expected or not RECEIVING, and with the slot IDLE, nothing else changes. The slot closes when no other line is
awaited (R147, R148, R150). That the car tracker takes the answer before the slot closes, that a report whose frame began before its
line was WAITING is a stray, and that the held value of the slot record marks an answer in NORMAL too, are the model's own choices
(log entries 15, 47 and 48). -/
def Obligations.CarReportClassed : Prop :=
  ∀ (s : State) (port : Port) (address : Byte) (r : ReportPayload),
    s.part.master.mode = .relay → s.part.takesFrame port → port ≠ .dispatch → isCarAddress address = true →
    reportValid r = true →
    let q := s.part.received port
    let becomes (t : Part) : Prop := exec (.carReport port address r) s = .next { s with part := t }
    let strayed : Part := { q with
      link.strays := if q.link.strays < 65535 then q.link.strays + 1 else q.link.strays }
    let awaited (sl : Slot) (other : Port) : Prop :=
      ∃ y, slotLine sl other = some y ∧ y.status ≠ .answered ∧ y.status ≠ .silent
    let becomesOrCloses (sl : Slot) (t : Part) : Prop :=
      ((∃ other, other ≠ port ∧ awaited sl other) → becomes t)
      ∧ ((∀ other, other ≠ port → ¬ awaited sl other) → becomes (closeSlot t))
    (∀ sl x, q.slot = some sl → slotLine sl port = some x → x.status = .receiving →
      (sl.kind = .car → sl.address = address →
        let next : Slot := { setSlotLine sl port { x with status := .answered } with answered := true }
        let held : Prop := sl.held = true ∨ (q.sup.state ≠ .normal ∧ q.findEnabled address = none)
        ∀ marker : Byte, (held → marker = 2) → (¬ held → marker = 0) →
        let forwarded : TxFrame :=
          ⟨wireChars (.carReport address { r with status := (r.status &&& 0xFD) ||| marker }), false⟩
        (sl.answered = false → becomesOrCloses sl
          (takeReport address (reportLive r) (handFrame .dispatch forwarded { q with slot := some next })))
        ∧ (sl.answered = true → becomesOrCloses sl { q with slot := some next }))
      ∧ (sl.kind ≠ .car ∨ sl.address ≠ address →
        (∀ n, x.timer = .running n →
          becomes { strayed with slot := some (setSlotLine sl port { x with status := .waiting }) })
        ∧ (x.timer.isRunning = false → becomesOrCloses sl
          { strayed with slot := some (setSlotLine sl port { x with status := .silent }) })))
    ∧ (∀ sl, q.slot = some sl → (∃ other, awaited sl other) → (∀ x, slotLine sl port = some x → x.status ≠ .receiving) →
      becomes strayed)
    ∧ (q.slot = none → becomes strayed)

/-- What the tracker does with a report. It takes one for the enabled record that holds the address (R26), its fields decoded by the
byte layouts, a load byte of 151 to 254 held as 150 and one of 255 as ABSENT (R132). The live fields, the report time, the miss
count 0, and UNFIT cleared by a load that differs from the one held (R26, R28); in NORMAL, for an idle record that is neither LOST
nor PARKED, nothing else. In RECALL and SERVICE a waiting car that meets every condition of joining is QUEUED with the class of its
zone and duty and the next join sequence, after a new numbering of the queue where the counter stands at 65535, and with the gap
OPEN its join makes one attempt (R63, R64, R69); a QUEUED car whose report shows request NONE or BLOCKED leaves the queue (R66). The
first hearing parks a RECALL car that stands at its recall floor (R29). A report for a LOST record ends the loss with the restored
duty, or ISOLATED; where the record still holds a run, the report is a baseline report: in motion it is noted and the run goes on,
STOPPED it can end the trip, with the settlement written to the prior duty first (R32). A PARKED record that no longer stands drifts
to RECALL; its end of BLOCKED causes a service selection (R92, R100). While the car holds a run: a report in motion is noted and
counted, and the car stalls at the stall limit, which is tested at a STOPPED report too (R34, R35); a STOPPED report is an arrival,
with the settlement, which disables the record where a DISABLE is pending, and the parking check (R38 to R40), a withdrawn start, or
no change (R41). A change of duty is handed to the sequencing unit. The last steps, joining and the two checks of a PARKED record,
follow each of these on the part as it then stands (so that a released car can join again in the same report, R63); they do nothing
where the report causes no join and does not end BLOCKED. For a release nothing waits for the gap. The place of the selection for an
ended BLOCKED, and that a released record keeps its priority class and join sequence, are the model's own choices (log entries 14
and 44). -/
def Obligations.ReportIntake : Prop :=
  ∀ (p : Part) (i : CarIdx) (l : Live),
    let c := p.car i
    let taken : Car := { c with
      missCount := 0
      live := some l
      reportTime := p.now
      unfit := match c.unfit with
        | some mark => if mark.load = l.load then some mark else none
        | none => none }
    let heard := p.setCar i taken
    let withDuty (c : Car) (d : Duty) : Car := { c with
      duty := d
      pendingRecall := false }
    let blocks : Bool := l.faults.safetyOpen || l.faults.driveFault || l.faults.inspection
    let stands : Bool := l.motion = .stopped ∧ l.zone = .zoneIn ∧ l.floor = p.recallFloor i
    let noJoin : Prop := l.request = .none ∨ (p.sup.state ≠ .recall ∧ p.sup.state ≠ .service)
    let lastSteps (x : Part) : Part := afterIntake i c.blocked (handToAdmission i l x)
    let ends (x : Part) : Prop :=
      intake i l p = lastSteps x ∧ (noJoin → c.blocked = false ∨ blocks = true → intake i l p = x)
    let limit := p.active.plant.stallLimit
    let stalling (c : Car) : Car := { c with
      stalled := true
      stallCount := if c.stallCount < 255 then c.stallCount + 1 else c.stallCount }
    let halts (x : Car) : Prop := x.shed = true ∨ x.stalled = true ∨ x.isolatePending = true
    let settled (x : Car) (held : Duty) : Duty :=
      if x.isolatePending = true ∨ 2 ≤ x.stallCount then .isolated
      else if c.pendingRecall = true then .recall
      else held
    let freed (x : Car) : Car := { x with
      run := .idle, m := 0, r := 0, snapshot := none, shed := false, stalled := false, isolatePending := false
      startTimer := .stopped, tripTimer := .stopped, stagnant := 0, reverse := 0, goodRun := 0 }
    let disabled : Car := { ({} : Car) with
      address := c.address
      lines := c.lines }
    let cut : Admission := { p.adm with
      sumM := p.adm.sumM - c.m
      sumR := p.adm.sumR - c.r }
    let withoutRun : Admission := match p.adm.window with
      | some w => if w.car = i then { cut with
          window := none
          settle := .stopped
          recovery := .stopped } else cut
      | none => cut
    (∀ address, (p.findEnabled address = some i → takeReport address l p = intake i l p)
      ∧ (p.findEnabled address = none → takeReport address l p = p))
    ∧ (∀ r : ReportPayload,
      let h := reportLive r
      h.floor = r.floor.toNat ∧ h.target = r.target.toNat ∧ h.pulses = r.pulses
      ∧ h.load = (if r.load = 255 then none else some (min r.load.toNat 150))
      ∧ (h.zone = .zoneIn ↔ r.status.getLsbD 0 = true)
      ∧ (h.direction = .up ↔ r.direction = 1) ∧ (h.direction = .down ↔ r.direction = 2)
      ∧ (h.request = .up ↔ r.request = 1) ∧ (h.request = .down ↔ r.request = 2)
      ∧ (h.motion = .moving ↔ r.motion = 1) ∧ (h.motion = .levelling ↔ r.motion = 2)
      ∧ (h.door = .closed ↔ r.door = 1) ∧ (h.door = .moving ↔ r.door = 2)
      ∧ h.faults = ⟨r.faults.getLsbD 0, r.faults.getLsbD 1, r.faults.getLsbD 2, r.faults.getLsbD 3⟩)
    ∧ (p.sup.state = .normal → c.run = .idle → c.duty ≠ .lost → c.duty ≠ .parked → intake i l p = heard)
    ∧ (∀ x : Part,
      let y := x.car i
      let joins : Prop := l.request ≠ .none ∧ l.motion = .stopped ∧ (y.duty = .recall ∨ y.duty = .service) ∧ y.run = .idle
        ∧ blocks = false ∧ y.unfit = none ∧ y.isolatePending = false ∧ y.disablePending = false
        ∧ (x.sup.state = .recall ∨ x.sup.state = .service)
      let queued (sequence : Nat) : Car := { y with
        run := .queued
        priority := some (if l.zone = .zoneOut then .trapped else if y.duty = .recall then .recall else .service)
        joinSeq := some sequence
        skipCount := 0 }
      let left := x.setCar i { y with
        run := .idle
        priority := none
        joinSeq := none }
      y.live = some l →
      (joins → ∃ joined : Part,
        (x.adm.joinCounter < 65535 → joined = { x.setCar i (queued x.adm.joinCounter) with
          adm := { x.adm with joinCounter := x.adm.joinCounter + 1 } })
        ∧ (65535 ≤ x.adm.joinCounter → ∃ order : List CarIdx,
          order.Nodup ∧ (∀ j, j ∈ order ↔ (x.car j).run = .queued)
          ∧ order.Pairwise (fun j k => (x.car j).joinSeq.getD 0 ≤ (x.car k).joinSeq.getD 0)
          ∧ joined = { x with
              cars := joined.cars
              adm := { x.adm with joinCounter := order.length + 1 } }
          ∧ joined.car i = queued order.length
          ∧ (∀ n j, order[n]? = some j → joined.car j = { x.car j with joinSeq := some n })
          ∧ ∀ j, j ≠ i → j ∉ order → joined.car j = x.car j)
        ∧ (x.gapOpen = false → handToAdmission i l x = joined)
        ∧ (x.gapOpen = true → handToAdmission i l x = attempt joined))
      ∧ (y.run = .queued → l.request = .none ∨ blocks = true → handToAdmission i l x = { left with
          adm.joinCounter := if (∃ j, (left.car j).run = .queued) then x.adm.joinCounter else 0 })
      ∧ (y.run ≠ .queued ∨ (l.request ≠ .none ∧ blocks = false) → ¬ joins → handToAdmission i l x = x))
    ∧ (∀ (x : Part) (wasBlocked : Bool),
      let y := x.car i
      let z := afterIntake i wasBlocked x
      let drifts : Prop := x.sup.state.onGenerator = true ∧ passesStanding (x.recallFloor i) y = false
      let selects : Prop := x.sup.state = .service ∧ wasBlocked = true ∧ y.blocked = false
      (y.duty ≠ .parked → z = x)
      ∧ (y.duty = .parked →
        (drifts → z = handDutyChange .parked .recall (x.setCar i (withDuty y .recall)))
        ∧ (¬ drifts → (selects → z = serviceSelection x) ∧ (¬ selects → z = x))))
    ∧ (c.run = .idle ∨ c.run = .queued → c.duty ≠ .lost →
      (c.live = none → c.duty = .recall → p.sup.state.onGenerator = true → stands = false) → intake i l p = lastSteps heard)
    ∧ (p.sup.state = .recall ∨ p.sup.state = .service → c.live ≠ none → c.run = .idle →
      c.duty = .recall ∨ c.duty = .service → c.isolatePending = false → c.disablePending = false → taken.unfit = none →
      l.request ≠ .none → l.motion = .stopped → l.faults.safetyOpen = false → l.faults.driveFault = false →
      l.faults.inspection = false → p.adm.joinCounter < 65535 → p.gapOpen = false →
      intake i l p = { p.setCar i { taken with
          run := .queued
          priority := some (if l.zone = .zoneOut then .trapped else if c.duty = .recall then .recall else .service)
          joinSeq := some p.adm.joinCounter
          skipCount := 0 } with
        adm := { p.adm with joinCounter := p.adm.joinCounter + 1 } })
    ∧ (c.run = .queued → c.live ≠ none → c.duty = .recall ∨ c.duty = .service → l.request = .none ∨ blocks = true →
      let left := p.setCar i { taken with
        run := .idle
        priority := none
        joinSeq := none }
      intake i l p = { left with
        adm.joinCounter := if (∃ j, (left.car j).run = .queued) then p.adm.joinCounter else 0 })
    ∧ (p.sup.state.onGenerator = true → c.live = none → c.duty = .recall → c.run = .idle →
      (stands = true → ends (handDutyChange .recall .parked (p.setCar i (withDuty taken .parked))))
      ∧ (stands = false → ends heard))
    ∧ (∀ d, c.duty = .lost → c.prior = some d → c.run = .idle →
      let back : Duty :=
        if d = .isolated then .isolated
        else match p.sup.state with
          | .normal => .normal
          | .outage => .stopped
          | .standby => .stopped
          | _ => if stands then .parked else .recall
      ends (handDutyChange .lost back (p.setCar i (withDuty { taken with prior := none } back))))
    ∧ (∀ d0, c.duty = .lost → c.prior = some d0 → c.holdsRun = true →
      let back (d : Duty) (stand : Bool) : Duty :=
        if d = .isolated then .isolated
        else match p.sup.state with
          | .normal => .normal
          | .outage => .stopped
          | .standby => .stopped
          | _ => if stand then .parked else .recall
      let goesOn (x : Car) : Part :=
        handDutyChange .lost (back d0 false) (p.setCar i (withDuty { x with prior := none } (back d0 false)))
      (l.motion ≠ .stopped → intake i l p = goesOn (if c.moved = true then taken else { taken with
          moved := true
          startTimer := .stopped }))
      ∧ (l.motion = .stopped → c.moved = false → l.request ≠ .none → ¬ halts c → intake i l p = goesOn taken)
      ∧ (l.motion = .stopped → c.moved = true ∨ l.request = .none ∨ halts c → p.nothingWaits →
        (c.disablePending = true →
          intake i l p = handDutyChange .lost .disabled { p.setCar i disabled with adm := withoutRun })
        ∧ (c.disablePending = false →
          let d := back (settled c d0) stands
          ends (handDutyChange .lost d { p.setCar i (withDuty { freed taken with
              arrivalTime := if c.moved = true then p.now else c.arrivalTime
              prior := none } d) with
            adm := withoutRun }))))
    ∧ (c.duty = .parked → c.run = .idle →
      (p.sup.state.onGenerator = false → intake i l p = heard)
      ∧ (p.sup.state.onGenerator = true → stands = false →
          intake i l p = handDutyChange .parked .recall (p.setCar i (withDuty taken .recall)))
      ∧ (p.sup.state.onGenerator = true → stands = true →
        (p.sup.state = .service → c.blocked = true → blocks = false → intake i l p = serviceSelection heard)
        ∧ (p.sup.state ≠ .service ∨ c.blocked = false ∨ blocks = true → intake i l p = heard)))
    ∧ (∀ old, c.live = some old → c.duty = .recall ∨ c.duty = .service → c.holdsRun = true →
      (l.motion ≠ .stopped →
        let noted : Car := if c.moved = true then taken else { taken with
          moved := true
          startTimer := .stopped }
        (c.stalled = true → intake i l p = p.setCar i noted)
        ∧ ∀ f, c.stalled = false → c.snapshot = some f →
          let counted := countProgress (p.classOf i).minProgress f.dir (l.pulses - old.pulses).toInt noted
          let stalls := raiseEvent .stall (p.setCar i (stalling counted))
          (counted.stagnant < limit → counted.reverse < limit → intake i l p = p.setCar i counted)
          ∧ (limit ≤ counted.stagnant ∨ limit ≤ counted.reverse →
            (c.run = .running → intake i l p = stalls)
            ∧ (c.run = .starting → p.nothingWaits → intake i l p = stalls.stepCompleted i f)))
      ∧ (l.motion = .stopped →
        let atLimit : Bool := c.stalled = false ∧ (limit ≤ c.stagnant ∨ limit ≤ c.reverse)
        let tested : Car := if atLimit then stalling taken else taken
        let testedPart : Part := if atLimit then raiseEvent .stall (p.setCar i tested) else p.setCar i tested
        let d := settled tested c.duty
        let released (time : Time) : Part := { testedPart.setCar i (withDuty { freed tested with arrivalTime := time } d) with
          adm := withoutRun }
        let handed (time : Time) : Part :=
          if d = c.duty then released time else handDutyChange c.duty d (released time)
        c.run = .running ∨ atLimit = false →
          (c.moved = false → l.request ≠ .none → ¬ halts tested → intake i l p = testedPart)
          ∧ (c.disablePending = true → c.moved = true ∨ l.request = .none ∨ halts tested → p.nothingWaits →
            intake i l p = handDutyChange c.duty .disabled { testedPart.setCar i disabled with adm := withoutRun })
          ∧ (c.disablePending = false → p.nothingWaits →
            (c.moved = false → l.request = .none ∨ halts tested → ends (handed c.arrivalTime))
            ∧ (c.moved = true →
              let x := handed p.now
              ((x.car i).duty = .recall → l.zone = .zoneIn → l.floor = p.recallFloor i →
                ends (handDutyChange .recall .parked (x.setCar i (withDuty (x.car i) .parked))))
              ∧ ((x.car i).duty ≠ .recall ∨ l.zone ≠ .zoneIn ∨ l.floor ≠ p.recallFloor i → ends x)))))

/-- REPLY_TIMER_EXPIRY makes a WAITING line SILENT and leaves a RECEIVING one to the end of its frame; SENDING_LINE_TIMEOUT makes a
line of a master slot that is still SENDING SILENT. The slot stays while another line is awaited; with none awaited it closes in
RELAY, and in MASTER and HANDBACK it is settled and the walk goes on to the next matched entry, or ends with WAIT, the next cycle or
the completed handback (R146, R148, R158, R159, R160, R164). With no slot open neither command does anything. -/
def Obligations.LineTimersSilence : Prop :=
  ∀ (s : State) (port : Port),
    (s.part.slotNow = none →
      exec (.replyTimerExpiry port) s = .next s ∧ exec (.sendingLineTimeout port) s = .next s)
    ∧ ∀ sl, s.part.slotNow = some sl →
      (∀ n, slotLine sl port = some ⟨.waiting, .running n⟩ → ∃ t,
        exec (.replyTimerExpiry port) s = .next { s with part := t }
        ∧ s.part.slotGoesOn t (setSlotLine sl port ⟨.silent, .expired⟩))
      ∧ (∀ n, slotLine sl port = some ⟨.receiving, .running n⟩ →
        exec (.replyTimerExpiry port) s = .next { s with
          part := s.part.setSlotNow (some (setSlotLine sl port ⟨.receiving, .expired⟩)) })
      ∧ (∀ timer, s.part.master.mode ≠ .relay → slotLine sl port = some ⟨.sending, timer⟩ → ∃ t,
        exec (.sendingLineTimeout port) s = .next { s with part := t }
        ∧ s.part.slotGoesOn t (setSlotLine sl port ⟨.silent, timer⟩))
      ∧ (s.part.master.mode = .relay → exec (.sendingLineTimeout port) s = .next s)

/-! ### Link mastership -/

/-- SILENCE_EXPIRY in RELAY: in NORMAL the status becomes SILENT with DISPATCH SILENT and the part relays on; in any other
state the relay slot closes, the mode becomes MASTER, each SERVICE car with a run is shed, with the SHED flag where a mark is
newly set, nothing else changes, and the first master cycle begins: the mark, and the issued order of the first matched CAR entry
on its lines, or the PLANT POLL of a PLANT entry. CYCLE_PERIOD_EXPIRY begins the next cycle in MASTER and WAIT, and is only noted
in SLOTS and in HANDBACK (R154, R155, R157 to R160, R162). -/
def Obligations.SilenceAndPeriodExpiry : Prop :=
  ∀ (s : State) (n : Nat),
    (s.part.master.silence = .running n → s.part.master.mode = .relay →
      let silent : Part := raiseEvent .dispatchSilent { s.part with
        master.silence := .expired
        master.silent := true }
      (s.part.sup.state = .normal → exec .silenceExpiry s = .next { s with part := silent })
      ∧ (s.part.sup.state ≠ .normal → ∃ t, exec .silenceExpiry s = .next { s with part := t } ∧ silent.takesOver t))
    ∧ (s.part.master.period = .running n →
      let expired : Part := { s.part with master.period := .expired }
      (s.part.master.mode = .master → s.part.master.phase = .wait → ∃ t : Part,
        exec .cyclePeriodExpiry s = .next { s with part := t } ∧ expired.beginsCycle t)
      ∧ (s.part.master.mode ≠ .master ∨ s.part.master.phase ≠ .wait →
        exec .cyclePeriodExpiry s = .next { s with part := expired }))

/-- A MASTER_CAR_REPORT, classed against the master slot. From the slot's address on a RECEIVING line it is the answer, which goes to
the car tracker and is not forwarded, or a duplicate, and its line becomes ANSWERED; every other report is a stray, counted. A
MASTER_PLANT_REPORT from the address of the plant slot on the RECEIVING dispatch port is taken; every other one is not, and in
HANDBACK it counts as dropped. A slot with no line awaited any more ends, and the walk goes on: the next matched entry has its slot,
or the phase becomes WAIT, the next cycle begins at once where the period timer has expired, or in HANDBACK the mode becomes RELAY
(R158, R159, R160, R163, R164). That the tracker takes an answer before the slot ends, and that a report begun before its line was
WAITING is a stray, are the model's own choices (log entries 51 and 47). -/
def Obligations.MasterReports : Prop :=
  ∀ (s : State) (port : Port) (address : Byte) (r : ReportPayload) (power freq : Word16) (flags : Byte),
    (s.part.master.mode ≠ .relay → s.part.takesFrame port → port ≠ .dispatch → isCarAddress address = true →
      reportValid r = true →
      let q := s.part.received port
      let becomes (t : Part) : Prop := exec (.masterCarReport port address r) s = .next { s with part := t }
      let strayed : Part := { q with
        link.strays := if q.link.strays < 65535 then q.link.strays + 1 else q.link.strays }
      (∀ sl x, q.master.slot = some sl → sl.kind = .car → sl.address = address → slotLine sl port = some x →
        x.status = .receiving →
        let next : Slot := { setSlotLine sl port { x with status := .answered } with answered := true }
        ∃ t, becomes t
          ∧ (sl.answered = false →
            (takeReport address (reportLive r) { q with master.slot := some next }).slotGoesOn t next)
          ∧ (sl.answered = true → q.slotGoesOn t next))
      ∧ (∀ sl, q.master.slot = some sl →
        sl.kind ≠ .car ∨ sl.address ≠ address ∨ (∀ x, slotLine sl port = some x → x.status ≠ .receiving) →
        ∃ t, becomes t ∧ strayed.frameEndsOn t port sl)
      ∧ (q.master.slot = none → becomes strayed))
    ∧ (s.part.master.mode ≠ .relay → s.part.takesFrame .dispatch → isNodeAddress address = true →
      let q := s.part.received .dispatch
      let becomes (t : Part) : Prop := exec (.masterPlantReport address power freq flags) s = .next { s with part := t }
      let passed : Part := if s.part.master.mode = .handback then { q with
          link.dropped := if q.link.dropped < 65535 then q.link.dropped + 1 else q.link.dropped }
        else q
      (∀ sl x, q.master.slot = some sl → sl.kind = .plant → sl.address = address → sl.dispatch = some x →
        x.status = .receiving →
        let answered : Slot := { sl with
          dispatch := some { x with status := .answered }
          answered := true }
        ∃ t, becomes t
          ∧ (takePlantReport power freq (flags.getLsbD 0) { q with master.slot := some answered }).slotGoesOn t answered)
      ∧ (∀ sl, q.master.slot = some sl →
        sl.kind ≠ .plant ∨ sl.address ≠ address ∨ (∀ x, sl.dispatch = some x → x.status ≠ .receiving) →
        ∃ t, becomes t ∧ passed.frameEndsOn t .dispatch sl)
      ∧ (q.master.slot = none → becomes passed))

/-- A MASTER_CYCLE_MARK begins a handback, which completes at once in WAIT: the mode RELAY, the silence timer running, the
status LIVE. Every other dispatch frame that answers no slot has no effect in MASTER (MASTER_DISPATCH_FRAME_IGNORED), and every
dispatch frame that answers no slot counts as dropped in HANDBACK (HANDBACK_FRAME_DROPPED). Each of them that ends on the RECEIVING
dispatch port of a plant slot takes the port back to WAITING, or to SILENT, which ends the slot (R146, R160 to R164). That this holds
of every kind of frame, and that a mark is taken before the slot it ends, are the model's own choices (log entries 24 and 52). -/
def Obligations.MasterDispatchFrames : Prop :=
  ∀ (s : State) (number : Byte) (f : Frame), s.part.takesFrame .dispatch →
    let q := s.part.received .dispatch
    let passes (c : Instr) (p : Part) : Prop :=
      (q.master.slot = none → exec c s = .next { s with part := p })
      ∧ ∀ sl, q.master.slot = some sl → ∃ t, exec c s = .next { s with part := t } ∧ p.frameEndsOn t .dispatch sl
    let answers : Prop := ∃ address power freq flags sl x, f = .plantReport address power freq flags
      ∧ q.master.slot = some sl ∧ sl.kind = .plant ∧ sl.address = address ∧ sl.dispatch = some x ∧ x.status = .receiving
    (s.part.master.mode = .master → number.toNat ≤ 63 →
      (s.part.master.phase ≠ .slots → exec (.masterCycleMark number) s = .next { s with part := q.handedBack })
      ∧ (s.part.master.phase = .slots → passes (.masterCycleMark number) { q with master.mode := .handback }))
    ∧ (s.part.master.mode = .master → frameValid .dispatch f = true → (∀ n, f ≠ .cycleMark n) → ¬ answers →
      passes (.masterDispatchFrameIgnored f) q)
    ∧ (s.part.master.mode = .handback → frameValid .dispatch f = true → ¬ answers →
      passes (.handbackFrameDropped f) { q with
        link.dropped := if q.link.dropped < 65535 then q.link.dropped + 1 else q.link.dropped })

/-! ### Management -/

/-- READ answers DONE with the entry, by table, selector and index, its fields in the order of the spec's tables; SUMMARY answers
DONE with the summary; neither changes anything else. A table that is not known, a selector that the table does not allow and an
index outside the table are refused, and so is an unknown request kind: no data, no effect (R167, R168, R176). The free bytes of
an unheard live field, the layout of a service list, the order of the line marks and counts in status part 3, the two bytes of a
PLANT entry, and the order of the ports among the link counters are the model's own choices (log entries 17, 18, 19, 20, 50), and
so is the test of a READ selector before the index (log entry 40). -/
def Obligations.ReadsAreAnswered : Prop :=
  ∀ (s : State), s.part.servesRequest →
    let q := s.part.slotClosed
    let reads (args data : List Byte) : Prop := exec (.read args) s = .next { s with part := q.replied 0 data }
    let refused (args : List Byte) (code : Byte) : Prop :=
      exec (.read args) s = .next { s with part := q.replied code [] }
    let copies (x : Tables) (sel : Byte) : Prop :=
      (∀ i : Fin 48, reads [2, sel, BitVec.ofNat 8 i.val] (configBytes x.config[i.val]))
      ∧ (∀ i : Fin 16, reads [4, sel, BitVec.ofNat 8 i.val] (classBytes x.classes[i.val]))
      ∧ reads [5, sel, 0] (plantBytes x.plant)
      ∧ (∀ i : Fin 8, reads [6, sel, BitVec.ofNat 8 i.val] (groupBytes x.groups[i.val]))
      ∧ (∀ i : Fin 49, reads [7, sel, BitVec.ofNat 8 i.val] (recallOrderBytes x.recallOrder i.val))
      ∧ (∀ i : Fin 4, reads [8, sel, BitVec.ofNat 8 i.val] (tripBytes x.tripMap[i.val]))
      ∧ (∀ i : Fin 64, reads [9, sel, BitVec.ofNat 8 i.val] (scheduleBytes x.schedule[i.val]))
    copies q.active 0 ∧ copies q.shadow 1
    ∧ (∀ i : Fin 48,
        reads [1, 0, BitVec.ofNat 8 i.val] (identityBytes (q.car i))
        ∧ reads [3, 0, BitVec.ofNat 8 i.val] (statusPart0 (q.car i))
        ∧ reads [3, 1, BitVec.ofNat 8 i.val] (statusPart1 (q.car i))
        ∧ reads [3, 2, BitVec.ofNat 8 i.val] (statusPart2 (q.car i))
        ∧ reads [3, 3, BitVec.ofNat 8 i.val] (statusPart3 (q.car i)))
    ∧ reads [10, 0, 0] (settingsBytes q.link.settings ++ [if q.link.pending.isSome = true then 1 else 0])
    ∧ (∀ r, q.link.pending = some r → reads [10, 1, 0] (settingsBytes r))
    ∧ (q.link.pending = none → reads [10, 1, 0] [])
    ∧ (∀ k : Fin 4, reads [11, 0, BitVec.ofNat 8 k.val] (alarmStatusBytes q k))
    ∧ reads [12, 0, 0] (counterBytes q.link)
    ∧ reads [13, 0, 0] (transferBytes q.sup)
    ∧ exec (.summary []) s = .next { s with part := q.replied 0 (summaryBytes q) }
    ∧ (∀ table selector index : Byte,
        (table = 0 ∨ 13 < table.toNat → refused [table, selector, index] 4)
        ∧ (table = 3 → 3 < selector.toNat → refused [table, selector, index] 4)
        ∧ (table ≠ 3 → 1 < selector.toNat → refused [table, selector, index] 4)
        ∧ (table = 1 ∨ table = 11 ∨ table = 12 ∨ table = 13 → selector = 1 → refused [table, selector, index] 4)
        ∧ ∀ entries : Nat, (table.toNat, entries) ∈ [(1, 48), (2, 48), (3, 48), (4, 16), (5, 1), (6, 8), (7, 49), (8, 4),
            (9, 64), (10, 1), (11, 4), (12, 1), (13, 1)] →
          selector = 0 → entries ≤ index.toNat → refused [table, selector, index] 5)
    ∧ (∀ (kind : Byte) (args : List Byte), kind = 0 ∨ 12 < kind.toNat → args.length ≤ 31 →
        exec (.manageRequestBadKind kind args) s = .next { s with part := q.replied 6 [] })

/-- A WRITE of a class, car configuration, group or schedule record with every field in its range replaces the whole shadow
entry, and a run of indices replaces the shadow recall order list from its start position on; the result is DONE and nothing
else changes. A record of one of these tables with a field out of its range or with a wrong number of fields is refused with BAD
VALUE: a class above 15, a group above 7, a floor above 127, a service list longer than eight, with an index above 47 or with a
car twice, a kind other than CAR and PLANT, a CAR entry with a bad address or line assignment, a filter value or mask above 63; so
is a run that starts above the list's length, makes it longer than 48, carries an index above 47 or makes a car stand twice; and
an index outside the table is refused with BAD INDEX (R169, R20, R48, R89, R90, R156, R167). The layout of a service list, the two
bytes of a PLANT entry that are not judged, BAD INDEX for a start position above 48, and BAD VALUE for a WRITE that carries no index
are the model's own choices (log entries 18, 20, 36, 39). -/
def Obligations.StagedWrites : Prop :=
  ∀ (s : State), s.part.servesRequest →
    let q := s.part.slotClosed
    let done (c : Instr) (x : Tables) : Prop :=
      exec c s = .next { s with part := Part.replied 0 [] { q with shadow := x } }
    let refused (c : Instr) (code : Byte) : Prop := exec c s = .next { s with part := q.replied code [] }
    let index (n : Nat) : Byte := BitVec.ofNat 8 n
    (∀ (i : Fin 48) (c : Fin 16) (g : Fin 8) (floor : Option Nat), (∀ f, floor = some f → f ≤ 127) →
      done (.writeCarConfiguration [index i.val, index c.val, index g.val,
          match floor with | some f => BitVec.ofNat 8 f | none => 255])
        { q.shadow with config := q.shadow.config.set i.val ⟨c, g, floor⟩ })
    ∧ (∀ (i : Fin 16) (x : ClassRec), x.a ≤ 100 → x.k ≤ 500 → 30 ≤ x.b → x.b ≤ 60 → x.acc ≤ 300 → 1 ≤ x.minProgress →
      x.minProgress ≤ 255 → 1 ≤ x.startLimit → x.startLimit ≤ 30 → 10 ≤ x.tripLimit → x.tripLimit ≤ 600 →
      done (.writeClass (index i.val :: classBytes x)) { q.shadow with classes := q.shadow.classes.set i.val x })
    ∧ (∀ (i : Fin 8) (x : GroupRec), x.recallFloor ≤ 127 → x.maxRunning ≤ 16 → x.serviceCount ≤ 8 →
      x.serviceList.length ≤ 8 → x.serviceList.Nodup →
      done (.writeGroup (index i.val :: groupBytes x)) { q.shadow with groups := q.shadow.groups.set i.val x })
    ∧ (∀ (start : Fin 49) (run : List CarIdx), start.val ≤ q.shadow.recallOrder.length → run.length ≤ 29 →
      start.val + run.length ≤ 48 → (q.shadow.recallOrder.take start.val ++ run).Nodup →
      done (.writeRecallOrder (index start.val :: run.map fun i => index i.val))
        { q.shadow with recallOrder := q.shadow.recallOrder.take start.val ++ run })
    ∧ (∀ (i : Fin 64) (used : Bool) (address : Byte) (lines : Lines) (value mask : Nat), isCarAddress address = true →
      value ≤ 63 → mask ≤ 63 →
      done (.writeSchedule [index i.val, if used = true then 1 else 0, 0, address,
          match lines with | .a => 0 | .b => 1 | .both => 2, index value, index mask])
        { q.shadow with schedule := q.shadow.schedule.set i.val ⟨used, .car address lines, value, mask⟩ })
    ∧ (∀ (i : Fin 64) (used : Bool) (value mask : Nat) (x y : Byte), value ≤ 63 → mask ≤ 63 →
      done (.writeSchedule [index i.val, if used = true then 1 else 0, 1, x, y, index value, index mask])
        { q.shadow with schedule := q.shadow.schedule.set i.val ⟨used, .plant, value, mask⟩ })
    ∧ (∀ (i : Fin 16) (x : ClassRec), x.a < 256 → x.k < 65536 → x.b < 256 → x.acc < 65536 → x.minProgress < 256 →
      x.startLimit < 256 → x.tripLimit < 65536 → (100 < x.a ∨ 500 < x.k ∨ x.b < 30 ∨ 60 < x.b ∨ 300 < x.acc
        ∨ x.minProgress < 1 ∨ x.startLimit < 1 ∨ 30 < x.startLimit ∨ x.tripLimit < 10 ∨ 600 < x.tripLimit) →
      refused (.writeClass (index i.val :: classBytes x)) 6)
    ∧ (∀ (i : Byte) (fields : List Byte), fields.length ≤ 29 →
      (48 ≤ i.toNat → refused (.writeCarConfiguration (i :: fields)) 5)
      ∧ (16 ≤ i.toNat → refused (.writeClass (i :: fields)) 5) ∧ (8 ≤ i.toNat → refused (.writeGroup (i :: fields)) 5)
      ∧ (49 ≤ i.toNat → refused (.writeRecallOrder (i :: fields)) 5)
      ∧ (64 ≤ i.toNat → refused (.writeSchedule (i :: fields)) 5))
    ∧ (∀ (i : Fin 48) (cls group floor : Byte),
      (16 ≤ cls.toNat ∨ 8 ≤ group.toNat ∨ (128 ≤ floor.toNat ∧ floor ≠ 255)) →
      refused (.writeCarConfiguration [index i.val, cls, group, floor]) 6)
    ∧ (∀ (i : Fin 8) (floor most count len : Byte) (list : List Byte), list.length ≤ 25 →
      (128 ≤ floor.toNat ∨ 17 ≤ most.toNat ∨ 9 ≤ count.toNat ∨ 9 ≤ list.length ∨ len.toNat ≠ list.length
        ∨ (∃ b ∈ list, 48 ≤ b.toNat) ∨ ¬ list.Nodup) →
      refused (.writeGroup (index i.val :: floor :: most :: count :: len :: list)) 6)
    ∧ (∀ (start : Fin 49) (run : List Byte), run.length ≤ 29 →
      (q.shadow.recallOrder.length < start.val ∨ 48 < start.val + run.length ∨ (∃ b ∈ run, 48 ≤ b.toNat)
        ∨ ¬ ((q.shadow.recallOrder.take start.val).map (fun i => index i.val) ++ run).Nodup) →
      refused (.writeRecallOrder (index start.val :: run)) 6)
    ∧ (∀ (i : Fin 64) (used kind address lines value mask : Byte),
      (2 ≤ used.toNat ∨ 2 ≤ kind.toNat ∨ 64 ≤ value.toNat ∨ 64 ≤ mask.toNat
        ∨ (kind = 0 ∧ (isCarAddress address = false ∨ 3 ≤ lines.toNat))) →
      refused (.writeSchedule [index i.val, used, kind, address, lines, value, mask]) 6)
    ∧ (∀ fields : List Byte, fields.length ≤ 29 →
      (fields.length ≠ 3 → ∀ i : Fin 48, refused (.writeCarConfiguration (index i.val :: fields)) 6)
      ∧ (fields.length ≠ 10 → ∀ i : Fin 16, refused (.writeClass (index i.val :: fields)) 6)
      ∧ (fields.length < 4 → ∀ i : Fin 8, refused (.writeGroup (index i.val :: fields)) 6)
      ∧ (fields.length ≠ 6 → ∀ i : Fin 64, refused (.writeSchedule (index i.val :: fields)) 6))
    ∧ ∀ c ∈ [Instr.writeCarConfiguration [], .writeClass [], .writeGroup [], .writeRecallOrder [], .writeSchedule []],
      refused c 6

/-- A WRITE to the plant table or trip map with the lock CLEAR and every field in its range replaces the shadow entry; with a field
out of its range, a rating G of 1 to 19 included, or with a wrong number of fields it is refused with BAD VALUE; under the lock
it is refused with LOCKED whatever its fields hold. A WRITE of a car's identity changes its DISABLED record, is refused with BAD
VALUE for an address outside 1..63 or a line assignment that is none, and with WRONG STATE, whatever it carries, while the record
is enabled. A WRITE of link settings is held as the pending record, and is refused with BAD VALUE when a field is out of its range
or the two addresses are equal. An index outside the table is refused with BAD INDEX, under the lock too (R19, R49, R108, R135,
R167). BAD VALUE for a WRITE that carries no index is the model's own choice (log entry 39). -/
def Obligations.GuardedAndDirectWrites : Prop :=
  ∀ (s : State), s.part.servesRequest →
    let q := s.part.slotClosed
    let becomes (c : Instr) (x : Part) : Prop := exec c s = .next { s with part := x.replied 0 [] }
    let refused (c : Instr) (code : Byte) : Prop := exec c s = .next { s with part := q.replied code [] }
    let index (n : Nat) : Byte := BitVec.ofNat 8 n
    (q.mgmt.locked = false →
      (∀ x : Plant, (x.g = 0 ∨ 20 ≤ x.g) → x.g ≤ 4000 → 50 ≤ x.usePct → x.usePct ≤ 100 → x.baseKW ≤ 4000 →
        5 ≤ x.stepPct → x.stepPct ≤ 100 → x.revPct ≤ 20 → x.brakeKW ≤ 1000 → x.staleKW ≤ 4000 → 4000 ≤ x.fOk →
        x.fOk ≤ 7000 → x.settleCode ≤ 255 → 1 ≤ x.recoveryLimit → x.recoveryLimit ≤ 255 → x.holdOff ≤ 255 →
        1 ≤ x.staleLimit → x.staleLimit ≤ 255 → x.warmUp ≤ 255 → x.recallLimit ≤ 65535 → 1 ≤ x.maxMoving →
        x.maxMoving ≤ 48 → x.skipLimit ≤ 15 → 2 ≤ x.stallLimit → x.stallLimit ≤ 15 → 1 ≤ x.utilDepth →
        x.utilDepth ≤ 15 → 1 ≤ x.genDepth → x.genDepth ≤ 15 →
        becomes (.writePlant (0 :: plantBytes x)) { q with shadow.plant := x })
      ∧ (∀ (k : Fin 4) (x : TripEntry), 1 ≤ x.depth → x.depth ≤ 15 → x.percent ≤ 100 →
        becomes (.writeTripMap (index k.val :: tripBytes x))
          { q with shadow.tripMap := q.shadow.tripMap.set k.val x })
      ∧ (∀ x : Plant, x.g < 65536 → x.usePct < 256 → x.baseKW < 65536 → x.stepPct < 256 → x.revPct < 256 →
        x.brakeKW < 65536 → x.staleKW < 65536 → x.fOk < 65536 → x.settleCode < 256 → x.recoveryLimit < 256 →
        x.holdOff < 256 → x.staleLimit < 256 → x.warmUp < 256 → x.recallLimit < 65536 → x.maxMoving < 256 →
        x.skipLimit < 256 → x.stallLimit < 256 → x.utilDepth < 256 → x.genDepth < 256 →
        ((x.g ≠ 0 ∧ x.g < 20) ∨ 4000 < x.g ∨ x.usePct < 50 ∨ 100 < x.usePct ∨ 4000 < x.baseKW ∨ x.stepPct < 5
          ∨ 100 < x.stepPct ∨ 20 < x.revPct ∨ 1000 < x.brakeKW ∨ 4000 < x.staleKW ∨ x.fOk < 4000 ∨ 7000 < x.fOk
          ∨ x.recoveryLimit < 1 ∨ x.staleLimit < 1 ∨ x.maxMoving < 1 ∨ 48 < x.maxMoving ∨ 15 < x.skipLimit
          ∨ x.stallLimit < 2 ∨ 15 < x.stallLimit ∨ x.utilDepth < 1 ∨ 15 < x.utilDepth ∨ x.genDepth < 1
          ∨ 15 < x.genDepth) →
        refused (.writePlant (0 :: plantBytes x)) 6)
      ∧ (∀ (k : Fin 4) (enable level depth action groups percent : Byte),
        (2 ≤ enable.toNat ∨ 2 ≤ level.toNat ∨ depth.toNat < 1 ∨ 15 < depth.toNat ∨ 4 ≤ action.toNat
          ∨ 100 < percent.toNat) →
        refused (.writeTripMap [index k.val, enable, level, depth, action, groups, percent]) 6)
      ∧ (∀ fields : List Byte, fields.length ≤ 29 →
        (fields.length ≠ 25 → refused (.writePlant (0 :: fields)) 6)
        ∧ (fields.length ≠ 6 → ∀ k : Fin 4, refused (.writeTripMap (index k.val :: fields)) 6))
      ∧ refused (.writePlant []) 6 ∧ refused (.writeTripMap []) 6)
    ∧ (q.mgmt.locked = true → ∀ fields : List Byte, fields.length ≤ 29 →
      refused (.writePlant (0 :: fields)) 3 ∧ ∀ k : Fin 4, refused (.writeTripMap (index k.val :: fields)) 3)
    ∧ (∀ (i : Fin 48) (address : Byte) (lines : Lines), isCarAddress address = true →
      let command := Instr.writeCarIdentity [index i.val, address, match lines with | .a => 0 | .b => 1 | .both => 2]
      ((q.car i).duty = .disabled → becomes command (q.setCar i { q.car i with
        address := some address
        lines := lines }))
      ∧ ((q.car i).duty ≠ .disabled → refused command 7))
    ∧ (∀ (i : Fin 48) (fields : List Byte), fields.length ≤ 29 →
      let command := Instr.writeCarIdentity (index i.val :: fields)
      ((q.car i).duty ≠ .disabled → refused command 7)
      ∧ ((q.car i).duty = .disabled → fields.length ≠ 2 → refused command 6)
      ∧ ((q.car i).duty = .disabled → ∀ address lines : Byte, fields = [address, lines] →
        isCarAddress address = false ∨ 3 ≤ lines.toNat → refused command 6))
    ∧ (∀ x : LinkSettings, isNodeAddress x.partAddress = true → isNodeAddress x.plantNode = true →
      100 ≤ x.replyLimit → x.replyLimit ≤ 2000 → 20 ≤ x.silenceLimit → x.silenceLimit ≤ 2000 → 10 ≤ x.cyclePeriod →
      x.cyclePeriod ≤ 1000 → 2 ≤ x.lossLimit → x.lossLimit ≤ 64 → 1 ≤ x.lineLimit → x.lineLimit ≤ 255 →
      (x.plantNode ≠ x.partAddress →
        becomes (.writeLinkSettings (0 :: settingsBytes x)) { q with link.pending := some x })
      ∧ (x.plantNode = x.partAddress → refused (.writeLinkSettings (0 :: settingsBytes x)) 6))
    ∧ (∀ x : LinkSettings, x.replyLimit < 65536 → x.silenceLimit < 65536 → x.cyclePeriod < 65536 → x.lossLimit < 256 →
      x.lineLimit < 256 →
      (isNodeAddress x.partAddress = false ∨ isNodeAddress x.plantNode = false ∨ x.replyLimit < 100 ∨ 2000 < x.replyLimit
        ∨ x.silenceLimit < 20 ∨ 2000 < x.silenceLimit ∨ x.cyclePeriod < 10 ∨ 1000 < x.cyclePeriod ∨ x.lossLimit < 2
        ∨ 64 < x.lossLimit ∨ x.lineLimit < 1) →
      refused (.writeLinkSettings (0 :: settingsBytes x)) 6)
    ∧ (∀ fields : List Byte, fields.length ≤ 29 → fields.length ≠ 10 → refused (.writeLinkSettings (0 :: fields)) 6)
    ∧ refused (.writeCarIdentity []) 6 ∧ refused (.writeLinkSettings []) 6
    ∧ ∀ (i : Byte) (fields : List Byte), fields.length ≤ 29 →
      (48 ≤ i.toNat → refused (.writeCarIdentity (i :: fields)) 5)
      ∧ (1 ≤ i.toNat → refused (.writePlant (i :: fields)) 5) ∧ (4 ≤ i.toNat → refused (.writeTripMap (i :: fields)) 5)
      ∧ (1 ≤ i.toNat → refused (.writeLinkSettings (i :: fields)) 5)

/-- COPY ACTIVE TO SHADOW, CLEAR FLAGS, SET NOTICE MASK, CLEAR COUNTERS and LOCK: what each changes, with result DONE; and ALERT
is asserted while a flag and its mask bit are both set (R170, R174, R175, R137, R177). -/
def Obligations.TablesFlagsCountersAndLock : Prop :=
  ∀ (s : State), s.part.servesRequest →
    let q := s.part.slotClosed
    let becomes (c : Instr) (x : Part) : Prop := exec c s = .next { s with part := x.replied 0 [] }
    let flagSet (hi lo : Byte) : BitVec 12 := (hi ++ lo).extractLsb' 0 12
    (q.mgmt.locked = false → becomes (.copyActiveToShadow []) { q with shadow := q.active })
    ∧ (q.mgmt.locked = true → becomes (.copyActiveToShadow []) { q with shadow := { q.active with
        plant := q.shadow.plant
        tripMap := q.shadow.tripMap } })
    ∧ (∀ hi lo : Byte,
      becomes (.clearFlags [hi, lo]) { q with mgmt.flags := q.mgmt.flags &&& ~~~flagSet hi lo }
      ∧ becomes (.setNoticeMask [hi, lo]) { q with mgmt.mask := flagSet hi lo })
    ∧ becomes (.clearCounters []) { q with link := { q.link with
        dispatch := { q.link.dispatch with checkErrors := 0, overflow := 0 }
        carA := { q.link.carA with checkErrors := 0, overflow := 0 }
        carB := { q.link.carB with checkErrors := 0, overflow := 0 }
        malformed := 0
        strays := 0
        dropped := 0 } }
    ∧ becomes (.lock []) { q with mgmt.locked := true }
    ∧ (∀ args : List Byte, args ≠ [] → args.length ≤ 31 →
      ∀ c ∈ [Instr.copyActiveToShadow args, .clearCounters args, .lock args, .summary args],
        exec c s = .next { s with part := q.replied 6 [] })
    ∧ ∀ p : Part, p.alert = true ↔ ∃ e : Event, p.flag e = true ∧ p.mgmt.mask.getLsbD (eventBit e) = true

/-- APPLY and START SERVICE: executed at once with result DONE in NORMAL, OUTAGE, STANDBY or while the step gap is OPEN, else
held in the deferred slot with PENDING; BUSY while the slot is occupied; START SERVICE is refused with WRONG STATE outside
RECALL. An APPLY makes the shadow tables active (but the plant table and trip map under the lock), clears every UNFIT, sets
APPLIED and leaves commitments and snapshots; then the actions and the shed sweep are derived afresh (R118), a report older than the
stale limit now in force becomes STALE (R16), the limits are computed afresh from all these inputs at once, a fall of Cap_eff being
handed on (R59), and in RECALL, SERVICE and RETURN each PARKED record that fails the standing test takes RECALL, followed by an
evaluation of completion in RECALL and a service selection in SERVICE (R101). A START SERVICE ends recall (R171, R172, R94, R96). A
waiting request leaves the slot EMPTY when it is executed: an APPLY as above, a START SERVICE that finds RECALL ends it, and any other only frees the slot. A change
of switch position that changes the state to NORMAL or OUTAGE does all that it does with an EMPTY slot, and then executes the
request that waits (R10, R11, R171). -/
def Obligations.DeferredRequests : Prop :=
  (∀ (s : State), s.part.servesRequest →
    let q := s.part.slotClosed
    let atOnce : Prop :=
      q.sup.state = .normal ∨ q.sup.state = .outage ∨ q.sup.state = .standby ∨ q.gapOpen = true
    let becomes (c : Instr) (code : Byte) (x : Part) : Prop := exec c s = .next { s with part := x.replied code [] }
    (q.mgmt.deferred = none → q.gapOpen = false → atOnce → becomes (.apply []) 0 (executeApply q))
    ∧ (q.mgmt.deferred = none → q.gapOpen = true → becomes (.apply []) 0 (attempt (executeApply q)))
    ∧ (q.mgmt.deferred = none → ¬ atOnce → becomes (.apply []) 1 { q with mgmt.deferred := some .apply })
    ∧ (q.mgmt.deferred ≠ none → becomes (.apply []) 2 q)
    ∧ (q.sup.state ≠ .recall → becomes (.startService []) 7 q)
    ∧ (q.sup.state = .recall →
      (q.mgmt.deferred ≠ none → becomes (.startService []) 2 q)
      ∧ (q.mgmt.deferred = none → q.gapOpen = false →
        becomes (.startService []) 1 { q with mgmt.deferred := some .startService })
      ∧ (q.mgmt.deferred = none → q.gapOpen = true → ∃ t : Part, becomes (.startService []) 0 t
        ∧ t.sup.state = .service ∧ t.sup.previous = .recall ∧ t.sup.cause = .recallDone ∧ t.sup.changeTime = q.now
        ∧ t.sup.recallLimit = .stopped ∧ t.flag .recallDone = true ∧ t.flag .transfer = true
        ∧ ∀ i, (t.car i).run = (q.car i).run ∧ (t.car i).m = (q.car i).m ∧ (t.car i).r = (q.car i).r)))
  ∧ (∀ p : Part,
    let t := executeApply p
    t.active = { p.shadow with
      plant := if p.mgmt.locked = true then p.active.plant else p.shadow.plant
      tripMap := if p.mgmt.locked = true then p.active.tripMap else p.shadow.tripMap }
    ∧ t.shadow = p.shadow ∧ t.link = p.link ∧ t.flag .applied = true ∧ t.adm.sumM = p.adm.sumM ∧ t.adm.sumR = p.adm.sumR
    ∧ (∀ i, (t.car i).unfit = none ∧ (t.car i).m = (p.car i).m ∧ (t.car i).r = (p.car i).r
      ∧ (t.car i).snapshot = (p.car i).snapshot ∧ (t.car i).address = (p.car i).address ∧ (t.car i).lines = (p.car i).lines)
    ∧ ∃ applied aged retested : Part,
      let derived := deriveActions applied
      let limited := recomputeLimits aged
      let older : Prop := p.sup.fresh = true ∧ ∃ r, p.sup.report = some r
        ∧ t.active.plant.staleLimit * 100 < (p.now - r.arrival).toNat
      applied = { p with
        active := t.active
        cars := applied.cars
        mgmt.flags := applied.mgmt.flags }
      ∧ (∀ i, applied.car i = { p.car i with unfit := none })
      ∧ applied.flag .applied = true ∧ (∀ e, e ≠ .applied → applied.flag e = p.flag e)
      ∧ (¬ older → aged = derived)
      ∧ (older → aged = { derived with
          sup.fresh := false
          mgmt.flags := aged.mgmt.flags }
        ∧ aged.flag .plantStale = true ∧ ∀ e, e ≠ .plantStale → aged.flag e = derived.flag e)
      ∧ retested = { limited with cars := retested.cars }
      ∧ (∀ i, retested.car i =
          if (limited.car i).duty = .parked ∧ passesStanding (limited.recallFloor i) (limited.car i) = false then
            { limited.car i with
              duty := .recall
              pendingRecall := false }
          else limited.car i)
      ∧ (p.sup.state = .recall → t = evaluateCompletion retested)
      ∧ (p.sup.state = .service → t = { retested with cars := t.cars }
        ∧ (retested.listsDistinct → ∀ i, t.car i = retested.afterSelection i))
      ∧ (p.sup.state = .returning → t = retested)
      ∧ (p.sup.state.onGenerator = false → t = limited))
  ∧ (∀ p : Part,
    let freed : Part := { p with mgmt.deferred := none }
    (p.mgmt.deferred = none → executeDeferred p = p)
    ∧ (p.mgmt.deferred = some .apply → executeDeferred p = executeApply freed)
    ∧ (p.mgmt.deferred = some .startService →
      (p.sup.state ≠ .recall → executeDeferred p = freed) ∧ (p.sup.state = .recall → freed.endsRecall (executeDeferred p))))
  ∧ ∀ (p : Part) (new : Position), p.sup.position ≠ new →
    ((new = .opened ∨ new = .invalid) ∧ openLike p.sup.position = false ∧ p.sup.state ≠ .outage)
      ∨ (new = .utility ∧ p.sup.state ≠ .normal) →
    let empty := takePosition new { p with mgmt.deferred := none }
    (p.mgmt.deferred = some .apply → takePosition new p = executeApply empty)
    ∧ (p.mgmt.deferred = some .startService → takePosition new p = empty)

/-- CAR CONTROL: ENABLE takes a DISABLED record whose address is free to its restored duty; DISABLE and ISOLATE act at once on a
record without a run and wait with PENDING for the release of one that holds a run; RESTORE takes back an isolation; CLEAR
UNFIT clears the mark; each with its refusals by WRONG STATE, and an index above 47 by BAD INDEX. A change of duty is handed to
the sequencing unit (R22, R23, R42, R43, R44, R173). That ENABLE and DISABLE take the record's commitments out of M and R
whatever its run state is the model's own reading (log entry 21). -/
def Obligations.CarControl : Prop :=
  ∀ (s : State) (i : Fin 48), s.part.servesRequest →
    let q := s.part.slotClosed
    let c := q.car i
    let at_ : Byte := BitVec.ofNat 8 i.val
    let becomes (x : Instr) (code : Byte) (t : Part) : Prop := exec x s = .next { s with part := t.replied code [] }
    let without (x : Part) : Part :=
      if (∃ j, (x.car j).run = .queued) then x else { x with adm := { x.adm with joinCounter := 0 } }
    (∀ a, c.duty = .disabled → c.address = some a → (∀ j, (q.car j).duty ≠ .disabled → (q.car j).address ≠ some a) →
      becomes (.enable at_ []) 0 { q.setCar i { ({} : Car) with
          address := some a
          lines := c.lines
          duty := match q.sup.state with
            | .normal => .normal
            | .outage => .stopped
            | .standby => .stopped
            | _ => .recall } with
        adm := { q.adm with
          sumM := q.adm.sumM - c.m
          sumR := q.adm.sumR - c.r } })
    ∧ ((c.duty ≠ .disabled ∨ c.address = none
        ∨ ∃ j, (q.car j).duty ≠ .disabled ∧ (q.car j).address = c.address) → becomes (.enable at_ []) 7 q)
    ∧ (c.duty = .disabled → becomes (.disable at_ []) 0 q)
    ∧ (c.duty ≠ .disabled →
      (c.holdsRun = true → becomes (.disable at_ []) 1 (q.setCar i { c with disablePending := true }))
      ∧ (c.holdsRun = false → becomes (.disable at_ []) 0 (handDutyChange c.duty .disabled (without
          { q.setCar i { ({} : Car) with
              address := c.address
              lines := c.lines } with
            adm := { q.adm with
              sumM := q.adm.sumM - c.m
              sumR := q.adm.sumR - c.r } }))))
    ∧ (c.duty = .disabled ∨ c.disablePending = true →
      becomes (.isolate at_ []) 7 q ∧ becomes (.restore at_ []) 7 q ∧ becomes (.clearUnfit at_ []) 7 q)
    ∧ (c.duty ≠ .disabled → c.disablePending = false →
      (c.holdsRun = true → becomes (.isolate at_ []) 1 (q.setCar i { c with isolatePending := true }))
      ∧ (c.holdsRun = false → c.duty = .lost → becomes (.isolate at_ []) 0 (q.setCar i { c with prior := some .isolated }))
      ∧ (c.holdsRun = false → c.duty = .isolated → becomes (.isolate at_ []) 0 q)
      ∧ (c.run = .idle → c.duty ≠ .lost → c.duty ≠ .isolated → becomes (.isolate at_ []) 0
          (handDutyChange c.duty .isolated (q.setCar i { c with
            duty := .isolated
            pendingRecall := false })))
      ∧ (c.run = .queued → c.duty ≠ .lost → c.duty ≠ .isolated → becomes (.isolate at_ []) 0
          (handDutyChange c.duty .isolated (without (q.setCar i { c with
            run := .idle
            priority := none
            joinSeq := none
            duty := .isolated
            pendingRecall := false }))))
      ∧ (c.isolatePending = true → becomes (.restore at_ []) 0 (q.setCar i { c with
          isolatePending := false
          stallCount := 0 }))
      ∧ (c.isolatePending = false → c.duty = .isolated → c.run = .idle →
          let d : Duty := match q.sup.state with
            | .normal => .normal
            | .outage => .stopped
            | .standby => .stopped
            | _ => if passesStanding (q.recallFloor i) c = true then .parked else .recall
          becomes (.restore at_ []) 0 (handDutyChange .isolated d (q.setCar i { c with
            stallCount := 0
            duty := d
            pendingRecall := false })))
      ∧ (c.isolatePending = false → c.duty = .lost → c.prior = some .isolated → becomes (.restore at_ []) 0
          (q.setCar i { c with
            prior := some .stopped
            stallCount := 0 }))
      ∧ (c.isolatePending = false → c.duty ≠ .isolated → ¬ (c.duty = .lost ∧ c.prior = some .isolated) →
          becomes (.restore at_ []) 7 q)
      ∧ becomes (.clearUnfit at_ []) 0 (q.setCar i { c with unfit := none }))
    ∧ ∀ b : Byte, 48 ≤ b.toNat →
      becomes (.enable b []) 5 q ∧ becomes (.disable b []) 5 q ∧ becomes (.isolate b []) 5 q ∧ becomes (.restore b []) 5 q
      ∧ becomes (.clearUnfit b []) 5 q

/-- RESTART in NORMAL: what it clears in every block, what it keeps, and that it takes place before its reply; in every other
state it is refused with WRONG STATE and changes nothing. That an enabled record keeps its priority class and join sequence is
the model's own choice (log entry 22) (R18, R46, R88, R105, R120, R129, R135, R137, R153, R165, R178). -/
def Obligations.RestartClears : Prop :=
  ∀ (s : State), s.part.servesRequest →
    let q := s.part.slotClosed
    (q.sup.state ≠ .normal → exec (.restart []) s = .next { s with part := q.replied 7 [] })
    ∧ (q.sup.state = .normal → ∃ t : Part, exec (.restart []) s = .next { s with part := t.replied 0 [] }
      ∧ t.sup = { q.sup with
          remembered := none
          warmUp := .stopped
          recallLimit := .stopped }
      ∧ (∀ i, (q.car i).duty = .disabled → t.car i = { ({} : Car) with
          address := (q.car i).address
          lines := (q.car i).lines })
      ∧ (∀ i, (q.car i).duty ≠ .disabled → t.car i = { ({} : Car) with
          address := (q.car i).address
          lines := (q.car i).lines
          duty := .normal
          priority := (q.car i).priority
          joinSeq := (q.car i).joinSeq })
      ∧ t.adm = { q.adm with
          joinCounter := 0
          sumM := 0
          sumR := 0
          window := none
          reportMark := false
          settle := .stopped
          recovery := .stopped
          holdOff := .stopped }
      ∧ t.alarms = q.alarms ∧ t.slot = none
      ∧ t.master = { q.master with
          silent := false
          silence := .running q.link.settings.silenceLimit
          nextCycle := 0 }
      ∧ t.mgmt = { q.mgmt with
          deferred := none
          flags := 0 }
      ∧ t.alert = false
      ∧ t.link.settings = q.link.settings ∧ t.link.pending = q.link.pending
      ∧ t.link.malformed = 0 ∧ t.link.strays = 0 ∧ t.link.dropped = 0
      ∧ (∀ port, (t.link.port port).checkErrors = 0 ∧ (t.link.port port).overflow = 0
          ∧ (t.link.port port).receiver = (q.link.port port).receiver
          ∧ (t.link.port port).queue.map TxFrame.chars = (q.link.port port).queue.map TxFrame.chars
          ∧ (t.link.port port).sending = (q.link.port port).sending)
      ∧ t.now = q.now ∧ t.active = q.active ∧ t.shadow = q.shadow ∧ t.pins = q.pins)
end
end

