-- ==== Sys2Proof/Laws/State.lean ====
section
/-! SUPPORT. One lemma per field and update of the part, so that no proof unfolds a record update. -/

namespace Sys2Proof.Machine

/-! ### The car table -/

@[simp] theorem car_setCar (p : Part) (i j : CarIdx) (c : Car) :
    (p.setCar i c).car j = if i = j then c else p.car j := by
  simp only [Part.car, Part.setCar, Vector.getElem_set, Fin.ext_iff]

theorem car_setCar_self (p : Part) (i : CarIdx) (c : Car) : (p.setCar i c).car i = c := by simp

/-- The last record stored for a car stands. -/
theorem setCar_setCar (p : Part) (i : CarIdx) (a b : Car) : (p.setCar i a).setCar i b = p.setCar i b := by
  simp [Part.setCar]

theorem modCar_setCar (p : Part) (i : CarIdx) (a : Car) (f : Car → Car) : (p.setCar i a).modCar i f = p.setCar i (f a) := by
  unfold Part.modCar
  rw [setCar_setCar, car_setCar_self]

theorem modCar_modCar (p : Part) (i : CarIdx) (f g : Car → Car) :
    (p.modCar i f).modCar i g = p.modCar i (fun c => g (f c)) := by
  unfold Part.modCar
  rw [setCar_setCar, car_setCar_self]

theorem car_modCar (p : Part) (i j : CarIdx) (f : Car → Car) :
    (p.modCar i f).car j = if i = j then f (p.car i) else p.car j := by simp [Part.modCar]

@[simp] theorem car_modCar_self (p : Part) (i : CarIdx) (f : Car → Car) : (p.modCar i f).car i = f (p.car i) := by
  simp [Part.modCar]

@[simp] theorem car_mapCars (p : Part) (f : Car → Car) (i : CarIdx) : (p.mapCars f).car i = f (p.car i) := by
  simp [Part.car, Part.mapCars]

@[simp] theorem mem_allCars (i : CarIdx) : i ∈ allCars := List.mem_finRange i

@[simp] theorem setCar_now (p : Part) (i : CarIdx) (c : Car) : (p.setCar i c).now = p.now := rfl
@[simp] theorem setCar_pins (p : Part) (i : CarIdx) (c : Car) : (p.setCar i c).pins = p.pins := rfl
@[simp] theorem setCar_sup (p : Part) (i : CarIdx) (c : Car) : (p.setCar i c).sup = p.sup := rfl
@[simp] theorem setCar_standing (p : Part) (i : CarIdx) (c : Car) : (p.setCar i c).standing = p.standing := rfl
@[simp] theorem setCar_adm (p : Part) (i : CarIdx) (c : Car) : (p.setCar i c).adm = p.adm := rfl
@[simp] theorem setCar_alarms (p : Part) (i : CarIdx) (c : Car) : (p.setCar i c).alarms = p.alarms := rfl
@[simp] theorem setCar_link (p : Part) (i : CarIdx) (c : Car) : (p.setCar i c).link = p.link := rfl
@[simp] theorem setCar_slot (p : Part) (i : CarIdx) (c : Car) : (p.setCar i c).slot = p.slot := rfl
@[simp] theorem setCar_master (p : Part) (i : CarIdx) (c : Car) : (p.setCar i c).master = p.master := rfl
@[simp] theorem setCar_mgmt (p : Part) (i : CarIdx) (c : Car) : (p.setCar i c).mgmt = p.mgmt := rfl
@[simp] theorem setCar_active (p : Part) (i : CarIdx) (c : Car) : (p.setCar i c).active = p.active := rfl
@[simp] theorem setCar_shadow (p : Part) (i : CarIdx) (c : Car) : (p.setCar i c).shadow = p.shadow := rfl

@[simp] theorem modCar_now (p : Part) (i : CarIdx) (f : Car → Car) : (p.modCar i f).now = p.now := rfl
@[simp] theorem modCar_pins (p : Part) (i : CarIdx) (f : Car → Car) : (p.modCar i f).pins = p.pins := rfl
@[simp] theorem modCar_sup (p : Part) (i : CarIdx) (f : Car → Car) : (p.modCar i f).sup = p.sup := rfl
@[simp] theorem modCar_standing (p : Part) (i : CarIdx) (f : Car → Car) : (p.modCar i f).standing = p.standing := rfl
@[simp] theorem modCar_adm (p : Part) (i : CarIdx) (f : Car → Car) : (p.modCar i f).adm = p.adm := rfl
@[simp] theorem modCar_alarms (p : Part) (i : CarIdx) (f : Car → Car) : (p.modCar i f).alarms = p.alarms := rfl
@[simp] theorem modCar_link (p : Part) (i : CarIdx) (f : Car → Car) : (p.modCar i f).link = p.link := rfl
@[simp] theorem modCar_slot (p : Part) (i : CarIdx) (f : Car → Car) : (p.modCar i f).slot = p.slot := rfl
@[simp] theorem modCar_master (p : Part) (i : CarIdx) (f : Car → Car) : (p.modCar i f).master = p.master := rfl
@[simp] theorem modCar_mgmt (p : Part) (i : CarIdx) (f : Car → Car) : (p.modCar i f).mgmt = p.mgmt := rfl
@[simp] theorem modCar_active (p : Part) (i : CarIdx) (f : Car → Car) : (p.modCar i f).active = p.active := rfl
@[simp] theorem modCar_shadow (p : Part) (i : CarIdx) (f : Car → Car) : (p.modCar i f).shadow = p.shadow := rfl

@[simp] theorem mapCars_now (p : Part) (f : Car → Car) : (p.mapCars f).now = p.now := rfl
@[simp] theorem mapCars_pins (p : Part) (f : Car → Car) : (p.mapCars f).pins = p.pins := rfl
@[simp] theorem mapCars_sup (p : Part) (f : Car → Car) : (p.mapCars f).sup = p.sup := rfl
@[simp] theorem mapCars_standing (p : Part) (f : Car → Car) : (p.mapCars f).standing = p.standing := rfl
@[simp] theorem mapCars_adm (p : Part) (f : Car → Car) : (p.mapCars f).adm = p.adm := rfl
@[simp] theorem mapCars_alarms (p : Part) (f : Car → Car) : (p.mapCars f).alarms = p.alarms := rfl
@[simp] theorem mapCars_link (p : Part) (f : Car → Car) : (p.mapCars f).link = p.link := rfl
@[simp] theorem mapCars_slot (p : Part) (f : Car → Car) : (p.mapCars f).slot = p.slot := rfl
@[simp] theorem mapCars_master (p : Part) (f : Car → Car) : (p.mapCars f).master = p.master := rfl
@[simp] theorem mapCars_mgmt (p : Part) (f : Car → Car) : (p.mapCars f).mgmt = p.mgmt := rfl
@[simp] theorem mapCars_active (p : Part) (f : Car → Car) : (p.mapCars f).active = p.active := rfl
@[simp] theorem mapCars_shadow (p : Part) (f : Car → Car) : (p.mapCars f).shadow = p.shadow := rfl

/-! ### Event flags -/

@[simp] theorem raiseEvent_now (e : Event) (p : Part) : (raiseEvent e p).now = p.now := rfl
@[simp] theorem raiseEvent_pins (e : Event) (p : Part) : (raiseEvent e p).pins = p.pins := rfl
@[simp] theorem raiseEvent_sup (e : Event) (p : Part) : (raiseEvent e p).sup = p.sup := rfl
@[simp] theorem raiseEvent_cars (e : Event) (p : Part) : (raiseEvent e p).cars = p.cars := rfl
@[simp] theorem raiseEvent_car (e : Event) (p : Part) (i : CarIdx) : (raiseEvent e p).car i = p.car i := rfl
@[simp] theorem raiseEvent_standing (e : Event) (p : Part) : (raiseEvent e p).standing = p.standing := rfl
@[simp] theorem raiseEvent_adm (e : Event) (p : Part) : (raiseEvent e p).adm = p.adm := rfl
@[simp] theorem raiseEvent_alarms (e : Event) (p : Part) : (raiseEvent e p).alarms = p.alarms := rfl
@[simp] theorem raiseEvent_link (e : Event) (p : Part) : (raiseEvent e p).link = p.link := rfl
@[simp] theorem raiseEvent_slot (e : Event) (p : Part) : (raiseEvent e p).slot = p.slot := rfl
@[simp] theorem raiseEvent_master (e : Event) (p : Part) : (raiseEvent e p).master = p.master := rfl
@[simp] theorem raiseEvent_deferred (e : Event) (p : Part) : (raiseEvent e p).mgmt.deferred = p.mgmt.deferred := rfl
@[simp] theorem raiseEvent_mask (e : Event) (p : Part) : (raiseEvent e p).mgmt.mask = p.mgmt.mask := rfl
@[simp] theorem raiseEvent_locked (e : Event) (p : Part) : (raiseEvent e p).mgmt.locked = p.mgmt.locked := rfl
@[simp] theorem raiseEvent_active (e : Event) (p : Part) : (raiseEvent e p).active = p.active := rfl
@[simp] theorem raiseEvent_shadow (e : Event) (p : Part) : (raiseEvent e p).shadow = p.shadow := rfl

theorem flag_raiseEvent (e f : Event) (p : Part) : (raiseEvent e p).flag f = (p.flag f || decide (e = f)) := by
  cases e <;> cases f <;> simp [raiseEvent, Part.flag, eventBit]

/-- A flag is read from the flags alone. -/
theorem flag_congr {p q : Part} (h : p.mgmt.flags = q.mgmt.flags) (e : Event) : p.flag e = q.flag e := by
  unfold Part.flag
  rw [h]

/-! ### Ports -/

@[simp] theorem port_setPort (l : Link) (a b : Port) (x : PortState) :
    (l.setPort a x).port b = if a = b then x else l.port b := by
  cases a <;> cases b <;> rfl

@[simp] theorem setPort_port (l : Link) (a : Port) : l.setPort a (l.port a) = l := by cases a <;> rfl

@[simp] theorem setPort_malformed (l : Link) (a : Port) (x : PortState) : (l.setPort a x).malformed = l.malformed := by
  cases a <;> rfl
@[simp] theorem setPort_strays (l : Link) (a : Port) (x : PortState) : (l.setPort a x).strays = l.strays := by
  cases a <;> rfl
@[simp] theorem setPort_dropped (l : Link) (a : Port) (x : PortState) : (l.setPort a x).dropped = l.dropped := by
  cases a <;> rfl
@[simp] theorem setPort_settings (l : Link) (a : Port) (x : PortState) : (l.setPort a x).settings = l.settings := by
  cases a <;> rfl
@[simp] theorem setPort_pending (l : Link) (a : Port) (x : PortState) : (l.setPort a x).pending = l.pending := by
  cases a <;> rfl

@[simp] theorem modPort_now (p : Part) (a : Port) (f : PortState → PortState) : (p.modPort a f).now = p.now := rfl
@[simp] theorem modPort_pins (p : Part) (a : Port) (f : PortState → PortState) : (p.modPort a f).pins = p.pins := rfl
@[simp] theorem modPort_sup (p : Part) (a : Port) (f : PortState → PortState) : (p.modPort a f).sup = p.sup := rfl
@[simp] theorem modPort_cars (p : Part) (a : Port) (f : PortState → PortState) : (p.modPort a f).cars = p.cars := rfl
@[simp] theorem modPort_car (p : Part) (a : Port) (f : PortState → PortState) (i : CarIdx) :
    (p.modPort a f).car i = p.car i := rfl
@[simp] theorem modPort_adm (p : Part) (a : Port) (f : PortState → PortState) : (p.modPort a f).adm = p.adm := rfl
@[simp] theorem modPort_alarms (p : Part) (a : Port) (f : PortState → PortState) :
    (p.modPort a f).alarms = p.alarms := rfl
@[simp] theorem modPort_standing (p : Part) (a : Port) (f : PortState → PortState) :
    (p.modPort a f).standing = p.standing := rfl
@[simp] theorem modPort_slot (p : Part) (a : Port) (f : PortState → PortState) : (p.modPort a f).slot = p.slot := rfl
@[simp] theorem modPort_master (p : Part) (a : Port) (f : PortState → PortState) :
    (p.modPort a f).master = p.master := rfl
@[simp] theorem modPort_mgmt (p : Part) (a : Port) (f : PortState → PortState) : (p.modPort a f).mgmt = p.mgmt := rfl
@[simp] theorem modPort_active (p : Part) (a : Port) (f : PortState → PortState) :
    (p.modPort a f).active = p.active := rfl
@[simp] theorem modPort_shadow (p : Part) (a : Port) (f : PortState → PortState) :
    (p.modPort a f).shadow = p.shadow := rfl
@[simp] theorem modPort_link (p : Part) (a : Port) (f : PortState → PortState) :
    (p.modPort a f).link = p.link.setPort a (f (p.link.port a)) := rfl

end Sys2Proof.Machine
end

