-- ==== Sys2Proof/Laws/CarSide.lean ====
section
/-! SUPPORT. What the units of 01 to 06, with the deferred request, can do to the part, said once: `CarSide p q` holds of
every change they make, and what it leaves alone follows from it alone. -/

namespace Sys2Proof.Machine

/-- A change of a record that leaves its commitments and its identity. -/
def Car.keeps (c d : Car) : Prop := d.m = c.m ∧ d.r = c.r ∧ d.address = c.address ∧ d.lines = c.lines

/-- The changes that the units of 01 to 06 are made of. -/
inductive CarSide : Part → Part → Prop
  | refl (p : Part) : CarSide p p
  | trans {p q r : Part} : CarSide p q → CarSide q r → CarSide p r
  | car (p : Part) (i : CarIdx) (c : Car) : (p.car i).keeps c → CarSide p (p.setCar i c)
  | cars (p : Part) (f : Car → Car) : (∀ c : Car, c.keeps (f c)) → CarSide p (p.mapCars f)
  | commit (p : Part) (i : CarIdx) (m r : Nat) : CarSide p (setCommit i m r p)
  | noCommits (p : Part) (x : Admission) : x.sumM = 0 → x.sumR = 0 →
      CarSide p { p.mapCars (fun c => { c with m := 0, r := 0 }) with adm := x }
  | sup (p : Part) (x : Supervisor) : x.util = p.sup.util → x.gen = p.sup.gen → x.position = p.sup.position →
      x.report = p.sup.report → CarSide p { p with sup := x }
  | adm (p : Part) (x : Admission) : x.sumM = p.adm.sumM → x.sumR = p.adm.sumR → CarSide p { p with adm := x }
  | alarms (p : Part) (x : Alarms) : x.filters = p.alarms.filters → CarSide p { p with alarms := x }
  | standing (p : Part) (n : Nat) : CarSide p { p with standing := n }
  | mgmt (p : Part) (x : Management) : x.mask = p.mgmt.mask → x.locked = p.mgmt.locked → CarSide p { p with mgmt := x }
  | tables (p : Part) (t : Tables) :
      (p.mgmt.locked = true → t.plant = p.active.plant ∧ t.tripMap = p.active.tripMap) →
      (p.listsDistinct → t.listsDistinct) → CarSide p { p with active := t }

/-! ### What a change of the car side leaves alone -/

/-- The state that no unit of 01 to 06 changes by itself. -/
structure CarSide.Leaves (p q : Part) : Prop where
  now : q.now = p.now
  pins : q.pins = p.pins
  link : q.link = p.link
  slot : q.slot = p.slot
  master : q.master = p.master
  shadow : q.shadow = p.shadow
  util : q.sup.util = p.sup.util
  gen : q.sup.gen = p.sup.gen
  position : q.sup.position = p.sup.position
  report : q.sup.report = p.sup.report
  filters : q.alarms.filters = p.alarms.filters
  mask : q.mgmt.mask = p.mgmt.mask
  locked : q.mgmt.locked = p.mgmt.locked
  identity : ∀ i, (q.car i).address = (p.car i).address ∧ (q.car i).lines = (p.car i).lines
  guarded : p.mgmt.locked = true → q.active.plant = p.active.plant ∧ q.active.tripMap = p.active.tripMap

theorem CarSide.leaves {p q : Part} (h : CarSide p q) : CarSide.Leaves p q := by
  induction h with
  | refl p => constructor <;> simp
  | trans _ _ h1 h2 =>
    constructor
    · exact h2.now.trans h1.now
    · exact h2.pins.trans h1.pins
    · exact h2.link.trans h1.link
    · exact h2.slot.trans h1.slot
    · exact h2.master.trans h1.master
    · exact h2.shadow.trans h1.shadow
    · exact h2.util.trans h1.util
    · exact h2.gen.trans h1.gen
    · exact h2.position.trans h1.position
    · exact h2.report.trans h1.report
    · exact h2.filters.trans h1.filters
    · exact h2.mask.trans h1.mask
    · exact h2.locked.trans h1.locked
    · intro i; exact ⟨(h2.identity i).1.trans (h1.identity i).1, (h2.identity i).2.trans (h1.identity i).2⟩
    · intro hl
      have a := h1.guarded hl
      have b := h2.guarded (h1.locked.trans hl)
      exact ⟨b.1.trans a.1, b.2.trans a.2⟩
  | car p i c hk =>
    refine ⟨rfl, rfl, rfl, rfl, rfl, rfl, rfl, rfl, rfl, rfl, rfl, rfl, rfl, ?_, fun _ => ⟨rfl, rfl⟩⟩
    intro j
    rw [car_setCar]
    by_cases hij : i = j
    · subst hij; simp [hk.2.2.1, hk.2.2.2]
    · simp [hij]
  | cars p f hk =>
    refine ⟨rfl, rfl, rfl, rfl, rfl, rfl, rfl, rfl, rfl, rfl, rfl, rfl, rfl, ?_, fun _ => ⟨rfl, rfl⟩⟩
    intro j
    rw [car_mapCars]
    exact ⟨(hk _).2.2.1, (hk _).2.2.2⟩
  | commit p i m r =>
    refine ⟨rfl, rfl, rfl, rfl, rfl, rfl, rfl, rfl, rfl, rfl, rfl, rfl, rfl, ?_, fun _ => ⟨rfl, rfl⟩⟩
    intro j
    change ((p.setCar i _).car j).address = _ ∧ ((p.setCar i _).car j).lines = _
    rw [car_setCar]
    by_cases hij : i = j
    · subst hij; simp
    · simp [hij]
  | noCommits p x _ _ =>
    refine ⟨rfl, rfl, rfl, rfl, rfl, rfl, rfl, rfl, rfl, rfl, rfl, rfl, rfl, ?_, fun _ => ⟨rfl, rfl⟩⟩
    intro j
    change ((p.mapCars _).car j).address = _ ∧ ((p.mapCars _).car j).lines = _
    rw [car_mapCars]
    exact ⟨rfl, rfl⟩
  | sup p x h1 h2 h3 h4 =>
    exact ⟨rfl, rfl, rfl, rfl, rfl, rfl, h1, h2, h3, h4, rfl, rfl, rfl, fun _ => ⟨rfl, rfl⟩, fun _ => ⟨rfl, rfl⟩⟩
  | adm p x _ _ =>
    exact ⟨rfl, rfl, rfl, rfl, rfl, rfl, rfl, rfl, rfl, rfl, rfl, rfl, rfl, fun _ => ⟨rfl, rfl⟩, fun _ => ⟨rfl, rfl⟩⟩
  | alarms p x h1 =>
    exact ⟨rfl, rfl, rfl, rfl, rfl, rfl, rfl, rfl, rfl, rfl, h1, rfl, rfl, fun _ => ⟨rfl, rfl⟩, fun _ => ⟨rfl, rfl⟩⟩
  | standing p n =>
    exact ⟨rfl, rfl, rfl, rfl, rfl, rfl, rfl, rfl, rfl, rfl, rfl, rfl, rfl, fun _ => ⟨rfl, rfl⟩, fun _ => ⟨rfl, rfl⟩⟩
  | mgmt p x h1 h2 =>
    exact ⟨rfl, rfl, rfl, rfl, rfl, rfl, rfl, rfl, rfl, rfl, rfl, h1, h2, fun _ => ⟨rfl, rfl⟩, fun _ => ⟨rfl, rfl⟩⟩
  | tables p t h1 _ =>
    exact ⟨rfl, rfl, rfl, rfl, rfl, rfl, rfl, rfl, rfl, rfl, rfl, rfl, rfl, fun _ => ⟨rfl, rfl⟩, h1⟩

/-! ### The sums under a change -/

/-- A sum over a list in which one member's value is replaced. -/
theorem sum_update {α : Type} [DecidableEq α] (f : α → Nat) (i : α) (v : Nat) :
    ∀ l : List α, l.Nodup → i ∈ l →
      (l.map fun j => if i = j then v else f j).sum + f i = (l.map f).sum + v
  | [], _, h => by cases h
  | j :: rest, hn, h => by
    have hn' := List.nodup_cons.mp hn
    by_cases hij : i = j
    · subst hij
      have same : (rest.map fun k => if i = k then v else f k) = rest.map f := by
        apply List.map_congr_left
        intro k hk
        have : i ≠ k := fun e => hn'.1 (e ▸ hk)
        simp [this]
      simp only [List.map_cons, List.sum_cons, if_true, same]
      omega
    · have hr : i ∈ rest := by
        cases h with
        | head => exact absurd rfl hij
        | tail _ h => exact h
      have ih := sum_update f i v rest hn'.2 hr
      simp only [List.map_cons, List.sum_cons, if_neg hij]
      omega

/-- No value is above the sum of all. -/
theorem le_sum_of_mem {α : Type} (f : α → Nat) (i : α) : ∀ l : List α, i ∈ l → f i ≤ (l.map f).sum
  | j :: rest, h => by
    simp only [List.map_cons, List.sum_cons]
    cases h with
    | head => omega
    | tail _ h => have := le_sum_of_mem f i rest h; omega

theorem totalM_setCar (p : Part) (i : CarIdx) (c : Car) : (p.setCar i c).totalM + (p.car i).m = p.totalM + c.m := by
  have h := sum_update (fun j => (p.car j).m) i c.m allCars (List.nodup_finRange 48) (mem_allCars i)
  have e : (p.setCar i c).totalM = (allCars.map fun j => if i = j then c.m else (p.car j).m).sum := by
    unfold Part.totalM
    congr 1
    apply List.map_congr_left
    intro j _
    rw [car_setCar]
    split <;> rfl
  rw [e]
  exact h

theorem totalR_setCar (p : Part) (i : CarIdx) (c : Car) : (p.setCar i c).totalR + (p.car i).r = p.totalR + c.r := by
  have h := sum_update (fun j => (p.car j).r) i c.r allCars (List.nodup_finRange 48) (mem_allCars i)
  have e : (p.setCar i c).totalR = (allCars.map fun j => if i = j then c.r else (p.car j).r).sum := by
    unfold Part.totalR
    congr 1
    apply List.map_congr_left
    intro j _
    rw [car_setCar]
    split <;> rfl
  rw [e]
  exact h

theorem m_le_totalM (p : Part) (i : CarIdx) : (p.car i).m ≤ p.totalM :=
  le_sum_of_mem (fun j => (p.car j).m) i allCars (mem_allCars i)

theorem r_le_totalR (p : Part) (i : CarIdx) : (p.car i).r ≤ p.totalR :=
  le_sum_of_mem (fun j => (p.car j).r) i allCars (mem_allCars i)

theorem total_mapCars (p : Part) (f : Car → Car) (h : ∀ c, (f c).m = c.m ∧ (f c).r = c.r) :
    (p.mapCars f).totalM = p.totalM ∧ (p.mapCars f).totalR = p.totalR := by
  constructor
  · unfold Part.totalM
    congr 1
    apply List.map_congr_left
    intro j _
    rw [car_mapCars]; exact (h _).1
  · unfold Part.totalR
    congr 1
    apply List.map_congr_left
    intro j _
    rw [car_mapCars]; exact (h _).2

theorem sum_zero {α : Type} (l : List α) : (l.map fun _ => 0).sum = 0 := by
  induction l with
  | nil => rfl
  | cons a l ih => rw [List.map_cons, List.sum_cons, ih]

theorem CarSide.sums {p q : Part} (h : CarSide p q) : p.sumsAgree → q.sumsAgree := by
  induction h with
  | refl p => exact id
  | trans _ _ h1 h2 => exact h2 ∘ h1
  | car p i c hk =>
    rintro ⟨a, b⟩
    have hm := totalM_setCar p i c
    have hr := totalR_setCar p i c
    have k1 := hk.1
    have k2 := hk.2.1
    have l1 := m_le_totalM p i
    have l2 := r_le_totalR p i
    constructor
    · change p.adm.sumM = _; omega
    · change p.adm.sumR = _; omega
  | cars p f hk =>
    rintro ⟨a, b⟩
    have t := total_mapCars p f fun c => ⟨(hk c).1, (hk c).2.1⟩
    exact ⟨a.trans t.1.symm, b.trans t.2.symm⟩
  | commit p i m r =>
    rintro ⟨a, b⟩
    have hm := totalM_setCar p i { p.car i with m := m, r := r }
    have hr := totalR_setCar p i { p.car i with m := m, r := r }
    have l1 := m_le_totalM p i
    have l2 := r_le_totalR p i
    constructor
    · change p.adm.sumM + m - (p.car i).m = (p.setCar i _).totalM
      dsimp only at hm; omega
    · change p.adm.sumR + r - (p.car i).r = (p.setCar i _).totalR
      dsimp only at hr; omega
  | noCommits p x h1 h2 =>
    intro _
    constructor
    · change x.sumM = (p.mapCars _).totalM
      have : (p.mapCars fun c => { c with m := 0, r := 0 }).totalM = 0 := by
        unfold Part.totalM; simp only [car_mapCars]; exact sum_zero _
      rw [this, h1]
    · change x.sumR = (p.mapCars _).totalR
      have : (p.mapCars fun c => { c with m := 0, r := 0 }).totalR = 0 := by
        unfold Part.totalR; simp only [car_mapCars]; exact sum_zero _
      rw [this, h2]
  | sup p x => exact id
  | adm p x h1 h2 => rintro ⟨a, b⟩; exact ⟨h1.trans a, h2.trans b⟩
  | alarms p x => exact id
  | standing p n => exact id
  | mgmt p x => exact id
  | tables p t => exact id

/-! ### Composition -/

/-- The lists of the active and shadow tables keep every car at most once (R89, R90). -/
theorem CarSide.lists {p q : Part} (h : CarSide p q) : p.listsDistinct → q.listsDistinct := by
  induction h with
  | trans _ _ h1 h2 => exact h2 ∘ h1
  | tables p t _ h => exact fun k => ⟨h k, k.2⟩
  | _ => exact id

theorem foldl_carSide {α : Type} (f : Part → α → Part) (h : ∀ p a, CarSide p (f p a)) :
    ∀ (l : List α) (p : Part), CarSide p (l.foldl f p)
  | [], p => .refl p
  | a :: l, p => (h p a).trans (foldl_carSide f h l (f p a))

theorem modCar_carSide (p : Part) (i : CarIdx) (f : Car → Car) (h : ∀ c : Car, c.keeps (f c)) :
    CarSide p (p.modCar i f) := .car p i _ (h _)

theorem raiseEvent_carSide (e : Event) (p : Part) : CarSide p (raiseEvent e p) := .mgmt p _ rfl rfl

theorem setDuty_carSide (i : CarIdx) (d : Duty) (p : Part) : CarSide p (setDuty i d p) :=
  modCar_carSide p i _ fun _ => ⟨rfl, rfl, rfl, rfl⟩

/-! ### Queue, alarms and limits -/

theorem settleJoinCounter_carSide (p : Part) : CarSide p (settleJoinCounter p) := by
  unfold settleJoinCounter
  split
  · exact .adm p _ rfl rfl
  · exact .refl p

theorem leaveQueue_carSide (i : CarIdx) (p : Part) : CarSide p (leaveQueue i p) :=
  (modCar_carSide p i (fun c => { c with run := .idle, priority := none, joinSeq := none })
    fun _ => ⟨rfl, rfl, rfl, rfl⟩).trans (settleJoinCounter_carSide _)

theorem flushQueue_carSide (p : Part) : CarSide p (flushQueue p) := by
  refine .trans (.cars p (fun c =>
    if c.run = .queued then { c with run := .idle, priority := none, joinSeq := none } else c) ?_) (.adm _ _ rfl rfl)
  intro c
  split <;> exact ⟨rfl, rfl, rfl, rfl⟩

theorem shedCar_carSide (i : CarIdx) (p : Part) : CarSide p (shedCar i p) := by
  unfold shedCar
  split
  · exact (modCar_carSide p i (fun c => { c with shed := true }) fun _ => ⟨rfl, rfl, rfl, rfl⟩).trans
      (raiseEvent_carSide _ _)
  · exact .refl p

theorem shedServiceCars_carSide (p : Part) : CarSide p (shedServiceCars p) := by
  refine foldl_carSide _ (fun p i => ?_) _ p
  split
  · exact shedCar_carSide i p
  · exact .refl p

theorem shedWhileAbove_carSide (limit : Nat) :
    ∀ (l : List CarIdx) (n : Nat) (p : Part), CarSide p (shedWhileAbove limit l n p)
  | [], _, p => .refl p
  | i :: rest, n, p => by
    unfold shedWhileAbove
    split
    · exact (shedCar_carSide i p).trans (shedWhileAbove_carSide limit rest _ _)
    · exact .refl p

theorem derateShed_carSide (limit : Nat) (p : Part) : CarSide p (derateShed limit p) :=
  shedWhileAbove_carSide limit _ _ p

theorem recomputeLimits_carSide (p : Part) : CarSide p (recomputeLimits p) := by
  unfold recomputeLimits
  dsimp only
  split
  · exact (derateShed_carSide _ p).trans (.standing _ _)
  · exact .standing p _

theorem shedSweep_carSide (p : Part) : CarSide p (shedSweep p) := by
  refine foldl_carSide _ (fun p i => ?_) _ p
  split
  · exact shedCar_carSide i p
  · exact .refl p

theorem deriveStatus_carSide (p : Part) : CarSide p (deriveStatus p) := .alarms p _ rfl

theorem deriveCoverage_carSide (p : Part) : CarSide p (deriveCoverage p) := .alarms p _ rfl

theorem deriveActions_carSide (p : Part) : CarSide p (deriveActions p) :=
  ((deriveStatus_carSide p).trans ((deriveCoverage_carSide _).trans (shedSweep_carSide _))).trans (.alarms _ _ rfl)

theorem rederiveActions_carSide (p : Part) : CarSide p (rederiveActions p) := by
  unfold rederiveActions
  dsimp only
  split
  · exact deriveActions_carSide p
  · exact (deriveActions_carSide p).trans (recomputeLimits_carSide _)

/-! ### Transfer state and sequencing -/

theorem moveState_carSide (n : TransferState) (c : Cause) (p : Part) : CarSide p (moveState n c p) :=
  .trans (.sup p { p.sup with previous := p.sup.state, state := n, changeTime := p.now, cause := c } rfl rfl rfl rfl)
    (raiseEvent_carSide _ _)

theorem enterReturn_carSide (f : Remembered) (p : Part) : CarSide p (enterReturn f p) := by
  unfold enterReturn
  refine .trans ?_ (shedServiceCars_carSide _)
  refine .trans ?_ (flushQueue_carSide _)
  exact .trans (moveState_carSide .returning .retransferSet p) (.sup _ _ rfl rfl rfl rfl)

theorem retransferCheck_carSide (p : Part) : CarSide p (retransferCheck p) := by
  unfold retransferCheck
  split
  · split
    · exact enterReturn_carSide _ p
    · exact enterReturn_carSide _ p
    · exact .refl p
  · exact .refl p

theorem demote_carSide (i : CarIdx) (p : Part) : CarSide p (demote i p) := by
  unfold demote
  split
  · exact modCar_carSide p i _ fun _ => ⟨rfl, rfl, rfl, rfl⟩
  · exact setDuty_carSide i _ p

theorem promote_carSide (i : CarIdx) (p : Part) : CarSide p (promote i p) := setDuty_carSide i _ p

theorem demoteUnlisted_carSide (g : GroupIdx) (p : Part) : CarSide p (demoteUnlisted g p) := by
  refine foldl_carSide _ (fun p i => ?_) _ p
  split
  · exact demote_carSide i p
  · exact .refl p

theorem demoteExcess_carSide (g : GroupIdx) (p : Part) : CarSide p (demoteExcess g p) := by
  refine foldl_carSide _ (fun p i => ?_) _ p
  split
  · exact demote_carSide i p
  · exact .refl p

theorem promoteCandidates_carSide (g : GroupIdx) (p : Part) : CarSide p (promoteCandidates g p) := by
  refine foldl_carSide _ (fun p i => ?_) _ p
  split
  · exact promote_carSide i p
  · exact .refl p

theorem serviceSelection_carSide (p : Part) : CarSide p (serviceSelection p) :=
  foldl_carSide _ (fun p g => (demoteUnlisted_carSide g p).trans
    ((demoteExcess_carSide g _).trans (promoteCandidates_carSide g _))) _ p

theorem endRecall_carSide (p : Part) : CarSide p (endRecall p) := by
  unfold endRecall
  refine .trans ?_ (retransferCheck_carSide _)
  refine .trans ?_ (serviceSelection_carSide _)
  refine .trans ?_ (.sup _ _ rfl rfl rfl rfl)
  exact (raiseEvent_carSide .recallDone p).trans (moveState_carSide .service .recallDone _)

theorem evaluateCompletion_carSide (p : Part) : CarSide p (evaluateCompletion p) := by
  unfold evaluateCompletion
  split
  · exact endRecall_carSide p
  · exact .refl p

theorem handDutyChange_carSide (o n : Duty) (p : Part) : CarSide p (handDutyChange o n p) := by
  unfold handDutyChange
  split
  · exact evaluateCompletion_carSide p
  · split
    · exact serviceSelection_carSide p
    · exact .refl p
  · exact .refl p

theorem changeDuty_carSide (i : CarIdx) (d : Duty) (p : Part) : CarSide p (changeDuty i d p) := by
  unfold changeDuty
  split
  · exact setDuty_carSide i d p
  · exact (setDuty_carSide i d p).trans (handDutyChange_carSide _ _ _)

theorem recallAssignment_carSide (p : Part) : CarSide p (recallAssignment p) := by
  refine foldl_carSide _ (fun p i => ?_) _ p
  split
  · exact setDuty_carSide i _ p
  · exact .refl p

theorem retestParked_carSide (p : Part) : CarSide p (retestParked p) := by
  refine foldl_carSide _ (fun p i => ?_) _ p
  split
  · exact setDuty_carSide i _ p
  · exact .refl p

theorem sequenceApply_carSide (p : Part) : CarSide p (sequenceApply p) := by
  unfold sequenceApply
  split
  · exact (retestParked_carSide p).trans (evaluateCompletion_carSide _)
  · exact (retestParked_carSide p).trans (serviceSelection_carSide _)
  · exact retestParked_carSide p
  · exact .refl p

/-! ### Admission -/

theorem renumber_carSide (p : Part) : CarSide p (renumber p) := by
  unfold renumber
  refine .trans ?_ (.adm _ _ rfl rfl)
  refine foldl_carSide _ (fun q i => ?_) _ p
  exact modCar_carSide q i _ fun _ => ⟨rfl, rfl, rfl, rfl⟩

theorem join_carSide (i : CarIdx) (p : Part) : CarSide p (join i p) := by
  unfold join
  dsimp only
  refine .trans ?_ (.adm _ _ rfl rfl)
  refine .trans ?_ (modCar_carSide _ i _ fun _ => ⟨rfl, rfl, rfl, rfl⟩)
  split
  · exact renumber_carSide p
  · exact .refl p

theorem openWindow_carSide (i : CarIdx) (n : Nat) (p : Part) : CarSide p (openWindow i n p) := .adm p _ rfl rfl

theorem shedIfMaster_carSide (i : CarIdx) (p : Part) : CarSide p (shedIfMaster i p) := by
  unfold shedIfMaster
  split
  · exact shedCar_carSide i p
  · exact .refl p

theorem grant_carSide (i : CarIdx) (f : Figures) (n : Nat) (p : Part) : CarSide p (grant i f n p) := by
  unfold grant
  refine .trans ?_ (shedIfMaster_carSide i _)
  refine .trans ?_ (openWindow_carSide i n _)
  refine .trans ?_ (settleJoinCounter_carSide _)
  refine .trans ?_ (.commit _ i _ _)
  exact modCar_carSide p i _ fun _ => ⟨rfl, rfl, rfl, rfl⟩

theorem markUnfit_carSide (i : CarIdx) (p : Part) : CarSide p (markUnfit i p) := by
  unfold markUnfit
  refine .trans ?_ (evaluateCompletion_carSide _)
  refine .trans ?_ (raiseEvent_carSide _ _)
  refine .trans ?_ (modCar_carSide _ i _ fun _ => ⟨rfl, rfl, rfl, rfl⟩)
  exact leaveQueue_carSide i p

theorem skipCar_carSide (i : CarIdx) (p : Part) : CarSide p (skipCar i p) :=
  modCar_carSide p i _ fun _ => ⟨rfl, rfl, rfl, rfl⟩

theorem walkRated_carSide : ∀ (l : List CarIdx) (p : Part), CarSide p (walkRated l p)
  | [], p => .refl p
  | i :: rest, p => by
    unfold walkRated
    split
    · exact walkRated_carSide rest p
    · split
      · exact (markUnfit_carSide i p).trans (walkRated_carSide rest _)
      · split
        · exact grant_carSide i _ _ p
        · split
          · exact skipCar_carSide i p
          · exact (skipCar_carSide i p).trans (walkRated_carSide rest _)

theorem walkSingle_carSide : ∀ (l : List CarIdx) (p : Part), CarSide p (walkSingle l p)
  | [], p => .refl p
  | i :: rest, p => by
    unfold walkSingle
    split
    · exact grant_carSide i _ _ p
    · exact walkSingle_carSide rest p

theorem attempt_carSide (p : Part) : CarSide p (attempt p) := by
  unfold attempt
  split
  · split
    · split
      · exact walkSingle_carSide _ p
      · exact .refl p
    · exact walkRated_carSide _ p
  · exact .refl p

theorem becomeStale_carSide (p : Part) : CarSide p (becomeStale p) :=
  .trans (.sup p { p.sup with fresh := false } rfl rfl rfl rfl) (raiseEvent_carSide _ _)

theorem executeApply_carSide (p : Part) : CarSide p (executeApply p) := by
  unfold executeApply
  dsimp only
  refine .trans (.tables p (copyTables p.mgmt.locked p.active p.shadow) ?_ ?_) ?_
  · intro h; simp [copyTables, h]
  · intro h
    unfold copyTables
    split
    · exact h.2
    · exact h.2
  refine .trans (.cars _ (fun c => { c with unfit := none }) fun _ => ⟨rfl, rfl, rfl, rfl⟩) ?_
  refine (raiseEvent_carSide .applied _).trans ((deriveActions_carSide _).trans ?_)
  split
  · exact (becomeStale_carSide _).trans ((recomputeLimits_carSide _).trans (sequenceApply_carSide _))
  · exact (recomputeLimits_carSide _).trans (sequenceApply_carSide _)

theorem executeStartService_carSide (p : Part) : CarSide p (executeStartService p) := by
  unfold executeStartService
  split
  · exact endRecall_carSide p
  · exact .refl p

theorem executeDeferred_carSide (p : Part) : CarSide p (executeDeferred p) := by
  have free : CarSide p { p with mgmt.deferred := none } := .mgmt p _ rfl rfl
  unfold executeDeferred
  split
  · exact .refl p
  · exact free.trans (executeApply_carSide _)
  · exact free.trans (executeStartService_carSide _)

theorem gapOpened_carSide (p : Part) : CarSide p (gapOpened p) :=
  (executeDeferred_carSide p).trans (attempt_carSide _)

theorem judgeGap_carSide (p : Part) : CarSide p (judgeGap p) := by
  unfold judgeGap
  split
  · exact gapOpened_carSide p
  · exact .refl p

theorem closeWindow_carSide (p : Part) : CarSide p (closeWindow p) := .adm p _ rfl rfl

theorem completeRun_carSide (i : CarIdx) (p : Part) : CarSide p (completeRun i p) := by
  unfold completeRun
  refine .trans ?_ (closeWindow_carSide _)
  refine .trans ?_ (.commit _ i _ _)
  exact modCar_carSide p i _ fun _ => ⟨rfl, rfl, rfl, rfl⟩

theorem completeStep_carSide (i : CarIdx) (p : Part) : CarSide p (completeStep i p) :=
  (completeRun_carSide i p).trans (judgeGap_carSide _)

theorem judgeSettle_carSide (w : Window) (p : Part) : CarSide p (judgeSettle w p) := by
  unfold judgeSettle
  split
  · split
    · exact completeStep_carSide _ p
    · exact .adm p _ rfl rfl
  · exact .trans (.adm p { p.adm with window := some { w with phase := .blind }, settle := .running p.adm.settleDuration }
      rfl rfl) (raiseEvent_carSide _ _)

theorem settleExpires_carSide (p : Part) : CarSide p (settleExpires p) := by
  have ex : CarSide p { p with adm.settle := .expired } := .adm p _ rfl rfl
  unfold settleExpires
  dsimp only
  split
  · split
    · split
      · exact ex.trans (judgeSettle_carSide _ _)
      · exact ex.trans (completeStep_carSide _ _)
      · exact ex
    · exact ex
  · exact .refl p

theorem startHoldOff_carSide (p : Part) : CarSide p (startHoldOff p) := .adm p _ rfl rfl

theorem recoveryExpires_carSide (p : Part) : CarSide p (recoveryExpires p) := by
  have ex : CarSide p { p with adm.recovery := .expired } := .adm p _ rfl rfl
  unfold recoveryExpires
  dsimp only
  split
  · split
    · split
      · exact ex.trans ((raiseEvent_carSide _ _).trans ((startHoldOff_carSide _).trans (completeStep_carSide _ _)))
      · exact ex
    · exact ex
  · exact .refl p

theorem holdOffExpires_carSide (p : Part) : CarSide p (holdOffExpires p) := by
  unfold holdOffExpires
  split
  · exact .trans (.adm p { p.adm with holdOff := .expired } rfl rfl) (judgeGap_carSide _)
  · exact .refl p

theorem admitReport_carSide (p : Part) : CarSide p (admitReport p) := by
  unfold admitReport
  split
  · split
    · exact .adm p _ rfl rfl
    · split
      · exact completeStep_carSide _ p
      · exact .refl p
    · exact .refl p
  · exact .refl p

/-! ### Car tracker -/

theorem commitThenMod_carSide (i : CarIdx) (f : Car → Car) (p : Part)
    (h : ∀ c : Car, c.m = 0 → c.r = 0 → c.keeps (f c)) : CarSide p ((setCommit i 0 0 p).modCar i f) := by
  refine (CarSide.commit p i 0 0).trans (.car _ i _ (h _ ?_ ?_))
  · change ((p.setCar i _).car i).m = 0; rw [car_setCar_self]
  · change ((p.setCar i _).car i).r = 0; rw [car_setCar_self]

theorem disableRecord_carSide (i : CarIdx) (p : Part) : CarSide p (disableRecord i p) :=
  commitThenMod_carSide i disabledCar p fun _ hm hr => ⟨hm.symm, hr.symm, rfl, rfl⟩

theorem settleDuty_carSide (b : Car) (i : CarIdx) (p : Part) : CarSide p (settleDuty b i p) := by
  unfold settleDuty
  dsimp only
  split
  · exact disableRecord_carSide i p
  · split
    · exact modCar_carSide p i _ fun _ => ⟨rfl, rfl, rfl, rfl⟩
    · exact setDuty_carSide i _ p

theorem endWindowOf_carSide (i : CarIdx) (p : Part) : CarSide p (endWindowOf i p) := by
  unfold endWindowOf
  split
  · split
    · exact closeWindow_carSide p
    · exact .refl p
  · exact .refl p

theorem releaseRun_carSide (i : CarIdx) (p : Part) : CarSide p (releaseRun i p) :=
  (commitThenMod_carSide i releasedCar p fun _ _ _ => ⟨rfl, rfl, rfl, rfl⟩).trans (endWindowOf_carSide i _)

theorem afterRelease_carSide (b : Bool) (p : Part) : CarSide p (afterRelease b p) := by
  unfold afterRelease
  split
  · exact attempt_carSide p
  · exact judgeGap_carSide p

theorem handSettlement_carSide (i : CarIdx) (d : Duty) (p : Part) : CarSide p (handSettlement i d p) := by
  unfold handSettlement
  split
  · exact .refl p
  · exact handDutyChange_carSide _ _ p

theorem release_carSide (i : CarIdx) (p : Part) : CarSide p (release i p) := by
  unfold release
  exact (releaseRun_carSide i p).trans ((afterRelease_carSide _ _).trans
    ((settleDuty_carSide _ i _).trans (handSettlement_carSide i _ _)))

theorem stall_carSide (i : CarIdx) (p : Part) : CarSide p (stall i p) := by
  have a : CarSide p (raiseEvent .stall (p.modCar i fun c =>
      { c with stalled := true, stallCount := satInc 255 c.stallCount })) :=
    (modCar_carSide p i (fun c => { c with stalled := true, stallCount := satInc 255 c.stallCount })
      fun _ => ⟨rfl, rfl, rfl, rfl⟩).trans (raiseEvent_carSide _ _)
  unfold stall
  dsimp only
  split
  · exact a.trans (completeStep_carSide i _)
  · exact a

theorem startTimerExpires_carSide (i : CarIdx) (p : Part) : CarSide p (startTimerExpires i p) := by
  have a : CarSide p (p.modCar i fun c => { c with startTimer := .expired }) :=
    modCar_carSide p i _ fun _ => ⟨rfl, rfl, rfl, rfl⟩
  unfold startTimerExpires
  dsimp only
  split
  · split
    · exact a.trans (stall_carSide i _)
    · exact a
  · exact .refl p

theorem tripTimerExpires_carSide (i : CarIdx) (p : Part) : CarSide p (tripTimerExpires i p) := by
  have a : CarSide p (p.modCar i fun c => { c with tripTimer := .expired }) :=
    modCar_carSide p i _ fun _ => ⟨rfl, rfl, rfl, rfl⟩
  unfold tripTimerExpires
  dsimp only
  split
  · split
    · split
      · exact a.trans (release_carSide i _)
      · split
        · exact a
        · exact a.trans (stall_carSide i _)
    · exact a
  · exact .refl p

theorem becomeLost_carSide (i : CarIdx) (p : Part) : CarSide p (becomeLost i p) := by
  have a : CarSide p (handDutyChange (p.car i).duty .lost
      (raiseEvent .lost (p.modCar i fun c => { c with prior := some c.duty, duty := .lost }))) :=
    (modCar_carSide p i (fun c => { c with prior := some c.duty, duty := .lost })
      fun _ => ⟨rfl, rfl, rfl, rfl⟩).trans ((raiseEvent_carSide _ _).trans (handDutyChange_carSide _ _ _))
  unfold becomeLost
  dsimp only
  split
  · exact a.trans (leaveQueue_carSide i _)
  · split
    · exact a.trans (release_carSide i _)
    · exact a

theorem countMiss_carSide (i : CarIdx) (p : Part) : CarSide p (countMiss i p) := by
  have a : CarSide p (p.modCar i fun c => { c with missCount := satInc 255 c.missCount }) :=
    modCar_carSide p i _ fun _ => ⟨rfl, rfl, rfl, rfl⟩
  unfold countMiss
  dsimp only
  split
  · exact a.trans (becomeLost_carSide i _)
  · exact a

theorem keeps_countProgress (n : Nat) (d : Travel) (x : Int) (c : Car) : c.keeps (countProgress n d x c) := by
  unfold countProgress
  dsimp only
  split
  · split <;> exact ⟨rfl, rfl, rfl, rfl⟩
  · exact ⟨rfl, rfl, rfl, rfl⟩

theorem countReport_carSide (i : CarIdx) (b : Word16) (l : Live) (p : Part) : CarSide p (countReport i b l p) := by
  unfold countReport
  split
  · exact .refl p
  · exact modCar_carSide p i _ fun _ => keeps_countProgress _ _ _ _

theorem evaluateProgress_carSide (i : CarIdx) (b : Word16) (l : Live) (p : Part) :
    CarSide p (evaluateProgress i b l p) := by
  have a := countReport_carSide i b l p
  unfold evaluateProgress
  dsimp only
  split
  · exact .refl p
  · split
    · exact a.trans (stall_carSide i _)
    · exact a

theorem parkOnArrival_carSide (i : CarIdx) (l : Live) (p : Part) : CarSide p (parkOnArrival i l p) := by
  unfold parkOnArrival
  split
  · exact changeDuty_carSide i _ p
  · exact .refl p

theorem arrive_carSide (i : CarIdx) (l : Live) (p : Part) : CarSide p (arrive i l p) := by
  unfold arrive
  exact (modCar_carSide p i (fun c => { c with arrivalTime := p.now }) fun _ => ⟨rfl, rfl, rfl, rfl⟩).trans
    ((release_carSide i _).trans (parkOnArrival_carSide i l _))

theorem endTrip_carSide (i : CarIdx) (l : Live) (p : Part) : CarSide p (endTrip i l p) := by
  unfold endTrip
  split
  · exact arrive_carSide i l p
  · split
    · exact release_carSide i p
    · exact .refl p

theorem noteMotion_carSide (i : CarIdx) (p : Part) : CarSide p (p.modCar i noteMotion) := by
  refine modCar_carSide p i noteMotion fun c => ?_
  unfold noteMotion
  split <;> exact ⟨rfl, rfl, rfl, rfl⟩

theorem countTrip_carSide (i : CarIdx) (b : Option Word16) (l : Live) (p : Part) : CarSide p (countTrip i b l p) := by
  have a : CarSide p (if l.motion = .stopped then p else p.modCar i noteMotion) := by
    split
    · exact .refl p
    · exact noteMotion_carSide i p
  unfold countTrip
  dsimp only
  split
  · exact a.trans (evaluateProgress_carSide i _ l _)
  · exact a

theorem evaluateTrip_carSide (i : CarIdx) (b : Option Word16) (l : Live) (p : Part) :
    CarSide p (evaluateTrip i b l p) := by
  have a := countTrip_carSide i b l p
  unfold evaluateTrip
  dsimp only
  split
  · split
    · exact a.trans (endTrip_carSide i l _)
    · exact a
  · exact .refl p

theorem endLoss_carSide (i : CarIdx) (p : Part) : CarSide p (endLoss i p) := by
  unfold endLoss
  exact (modCar_carSide p i (fun c => { c with prior := none }) fun _ => ⟨rfl, rfl, rfl, rfl⟩).trans
    (changeDuty_carSide i _ _)

theorem firstHearing_carSide (i : CarIdx) (p : Part) : CarSide p (firstHearing i p) := by
  unfold firstHearing
  split
  · exact changeDuty_carSide i _ p
  · exact .refl p

theorem handToAdmission_carSide (i : CarIdx) (l : Live) (p : Part) : CarSide p (handToAdmission i l p) := by
  have j : ∀ q : Part, CarSide q (if q.mayJoin i then attempt (join i q) else q) := fun q => by
    split
    · exact (join_carSide i q).trans (attempt_carSide _)
    · exact .refl q
  unfold handToAdmission
  dsimp only
  split
  · exact (leaveQueue_carSide i p).trans (j _)
  · exact j p

theorem afterIntake_carSide (i : CarIdx) (b : Bool) (p : Part) : CarSide p (afterIntake i b p) := by
  unfold afterIntake
  split
  · split
    · exact changeDuty_carSide i _ p
    · split
      · exact serviceSelection_carSide p
      · exact .refl p
  · exact .refl p

theorem endLossOrHear_carSide (b : Bool) (i : CarIdx) (p : Part) : CarSide p (endLossOrHear b i p) := by
  unfold endLossOrHear
  split
  · exact endLoss_carSide i p
  · split
    · exact firstHearing_carSide i p
    · exact .refl p

theorem intake_carSide (i : CarIdx) (l : Live) (p : Part) : CarSide p (intake i l p) := by
  unfold intake
  refine .trans ?_ (afterIntake_carSide i _ _)
  refine .trans ?_ (handToAdmission_carSide i l _)
  refine .trans ?_ (endLossOrHear_carSide _ i _)
  refine .trans ?_ (evaluateTrip_carSide i _ l _)
  exact modCar_carSide p i (takeLive p.now l) fun _ => ⟨rfl, rfl, rfl, rfl⟩

theorem takeReport_carSide (a : Byte) (l : Live) (p : Part) : CarSide p (takeReport a l p) := by
  unfold takeReport
  split
  · exact intake_carSide _ l p
  · exact .refl p

/-! ### Transfer supervisor -/

theorem keeps_bulkDuty (h k : Duty → Bool) (d : Duty) (c : Car) : c.keeps (bulkDuty h k d c) := by
  unfold bulkDuty
  split
  · split
    · split <;> exact ⟨rfl, rfl, rfl, rfl⟩
    · exact ⟨rfl, rfl, rfl, rfl⟩
  · split <;> exact ⟨rfl, rfl, rfl, rfl⟩

theorem stoppingEffect_carSide (p : Part) : CarSide p (stoppingEffect p) := .cars p _ fun c => keeps_bulkDuty _ _ _ c

theorem restoringEffect_carSide (p : Part) : CarSide p (restoringEffect p) := .cars p _ fun c => keeps_bulkDuty _ _ _ c

theorem breakerEffect_carSide (p : Part) : CarSide p (breakerEffect p) := .cars p _ fun c => keeps_bulkDuty _ _ _ c

theorem bulkReleaseCar_carSide (i : CarIdx) (p : Part) : CarSide p (bulkReleaseCar i p) := by
  unfold bulkReleaseCar
  split
  · exact (releaseRun_carSide i p).trans (settleDuty_carSide _ i _)
  · exact .refl p

theorem bulkRelease_carSide (p : Part) : CarSide p (bulkRelease p) := by
  unfold bulkRelease
  dsimp only
  refine .trans ?_ (.noCommits _ _ rfl rfl)
  refine .trans ?_ (closeWindow_carSide _)
  exact (flushQueue_carSide p).trans (foldl_carSide _ (fun p i => bulkReleaseCar_carSide i p) _ _)

theorem stopTransferTimers_carSide (l : TransferState) (p : Part) : CarSide p (stopTransferTimers l p) := by
  cases l <;> first | exact .refl p | exact .sup p _ rfl rfl rfl rfl

theorem startRecallLimit_carSide (p : Part) : CarSide p (startRecallLimit p) := .sup p _ rfl rfl rfl rfl

theorem enterRecall_carSide (c : Cause) (p : Part) : CarSide p (enterRecall c p) := by
  have a : CarSide p (startRecallLimit (moveState .recall c p)) :=
    (moveState_carSide _ c p).trans (startRecallLimit_carSide _)
  have f : ∀ q, CarSide q (retransferCheck (judgeGap (evaluateCompletion (recallAssignment q)))) := fun q =>
    (recallAssignment_carSide q).trans ((evaluateCompletion_carSide _).trans
      ((judgeGap_carSide _).trans (retransferCheck_carSide _)))
  unfold enterRecall
  dsimp only
  split
  · exact a.trans ((rederiveActions_carSide _).trans (f _))
  · exact a.trans (f _)

theorem reenterService_carSide (p : Part) : CarSide p (reenterService p) := by
  unfold reenterService
  exact (moveState_carSide _ _ p).trans ((serviceSelection_carSide _).trans
    ((judgeGap_carSide _).trans (retransferCheck_carSide _)))

theorem warmUpExpires_carSide (p : Part) : CarSide p (warmUpExpires p) := by
  have a : CarSide p { p with sup.warmUp := .expired } := .sup p _ rfl rfl rfl rfl
  unfold warmUpExpires
  dsimp only
  split
  · split
    · exact a.trans (enterRecall_carSide _ _)
    · exact a
  · exact .refl p

theorem enterStandby_carSide (p : Part) : CarSide p (enterStandby p) := by
  have a : CarSide p { moveState .standby .switchGenerator p with
      sup.warmUp := .running (p.active.plant.warmUp * 1000) } :=
    (moveState_carSide _ _ p).trans (.sup _ _ rfl rfl rfl rfl)
  unfold enterStandby
  dsimp only
  split
  · exact a.trans (warmUpExpires_carSide _)
  · exact a

theorem recallLimitExpires_carSide (p : Part) : CarSide p (recallLimitExpires p) := by
  have a : CarSide p { p with sup.recallLimit := .expired } := .sup p _ rfl rfl rfl rfl
  unfold recallLimitExpires
  dsimp only
  split
  · split
    · exact a.trans (endRecall_carSide _)
    · exact a
  · exact .refl p

theorem breakerOpen_carSide (q : Part) : CarSide q (rederiveActions (breakerEffect (bulkRelease q))) :=
  (bulkRelease_carSide q).trans ((breakerEffect_carSide _).trans (rederiveActions_carSide _))

theorem closedTransition_carSide (q : Part) : CarSide q (rederiveActions (restoringEffect (bulkRelease q))) :=
  (bulkRelease_carSide q).trans ((restoringEffect_carSide _).trans (rederiveActions_carSide _))

theorem enterOutage_carSide (c : Cause) (p : Part) : CarSide p (enterOutage c p) := by
  have a : CarSide p (stopTransferTimers p.sup.state (moveState .outage c p)) :=
    (moveState_carSide _ c p).trans (stopTransferTimers_carSide _ _)
  unfold enterOutage
  refine a.trans (.trans ?_ (executeDeferred_carSide _))
  split
  · exact stoppingEffect_carSide _
  · exact breakerOpen_carSide _
  · exact breakerOpen_carSide _
  · exact breakerOpen_carSide _
  · exact .refl _

theorem enterNormal_carSide (p : Part) : CarSide p (enterNormal p) := by
  have a : CarSide p (stopTransferTimers p.sup.state (moveState .normal .switchUtility p)) :=
    (moveState_carSide _ _ p).trans (stopTransferTimers_carSide _ _)
  unfold enterNormal
  refine a.trans (.trans ?_ (executeDeferred_carSide _))
  split
  · exact closedTransition_carSide _
  · exact closedTransition_carSide _
  · exact closedTransition_carSide _
  · exact restoringEffect_carSide _

theorem reactOpen_carSide (c : Cause) (p : Part) : CarSide p (reactOpen c p) := by
  unfold reactOpen
  split
  · exact .refl p
  · exact enterOutage_carSide c p

theorem reactGenerator_carSide (p : Part) : CarSide p (reactGenerator p) := by
  unfold reactGenerator
  split
  · exact (stoppingEffect_carSide p).trans (enterStandby_carSide _)
  · exact enterStandby_carSide p
  · exact .refl p

theorem reactUtility_carSide (p : Part) : CarSide p (reactUtility p) := by
  unfold reactUtility
  split
  · exact .refl p
  · exact enterNormal_carSide p

theorem noteInvalid_carSide (p : Part) : CarSide p (noteInvalid p) :=
  .trans (.sup p { p.sup with cause := .switchInvalid } rfl rfl rfl rfl) (raiseEvent_carSide _ _)

/-- The reaction to a position that has changed, once it is taken. -/
theorem takePosition_carSide (n : Position) (p : Part) : CarSide { p with sup.position := n } (takePosition n p) := by
  unfold takePosition
  dsimp only
  split
  · rename_i h
    subst h
    exact .refl _
  · cases n with
    | unknown => exact .refl _
    | utility => exact reactUtility_carSide _
    | generator => exact reactGenerator_carSide _
    | opened =>
      dsimp only
      split
      · exact .refl _
      · exact reactOpen_carSide _ _
    | invalid =>
      dsimp only
      split
      · exact noteInvalid_carSide _
      · exact (reactOpen_carSide _ _).trans (noteInvalid_carSide _)

/-- The three fields that a sample of the switch lines sets by itself (R1 to R3). -/
def switchFields (u g : SwitchLevel) (p : Part) : Part :=
  let util := filterSample p.active.plant.utilDepth u p.sup.util
  let gen := filterSample p.active.plant.genDepth g p.sup.gen
  { p with sup.util := util, sup.gen := gen, sup.position := positionOf util.level gen.level }

theorem sampleSwitch_carSide (u g : SwitchLevel) (p : Part) : CarSide (switchFields u g p) (sampleSwitch u g p) :=
  takePosition_carSide _ { p with
    sup.util := filterSample p.active.plant.utilDepth u p.sup.util
    sup.gen := filterSample p.active.plant.genDepth g p.sup.gen }

/-- The filters that a sample of the alarm lines sets by itself (R106). -/
def alarmFields (a1 a2 a3 a4 : AlarmLevel) (p : Part) : Part :=
  let next (k : Fin 4) (x : AlarmLevel) := filterSample (p.tripEntry k).depth x (p.alarmFilter k)
  { p with alarms.filters := #v[next 0 a1, next 1 a2, next 2 a3, next 3 a4] }

theorem sampleAlarms_carSide (a1 a2 a3 a4 : AlarmLevel) (p : Part) :
    CarSide (alarmFields a1 a2 a3 a4 p) (sampleAlarms a1 a2 a3 a4 p) := by
  unfold sampleAlarms
  dsimp only
  split
  · exact .refl _
  · split
    · exact (rederiveActions_carSide _).trans (attempt_carSide _)
    · exact rederiveActions_carSide _

theorem leaveReturn_carSide (p : Part) : CarSide p (leaveReturn p) := by
  have a : CarSide p { p with sup.remembered := none } := .sup p _ rfl rfl rfl rfl
  unfold leaveReturn
  split
  · exact a.trans (enterRecall_carSide _ _)
  · exact a.trans (reenterService_carSide _)
  · exact .refl p

/-- The held report and its freshness, as a plant report sets them by itself (R15). -/
def reportFields (power freq : Word16) (retransfer : Bool) (p : Part) : Part :=
  { p with sup.report := some ⟨power, freq, retransfer, p.now⟩, sup.fresh := true }

theorem takePlantReport_carSide (power freq : Word16) (rt : Bool) (p : Part) :
    CarSide (reportFields power freq rt p) (takePlantReport power freq rt p) := by
  have f : ∀ q : Part, CarSide q (admitReport
      (if q.sup.state = .returning ∧ rt = false then leaveReturn q else retransferCheck q)) := fun q => by
    split
    · exact (leaveReturn_carSide q).trans (admitReport_carSide _)
    · exact (retransferCheck_carSide q).trans (admitReport_carSide _)
  unfold takePlantReport
  dsimp only
  split
  · exact f (reportFields power freq rt p)
  · exact (recomputeLimits_carSide (reportFields power freq rt p)).trans (f _)

theorem reportStale_carSide (p : Part) : CarSide p (reportStale p) := by
  unfold reportStale
  split
  · exact (becomeStale_carSide p).trans (recomputeLimits_carSide _)
  · exact .refl p

end Sys2Proof.Machine
end

