-- ==== Sys2Proof/Laws/PartSide.lean ====
section
/-! SUPPORT. What a step other than a hard reset can do to the part, said once: `PartSide p q`. It keeps the sums (R85), the
bounds of the link (R129, R135, R137) and what the site lock protects (R108, R177). -/

namespace Sys2Proof.Machine

/-- The changes that a step other than a hard reset is made of. -/
inductive PartSide : Part → Part → Prop
  | refl (p : Part) : PartSide p p
  | trans {p q r : Part} : PartSide p q → PartSide q r → PartSide p r
  | carSide {p q : Part} : CarSide p q → PartSide p q
  | record (p : Part) (i : CarIdx) (c : Car) : c.m = (p.car i).m → c.r = (p.car i).r → PartSide p (p.setCar i c)
  | link (p : Part) (l : Link) : (p.link.bounded → l.bounded) → PartSide p { p with link := l }
  | slot (p : Part) (x : Option Slot) : PartSide p { p with slot := x }
  | master (p : Part) (x : Master) : PartSide p { p with master := x }
  | pins (p : Part) (x : Pins) : PartSide p { p with pins := x }
  | now (p : Part) (t : Time) : PartSide p { p with now := t }
  | sup (p : Part) (x : Supervisor) : PartSide p { p with sup := x }
  | alarms (p : Part) (x : Alarms) : PartSide p { p with alarms := x }
  | mgmt (p : Part) (x : Management) : (p.mgmt.locked = true → x.locked = true) → PartSide p { p with mgmt := x }
  | shadow (p : Part) (t : Tables) :
      (p.mgmt.locked = true → t.plant = p.shadow.plant ∧ t.tripMap = p.shadow.tripMap) →
      (p.listsDistinct → t.listsDistinct) → PartSide p { p with shadow := t }
  | cleared (p q : Part) : (∀ i, (q.car i).m = 0 ∧ (q.car i).r = 0) → q.adm.sumM = 0 → q.adm.sumR = 0 →
      (p.link.bounded → q.link.bounded) → q.mgmt.locked = p.mgmt.locked → q.lockedTables = p.lockedTables →
      (p.listsDistinct → q.listsDistinct) → PartSide p q

theorem PartSide.sums {p q : Part} (h : PartSide p q) : p.sumsAgree → q.sumsAgree := by
  induction h with
  | trans _ _ h1 h2 => exact h2 ∘ h1
  | carSide h => exact h.sums
  | record p i c hm hr =>
    rintro ⟨a, b⟩
    have t := totalM_setCar p i c
    have u := totalR_setCar p i c
    have l1 := m_le_totalM p i
    have l2 := r_le_totalR p i
    constructor
    · change p.adm.sumM = _; omega
    · change p.adm.sumR = _; omega
  | cleared p q hc hm hr _ _ _ _ =>
    intro _
    constructor
    · have : q.totalM = 0 := by unfold Part.totalM; simp only [(hc _).1]; exact sum_zero _
      rw [hm, this]
    · have : q.totalR = 0 := by unfold Part.totalR; simp only [(hc _).2]; exact sum_zero _
      rw [hr, this]
  | _ => exact id

theorem PartSide.bounded {p q : Part} (h : PartSide p q) : p.link.bounded → q.link.bounded := by
  induction h with
  | trans _ _ h1 h2 => exact h2 ∘ h1
  | carSide h => intro hb; rw [h.leaves.link]; exact hb
  | link p l hl => exact hl
  | cleared p q _ _ _ hb _ _ _ => exact hb
  | _ => exact id

theorem PartSide.lock {p q : Part} (h : PartSide p q) :
    p.mgmt.locked = true → q.mgmt.locked = true ∧ q.lockedTables = p.lockedTables := by
  induction h with
  | refl p => exact fun h => ⟨h, rfl⟩
  | trans _ _ h1 h2 => exact fun h => ⟨(h2 (h1 h).1).1, (h2 (h1 h).1).2.trans (h1 h).2⟩
  | carSide h =>
    intro hl
    have g := h.leaves.guarded hl
    refine ⟨h.leaves.locked.trans hl, ?_⟩
    unfold Part.lockedTables
    rw [g.1, g.2, h.leaves.shadow]
  | mgmt p x hx => exact fun h => ⟨hx h, rfl⟩
  | shadow p t ht _ =>
    intro hl
    refine ⟨hl, ?_⟩
    unfold Part.lockedTables
    rw [(ht hl).1, (ht hl).2]
  | cleared p q _ _ _ _ hl ht _ => exact fun h => ⟨hl.trans h, ht⟩
  | _ => exact fun h => ⟨h, rfl⟩

/-- The lists of the active and shadow tables keep every car at most once (R89, R90). -/
theorem PartSide.lists {p q : Part} (h : PartSide p q) : p.listsDistinct → q.listsDistinct := by
  induction h with
  | trans _ _ h1 h2 => exact h2 ∘ h1
  | carSide h => exact h.lists
  | shadow p t _ h => exact fun k => ⟨k.1, h k⟩
  | cleared p q _ _ _ _ _ _ h => exact h
  | _ => exact id

/-! ### Ports and counters -/

theorem bounded_port {l : Link} (h : l.bounded) (a : Port) : (l.port a).bounded := by
  cases a
  · exact h.1
  · exact h.2.1
  · exact h.2.2.1

theorem bounded_setPort {l : Link} (h : l.bounded) (a : Port) {x : PortState} (hx : x.bounded) :
    (l.setPort a x).bounded := by
  obtain ⟨hd, ha, hb, hm, hs, hp, hl⟩ := h
  cases a <;> exact ⟨by first | exact hx | exact hd, by first | exact hx | exact ha, by first | exact hx | exact hb,
    hm, hs, hp, hl⟩

theorem modPort_partSide (p : Part) (a : Port) (f : PortState → PortState)
    (h : ∀ x : PortState, x.bounded → (f x).bounded) : PartSide p (p.modPort a f) :=
  .link p _ fun hb => bounded_setPort hb a (h _ (bounded_port hb a))

theorem satInc_le (top n : Nat) (h : n ≤ top) : satInc top n ≤ top := by
  unfold satInc
  split <;> omega

theorem countCheckError_partSide (a : Port) (p : Part) : PartSide p (countCheckError a p) :=
  modPort_partSide p a _ fun _ h => ⟨h.1, satInc_le _ _ h.2.1, h.2.2⟩

theorem countMalformed_partSide (p : Part) : PartSide p (countMalformed p) :=
  .link p _ fun ⟨a, b, c, d, e, f, g⟩ => ⟨a, b, c, satInc_le _ _ d, e, f, g⟩

theorem countStray_partSide (p : Part) : PartSide p (countStray p) :=
  .link p _ fun ⟨a, b, c, d, e, f, g⟩ => ⟨a, b, c, d, satInc_le _ _ e, f, g⟩

theorem countDropped_partSide (p : Part) : PartSide p (countDropped p) :=
  .link p _ fun ⟨a, b, c, d, e, f, g⟩ => ⟨a, b, c, d, e, satInc_le _ _ f, g⟩

theorem handFrame_partSide (a : Port) (f : TxFrame) (p : Part) : PartSide p (handFrame a f p) := by
  refine modPort_partSide p a _ fun x h => ?_
  split
  · rename_i hl
    refine ⟨?_, h.2⟩
    change (x.queue ++ [f]).length ≤ 4
    simp; omega
  · exact ⟨h.1, h.2.1, satInc_le _ _ h.2.2⟩

theorem foldl_partSide {α : Type} (f : Part → α → Part) (h : ∀ p a, PartSide p (f p a)) :
    ∀ (l : List α) (p : Part), PartSide p (l.foldl f p)
  | [], p => .refl p
  | a :: l, p => (h p a).trans (foldl_partSide f h l (f p a))

theorem handAll_partSide (l : List Port) (f : TxFrame) (p : Part) : PartSide p (handAll l f p) :=
  foldl_partSide _ (fun p a => handFrame_partSide a f p) l p

theorem unmarkQueues_partSide (p : Part) : PartSide p (unmarkQueues p) := by
  have k : ∀ x : PortState, x.bounded →
      PortState.bounded { x with queue := x.queue.map fun f => { f with forSlot := false } } := fun x h =>
    ⟨by simpa using h.1, h.2⟩
  unfold unmarkQueues
  exact (modPort_partSide p .dispatch _ k).trans ((modPort_partSide _ .carA _ k).trans (modPort_partSide _ .carB _ k))

theorem setReceiver_partSide (a : Port) (x : Receiver) (p : Part) : PartSide p (setReceiver a x p) :=
  modPort_partSide p a _ fun _ h => h

/-! ### Slots -/

theorem modRecord_partSide (p : Part) (i : CarIdx) (f : Car → Car) (h : ∀ c : Car, (f c).m = c.m ∧ (f c).r = c.r) :
    PartSide p (p.modCar i f) := .record p i _ (h _).1 (h _).2

theorem setSlotNow_partSide (p : Part) (x : Option Slot) : PartSide p (p.setSlotNow x) := by
  unfold Part.setSlotNow
  split
  · exact .slot p x
  · exact .master p _

theorem modLine_partSide (a : Port) (f : SlotLine → SlotLine) (p : Part) : PartSide p (modLine a f p) := by
  unfold modLine
  split
  · split
    · exact setSlotNow_partSide p _
    · exact .refl p
  · exact .refl p

theorem raiseEvent_partSide (e : Event) (p : Part) : PartSide p (raiseEvent e p) := .carSide (raiseEvent_carSide e p)

theorem countSilentA_partSide (i : CarIdx) (p : Part) : PartSide p (countSilentA i p) := by
  have a : PartSide p (p.modCar i fun c => { c with lineA := silentLine p.link.settings.lineLimit (p.car i).lineA }) :=
    modRecord_partSide p i _ fun _ => ⟨rfl, rfl⟩
  unfold countSilentA
  dsimp only
  split
  · exact a.trans (raiseEvent_partSide _ _)
  · exact a

theorem countSilentB_partSide (i : CarIdx) (p : Part) : PartSide p (countSilentB i p) := by
  have a : PartSide p (p.modCar i fun c => { c with lineB := silentLine p.link.settings.lineLimit (p.car i).lineB }) :=
    modRecord_partSide p i _ fun _ => ⟨rfl, rfl⟩
  unfold countSilentB
  dsimp only
  split
  · exact a.trans (raiseEvent_partSide _ _)
  · exact a

theorem judgeLines_partSide (i : CarIdx) (sl : Slot) (p : Part) : PartSide p (judgeLines i sl p) := by
  have a : ∀ q : Part, PartSide q (q.modCar i fun c => { c with lineA := soundLine }) := fun q =>
    modRecord_partSide q i _ fun _ => ⟨rfl, rfl⟩
  have b : ∀ q : Part, PartSide q (q.modCar i fun c => { c with lineB := soundLine }) := fun q =>
    modRecord_partSide q i _ fun _ => ⟨rfl, rfl⟩
  unfold judgeLines
  dsimp only
  split
  · split
    · split
      · exact (a p).trans (b _)
      · exact (a p).trans (countSilentB_partSide i _)
    · split
      · exact (b p).trans (countSilentA_partSide i _)
      · exact .refl p
  · split
    · exact a p
    · exact .refl p
  · split
    · exact b p
    · exact .refl p
  · exact .refl p

theorem settleSlot_partSide (sl : Slot) (p : Part) : PartSide p (settleSlot sl p) := by
  unfold settleSlot
  split
  · exact .refl p
  · split
    · exact .refl p
    · split
      · exact judgeLines_partSide _ sl p
      · exact .carSide (countMiss_carSide _ p)

theorem closeSlot_partSide (p : Part) : PartSide p (closeSlot p) := by
  unfold closeSlot
  split
  · exact .refl p
  · exact (PartSide.slot p none).trans ((unmarkQueues_partSide _).trans (settleSlot_partSide _ _))

theorem takePendingSettings_partSide (p : Part) : PartSide p (takePendingSettings p) := by
  unfold takePendingSettings
  split
  · rename_i r hr
    exact .link p _ fun ⟨a, b, c, d, e, f, g⟩ => ⟨a, b, c, d, e, f, g.2 r hr, fun _ h => by cases h⟩
  · exact .refl p

theorem openEntry_partSide (k : Fin 64) (p : Part) : PartSide p (openEntry k p) := by
  have w : PartSide p { p with master.walk := some k } := .master p _
  unfold openEntry
  dsimp only
  split
  · exact w.trans (.trans (handAll_partSide _ _ _) (.master _ _))
  · exact w.trans (.trans (handAll_partSide _ _ _) (.master _ _))

theorem beginCycle_partSide (p : Part) : PartSide p (beginCycle p) := by
  unfold beginCycle
  dsimp only
  refine .trans ?_ (.master _ _)
  exact (handAll_partSide _ _ p).trans (takePendingSettings_partSide _)

theorem startCycle_partSide (p : Part) : PartSide p (startCycle p) := by
  unfold startCycle
  dsimp only
  split
  · exact (beginCycle_partSide p).trans (openEntry_partSide _ _)
  · exact (beginCycle_partSide p).trans (.master _ _)

theorem completeHandback_partSide (p : Part) : PartSide p (completeHandback p) := .master p _

theorem continueWalk_partSide (n : Nat) (p : Part) : PartSide p (continueWalk n p) := by
  have w : PartSide p { p with master.walk := none } := .master p _
  unfold continueWalk
  dsimp only
  split
  · exact openEntry_partSide _ p
  · split
    · exact w.trans (completeHandback_partSide _)
    · split
      · exact w.trans (startCycle_partSide _)
      · exact .master p _

theorem endMasterSlot_partSide (sl : Slot) (p : Part) : PartSide p (endMasterSlot sl p) := by
  unfold endMasterSlot
  dsimp only
  refine .trans ?_ (continueWalk_partSide _ _)
  refine .trans ?_ (settleSlot_partSide sl _)
  exact .trans (.master p { p.master with slot := none }) (unmarkQueues_partSide _)

theorem checkSlot_partSide (p : Part) : PartSide p (checkSlot p) := by
  unfold checkSlot
  split
  · split
    · split
      · exact closeSlot_partSide p
      · exact endMasterSlot_partSide _ p
    · exact .refl p
  · exact .refl p

theorem takeOver_partSide (p : Part) : PartSide p (takeOver p) := by
  unfold takeOver
  refine .trans ?_ (startCycle_partSide _)
  refine .trans ?_ (.carSide (shedServiceCars_carSide _))
  exact (closeSlot_partSide p).trans (.master _ _)

theorem takeOverIfSilent_partSide (p : Part) : PartSide p (takeOverIfSilent p) := by
  unfold takeOverIfSilent
  split
  · exact takeOver_partSide p
  · exact .refl p

theorem silenceExpires_partSide (p : Part) : PartSide p (silenceExpires p) := by
  unfold silenceExpires
  dsimp only
  split
  · split
    · refine .trans ?_ (takeOverIfSilent_partSide _)
      refine .trans ?_ (raiseEvent_partSide _ _)
      exact .master p _
    · exact .master p _
  · exact .refl p

theorem periodExpires_partSide (p : Part) : PartSide p (periodExpires p) := by
  have w : PartSide p { p with master.period := .expired } := .master p _
  unfold periodExpires
  dsimp only
  split
  · split
    · exact w.trans (startCycle_partSide _)
    · exact w
  · exact .refl p

theorem replyTimerExpires_partSide (a : Port) (p : Part) : PartSide p (replyTimerExpires a p) :=
  (modLine_partSide a _ p).trans (checkSlot_partSide _)

theorem sendingLineExpires_partSide (a : Port) (p : Part) : PartSide p (sendingLineExpires a p) := by
  unfold sendingLineExpires
  split
  · exact .refl p
  · exact (modLine_partSide a _ p).trans (checkSlot_partSide _)

theorem lineReceiving_partSide (a : Port) (p : Part) : PartSide p (lineReceiving a p) := modLine_partSide a _ p

theorem frameEnds_partSide (a : Port) (p : Part) : PartSide p (frameEnds a p) :=
  (modLine_partSide a _ p).trans (checkSlot_partSide _)

theorem lineSent_partSide (a : Port) (p : Part) : PartSide p (lineSent a p) := by
  unfold lineSent
  split
  · exact modLine_partSide a _ p
  · exact .refl p

theorem transmitStarts_partSide (a : Port) (p : Part) : PartSide p (transmitStarts a p) := by
  unfold transmitStarts
  dsimp only
  split
  · exact modPort_partSide p a _ fun _ h => h
  · exact .refl p

theorem transmitEnds_partSide (a : Port) (p : Part) : PartSide p (transmitEnds a p) := by
  have i : PartSide p (p.modPort a fun x => { x with sending := false, queue := x.queue.tail }) :=
    modPort_partSide p a _ fun x h => ⟨by
      change x.queue.tail.length ≤ 4
      have := h.1
      simp; omega, h.2⟩
  unfold transmitEnds
  dsimp only
  split
  · split
    · split
      · exact i.trans (lineSent_partSide a _)
      · exact i
    · exact i
  · exact .refl p

/-! ### Management -/

theorem plain_partSide (args : List Byte) (f : Part → Part) (p : Part) (h : PartSide p (f p)) :
    PartSide p (plain args f p).2 := by
  unfold plain
  split
  · exact h
  · exact .refl p

theorem serveRead_part (args : List Byte) (p : Part) : (serveRead args p).2 = p := by
  unfold serveRead
  repeat' split
  all_goals rfl

theorem serveWriteIdentity_partSide (args : List Byte) (p : Part) : PartSide p (serveWriteIdentity args p).2 := by
  unfold serveWriteIdentity
  repeat' split
  all_goals first | exact .refl p | exact .record p _ _ rfl rfl

theorem writeEntry_partSide {α : Type} (n : Nat) (dec : List Byte → Option α) (st : Fin n → α → Part → Part)
    (args : List Byte) (p : Part) (h : ∀ i x, PartSide p (st i x p)) : PartSide p (writeEntry n dec st args p).2 := by
  unfold writeEntry
  repeat' split
  all_goals first | exact .refl p | exact h _ _

theorem distinct_iff (l : List CarIdx) : distinct l = true ↔ l.Nodup := by
  induction l with
  | nil => simp [distinct]
  | cons i l h => simp [distinct, h]

theorem readRecallOrder_nodup (old : List CarIdx) (start : Nat) (run : List Byte) (l : List CarIdx)
    (h : readRecallOrder old start run = some l) : l.Nodup := by
  unfold readRecallOrder at h
  split at h
  · dsimp only at h
    split at h
    · rename_i k
      simp only [Bool.and_eq_true, distinct_iff] at k
      cases h
      exact k.2
    · cases h
  · cases h

theorem serveWriteRecallOrder_partSide (args : List Byte) (p : Part) : PartSide p (serveWriteRecallOrder args p).2 := by
  unfold serveWriteRecallOrder
  repeat' split
  all_goals first
    | exact .refl p
    | (rename_i h; exact .shadow p _ (fun _ => ⟨rfl, rfl⟩) fun k => ⟨k.2.1, readRecallOrder_nodup _ _ _ _ h⟩)

theorem underLock_partSide {α : Type} (n : Nat) (dec : List Byte → Option α) (st : Fin n → α → Part → Part)
    (args : List Byte) (p : Part) (h : p.mgmt.locked = false → ∀ i x, PartSide p (st i x p)) :
    PartSide p (underLock n args p (writeEntry n dec st)).2 := by
  unfold underLock
  split
  · split
    · exact .refl p
    · exact .refl p
  · rename_i index fields
    split
    · exact .refl p
    · rename_i hl
      unfold writeEntry
      dsimp only
      split
      · exact .refl p
      · rename_i i hi
        have hf : p.mgmt.locked = false := by
          cases hk : p.mgmt.locked
          · rfl
          · simp [hk, hi] at hl
        split
        · exact h hf _ _
        · exact .refl p

theorem serveWritePlant_partSide (args : List Byte) (p : Part) : PartSide p (serveWritePlant args p).2 :=
  underLock_partSide 1 readPlant _ args p fun hf _ _ => .shadow p _ (fun hl => absurd hl (by simp [hf])) fun k => k.2

theorem serveWriteTrip_partSide (args : List Byte) (p : Part) : PartSide p (serveWriteTrip args p).2 :=
  underLock_partSide 4 readTrip _ args p fun hf _ _ => .shadow p _ (fun hl => absurd hl (by simp [hf])) fun k => k.2

theorem readGroup_nodup (fields : List Byte) (x : GroupRec) (h : readGroup fields = some x) : x.serviceList.Nodup := by
  unfold readGroup at h
  split at h
  · split at h
    · dsimp only at h
      split at h
      · rename_i k
        simp only [groupInRange, Bool.and_eq_true, distinct_iff] at k
        cases h
        exact k.1.2
      · cases h
    · cases h
  · cases h

/-- A service list without a car twice keeps that of the tables it is stored in (R89). -/
theorem listsDistinct_setGroup (t : Tables) (i : Fin 8) (x : GroupRec) (h : t.listsDistinct) (k : x.serviceList.Nodup) :
    Tables.listsDistinct { t with groups := t.groups.set i.val x } := by
  refine ⟨?_, h.2⟩
  intro g
  have e : (t.groups.set i.val x)[g.val] = if i.val = g.val then x else t.groups[g.val] := Vector.getElem_set ..
  change ((t.groups.set i.val x)[g.val]).serviceList.Nodup
  rw [e]
  split
  · exact k
  · exact h.1 g

theorem serveWriteGroup_partSide (args : List Byte) (p : Part) : PartSide p (serveWriteGroup args p).2 := by
  unfold serveWriteGroup writeEntry
  split
  · exact .refl p
  · split
    · exact .refl p
    · split
      · rename_i x hx
        exact .shadow p _ (fun _ => ⟨rfl, rfl⟩) fun k => listsDistinct_setGroup _ _ _ k.2 (readGroup_nodup _ _ hx)
      · exact .refl p

theorem readSettings_inRange (fields : List Byte) (l : LinkSettings) (h : readSettings fields = some l) :
    settingsInRange l = true := by
  unfold readSettings at h
  split at h
  · dsimp only at h
    split at h
    · rename_i hr; cases h; exact hr
    · cases h
  · cases h

theorem serveWriteSettings_partSide (args : List Byte) (p : Part) : PartSide p (serveWriteSettings args p).2 := by
  unfold serveWriteSettings writeEntry
  split
  · exact .refl p
  · split
    · exact .refl p
    · split
      · rename_i x hx
        exact .link p _ fun ⟨a, b, c, d, e, f, g⟩ =>
          ⟨a, b, c, d, e, f, g.1, fun r hr => by cases hr; exact readSettings_inRange _ _ hx⟩
      · exact .refl p

theorem serveWrite_partSide (args : List Byte) (p : Part) : PartSide p (serveWrite args p).2 := by
  unfold serveWrite
  split
  · exact .refl p
  · split
    · exact serveWriteIdentity_partSide _ p
    · exact writeEntry_partSide _ _ _ _ p fun _ _ => .shadow p _ (fun _ => ⟨rfl, rfl⟩) fun k => k.2
    · exact writeEntry_partSide _ _ _ _ p fun _ _ => .shadow p _ (fun _ => ⟨rfl, rfl⟩) fun k => k.2
    · exact serveWritePlant_partSide _ p
    · exact serveWriteGroup_partSide _ p
    · exact serveWriteRecallOrder_partSide _ p
    · exact serveWriteTrip_partSide _ p
    · exact writeEntry_partSide _ _ _ _ p fun _ _ => .shadow p _ (fun _ => ⟨rfl, rfl⟩) fun k => k.2
    · exact serveWriteSettings_partSide _ p
    · exact .refl p

theorem copyActive_partSide (p : Part) : PartSide p (copyActive p) :=
  .shadow p _ (fun hl => by simp [copyTables, hl]) fun k => by
    unfold copyTables
    split
    · exact k.1
    · exact k.1

theorem serveApply_partSide (args : List Byte) (p : Part) : PartSide p (serveApply args p).2 := by
  unfold serveApply
  repeat' split
  · exact .refl p
  · exact .refl p
  · exact .carSide ((executeApply_carSide p).trans (attempt_carSide _))
  · exact .mgmt p _ id

theorem serveStartService_partSide (args : List Byte) (p : Part) : PartSide p (serveStartService args p).2 := by
  unfold serveStartService
  repeat' split
  · exact .refl p
  · exact .refl p
  · exact .refl p
  · exact .carSide (executeStartService_carSide p)
  · exact .mgmt p _ id

theorem control_partSide (index : Byte) (tail : List Byte) (act : CarIdx → Part → Option (Result × Part)) (p : Part)
    (h : ∀ i r, act i p = some r → PartSide p r.2) : PartSide p (control index tail act p).2 := by
  unfold control
  split
  · exact .refl p
  · split
    · exact .refl p
    · rename_i hr
      split
      · exact h _ _ hr
      · exact .refl p

theorem enableCar_partSide (i : CarIdx) (p : Part) (r : Result × Part) (h : enableCar i p = some r) : PartSide p r.2 := by
  unfold enableCar at h
  split at h
  · cases h
  · split at h
    · cases h
    · split at h
      · cases h
      · dsimp only at h
        cases h
        refine .carSide ?_
        refine .trans ?_ (handDutyChange_carSide _ _ _)
        refine .trans (disableRecord_carSide i p) (.car _ i _ ⟨?_, ?_, rfl, rfl⟩)
        · change 0 = ((disableRecord i p).car i).m
          simp [disableRecord, disabledCar]
        · change 0 = ((disableRecord i p).car i).r
          simp [disableRecord, disabledCar]

theorem disableCar_partSide (i : CarIdx) (p : Part) (r : Result × Part) (h : disableCar i p = some r) :
    PartSide p r.2 := by
  unfold disableCar at h
  dsimp only at h
  split at h
  · cases h; exact .refl p
  · split at h
    · cases h; exact .record p i _ rfl rfl
    · cases h
      exact .carSide ((disableRecord_carSide i p).trans ((settleJoinCounter_carSide _).trans (handDutyChange_carSide _ _ _)))

theorem isolateCar_partSide (i : CarIdx) (p : Part) (r : Result × Part) (h : isolateCar i p = some r) :
    PartSide p r.2 := by
  unfold isolateCar at h
  dsimp only at h
  split at h
  · cases h
  · split at h
    · cases h; exact .record p i _ rfl rfl
    · split at h
      · cases h; exact .record p i _ rfl rfl
      · split at h
        · cases h; exact .refl p
        · cases h
          refine .carSide ?_
          refine .trans ?_ (changeDuty_carSide i _ _)
          split
          · exact leaveQueue_carSide i p
          · exact .refl p

theorem restoreCar_partSide (i : CarIdx) (p : Part) (r : Result × Part) (h : restoreCar i p = some r) :
    PartSide p r.2 := by
  unfold restoreCar at h
  dsimp only at h
  split at h
  · cases h
  · split at h
    · cases h; exact .record p i _ rfl rfl
    · split at h
      · cases h
        exact (modRecord_partSide p i (fun c => { c with stallCount := 0 }) fun _ => ⟨rfl, rfl⟩).trans
          (.carSide (changeDuty_carSide i _ _))
      · split at h
        · cases h; exact .record p i _ rfl rfl
        · cases h

theorem clearUnfitCar_partSide (i : CarIdx) (p : Part) (r : Result × Part) (h : clearUnfitCar i p = some r) :
    PartSide p r.2 := by
  unfold clearUnfitCar at h
  dsimp only at h
  split at h
  · cases h
  · cases h; exact .record p i _ rfl rfl

theorem serveControl_partSide (args : List Byte) (p : Part) : PartSide p (serveControl args p).2 := by
  unfold serveControl
  split
  · exact .refl p
  · split
    · split <;> exact .refl p
    · split
      · exact control_partSide _ _ _ p fun i r => enableCar_partSide i p r
      · exact control_partSide _ _ _ p fun i r => disableCar_partSide i p r
      · exact control_partSide _ _ _ p fun i r => isolateCar_partSide i p r
      · exact control_partSide _ _ _ p fun i r => restoreCar_partSide i p r
      · exact control_partSide _ _ _ p fun i r => clearUnfitCar_partSide i p r
      · split <;> exact .refl p

theorem clearAllCounters_bounded (p : Part) (h : p.link.bounded) : (clearAllCounters p).link.bounded := by
  obtain ⟨a, b, c, _, _, _, g⟩ := h
  exact ⟨⟨a.1, Nat.zero_le _, Nat.zero_le _⟩, ⟨b.1, Nat.zero_le _, Nat.zero_le _⟩, ⟨c.1, Nat.zero_le _, Nat.zero_le _⟩,
    Nat.zero_le _, Nat.zero_le _, Nat.zero_le _, g⟩

theorem clearAllCounters_partSide (p : Part) : PartSide p (clearAllCounters p) :=
  .link p _ (clearAllCounters_bounded p)

theorem restartedCar_idle (c : Car) : (restartedCar c).m = 0 ∧ (restartedCar c).r = 0 := by
  unfold restartedCar
  split <;> exact ⟨rfl, rfl⟩

theorem restartPart_partSide (p : Part) : PartSide p (restartPart p) := by
  unfold restartPart
  dsimp only
  refine .trans ?_ (.carSide (recomputeLimits_carSide _))
  refine .cleared p _ ?_ rfl rfl ?_ rfl rfl id
  · intro i
    change ((p.mapCars restartedCar).car i).m = 0 ∧ ((p.mapCars restartedCar).car i).r = 0
    rw [car_mapCars]
    exact restartedCar_idle _
  · intro hb
    exact (unmarkQueues_partSide (clearAllCounters (closeWindow (p.mapCars restartedCar)))).bounded
      (clearAllCounters_bounded _ hb)

theorem serveRestart_partSide (args : List Byte) (p : Part) : PartSide p (serveRestart args p).2 := by
  unfold serveRestart
  split
  · exact plain_partSide args _ p (restartPart_partSide p)
  · exact .refl p

theorem serveRequest_partSide (payload : List Byte) (p : Part) : PartSide p (serveRequest payload p).2 := by
  unfold serveRequest
  split
  · exact .refl p
  · split
    · rw [serveRead_part]; exact .refl p
    · exact serveWrite_partSide _ p
    · exact plain_partSide _ _ p (copyActive_partSide p)
    · exact serveApply_partSide _ p
    · exact serveStartService_partSide _ p
    · exact serveControl_partSide _ p
    · unfold serveClearFlags
      split
      · exact .mgmt p _ id
      · exact .refl p
    · unfold serveSetMask
      split
      · exact .mgmt p _ id
      · exact .refl p
    · exact plain_partSide _ _ p (clearAllCounters_partSide p)
    · unfold serveSummary
      split <;> exact .refl p
    · exact plain_partSide _ _ p (.mgmt p _ fun _ => rfl)
    · exact serveRestart_partSide _ p
    · exact .refl p

/-! ### Frames -/

theorem answerLine_partSide (a : Port) (p : Part) : PartSide p (answerLine a p) := by
  unfold answerLine
  split
  · split
    · exact setSlotNow_partSide p _
    · exact .refl p
  · exact .refl p

theorem abandonFrame_partSide (a : Port) (p : Part) : PartSide p (abandonFrame a p) :=
  (countCheckError_partSide a p).trans ((setReceiver_partSide a _ _).trans (frameEnds_partSide a _))

theorem discardMalformed_partSide (a : Port) (p : Part) : PartSide p (discardMalformed a p) :=
  (countMalformed_partSide p).trans (frameEnds_partSide a _)

theorem discardCheck_partSide (a : Port) (p : Part) : PartSide p (discardCheck a p) :=
  (countCheckError_partSide a p).trans (frameEnds_partSide a _)

theorem relayAnswer_partSide (a : Port) (x : Byte) (r : ReportPayload) (p : Part) : PartSide p (relayAnswer a x r p) := by
  unfold relayAnswer
  dsimp only
  refine .trans ?_ (checkSlot_partSide _)
  refine .trans ?_ (.carSide (takeReport_carSide _ _ _))
  exact (answerLine_partSide a p).trans (handFrame_partSide _ _ _)

theorem masterAnswer_partSide (a : Port) (x : Byte) (r : ReportPayload) (p : Part) :
    PartSide p (masterAnswer a x r p) := by
  unfold masterAnswer
  refine .trans ?_ (checkSlot_partSide _)
  refine .trans ?_ (.carSide (takeReport_carSide _ _ _))
  exact answerLine_partSide a p

theorem takeCarReport_partSide (a : Port) (x : Byte) (r : ReportPayload) (p : Part) :
    PartSide p (takeCarReport a x r p) := by
  unfold takeCarReport
  split
  · split
    · exact relayAnswer_partSide a x r p
    · exact masterAnswer_partSide a x r p
  · exact (answerLine_partSide a p).trans (checkSlot_partSide _)
  · exact (countStray_partSide p).trans (frameEnds_partSide a _)

theorem relayMark_partSide (n : Byte) (p : Part) : PartSide p (relayMark n p) := by
  unfold relayMark
  refine .trans ?_ (.master _ _)
  refine .trans ?_ (takePendingSettings_partSide _)
  exact (closeSlot_partSide p).trans (handAll_partSide _ _ _)

theorem storeOrder_partSide (x : Byte) (o : OrderPayload) (p : Part) : PartSide p (storeOrder x o p) := by
  unfold storeOrder
  split
  · exact modRecord_partSide p _ _ fun _ => ⟨rfl, rfl⟩
  · exact .refl p

theorem issueOrder_partSide (x : Byte) (o : OrderPayload) (p : Part) : PartSide p (issueOrder x o p) := by
  unfold issueOrder
  dsimp only
  exact (handAll_partSide _ _ p).trans (.slot _ _)

theorem relayOrder_partSide (x : Byte) (o : OrderPayload) (p : Part) : PartSide p (relayOrder x o p) :=
  (closeSlot_partSide p).trans ((storeOrder_partSide x o _).trans (issueOrder_partSide x o _))

theorem serveAndReply_partSide (payload : List Byte) (p : Part) : PartSide p (serveAndReply payload p) :=
  (serveRequest_partSide payload p).trans (handFrame_partSide _ _ _)

theorem takePlantReport_partSide (power freq : Word16) (rt : Bool) (p : Part) :
    PartSide p (takePlantReport power freq rt p) :=
  (PartSide.sup p _).trans (.carSide (takePlantReport_carSide power freq rt p))

theorem relayFrame_partSide (a : Port) (f : Frame) (p : Part) : PartSide p (relayFrame a f p) := by
  unfold relayFrame
  split
  · exact relayMark_partSide _ p
  · exact relayOrder_partSide _ _ p
  · exact takeCarReport_partSide a _ _ p
  · exact closeSlot_partSide p
  · unfold relayPlantReport
    split
    · exact takePlantReport_partSide _ _ _ p
    · exact .refl p
  · unfold relayRequest
    split
    · exact (closeSlot_partSide p).trans (serveAndReply_partSide _ _)
    · exact closeSlot_partSide p

theorem passDispatchFrame_partSide (p : Part) : PartSide p (passDispatchFrame p) := by
  unfold passDispatchFrame
  refine .trans ?_ (frameEnds_partSide _ _)
  split
  · exact countDropped_partSide p
  · exact .refl p

theorem masterPlant_partSide (x : Byte) (power freq : Word16) (fl : Byte) (p : Part) :
    PartSide p (masterPlant x power freq fl p) := by
  unfold masterPlant
  split
  · exact (answerLine_partSide _ p).trans ((takePlantReport_partSide _ _ _ _).trans (checkSlot_partSide _))
  · exact passDispatchFrame_partSide p

theorem masterMark_partSide (p : Part) : PartSide p (masterMark p) := by
  have w : PartSide p { p with master.mode := .handback } := .master p _
  unfold masterMark
  dsimp only
  split
  · split
    · exact w.trans (frameEnds_partSide _ _)
    · exact w.trans (completeHandback_partSide _)
  · exact passDispatchFrame_partSide p

theorem masterFrame_partSide (a : Port) (f : Frame) (p : Part) : PartSide p (masterFrame a f p) := by
  unfold masterFrame
  split
  · exact masterMark_partSide p
  · exact takeCarReport_partSide a _ _ p
  · exact masterPlant_partSide _ _ _ _ p
  · exact passDispatchFrame_partSide p
  · exact passDispatchFrame_partSide p
  · exact passDispatchFrame_partSide p

theorem judgeFrame_partSide (a : Port) (f : Frame) (p : Part) : PartSide p (judgeFrame a f p) := by
  unfold judgeFrame handOn
  repeat' split
  · exact abandonFrame_partSide a p
  · exact relayFrame_partSide a f p
  · exact masterFrame_partSide a f p
  · exact discardMalformed_partSide a p

theorem judgeSplit_partSide (a : Port) (k x : Byte) (pl c : List Byte) (p : Part) :
    PartSide p (judgeSplit a k x pl c p) := by
  unfold judgeSplit
  repeat' split
  · exact discardCheck_partSide a p
  · exact discardMalformed_partSide a p
  · exact judgeFrame_partSide a _ p

theorem judgeChars_partSide (a : Port) (l : List Byte) (p : Part) : PartSide p (judgeChars a l p) := by
  unfold judgeChars
  repeat' split
  · exact judgeSplit_partSide a _ _ _ _ p
  · exact abandonFrame_partSide a p
  · exact discardMalformed_partSide a p

theorem received_partSide (a : Port) (p : Part) : PartSide p (p.received a) := by
  unfold Part.received noteFirst
  split
  · exact (lineReceiving_partSide a p).trans (setReceiver_partSide a _ _)
  · exact setReceiver_partSide a _ p

theorem completeFrame_partSide (a : Port) (j : Part → Part) (h : ∀ q, PartSide q (j q)) (p : Part) :
    PartSide p (completeFrame a j p) := by
  unfold completeFrame
  split
  · exact (received_partSide a p).trans (h _)
  · exact .refl p

theorem frameArrives_partSide (a : Port) (f : Frame) (p : Part) : PartSide p (frameArrives a f p) :=
  completeFrame_partSide a _ (judgeFrame_partSide a f) p

theorem addCharacter_partSide (a : Port) (l : List Byte) (p : Part) : PartSide p (addCharacter a l p) := by
  unfold addCharacter
  repeat' split
  · exact abandonFrame_partSide a p
  · exact (setReceiver_partSide a _ p).trans (judgeSplit_partSide a _ _ _ _ _)
  · exact setReceiver_partSide a _ p

theorem characterArrives_partSide (a : Port) (c : Byte) (p : Part) : PartSide p (characterArrives a c p) := by
  unfold characterArrives
  repeat' split
  · exact (lineReceiving_partSide a p).trans (setReceiver_partSide a _ _)
  · exact addCharacter_partSide a _ p
  · exact .refl p
  · exact .refl p

theorem characterFault_partSide (a : Port) (p : Part) : PartSide p (characterFault a p) := by
  unfold characterFault
  repeat' split
  · exact setReceiver_partSide a _ p
  · exact abandonFrame_partSide a p
  · exact .refl p
  · exact .refl p

theorem lineIdle_partSide (a : Port) (p : Part) : PartSide p (lineIdle a p) := by
  unfold lineIdle
  split
  · exact setReceiver_partSide a _ p
  · exact .refl p

theorem lineStaysIdle_partSide (a : Port) (p : Part) : PartSide p (lineStaysIdle a p) := by
  unfold lineStaysIdle
  split
  · exact (setReceiver_partSide a _ p).trans (discardMalformed_partSide a _)
  · exact lineIdle_partSide a p

/-! ### Samples and time -/

theorem sampleSwitch_partSide (u g : SwitchLevel) (p : Part) : PartSide p (sampleSwitch u g p) :=
  (PartSide.sup p _).trans (.carSide (sampleSwitch_carSide u g p))

theorem sampleAlarms_partSide (a1 a2 a3 a4 : AlarmLevel) (p : Part) : PartSide p (sampleAlarms a1 a2 a3 a4 p) :=
  (PartSide.alarms p _).trans (.carSide (sampleAlarms_carSide a1 a2 a3 a4 p))

theorem switchSample_partSide (u g : SwitchLevel) (p : Part) : PartSide p (switchSample u g p) := by
  unfold switchSample
  dsimp only
  split
  · exact (sampleSwitch_partSide u g p).trans (takeOverIfSilent_partSide _)
  · exact sampleSwitch_partSide u g p

theorem driveSwitch_partSide (u g : SwitchLevel) (p : Part) : PartSide p (driveSwitch u g p) :=
  (PartSide.pins p _).trans (switchSample_partSide u g _)

theorem driveAlarms_partSide (a1 a2 a3 a4 : AlarmLevel) (p : Part) : PartSide p (driveAlarms a1 a2 a3 a4 p) :=
  (PartSide.pins p _).trans (sampleAlarms_partSide a1 a2 a3 a4 _)

theorem sampleHeldPins_partSide (p : Part) : PartSide p (sampleHeldPins p) := by
  have s : ∀ q : Part, PartSide q (if q.pins.alarmSampled then q
      else driveAlarms q.pins.a1 q.pins.a2 q.pins.a3 q.pins.a4 q) := fun q => by
    split
    · exact .refl q
    · exact driveAlarms_partSide _ _ _ _ q
  unfold sampleHeldPins
  dsimp only
  refine .trans ?_ (s _)
  split
  · exact .refl p
  · exact driveSwitch_partSide _ _ p

theorem tickTimers_partSide (p : Part) : PartSide p (tickTimers p) := by
  have c : PartSide p (p.mapCars tickCar) := .carSide (.cars p tickCar fun _ => ⟨rfl, rfl, rfl, rfl⟩)
  have a : PartSide (p.mapCars tickCar) { p.mapCars tickCar with adm := tickAdmission p.adm } :=
    .carSide (.adm _ _ rfl rfl)
  exact c.trans (a.trans ((PartSide.now _ (p.now + 1)).trans ((PartSide.pins _ _).trans
    ((PartSide.sup _ (tickSupervisor p.sup)).trans (PartSide.master _ (tickMaster p.master))))))

theorem tick_partSide (p : Part) : PartSide p (tick p) :=
  (sampleHeldPins_partSide p).trans (tickTimers_partSide _)

/-! ### Commands and steps -/

/-- Every command completes, and one other than a hard reset changes the part as `PartSide` says. The queue stays. -/
theorem exec_partSide (c : Instr) (s : State) (hc : c ≠ .hardReset) :
    ∃ q, exec c s = .next { s with part := q } ∧ PartSide s.part q := by
  cases c with
  | hardReset => exact absurd rfl hc
  | switchLineFiltered u g => exact ⟨_, rfl, driveSwitch_partSide u g _⟩
  | alarmLineFiltered a b c d => exact ⟨_, rfl, driveAlarms_partSide a b c d _⟩
  | warmUpExpiry => exact ⟨_, rfl, .carSide (warmUpExpires_carSide _)⟩
  | recallLimitExpiry => exact ⟨_, rfl, .carSide (recallLimitExpires_carSide _)⟩
  | plantReportStale => exact ⟨_, rfl, .carSide (reportStale_carSide _)⟩
  | startTimerExpiry i => exact ⟨_, rfl, .carSide (startTimerExpires_carSide i _)⟩
  | tripTimerExpiry i => exact ⟨_, rfl, .carSide (tripTimerExpires_carSide i _)⟩
  | settleExpiry => exact ⟨_, rfl, .carSide (settleExpires_carSide _)⟩
  | blindExpiry => exact ⟨_, rfl, .carSide (settleExpires_carSide _)⟩
  | recoveryExpiry => exact ⟨_, rfl, .carSide (recoveryExpires_carSide _)⟩
  | holdOffExpiry => exact ⟨_, rfl, .carSide (holdOffExpires_carSide _)⟩
  | silenceExpiry => exact ⟨_, rfl, silenceExpires_partSide _⟩
  | cyclePeriodExpiry => exact ⟨_, rfl, periodExpires_partSide _⟩
  | replyTimerExpiry a => exact ⟨_, rfl, replyTimerExpires_partSide a _⟩
  | sendingLineTimeout a => exact ⟨_, rfl, sendingLineExpires_partSide a _⟩
  | frameFirstCharacter a x => exact ⟨_, rfl, characterArrives_partSide a x _⟩
  | frameAbandoned a => exact ⟨_, rfl, characterFault_partSide a _⟩
  | frameTruncated a => exact ⟨_, rfl, lineStaysIdle_partSide a _⟩
  | receiverIdleResync a => exact ⟨_, rfl, lineIdle_partSide a _⟩
  | frameDiscarded a l => exact ⟨_, rfl, completeFrame_partSide a _ (judgeChars_partSide a l) _⟩
  | transmitStart a => exact ⟨_, rfl, transmitStarts_partSide a _⟩
  | transmitComplete a => exact ⟨_, rfl, transmitEnds_partSide a _⟩
  | characterFaultBetweenFrames a => exact ⟨_, rfl, characterFault_partSide a _⟩
  | _ => exact ⟨_, rfl, frameArrives_partSide _ _ _⟩

theorem nextDue_part (s : State) (c : Instr) (t : State) (h : nextDue s = some (c, t)) :
    t.part = s.part ∧ t.pending = s.pending := by
  unfold nextDue at h
  split at h
  · cases h
  · cases h; exact ⟨rfl, rfl⟩
  · cases h; exact ⟨rfl, rfl⟩

/-- No event that comes due is a hard reset. -/
theorem dueCommands_not_hardReset (p : Part) : Instr.hardReset ∉ dueCommands p := by
  have w : ∀ (t : Timer) (c : Instr), c ≠ .hardReset → Instr.hardReset ∉ whenDue t c := fun t c h hm => by
    unfold whenDue at hm
    split at hm
    · exact h (List.mem_singleton.mp hm).symm
    · cases hm
  have l : ∀ (sl : Slot) (a : Port), Instr.hardReset ∉ dueLine sl a := fun sl a hm => by
    unfold dueLine at hm
    split at hm
    · split at hm
      · cases List.mem_singleton.mp hm
      · cases hm
    · cases hm
  have sc : settleCommand p ≠ .hardReset := by
    unfold settleCommand
    repeat' split
    all_goals simp
  unfold dueCommands dueSupervisor dueAdmission dueMaster
  simp only [List.mem_append, List.mem_flatMap, dueCar, not_or, not_exists, not_and]
  refine ⟨⟨⟨⟨⟨w _ _ (by simp), w _ _ (by simp)⟩, ?_⟩, fun i _ => ⟨w _ _ (by simp), w _ _ (by simp)⟩⟩,
    ⟨⟨w _ _ sc, w _ _ (by simp)⟩, w _ _ (by simp)⟩⟩, ⟨⟨w _ _ (by simp), w _ _ (by simp)⟩, ?_⟩⟩
  · split <;> simp
  · split
    · split
      · simp only [List.mem_append, not_or]
        exact ⟨⟨l _ _, l _ _⟩, l _ _⟩
      · simp
    · simp

theorem nextDue_not_hardReset (s : State) (c : Instr) (t : State) (h : nextDue s = some (c, t)) : c ≠ .hardReset := by
  have n := dueCommands_not_hardReset s.part
  unfold nextDue at h
  split at h
  · cases h
  · rename_i d hd
    cases h
    intro e
    rw [hd] at n
    exact n (by rw [e]; exact List.mem_singleton.mpr rfl)
  · rename_i d e rest hd
    cases h
    intro he
    rw [hd] at n
    apply n
    rw [← he]
    rw [List.getD_eq_getElem?_getD]
    cases hg : (d :: e :: rest)[Config.freeChoice s.freeCount % (rest.length + 2)]? with
    | none => simp
    | some y => exact List.mem_of_getElem? hg

/-- Every step answers a next state; it is a hard reset taken from the queue, or changes the part as `PartSide` says. -/
theorem step_partSide (s : State) :
    ∃ t, step s = .next t ∧ (s.pending.head? = some .hardReset ∧ t.part = resetPart s.part ∨ PartSide s.part t.part) := by
  unfold step
  split
  · rename_i c rest hp
    by_cases hc : c = .hardReset
    · subst hc
      exact ⟨_, rfl, .inl ⟨by rw [hp]; rfl, rfl⟩⟩
    · obtain ⟨q, hq, hs⟩ := exec_partSide c { s with pending := rest } hc
      exact ⟨_, hq, .inr hs⟩
  · unfold idleStep
    split
    · rename_i c t h
      obtain ⟨q, hq, hs⟩ := exec_partSide c t (nextDue_not_hardReset s c t h)
      refine ⟨_, hq, .inr ?_⟩
      rw [(nextDue_part s c t h).1] at hs
      exact hs
    · exact ⟨_, rfl, .inr (tick_partSide s.part)⟩

end Sys2Proof.Machine
end

