-- ==== Sys2Proof/Laws/Effects.lean ====
section
/-! SUPPORT. What the bulk operations over the car table do, each said once: shedding (R111, R112, R114), changes of duty
(R25, R91, R98), and the attempt that finds nothing to do. -/

namespace Sys2Proof.Machine

/-! ### Shedding -/

/-- Only SHED marks were set, on cars that hold a run, each with the SHED flag. -/
structure ShedOnly (p q : Part) : Prop where
  same : q = { p with cars := q.cars, mgmt := { p.mgmt with flags := q.mgmt.flags } }
  car : ∀ i, q.car i = p.car i
    ∨ ((p.car i).holdsRun = true ∧ q.car i = { p.car i with shed := true } ∧ q.flag .shed = true)
  kept : p.flag .shed = true → q.flag .shed = true
  other : ∀ e, e ≠ .shed → q.flag e = p.flag e

theorem ShedOnly.refl (p : Part) : ShedOnly p p := ⟨rfl, fun _ => .inl rfl, id, fun _ _ => rfl⟩

theorem ShedOnly.trans {p q r : Part} (h : ShedOnly p q) (k : ShedOnly q r) : ShedOnly p r := by
  refine ⟨?_, ?_, fun x => k.kept (h.kept x), fun e he => (k.other e he).trans (h.other e he)⟩
  · have e := k.same
    rw [h.same] at e
    exact e
  · intro i
    rcases h.car i with a | ⟨a, b, c⟩
    · rcases k.car i with d | ⟨d, e, f⟩
      · exact .inl (d.trans a)
      · exact .inr ⟨a ▸ d, a ▸ e, f⟩
    · rcases k.car i with d | ⟨d, e, f⟩
      · exact .inr ⟨a, d.trans b, k.kept c⟩
      · refine .inr ⟨a, ?_, f⟩
        rw [e, b]

theorem shedCar_shedOnly (i : CarIdx) (p : Part) : ShedOnly p (shedCar i p) := by
  unfold shedCar
  split
  · rename_i h
    simp only [Bool.and_eq_true, Bool.not_eq_true'] at h
    refine ⟨rfl, ?_, ?_, ?_⟩
    · intro j
      rw [raiseEvent_car, car_modCar]
      by_cases hij : i = j
      · subst hij
        exact .inr ⟨h.1, by simp, by simp [flag_raiseEvent]⟩
      · exact .inl (by simp [hij])
    · intro _; simp [flag_raiseEvent]
    · intro e he
      rw [flag_raiseEvent]
      simp [he.symm]; rfl
  · exact .refl p

theorem foldl_shedOnly {α : Type} (f : Part → α → Part) (h : ∀ p a, ShedOnly p (f p a)) :
    ∀ (l : List α) (p : Part), ShedOnly p (l.foldl f p)
  | [], p => .refl p
  | a :: l, p => (h p a).trans (foldl_shedOnly f h l (f p a))

theorem shedServiceCars_shedOnly (p : Part) : ShedOnly p (shedServiceCars p) := by
  apply foldl_shedOnly
  intro p i
  split
  · exact shedCar_shedOnly i p
  · exact .refl p

theorem shedSweep_shedOnly (p : Part) : ShedOnly p (shedSweep p) := by
  apply foldl_shedOnly
  intro p i
  split
  · exact shedCar_shedOnly i p
  · exact .refl p

theorem shedWhileAbove_shedOnly (limit : Nat) :
    ∀ (l : List CarIdx) (n : Nat) (p : Part), ShedOnly p (shedWhileAbove limit l n p)
  | [], _, p => .refl p
  | i :: l, n, p => by
    unfold shedWhileAbove
    split
    · exact (shedCar_shedOnly i p).trans (shedWhileAbove_shedOnly limit l _ _)
    · exact .refl p

theorem derateShed_shedOnly (limit : Nat) (p : Part) : ShedOnly p (derateShed limit p) :=
  shedWhileAbove_shedOnly limit _ _ p

/-- Recomputing the limits sheds cars, and moves the standing value to Cap_eff; its inputs are unchanged (R59). -/
theorem recomputeLimits_shape (p : Part) :
    ∃ q, ShedOnly p q ∧ recomputeLimits p = { q with standing := p.capEff } := by
  unfold recomputeLimits
  dsimp only
  split
  · exact ⟨_, derateShed_shedOnly _ _, rfl⟩
  · exact ⟨p, .refl p, rfl⟩

theorem ShedOnly.capEff {p q : Part} (h : ShedOnly p q) : q.capEff = p.capEff := by rw [h.same]; rfl

/-! ### Changes of duty -/

/-- Only duties and pending duties were changed. -/
structure DutyOnly (p q : Part) : Prop where
  same : q = { p with cars := q.cars }
  car : ∀ i, q.car i = { p.car i with duty := (q.car i).duty, pendingRecall := (q.car i).pendingRecall }

theorem DutyOnly.refl (p : Part) : DutyOnly p p := ⟨rfl, fun _ => rfl⟩

theorem DutyOnly.trans {p q r : Part} (h : DutyOnly p q) (k : DutyOnly q r) : DutyOnly p r := by
  refine ⟨?_, ?_⟩
  · have e := k.same
    rw [h.same] at e
    exact e
  · intro i
    rw [k.car i, h.car i]

theorem setDuty_dutyOnly (i : CarIdx) (d : Duty) (p : Part) : DutyOnly p (setDuty i d p) := by
  refine ⟨rfl, ?_⟩
  intro j
  unfold setDuty
  rw [car_modCar]
  by_cases hij : i = j
  · subst hij; simp
  · simp [hij]

theorem demote_dutyOnly (i : CarIdx) (p : Part) : DutyOnly p (demote i p) := by
  unfold demote
  split
  · refine ⟨rfl, ?_⟩
    intro j
    rw [car_modCar]
    by_cases hij : i = j
    · subst hij; simp
    · simp [hij]
  · exact setDuty_dutyOnly i _ p

theorem foldl_dutyOnly {α : Type} (f : Part → α → Part) (h : ∀ p a, DutyOnly p (f p a)) :
    ∀ (l : List α) (p : Part), DutyOnly p (l.foldl f p)
  | [], p => .refl p
  | a :: l, p => (h p a).trans (foldl_dutyOnly f h l (f p a))

theorem demoteUnlisted_dutyOnly (g : GroupIdx) (p : Part) : DutyOnly p (demoteUnlisted g p) := by
  apply foldl_dutyOnly
  intro p i
  split
  · exact demote_dutyOnly i p
  · exact .refl p

theorem demoteExcess_dutyOnly (g : GroupIdx) (p : Part) : DutyOnly p (demoteExcess g p) := by
  unfold demoteExcess
  apply foldl_dutyOnly
  intro p i
  split
  · exact demote_dutyOnly i p
  · exact .refl p

theorem promoteCandidates_dutyOnly (g : GroupIdx) (p : Part) : DutyOnly p (promoteCandidates g p) := by
  unfold promoteCandidates
  apply foldl_dutyOnly
  intro p i
  split
  · exact setDuty_dutyOnly i _ p
  · exact .refl p

/-- A service selection changes duties alone (R98, R99). -/
theorem serviceSelection_dutyOnly (p : Part) : DutyOnly p (serviceSelection p) := by
  unfold serviceSelection
  apply foldl_dutyOnly
  intro p g
  exact (demoteUnlisted_dutyOnly g p).trans ((demoteExcess_dutyOnly g _).trans (promoteCandidates_dutyOnly g _))

theorem recallAssignment_dutyOnly (p : Part) : DutyOnly p (recallAssignment p) := by
  apply foldl_dutyOnly
  intro p i
  split
  · exact setDuty_dutyOnly i _ p
  · exact .refl p

/-- A fold that changes one record at a time, each by its own record alone, changes every record once. -/
theorem foldl_ownCar (f : Part → CarIdx → Part) (g : Part → CarIdx → Car)
    (h : ∀ p i j, (f p i).car j = if i = j then g p i else p.car j)
    (hg : ∀ p q i, p.active = q.active → p.car i = q.car i → g p i = g q i) (ha : ∀ p i, (f p i).active = p.active) :
    ∀ (l : List CarIdx) (p : Part), l.Nodup → ∀ j, (l.foldl f p).car j = if j ∈ l then g p j else p.car j
  | [], _, _, _ => by simp
  | i :: l, p, hn, j => by
    have hn' := List.nodup_cons.mp hn
    rw [List.foldl_cons, foldl_ownCar f g h hg ha l (f p i) hn'.2 j, h]
    by_cases hij : i = j
    · subst hij
      simp [hn'.1]
    · have hji : j ≠ i := fun e => hij e.symm
      simp only [List.mem_cons, hji, false_or, if_neg hij]
      split
      · exact hg _ _ _ (ha p i) (by rw [h]; simp [hij])
      · rfl

theorem nodup_allCars : allCars.Nodup := List.nodup_finRange 48

/-- The record of a car after the recall assignment (R91). -/
theorem car_recallAssignment (p : Part) (j : CarIdx) :
    (recallAssignment p).car j =
      if (p.car j).duty = .stopped ∨ (p.car j).duty = .parked then
        { p.car j with duty := assignedDuty (p.recallFloor j) (p.car j), pendingRecall := false }
      else p.car j := by
  unfold recallAssignment
  rw [foldl_ownCar _ (fun p i =>
    if (p.car i).duty = .stopped ∨ (p.car i).duty = .parked then
      { p.car i with duty := assignedDuty (p.recallFloor i) (p.car i), pendingRecall := false } else p.car i)]
  · simp
  · intro p i j
    dsimp only
    split
    · rw [setDuty, car_modCar]
    · by_cases hij : i = j
      · subst hij; simp
      · simp [hij]
  · intro p q i h1 h2
    simp only [Part.recallFloor, Part.config, Part.groupRec, Part.group, h1, h2]
  · intro p i
    split <;> rfl
  · exact nodup_allCars

/-! ### Actions in effect -/

/-- Alarm statuses, coverage, the derate total and the standing value were derived afresh, and SHED marks set. -/
structure ActionsOnly (p q : Part) : Prop where
  same : q = { p with cars := q.cars, standing := q.standing, alarms := q.alarms
                      mgmt := { p.mgmt with flags := q.mgmt.flags } }
  filters : q.alarms.filters = p.alarms.filters
  car : ∀ i, q.car i = p.car i
    ∨ ((p.car i).holdsRun = true ∧ q.car i = { p.car i with shed := true } ∧ q.flag .shed = true)
  kept : p.flag .shed = true → q.flag .shed = true
  other : ∀ e, e ≠ .shed → q.flag e = p.flag e

theorem ShedOnly.actions {p q : Part} (h : ShedOnly p q) : ActionsOnly p q :=
  ⟨by have e := h.same
      have a : q.alarms = p.alarms := by rw [e]
      have b : q.standing = p.standing := by rw [e]
      rw [a, b]; exact e,
    by rw [h.same], h.car, h.kept, h.other⟩

theorem ActionsOnly.trans {p q r : Part} (h : ActionsOnly p q) (k : ActionsOnly q r) : ActionsOnly p r := by
  refine ⟨?_, k.filters.trans h.filters, ?_, fun x => k.kept (h.kept x), fun e he => (k.other e he).trans (h.other e he)⟩
  · have e := k.same
    rw [h.same] at e
    exact e
  · intro i
    rcases h.car i with a | ⟨a, b, c⟩
    · rcases k.car i with d | ⟨d, e, f⟩
      · exact .inl (d.trans a)
      · exact .inr ⟨a ▸ d, a ▸ e, f⟩
    · rcases k.car i with d | ⟨d, e, f⟩
      · exact .inr ⟨a, d.trans b, k.kept c⟩
      · refine .inr ⟨a, ?_, f⟩
        rw [e, b]

theorem recomputeLimits_actions (p : Part) : ActionsOnly p (recomputeLimits p) := by
  obtain ⟨q, k, e⟩ := recomputeLimits_shape p
  rw [e]
  exact k.actions.trans ⟨rfl, rfl, fun _ => .inl rfl, id, fun _ _ => rfl⟩

theorem deriveActions_actions (p : Part) : ActionsOnly p (deriveActions p) := by
  have a : ActionsOnly p (deriveCoverage (deriveStatus p)) := ⟨rfl, rfl, fun _ => .inl rfl, id, fun _ _ => rfl⟩
  have b := (shedSweep_shedOnly (deriveCoverage (deriveStatus p))).actions
  exact (a.trans b).trans ⟨rfl, rfl, fun _ => .inl rfl, id, fun _ _ => rfl⟩

theorem rederiveActions_actions (p : Part) : ActionsOnly p (rederiveActions p) := by
  unfold rederiveActions
  dsimp only
  split
  · exact deriveActions_actions p
  · exact (deriveActions_actions p).trans (recomputeLimits_actions _)

/-- What a shed leaves of a record: everything but the SHED mark. -/
theorem ActionsOnly.record {p q : Part} (h : ActionsOnly p q) (i : CarIdx) :
    q.car i = { p.car i with shed := (q.car i).shed } := by
  rcases h.car i with a | ⟨_, a, _⟩
  · rw [a]
  · rw [a]

/-! ### Releases -/

/-- Only the car table and the admission unit were changed. -/
def CarsAdm (p q : Part) : Prop := q = { p with cars := q.cars, adm := q.adm }

theorem CarsAdm.refl (p : Part) : CarsAdm p p := rfl

theorem CarsAdm.trans {p q r : Part} (h : CarsAdm p q) (k : CarsAdm q r) : CarsAdm p r := by
  unfold CarsAdm at *
  rw [h] at k
  exact k

theorem setCommit_carsAdm (i : CarIdx) (m r : Nat) (p : Part) : CarsAdm p (setCommit i m r p) := rfl

theorem modCar_carsAdm (p : Part) (i : CarIdx) (f : Car → Car) : CarsAdm p (p.modCar i f) := rfl

theorem settleJoinCounter_carsAdm (p : Part) : CarsAdm p (settleJoinCounter p) := by
  unfold settleJoinCounter
  split <;> rfl

theorem leaveQueue_carsAdm (i : CarIdx) (p : Part) : CarsAdm p (leaveQueue i p) :=
  .trans (modCar_carsAdm p i _) (settleJoinCounter_carsAdm _)

theorem disableRecord_carsAdm (i : CarIdx) (p : Part) : CarsAdm p (disableRecord i p) := rfl

theorem settleDuty_carsAdm (b : Car) (i : CarIdx) (p : Part) : CarsAdm p (settleDuty b i p) := by
  unfold settleDuty
  dsimp only
  repeat' split
  all_goals rfl

theorem endWindowOf_carsAdm (i : CarIdx) (p : Part) : CarsAdm p (endWindowOf i p) := by
  unfold endWindowOf
  repeat' split
  all_goals rfl

theorem releaseRun_carsAdm (i : CarIdx) (p : Part) : CarsAdm p (releaseRun i p) := by
  unfold releaseRun
  exact .trans (setCommit_carsAdm i 0 0 p) (.trans (modCar_carsAdm _ i _) (endWindowOf_carsAdm i _))

theorem bulkReleaseCar_carsAdm (i : CarIdx) (p : Part) : CarsAdm p (bulkReleaseCar i p) := by
  unfold bulkReleaseCar
  split
  · exact .trans (releaseRun_carsAdm i p) (settleDuty_carsAdm _ i _)
  · exact .refl p

theorem foldl_carsAdm {α : Type} (f : Part → α → Part) (h : ∀ p a, CarsAdm p (f p a)) :
    ∀ (l : List α) (p : Part), CarsAdm p (l.foldl f p)
  | [], p => .refl p
  | a :: l, p => .trans (h p a) (foldl_carsAdm f h l (f p a))

/-- A bulk release changes the cars and the admission unit alone (R10). -/
theorem bulkRelease_carsAdm (p : Part) : CarsAdm p (bulkRelease p) := by
  have a : CarsAdm p (flushQueue p) := rfl
  have b := foldl_carsAdm (fun p i => bulkReleaseCar i p) (fun p i => bulkReleaseCar_carsAdm i p) allCars (flushQueue p)
  unfold bulkRelease
  dsimp only
  revert b
  generalize List.foldl _ (flushQueue p) allCars = x
  intro b
  exact (a.trans b).trans (show CarsAdm x _ from rfl)

/-- The duty a settlement gives a record, and the record disabled where it gives none (R39). -/
def settledCar (before c : Car) : Car :=
  match settledDuty before (if c.duty = .lost then c.prior.getD .stopped else c.duty) with
  | none => disabledCar { c with m := 0, r := 0 }
  | some d =>
    if c.duty = .lost then { c with prior := c.prior.map fun _ => d, pendingRecall := false }
    else { c with duty := d, pendingRecall := false }

theorem car_setCommit (p : Part) (i j : CarIdx) (m r : Nat) :
    (setCommit i m r p).car j = if i = j then { p.car i with m := m, r := r } else p.car j := by
  change (p.setCar i _).car j = _
  rw [car_setCar]

theorem car_settleDuty (b : Car) (i j : CarIdx) (p : Part) :
    (settleDuty b i p).car j = if i = j then settledCar b (p.car i) else p.car j := by
  unfold settleDuty settledCar
  dsimp only
  generalize settledDuty b (if (p.car i).duty = .lost then (p.car i).prior.getD .stopped else (p.car i).duty) = x
  cases x with
  | none =>
    dsimp only
    rw [disableRecord, car_modCar, car_setCommit, car_setCommit]
    by_cases hij : i = j
    · simp only [if_pos hij, if_true]
    · simp only [if_neg hij]
  | some d =>
    dsimp only
    split
    · rw [car_modCar]
    · rw [setDuty, car_modCar]

theorem car_endWindowOf (i j : CarIdx) (p : Part) : (endWindowOf i p).car j = p.car j := by
  unfold endWindowOf
  repeat' split
  all_goals rfl

theorem car_releaseRun (i j : CarIdx) (p : Part) :
    (releaseRun i p).car j = if i = j then releasedCar { p.car i with m := 0, r := 0 } else p.car j := by
  unfold releaseRun
  rw [car_endWindowOf, car_modCar, car_setCommit, car_setCommit]
  by_cases hij : i = j <;> simp [hij]

/-- A record after its part of a bulk release (R10). -/
def bulkReleased (c : Car) : Car :=
  if c.holdsRun then settledCar c (releasedCar { c with m := 0, r := 0 }) else c

theorem car_bulkReleaseCar (i j : CarIdx) (p : Part) :
    (bulkReleaseCar i p).car j = if i = j then bulkReleased (p.car i) else p.car j := by
  unfold bulkReleaseCar bulkReleased
  split
  · rw [car_settleDuty, car_releaseRun, car_releaseRun]
    by_cases hij : i = j <;> simp [hij]
  · by_cases hij : i = j <;> simp [hij]

/-- A queued record that is flushed (R67). -/
def flushedCar (c : Car) : Car :=
  if c.run = .queued then { c with run := .idle, priority := none, joinSeq := none } else c

/-- The record of a car after the bulk release (R10). -/
theorem car_bulkRelease (p : Part) (j : CarIdx) :
    (bulkRelease p).car j = { bulkReleased (flushedCar (p.car j)) with m := 0, r := 0 } := by
  have e := foldl_ownCar (fun p i => bulkReleaseCar i p) (fun p i => bulkReleased (p.car i))
    (fun p i j => car_bulkReleaseCar i j p) (fun p q i _ h => by rw [h])
    (fun p i => by have k := bulkReleaseCar_carsAdm i p; unfold CarsAdm at k; rw [k]) allCars (flushQueue p)
    nodup_allCars j
  rw [if_pos (mem_allCars j)] at e
  unfold bulkRelease
  dsimp only
  revert e
  generalize List.foldl _ (flushQueue p) allCars = x
  intro e
  have f : (flushQueue p).car j = flushedCar (p.car j) := by
    change (p.mapCars _).car j = _
    rw [car_mapCars]; rfl
  change (x.mapCars _).car j = _
  rw [car_mapCars, e, f]

theorem settledCar_run (b c : Car) (h : c.run = .idle) : (settledCar b c).run = .idle := by
  unfold settledCar
  repeat' split
  all_goals first | exact h | rfl

/-- After the bulk release no run is held and no car is queued (R10). -/
theorem bulkReleased_idle (c : Car) : (bulkReleased (flushedCar c)).run = .idle := by
  unfold bulkReleased
  split
  · exact settledCar_run _ _ rfl
  · rename_i h
    revert h
    unfold flushedCar Car.holdsRun
    cases hr : c.run <;> simp [hr]

theorem bulkReleaseCar_joinCounter (i : CarIdx) (p : Part) : (bulkReleaseCar i p).adm.joinCounter = p.adm.joinCounter := by
  unfold bulkReleaseCar releaseRun settleDuty endWindowOf
  dsimp only
  repeat' split
  all_goals rfl

theorem foldl_bulkRelease_joinCounter : ∀ (l : List CarIdx) (p : Part),
    (l.foldl (fun p i => bulkReleaseCar i p) p).adm.joinCounter = p.adm.joinCounter
  | [], _ => rfl
  | i :: l, p => (foldl_bulkRelease_joinCounter l _).trans (bulkReleaseCar_joinCounter i p)

/-- The admission unit after a bulk release (R10). -/
theorem bulkRelease_adm (p : Part) :
    (bulkRelease p).adm.sumM = 0 ∧ (bulkRelease p).adm.sumR = 0 ∧ (bulkRelease p).adm.joinCounter = 0
      ∧ (bulkRelease p).adm.window = none ∧ (bulkRelease p).adm.settle = .stopped
      ∧ (bulkRelease p).adm.recovery = .stopped ∧ (bulkRelease p).adm.holdOff = .stopped := by
  have e := foldl_bulkRelease_joinCounter allCars (flushQueue p)
  unfold bulkRelease
  dsimp only
  revert e
  generalize List.foldl _ (flushQueue p) allCars = x
  intro e
  exact ⟨rfl, rfl, e, rfl, rfl, rfl, rfl⟩

/-! ### Bulk changes of duty, field by field -/

@[simp] theorem stoppingEffect_now (p : Part) : (stoppingEffect p).now = p.now := rfl
@[simp] theorem stoppingEffect_sup (p : Part) : (stoppingEffect p).sup = p.sup := rfl
@[simp] theorem stoppingEffect_adm (p : Part) : (stoppingEffect p).adm = p.adm := rfl
@[simp] theorem stoppingEffect_alarms (p : Part) : (stoppingEffect p).alarms = p.alarms := rfl
@[simp] theorem stoppingEffect_link (p : Part) : (stoppingEffect p).link = p.link := rfl
@[simp] theorem stoppingEffect_slot (p : Part) : (stoppingEffect p).slot = p.slot := rfl
@[simp] theorem stoppingEffect_master (p : Part) : (stoppingEffect p).master = p.master := rfl
@[simp] theorem stoppingEffect_mgmt (p : Part) : (stoppingEffect p).mgmt = p.mgmt := rfl
@[simp] theorem stoppingEffect_active (p : Part) : (stoppingEffect p).active = p.active := rfl
@[simp] theorem stoppingEffect_shadow (p : Part) : (stoppingEffect p).shadow = p.shadow := rfl

@[simp] theorem restoringEffect_now (p : Part) : (restoringEffect p).now = p.now := rfl
@[simp] theorem restoringEffect_sup (p : Part) : (restoringEffect p).sup = p.sup := rfl
@[simp] theorem restoringEffect_adm (p : Part) : (restoringEffect p).adm = p.adm := rfl
@[simp] theorem restoringEffect_alarms (p : Part) : (restoringEffect p).alarms = p.alarms := rfl
@[simp] theorem restoringEffect_link (p : Part) : (restoringEffect p).link = p.link := rfl
@[simp] theorem restoringEffect_slot (p : Part) : (restoringEffect p).slot = p.slot := rfl
@[simp] theorem restoringEffect_master (p : Part) : (restoringEffect p).master = p.master := rfl
@[simp] theorem restoringEffect_mgmt (p : Part) : (restoringEffect p).mgmt = p.mgmt := rfl
@[simp] theorem restoringEffect_active (p : Part) : (restoringEffect p).active = p.active := rfl
@[simp] theorem restoringEffect_shadow (p : Part) : (restoringEffect p).shadow = p.shadow := rfl

@[simp] theorem breakerEffect_now (p : Part) : (breakerEffect p).now = p.now := rfl
@[simp] theorem breakerEffect_sup (p : Part) : (breakerEffect p).sup = p.sup := rfl
@[simp] theorem breakerEffect_adm (p : Part) : (breakerEffect p).adm = p.adm := rfl
@[simp] theorem breakerEffect_alarms (p : Part) : (breakerEffect p).alarms = p.alarms := rfl
@[simp] theorem breakerEffect_link (p : Part) : (breakerEffect p).link = p.link := rfl
@[simp] theorem breakerEffect_slot (p : Part) : (breakerEffect p).slot = p.slot := rfl
@[simp] theorem breakerEffect_master (p : Part) : (breakerEffect p).master = p.master := rfl
@[simp] theorem breakerEffect_mgmt (p : Part) : (breakerEffect p).mgmt = p.mgmt := rfl
@[simp] theorem breakerEffect_active (p : Part) : (breakerEffect p).active = p.active := rfl
@[simp] theorem breakerEffect_shadow (p : Part) : (breakerEffect p).shadow = p.shadow := rfl

theorem bulkRelease_sup (p : Part) : (bulkRelease p).sup = p.sup := by rw [bulkRelease_carsAdm p]
theorem bulkRelease_mgmt (p : Part) : (bulkRelease p).mgmt = p.mgmt := by rw [bulkRelease_carsAdm p]
theorem rederiveActions_sup (p : Part) : (rederiveActions p).sup = p.sup := by rw [(rederiveActions_actions p).same]
theorem rederiveActions_adm (p : Part) : (rederiveActions p).adm = p.adm := by rw [(rederiveActions_actions p).same]
theorem rederiveActions_deferred (p : Part) : (rederiveActions p).mgmt.deferred = p.mgmt.deferred := by
  rw [(rederiveActions_actions p).same]
theorem rederiveActions_flag (p : Part) (e : Event) (h : e ≠ .shed) : (rederiveActions p).flag e = p.flag e :=
  (rederiveActions_actions p).other e h

/-! ### Retransfer and the end of recall -/

theorem flag_moveState (n : TransferState) (c : Cause) (p : Part) (e : Event) :
    (moveState n c p).flag e = (p.flag e || decide (.transfer = e)) := by
  unfold moveState
  rw [flag_raiseEvent]
  rfl

@[simp] theorem flag_stopRecallLimit (p : Part) (e : Event) : (stopRecallLimit p).flag e = p.flag e := rfl

theorem retransferHeld_congr {p q : Part} (h : q.sup.report = p.sup.report) : q.retransferHeld = p.retransferHeld := by
  unfold Part.retransferHeld
  rw [h]

theorem retransferCheck_none (p : Part) (h : p.retransferHeld = false) : retransferCheck p = p := by
  unfold retransferCheck
  rw [h]
  rfl

/-- With no retransfer pending held, the end of recall is the move and the service selection (R96, R12). -/
theorem endRecall_noRetransfer (p : Part) (h : p.retransferHeld = false) :
    endRecall p = serviceSelection (stopRecallLimit (moveState .service .recallDone (raiseEvent .recallDone p))) := by
  unfold endRecall
  rw [retransferCheck_none]
  rw [← h]
  apply retransferHeld_congr
  rw [(serviceSelection_dutyOnly _).same]
  rfl

/-! ### Nothing waits -/

theorem sortCars_nil (before : CarIdx → CarIdx → Bool) : sortCars before [] = [] := rfl

/-- With no car QUEUED an attempt has no effect (R69). -/
theorem attempt_noQueue (p : Part) (h : p.queuedCars = []) : attempt p = p := by
  have e : p.queue = [] := by unfold Part.queue; rw [h]; rfl
  unfold attempt
  rw [e]
  split
  · split
    · split <;> rfl
    · rfl
  · rfl

/-- With nothing waiting an opening of the gap has no effect (R68). -/
theorem judgeGap_nothingWaits (p : Part) (h : p.nothingWaits) : judgeGap p = p := by
  unfold judgeGap gapOpened executeDeferred
  rw [h.2]
  dsimp only
  rw [attempt_noQueue p h.1, ite_self]

theorem executeDeferred_none (p : Part) (h : p.mgmt.deferred = none) : executeDeferred p = p := by
  unfold executeDeferred; rw [h]

/-- The queued cars are named by the runs alone. -/
theorem queuedCars_congr {p q : Part} (h : ∀ i, (q.car i).run = (p.car i).run) : q.queuedCars = p.queuedCars := by
  unfold Part.queuedCars
  congr 1
  funext i
  rw [h i]

theorem nothingWaits_congr {p q : Part} (h : ∀ i, (q.car i).run = (p.car i).run) (k : q.mgmt.deferred = p.mgmt.deferred)
    (w : p.nothingWaits) : q.nothingWaits :=
  ⟨(queuedCars_congr h).trans w.1, k.trans w.2⟩

/-! ### Joining -/

/-- A join that needs no new numbering of the queue (R64). -/
theorem join_eq (p : Part) (i : CarIdx) (h : p.adm.joinCounter < 65535) :
    join i p = { p.setCar i { p.car i with
        run := .queued
        priority := some (joinClass (p.car i))
        joinSeq := some p.adm.joinCounter
        skipCount := 0 } with
      adm := { p.adm with joinCounter := p.adm.joinCounter + 1 } } := by
  unfold join
  rw [if_neg (by omega)]
  rfl

/-- The conditions of joining for a record that has been heard (R63). -/
theorem mayJoin_heard (p : Part) (i : CarIdx) (l : Live) (h : (p.car i).live = some l) :
    p.mayJoin i = (l.request != .none && l.motion == .stopped
      && ((p.car i).duty == .recall || (p.car i).duty == .service) && (p.car i).run == .idle && !(p.car i).blocked
      && (p.car i).unfit.isNone && !(p.car i).isolatePending && !(p.car i).disablePending
      && (p.sup.state == .recall || p.sup.state == .service)) := by
  unfold Part.mayJoin
  simp only [h]

end Sys2Proof.Machine
end

