-- ==== Sys2Proof/Laws/Queue.lean ====
section
/-! SUPPORT. Ordered lists of cars (R65, R114): membership, no car twice, and the order itself; the position in a list; step
completion and shedding record by record. -/

namespace Sys2Proof.Machine

theorem mem_insertCar (before : CarIdx → CarIdx → Bool) (i j : CarIdx) : ∀ l, j ∈ insertCar before i l ↔ j = i ∨ j ∈ l
  | [] => by simp [insertCar]
  | k :: l => by
    unfold insertCar
    split
    · simp [mem_insertCar before i j l, or_left_comm]
    · simp

theorem mem_sortCars (before : CarIdx → CarIdx → Bool) (j : CarIdx) : ∀ l, j ∈ sortCars before l ↔ j ∈ l
  | [] => by simp [sortCars]
  | k :: l => by
    change j ∈ insertCar before k (sortCars before l) ↔ _
    rw [mem_insertCar, mem_sortCars before j l]
    simp

theorem nodup_insertCar (before : CarIdx → CarIdx → Bool) (i : CarIdx) :
    ∀ l : List CarIdx, l.Nodup → i ∉ l → (insertCar before i l).Nodup
  | [], _, _ => by simp [insertCar]
  | k :: l, h, hi => by
    have h' := List.nodup_cons.mp h
    unfold insertCar
    split
    · refine List.nodup_cons.mpr ⟨?_, nodup_insertCar before i l h'.2 (fun x => hi (List.mem_cons_of_mem _ x))⟩
      rw [mem_insertCar]
      rintro (e | e)
      · subst e
        exact hi List.mem_cons_self
      · exact h'.1 e
    · exact List.nodup_cons.mpr ⟨hi, h⟩

theorem nodup_sortCars (before : CarIdx → CarIdx → Bool) : ∀ l : List CarIdx, l.Nodup → (sortCars before l).Nodup
  | [], _ => by simp [sortCars]
  | k :: l, h => by
    have h' := List.nodup_cons.mp h
    exact nodup_insertCar before k _ (nodup_sortCars before l h'.2) (fun hm => h'.1 ((mem_sortCars before k l).mp hm))

theorem pairwise_insertCar (b : CarIdx → CarIdx → Bool) (asymm : ∀ i j, b i j = true → b j i = false)
    (trans : ∀ i j k, b j i = false → b k j = false → b k i = false) (i : CarIdx) :
    ∀ l : List CarIdx, l.Pairwise (fun i j => b j i = false) → (insertCar b i l).Pairwise (fun i j => b j i = false)
  | [], _ => by simp [insertCar]
  | k :: l, h => by
    have h' := List.pairwise_cons.mp h
    unfold insertCar
    split
    · rename_i hb
      refine List.pairwise_cons.mpr ⟨?_, pairwise_insertCar b asymm trans i l h'.2⟩
      intro j hj
      rw [mem_insertCar] at hj
      rcases hj with e | e
      · subst e
        exact asymm _ _ hb
      · exact h'.1 j e
    · rename_i hb
      have hb : b k i = false := by simpa using hb
      refine List.pairwise_cons.mpr ⟨?_, h⟩
      intro j hj
      rcases List.mem_cons.mp hj with e | e
      · subst e
        exact hb
      · exact trans i k j hb (h'.1 j e)

/-- In an ordered list no car stands behind one that it comes before. -/
theorem pairwise_sortCars (b : CarIdx → CarIdx → Bool) (asymm : ∀ i j, b i j = true → b j i = false)
    (trans : ∀ i j k, b j i = false → b k j = false → b k i = false) :
    ∀ l : List CarIdx, (sortCars b l).Pairwise (fun i j => b j i = false)
  | [] => by simp [sortCars]
  | k :: l => pairwise_insertCar b asymm trans k _ (pairwise_sortCars b asymm trans l)

/-- One queued car stands ahead of another by its class, then by its rank or sequence (R65). -/
theorem ahead_iff (p : Part) (i j : CarIdx) :
    p.ahead i j = true ↔ (p.queueKey i).1 < (p.queueKey j).1
      ∨ ((p.queueKey i).1 = (p.queueKey j).1 ∧ (p.queueKey i).2 < (p.queueKey j).2) := by
  simp [Part.ahead]

theorem position_none (i : CarIdx) : ∀ l, i ∉ l → position i l = none
  | [], _ => rfl
  | j :: l, h => by
    simp only [List.mem_cons, not_or] at h
    unfold position
    rw [if_neg (fun e => h.1 e.symm), position_none i l h.2]
    rfl

theorem position_some (i : CarIdx) : ∀ l, i ∈ l → ∃ k, position i l = some k ∧ k < l.length
  | [], h => by cases h
  | j :: l, h => by
    unfold position
    by_cases e : j = i
    · rw [if_pos e]
      exact ⟨0, rfl, by simp⟩
    · rw [if_neg e]
      have hm : i ∈ l := by
        rcases List.mem_cons.mp h with x | x
        · exact absurd x.symm e
        · exact x
      obtain ⟨k, h1, h2⟩ := position_some i l hm
      rw [h1]
      exact ⟨k + 1, rfl, by simp; omega⟩

/-- The position of a car that stands behind others. -/
theorem position_append (i : CarIdx) (later : List CarIdx) : ∀ l, i ∉ l → position i (l ++ i :: later) = some l.length
  | [], _ => by simp [position]
  | j :: l, h => by
    simp only [List.mem_cons, not_or] at h
    simp [position, if_neg (fun e => h.1 (Eq.symm e)), position_append i later l h.2]

/-! ### Step completion and shedding, record by record -/

/-- Step completion of a car with a snapshot (R83). -/
theorem completeRun_eq (p : Part) (i : CarIdx) (f : Figures) (h : (p.car i).snapshot = some f) :
    completeRun i p = p.stepCompleted i f := by
  unfold completeRun Part.stepCompleted
  dsimp only
  rw [h]
  dsimp only
  unfold setCommit
  rw [car_modCar_self]
  have e : ∀ c, (p.modCar i (fun c => { c with run := .running })).setCar i c = p.setCar i c := by
    intro c
    unfold Part.modCar
    rw [setCar_setCar]
  dsimp only
  rw [e]
  unfold closeWindow Part.modCar
  simp

/-- The record of a car after one car has been shed (R111). -/
theorem car_shedCar (i j : CarIdx) (p : Part) :
    (shedCar i p).car j
      = if i = j then { p.car i with shed := (p.car i).shed || (p.car i).holdsRun } else p.car j := by
  unfold shedCar
  split
  · rename_i h
    simp only [Bool.and_eq_true, Bool.not_eq_true'] at h
    rw [raiseEvent_car, car_modCar]
    simp [h.1]
  · rename_i h
    by_cases hij : i = j
    · subst hij
      simp only [Bool.and_eq_true, Bool.not_eq_true', not_and] at h
      have k : ((p.car i).shed || (p.car i).holdsRun) = (p.car i).shed := by
        cases h1 : (p.car i).shed <;> cases h2 : (p.car i).holdsRun <;> simp_all
      simp only [if_true]
      rw [k]
    · simp [hij]

/-- A shed takes the car's commitment out of the retained figure (R114). -/
theorem retained_shedCar (i : CarIdx) (p : Part) (h : (p.car i).holdsRun = true) (k : (p.car i).shed = false) :
    (shedCar i p).retained = p.retained - (p.car i).m := by
  have u := sum_update (fun j => if (p.car j).shed then (p.car j).m else 0) i (p.car i).m allCars nodup_allCars (mem_allCars i)
  have e : (allCars.map fun j => if ((shedCar i p).car j).shed then ((shedCar i p).car j).m else 0)
      = allCars.map fun j => if i = j then (p.car i).m else (if (p.car j).shed then (p.car j).m else 0) := by
    apply List.map_congr_left
    intro j _
    rw [car_shedCar]
    by_cases hij : i = j
    · subst hij
      simp [h]
    · simp [hij]
  have a : (shedCar i p).adm = p.adm := by rw [(shedCar_shedOnly i p).same]
  unfold Part.retained
  rw [e, a]
  simp only [k, Bool.false_eq_true, if_false] at u
  omega

/-- Shedding down a list of cars with a run and no mark: the first n are shed, each while the figure exceeded the limit, and
what is left is at or below the limit or the list is at its end (R114). -/
theorem shedWhileAbove_spec (limit : Nat) : ∀ (l : List CarIdx) (p : Part), l.Nodup →
    (∀ i, i ∈ l → (p.car i).holdsRun = true ∧ (p.car i).shed = false) →
    let left (shed : List CarIdx) : Nat := p.retained - (shed.map fun i => (p.car i).m).sum
    let q := shedWhileAbove limit l p.retained p
    ∃ n, n ≤ l.length ∧ (∀ i, q.car i = if i ∈ l.take n then { p.car i with shed := true } else p.car i)
      ∧ q.retained = left (l.take n) ∧ (∀ k, k < n → limit < left (l.take k))
      ∧ (n < l.length → left (l.take n) ≤ limit) ∧ (0 < n → q.flag .shed = true)
  | [], p, _, _ => by
    refine ⟨0, Nat.le_refl _, ?_, ?_, ?_, ?_, ?_⟩
    all_goals simp [shedWhileAbove]
  | i :: l, p, hd, hc => by
    dsimp only
    have hd' := List.nodup_cons.mp hd
    obtain ⟨c1, c2⟩ := hc i List.mem_cons_self
    unfold shedWhileAbove
    split
    · rename_i hl
      have other : ∀ j, j ∈ l → (shedCar i p).car j = p.car j := by
        intro j hj
        rw [car_shedCar, if_neg]
        rintro rfl
        exact hd'.1 hj
      have sum (k : List CarIdx) (hk : ∀ j, j ∈ k → j ∈ l) :
          (k.map fun j => ((shedCar i p).car j).m).sum = (k.map fun j => (p.car j).m).sum := by
        rw [List.map_congr_left fun j hj => congrArg Car.m (other j (hk j hj))]
      have fell := retained_shedCar i p c1 c2
      rw [← fell]
      obtain ⟨n, k1, k2, k3, k4, k5, k6⟩ := shedWhileAbove_spec limit l (shedCar i p) hd'.2
        (fun j hj => by
          rw [other j hj]
          exact hc j (List.mem_cons_of_mem _ hj))
      dsimp only at k3 k4 k5
      rw [sum _ fun j => List.mem_of_mem_take] at k3 k5
      refine ⟨n + 1, by simp only [List.length_cons]; omega, ?_, ?_, ?_, ?_, ?_⟩
      · intro j
        rw [k2 j, List.take_succ_cons, car_shedCar]
        by_cases hij : i = j
        · subst hij
          have x : i ∉ l.take n := fun h => hd'.1 (List.mem_of_mem_take h)
          simp [x, c1]
        · simp [hij, Ne.symm hij, List.mem_cons]
      · rw [k3, List.take_succ_cons, List.map_cons, List.sum_cons]
        omega
      · intro k hk
        cases k with
        | zero => simpa using hl
        | succ k =>
          have x := k4 k (by omega)
          rw [sum _ fun j => List.mem_of_mem_take] at x
          rw [List.take_succ_cons, List.map_cons, List.sum_cons]
          omega
      · intro h
        have x := k5 (by simp only [List.length_cons] at h; omega)
        rw [List.take_succ_cons, List.map_cons, List.sum_cons]
        omega
      · intro _
        by_cases h : 0 < n
        · exact k6 h
        · have e : n = 0 := by omega
          subst e
          rcases (shedCar_shedOnly i p).car i with x | ⟨_, _, x⟩
          · have y := congrArg Car.shed x
            rw [car_shedCar] at y
            simp [c1, c2] at y
          · exact (shedWhileAbove_shedOnly limit l _ _).kept x
    · rename_i hl
      exact ⟨0, by simp, by simp, by simp, by simp, fun _ => by simpa using hl, by simp⟩

/-- The candidates of derate shedding stand in their order (R114). -/
theorem pairwise_derate (p : Part) (l : List CarIdx) (h : l.Nodup) :
    (sortCars p.derateBefore l).Pairwise fun i j => p.derateBefore i j = true := by
  have total : ∀ i j, i ≠ j → p.derateBefore j i = false → p.derateBefore i j = true := by
    intro i j hij
    unfold Part.derateBefore
    simp only [Bool.or_eq_true, Bool.or_eq_false_iff, Bool.and_eq_true, Bool.and_eq_false_imp, decide_eq_true_eq,
      decide_eq_false_iff_not, beq_iff_eq, Fin.lt_def]
    intro x
    have y : i.val ≠ j.val := fun e => hij (Fin.ext e)
    omega
  have s := pairwise_sortCars p.derateBefore
    (by
      intro i j
      unfold Part.derateBefore
      simp only [Bool.or_eq_true, Bool.or_eq_false_iff, Bool.and_eq_true, Bool.and_eq_false_imp, decide_eq_true_eq,
        decide_eq_false_iff_not, beq_iff_eq, Fin.lt_def]
      omega)
    (by
      intro i j k
      unfold Part.derateBefore
      simp only [Bool.or_eq_false_iff, Bool.and_eq_false_imp, decide_eq_false_iff_not, beq_iff_eq, Fin.lt_def]
      omega) l
  exact (s.and (nodup_sortCars p.derateBefore l h)).imp fun x => total _ _ x.2 x.1

/-- Every SERVICE car that holds a run carries the SHED mark afterwards (R102). -/
theorem shedServiceCars_marks (p : Part) (i : CarIdx) (h : (p.car i).duty = .service) (hr : (p.car i).holdsRun = true) :
    ((shedServiceCars p).car i).shed = true := by
  unfold shedServiceCars
  rw [foldl_ownCar _ (fun p i =>
    if (p.car i).duty = .service then { p.car i with shed := (p.car i).shed || (p.car i).holdsRun } else p.car i)]
  · simp [h, hr]
  · intro p i j
    dsimp only
    split
    · rw [car_shedCar]
    · by_cases hij : i = j
      · subst hij
        simp
      · simp [hij]
  · intro p q i _ e
    rw [e]
  · intro p i
    unfold shedCar
    repeat' split
    all_goals rfl
  · exact nodup_allCars

end Sys2Proof.Machine
end

