-- ==== Sys2Proof/Laws/Mastery.lean ====
section
/-! SUPPORT. The shape of the link mastership state (`Part.masteryFits`, 09) under every operation that touches the slot
records or the link master unit. -/

namespace Sys2Proof.Machine

/-- Neither the forwarding unit's slot record nor the link master unit has changed. -/
def SameLinkUnits (p q : Part) : Prop := q.slot = p.slot ∧ q.master = p.master

theorem SameLinkUnits.refl (p : Part) : SameLinkUnits p p := ⟨rfl, rfl⟩

theorem SameLinkUnits.trans {p q r : Part} (h : SameLinkUnits p q) (k : SameLinkUnits q r) : SameLinkUnits p r :=
  ⟨k.1.trans h.1, k.2.trans h.2⟩

theorem CarSide.sameLinkUnits {p q : Part} (h : CarSide p q) : SameLinkUnits p q := ⟨h.leaves.slot, h.leaves.master⟩

theorem SameLinkUnits.fits {p q : Part} (h : SameLinkUnits p q) (f : p.masteryFits) : q.masteryFits := by
  unfold Part.masteryFits at *
  rw [h.1, h.2]
  exact f

theorem handAll_same (l : List Port) (f : TxFrame) (p : Part) : SameLinkUnits p (handAll l f p) := by
  unfold handAll
  induction l generalizing p with
  | nil => exact .refl p
  | cons a l ih => exact SameLinkUnits.trans (q := handFrame a f p) ⟨rfl, rfl⟩ (ih _)

theorem takePendingSettings_same (p : Part) : SameLinkUnits p (takePendingSettings p) := by
  unfold takePendingSettings
  split <;> exact ⟨rfl, rfl⟩

theorem raiseIf_same (b : Bool) (e : Event) (p : Part) : SameLinkUnits p (if b then raiseEvent e p else p) := by
  split <;> exact ⟨rfl, rfl⟩

theorem countSilentA_same (i : CarIdx) (p : Part) : SameLinkUnits p (countSilentA i p) := by
  unfold countSilentA
  dsimp only
  split <;> exact ⟨rfl, rfl⟩

theorem countSilentB_same (i : CarIdx) (p : Part) : SameLinkUnits p (countSilentB i p) := by
  unfold countSilentB
  dsimp only
  split <;> exact ⟨rfl, rfl⟩

theorem judgeLines_same (i : CarIdx) (sl : Slot) (p : Part) : SameLinkUnits p (judgeLines i sl p) := by
  have m : ∀ (q : Part) (f : Car → Car), SameLinkUnits q (q.modCar i f) := fun _ _ => ⟨rfl, rfl⟩
  unfold judgeLines
  dsimp only
  split
  · split
    · split
      · exact (m p _).trans (m _ _)
      · exact (m p _).trans (countSilentB_same i _)
    · split
      · exact (m p _).trans (countSilentA_same i _)
      · exact .refl p
  · split
    · exact m p _
    · exact .refl p
  · split
    · exact m p _
    · exact .refl p
  · exact .refl p

theorem settleSlot_same (sl : Slot) (p : Part) : SameLinkUnits p (settleSlot sl p) := by
  unfold settleSlot
  split
  · exact .refl p
  · split
    · exact .refl p
    · split
      · exact judgeLines_same _ sl p
      · exact (countMiss_carSide _ p).sameLinkUnits

theorem closeSlot_master (p : Part) : (closeSlot p).master = p.master := by
  unfold closeSlot
  split
  · rfl
  · exact (settleSlot_same _ _).2

theorem closeSlot_slot (p : Part) : (closeSlot p).slot = none := by
  unfold closeSlot
  split
  · assumption
  · exact (settleSlot_same _ _).1

theorem closeSlot_fits (p : Part) (f : p.masteryFits) : (closeSlot p).masteryFits := by
  unfold Part.masteryFits at *
  rw [closeSlot_master, closeSlot_slot]
  exact ⟨f.1, fun h => ⟨rfl, (f.2.1 h).2⟩, f.2.2⟩

theorem setSlotNow_fits (p : Part) (x : Slot) (f : p.masteryFits) : (p.setSlotNow (some x)).masteryFits := by
  unfold Part.setSlotNow
  split
  · rename_i h
    exact ⟨f.1, fun n => absurd h n, f.2.2⟩
  · rename_i h
    exact ⟨fun n => absurd n h, f.2.1, f.2.2⟩

theorem modLine_fits (a : Port) (g : SlotLine → SlotLine) (p : Part) (f : p.masteryFits) :
    (modLine a g p).masteryFits := by
  unfold modLine
  split
  · split
    · exact setSlotNow_fits p _ f
    · exact f
  · exact f

theorem modLine_mode (a : Port) (g : SlotLine → SlotLine) (p : Part) :
    (modLine a g p).master.mode = p.master.mode := by
  unfold modLine Part.setSlotNow
  split
  · split
    · split <;> rfl
    · rfl
  · rfl

/-! ### The master cycle -/

theorem openEntry_fits (k : Fin 64) (p : Part) (hm : p.master.mode ≠ .relay) (hs : p.slot = none)
    (hp : p.master.phase ≠ .none) (hn : p.master.nextCycle ≤ 63) : (openEntry k p).masteryFits := by
  unfold openEntry
  dsimp only
  split
  · rename_i x l _
    have h := handAll_same (linePorts l) ⟨wireChars (.carOrder x (p.issuedOrder x none).1), true⟩
      { p with master.walk := some k }
    refine ⟨fun n => ?_, fun _ => ⟨?_, ?_⟩, ?_⟩
    · exact absurd (by rw [← n]; simp only [h.2]) hm
    · exact h.1.trans hs
    · change (handAll _ _ _).master.phase ≠ _; rw [h.2]; exact hp
    · change (handAll _ _ _).master.nextCycle ≤ _; rw [h.2]; exact hn
  · have h := handAll_same [.dispatch] ⟨wireChars (.plantPoll p.link.settings.plantNode), true⟩
      { p with master.walk := some k }
    refine ⟨fun n => ?_, fun _ => ⟨?_, ?_⟩, ?_⟩
    · exact absurd (by rw [← n]; simp only [h.2]) hm
    · exact h.1.trans hs
    · change (handAll _ _ _).master.phase ≠ _; rw [h.2]; exact hp
    · change (handAll _ _ _).master.nextCycle ≤ _; rw [h.2]; exact hn

theorem startCycle_fits (p : Part) (hm : p.master.mode ≠ .relay) (hs : p.slot = none) :
    (startCycle p).masteryFits := by
  have h : SameLinkUnits p (takePendingSettings
      (handAll [.carA, .carB, .dispatch] ⟨wireChars (.cycleMark (BitVec.ofNat 8 p.master.nextCycle)), false⟩ p)) :=
    (handAll_same _ _ p).trans (takePendingSettings_same _)
  have bm : (beginCycle p).master.mode ≠ .relay := by
    unfold beginCycle; dsimp only; rw [h.2]; exact hm
  have bs : (beginCycle p).slot = none := by unfold beginCycle; dsimp only; rw [h.1]; exact hs
  have bn : (beginCycle p).master.nextCycle ≤ 63 := by unfold beginCycle; dsimp only; omega
  have bp : (beginCycle p).master.phase ≠ .none := by unfold beginCycle; simp
  unfold startCycle
  dsimp only
  split
  · exact openEntry_fits _ _ bm bs bp bn
  · exact ⟨fun n => absurd n bm, fun _ => ⟨bs, by simp⟩, bn⟩

theorem completeHandback_fits (p : Part) (hn : p.master.nextCycle ≤ 63) : (completeHandback p).masteryFits :=
  ⟨fun _ => ⟨rfl, rfl, rfl, rfl, rfl⟩, fun h => absurd rfl h, hn⟩

theorem continueWalk_fits (n : Nat) (p : Part) (hm : p.master.mode ≠ .relay) (f : p.masteryFits) :
    (continueWalk n p).masteryFits := by
  have hs := (f.2.1 hm).1
  have hp := (f.2.1 hm).2
  unfold continueWalk
  dsimp only
  split
  · exact openEntry_fits _ p hm hs hp f.2.2
  · split
    · exact completeHandback_fits _ f.2.2
    · split
      · exact startCycle_fits _ hm hs
      · exact ⟨fun x => absurd x hm, fun _ => ⟨hs, by simp⟩, f.2.2⟩

theorem endMasterSlot_fits (sl : Slot) (p : Part) (hm : p.master.mode ≠ .relay) (f : p.masteryFits) :
    (endMasterSlot sl p).masteryFits := by
  have h : SameLinkUnits { p with master.slot := none } (settleSlot sl (unmarkQueues { p with master.slot := none })) :=
    SameLinkUnits.trans (q := unmarkQueues { p with master.slot := none }) ⟨rfl, rfl⟩ (settleSlot_same sl _)
  have g : Part.masteryFits { p with master.slot := none } :=
    ⟨fun x => absurd x hm, f.2.1, f.2.2⟩
  unfold endMasterSlot
  dsimp only
  exact continueWalk_fits _ _ (by rw [h.2]; exact hm) (h.fits g)

theorem checkSlot_fits (p : Part) (f : p.masteryFits) : (checkSlot p).masteryFits := by
  unfold checkSlot
  split
  · split
    · split
      · exact closeSlot_fits p f
      · rename_i h; exact endMasterSlot_fits _ p h f
    · exact f
  · exact f

theorem takeOver_fits (p : Part) : (takeOver p).masteryFits := by
  have h := (shedServiceCars_carSide { closeSlot p with master.mode := .master }).sameLinkUnits
  unfold takeOver
  refine startCycle_fits _ ?_ ?_
  · rw [h.2]; simp
  · rw [h.1]; exact closeSlot_slot p

theorem takeOverIfSilent_fits (p : Part) (f : p.masteryFits) : (takeOverIfSilent p).masteryFits := by
  unfold takeOverIfSilent
  split
  · exact takeOver_fits p
  · exact f

theorem silenceExpires_fits (p : Part) (f : p.masteryFits) : (silenceExpires p).masteryFits := by
  unfold silenceExpires
  dsimp only
  split
  · split
    · exact takeOverIfSilent_fits _ ⟨f.1, f.2.1, f.2.2⟩
    · exact ⟨f.1, f.2.1, f.2.2⟩
  · exact f

theorem periodExpires_fits (p : Part) (f : p.masteryFits) : (periodExpires p).masteryFits := by
  unfold periodExpires
  dsimp only
  split
  · rename_i hr
    have hm : p.master.mode ≠ .relay := fun h => by
      have := (f.1 h).2.2.2.2
      rw [this] at hr
      exact absurd hr (by simp [Timer.isRunning])
    split
    · exact startCycle_fits _ hm (f.2.1 hm).1
    · exact ⟨fun h => absurd h hm, f.2.1, f.2.2⟩
  · exact f

theorem replyTimerExpires_fits (a : Port) (p : Part) (f : p.masteryFits) : (replyTimerExpires a p).masteryFits :=
  checkSlot_fits _ (modLine_fits a _ p f)

theorem sendingLineExpires_fits (a : Port) (p : Part) (f : p.masteryFits) : (sendingLineExpires a p).masteryFits := by
  unfold sendingLineExpires
  split
  · exact f
  · exact checkSlot_fits _ (modLine_fits a _ p f)

theorem frameEnds_fits (a : Port) (p : Part) (f : p.masteryFits) : (frameEnds a p).masteryFits :=
  checkSlot_fits _ (modLine_fits a _ p f)

theorem modPort_fits (p : Part) (a : Port) (g : PortState → PortState) (f : p.masteryFits) :
    (p.modPort a g).masteryFits := f

theorem transmitStarts_fits (a : Port) (p : Part) (f : p.masteryFits) : (transmitStarts a p).masteryFits := by
  unfold transmitStarts
  dsimp only
  split <;> exact f

theorem lineSent_fits (a : Port) (p : Part) (f : p.masteryFits) : (lineSent a p).masteryFits := by
  unfold lineSent
  split
  · exact modLine_fits a _ p f
  · exact f

theorem transmitEnds_fits (a : Port) (p : Part) (f : p.masteryFits) : (transmitEnds a p).masteryFits := by
  unfold transmitEnds
  dsimp only
  split
  · split
    · split
      · exact lineSent_fits a _ f
      · exact f
    · exact f
  · exact f

/-! ### Management -/

theorem plain_fits (args : List Byte) (g : Part → Part) (p : Part) (f : p.masteryFits) (h : (g p).masteryFits) :
    (plain args g p).2.masteryFits := by
  unfold plain
  split
  · exact h
  · exact f

theorem underLock_same {α : Type} (n : Nat) (dec : List Byte → Option α) (st : Fin n → α → Part → Part)
    (args : List Byte) (p : Part) (h : ∀ i x, SameLinkUnits p (st i x p)) :
    SameLinkUnits p (underLock n args p (writeEntry n dec st)).2 := by
  unfold underLock writeEntry
  repeat' split
  all_goals first | exact .refl p | exact h _ _

theorem serveWrite_same (args : List Byte) (p : Part) : SameLinkUnits p (serveWrite args p).2 := by
  unfold serveWrite
  repeat' split
  · exact .refl p
  · unfold serveWriteIdentity
    repeat' split
    all_goals exact ⟨rfl, rfl⟩
  · unfold serveWriteConfig writeEntry
    repeat' split
    all_goals exact ⟨rfl, rfl⟩
  · unfold serveWriteClass writeEntry
    repeat' split
    all_goals exact ⟨rfl, rfl⟩
  · exact underLock_same 1 readPlant _ _ p fun _ _ => ⟨rfl, rfl⟩
  · unfold serveWriteGroup writeEntry
    repeat' split
    all_goals exact ⟨rfl, rfl⟩
  · unfold serveWriteRecallOrder
    repeat' split
    all_goals exact ⟨rfl, rfl⟩
  · exact underLock_same 4 readTrip _ _ p fun _ _ => ⟨rfl, rfl⟩
  · unfold serveWriteSchedule writeEntry
    repeat' split
    all_goals exact ⟨rfl, rfl⟩
  · unfold serveWriteSettings writeEntry
    repeat' split
    all_goals exact ⟨rfl, rfl⟩
  · exact .refl p

theorem control_same (index : Byte) (tail : List Byte) (act : CarIdx → Part → Option (Result × Part)) (p : Part)
    (h : ∀ i r, act i p = some r → SameLinkUnits p r.2) : SameLinkUnits p (control index tail act p).2 := by
  unfold control
  split
  · exact .refl p
  · split
    · exact .refl p
    · rename_i hr
      split
      · exact h _ _ hr
      · exact .refl p

theorem enableCar_same (i : CarIdx) (p : Part) (r : Result × Part) (h : enableCar i p = some r) :
    SameLinkUnits p r.2 := by
  unfold enableCar at h
  split at h
  · cases h
  · split at h
    · cases h
    · split at h
      · cases h
      · dsimp only at h
        cases h
        have c := (handDutyChange_carSide .disabled (((setCommit i 0 0 p).modCar i disabledCar).restoredDuty i)
          (((setCommit i 0 0 p).modCar i disabledCar).modCar i
            (enabledCar (((setCommit i 0 0 p).modCar i disabledCar).restoredDuty i)))).sameLinkUnits
        exact ⟨c.1, c.2⟩

theorem disableCar_same (i : CarIdx) (p : Part) (r : Result × Part) (h : disableCar i p = some r) :
    SameLinkUnits p r.2 := by
  unfold disableCar at h
  dsimp only at h
  split at h
  · cases h; exact .refl p
  · split at h
    · cases h; exact ⟨rfl, rfl⟩
    · cases h
      exact ((disableRecord_carSide i p).trans
        ((settleJoinCounter_carSide _).trans (handDutyChange_carSide _ _ _))).sameLinkUnits

theorem isolateCar_same (i : CarIdx) (p : Part) (r : Result × Part) (h : isolateCar i p = some r) :
    SameLinkUnits p r.2 := by
  unfold isolateCar at h
  dsimp only at h
  split at h
  · cases h
  · split at h
    · cases h; exact ⟨rfl, rfl⟩
    · split at h
      · cases h; exact ⟨rfl, rfl⟩
      · split at h
        · cases h; exact .refl p
        · cases h
          have c : SameLinkUnits p (if (p.car i).run = .queued then leaveQueue i p else p) := by
            split
            · exact (leaveQueue_carSide i p).sameLinkUnits
            · exact .refl p
          exact c.trans (changeDuty_carSide i _ _).sameLinkUnits

theorem restoreCar_same (i : CarIdx) (p : Part) (r : Result × Part) (h : restoreCar i p = some r) :
    SameLinkUnits p r.2 := by
  unfold restoreCar at h
  dsimp only at h
  split at h
  · cases h
  · split at h
    · cases h; exact ⟨rfl, rfl⟩
    · split at h
      · cases h
        have c := (changeDuty_carSide i (p.restoredDuty i) (p.modCar i fun c => { c with stallCount := 0 })).sameLinkUnits
        exact ⟨c.1, c.2⟩
      · split at h
        · cases h; exact ⟨rfl, rfl⟩
        · cases h

theorem clearUnfitCar_same (i : CarIdx) (p : Part) (r : Result × Part) (h : clearUnfitCar i p = some r) :
    SameLinkUnits p r.2 := by
  unfold clearUnfitCar at h
  dsimp only at h
  split at h
  · cases h
  · cases h; exact ⟨rfl, rfl⟩

theorem serveControl_same (args : List Byte) (p : Part) : SameLinkUnits p (serveControl args p).2 := by
  unfold serveControl
  split
  · exact .refl p
  · split
    · split <;> exact .refl p
    · split
      · exact control_same _ _ _ p fun i r => enableCar_same i p r
      · exact control_same _ _ _ p fun i r => disableCar_same i p r
      · exact control_same _ _ _ p fun i r => isolateCar_same i p r
      · exact control_same _ _ _ p fun i r => restoreCar_same i p r
      · exact control_same _ _ _ p fun i r => clearUnfitCar_same i p r
      · split <;> exact .refl p

theorem restartPart_fits (p : Part) (f : p.masteryFits) : (restartPart p).masteryFits := by
  unfold restartPart
  refine (recomputeLimits_carSide _).sameLinkUnits.fits ?_
  exact ⟨f.1, fun h => ⟨rfl, (f.2.1 h).2⟩, by simp⟩

theorem serveRequest_fits (payload : List Byte) (p : Part) (f : p.masteryFits) :
    (serveRequest payload p).2.masteryFits := by
  unfold serveRequest
  split
  · exact f
  · split
    · rw [serveRead_part]; exact f
    · exact (serveWrite_same _ p).fits f
    · exact plain_fits _ _ p f f
    · unfold serveApply
      repeat' split
      · exact f
      · exact f
      · exact ((executeApply_carSide p).trans (attempt_carSide _)).sameLinkUnits.fits f
      · exact f
    · unfold serveStartService
      repeat' split
      · exact f
      · exact f
      · exact f
      · exact (executeStartService_carSide p).sameLinkUnits.fits f
      · exact f
    · exact (serveControl_same _ p).fits f
    · unfold serveClearFlags
      split <;> exact f
    · unfold serveSetMask
      split <;> exact f
    · exact plain_fits _ _ p f f
    · unfold serveSummary
      split <;> exact f
    · exact plain_fits _ _ p f f
    · unfold serveRestart
      split
      · exact plain_fits _ _ p f (restartPart_fits p f)
      · exact f
    · exact f

/-! ### Frames -/

theorem answerLine_fits (a : Port) (p : Part) (f : p.masteryFits) : (answerLine a p).masteryFits := by
  unfold answerLine
  split
  · split
    · exact setSlotNow_fits p _ f
    · exact f
  · exact f

theorem takeCarReport_fits (a : Port) (x : Byte) (r : ReportPayload) (p : Part) (f : p.masteryFits) :
    (takeCarReport a x r p).masteryFits := by
  unfold takeCarReport
  split
  · split
    · unfold relayAnswer
      exact checkSlot_fits _ ((takeReport_carSide _ _ _).sameLinkUnits.fits
        (modPort_fits _ _ _ (answerLine_fits a p f)))
    · unfold masterAnswer
      exact checkSlot_fits _ ((takeReport_carSide _ _ _).sameLinkUnits.fits (answerLine_fits a p f))
  · exact checkSlot_fits _ (answerLine_fits a p f)
  · exact frameEnds_fits a _ f

theorem relayMark_fits (n : Byte) (p : Part) (f : p.masteryFits) : (relayMark n p).masteryFits := by
  have h : SameLinkUnits (closeSlot p) (takePendingSettings
      (handAll [.carA, .carB] ⟨wireChars (.cycleMark n), false⟩ (closeSlot p))) :=
    (handAll_same _ _ _).trans (takePendingSettings_same _)
  have g := h.fits (closeSlot_fits p f)
  exact ⟨g.1, g.2.1, g.2.2⟩

theorem takePlantReport_fits (power freq : Word16) (rt : Bool) (p : Part) (f : p.masteryFits) :
    (takePlantReport power freq rt p).masteryFits :=
  (takePlantReport_carSide power freq rt p).sameLinkUnits.fits f

theorem relayFrame_fits (a : Port) (x : Frame) (p : Part) (hm : p.master.mode = .relay) (f : p.masteryFits) :
    (relayFrame a x p).masteryFits := by
  unfold relayFrame
  split
  · exact relayMark_fits _ p f
  · rename_i addr o
    have h : (storeOrder addr o (closeSlot p)).master = p.master := by
      unfold storeOrder
      split <;> exact closeSlot_master p
    have k : ∀ l : List Port, ∀ t : TxFrame, ∀ q : Part, (handAll l t q).master = q.master := fun l t q =>
      (handAll_same l t q).2
    unfold relayOrder issueOrder
    dsimp only
    refine ⟨fun _ => ?_, fun n => absurd ?_ n, ?_⟩
    · have := f.1 hm
      simp only [k, h]; exact this
    · simp only [k, h]; exact hm
    · simp only [k, h]; exact f.2.2
  · exact takeCarReport_fits a _ _ p f
  · exact closeSlot_fits p f
  · unfold relayPlantReport
    split
    · exact takePlantReport_fits _ _ _ p f
    · exact f
  · unfold relayRequest
    split
    · exact modPort_fits _ _ _ (serveRequest_fits _ _ (closeSlot_fits p f))
    · exact closeSlot_fits p f

theorem passDispatchFrame_fits (p : Part) (f : p.masteryFits) : (passDispatchFrame p).masteryFits := by
  unfold passDispatchFrame
  refine frameEnds_fits _ _ ?_
  split <;> exact f

theorem masterFrame_fits (a : Port) (x : Frame) (p : Part) (f : p.masteryFits) : (masterFrame a x p).masteryFits := by
  unfold masterFrame
  split
  · unfold masterMark
    dsimp only
    split
    · rename_i h
      have g : Part.masteryFits { p with master.mode := .handback } :=
        ⟨fun n => absurd n (by simp), fun _ => f.2.1 (by rw [h]; simp), f.2.2⟩
      split
      · exact frameEnds_fits _ _ g
      · exact completeHandback_fits _ f.2.2
    · exact passDispatchFrame_fits p f
  · exact takeCarReport_fits a _ _ p f
  · unfold masterPlant
    split
    · exact checkSlot_fits _ (takePlantReport_fits _ _ _ _ (answerLine_fits _ p f))
    · exact passDispatchFrame_fits p f
  · exact passDispatchFrame_fits p f
  · exact passDispatchFrame_fits p f
  · exact passDispatchFrame_fits p f

theorem discardMalformed_fits (a : Port) (p : Part) (f : p.masteryFits) : (discardMalformed a p).masteryFits :=
  frameEnds_fits a _ f

theorem discardCheck_fits (a : Port) (p : Part) (f : p.masteryFits) : (discardCheck a p).masteryFits :=
  frameEnds_fits a _ f

theorem abandonFrame_fits (a : Port) (p : Part) (f : p.masteryFits) : (abandonFrame a p).masteryFits :=
  frameEnds_fits a _ f

theorem judgeFrame_fits (a : Port) (x : Frame) (p : Part) (f : p.masteryFits) : (judgeFrame a x p).masteryFits := by
  unfold judgeFrame handOn
  repeat' split
  · exact abandonFrame_fits a p f
  · rename_i h; exact relayFrame_fits a x p h f
  · exact masterFrame_fits a x p f
  · exact discardMalformed_fits a p f

theorem judgeSplit_fits (a : Port) (k x : Byte) (pl c : List Byte) (p : Part) (f : p.masteryFits) :
    (judgeSplit a k x pl c p).masteryFits := by
  unfold judgeSplit
  repeat' split
  · exact discardCheck_fits a p f
  · exact discardMalformed_fits a p f
  · exact judgeFrame_fits a _ p f

theorem judgeChars_fits (a : Port) (l : List Byte) (p : Part) (f : p.masteryFits) : (judgeChars a l p).masteryFits := by
  unfold judgeChars
  repeat' split
  · exact judgeSplit_fits a _ _ _ _ p f
  · exact abandonFrame_fits a p f
  · exact discardMalformed_fits a p f

theorem received_fits (a : Port) (p : Part) (f : p.masteryFits) : (p.received a).masteryFits := by
  unfold Part.received noteFirst
  split
  · exact modPort_fits _ _ _ (modLine_fits a _ p f)
  · exact f

theorem completeFrame_fits (a : Port) (j : Part → Part) (h : ∀ q : Part, q.masteryFits → (j q).masteryFits) (p : Part)
    (f : p.masteryFits) : (completeFrame a j p).masteryFits := by
  unfold completeFrame
  split
  · exact h _ (received_fits a p f)
  · exact f

theorem frameArrives_fits (a : Port) (x : Frame) (p : Part) (f : p.masteryFits) : (frameArrives a x p).masteryFits :=
  completeFrame_fits a _ (judgeFrame_fits a x) p f

theorem characterArrives_fits (a : Port) (c : Byte) (p : Part) (f : p.masteryFits) :
    (characterArrives a c p).masteryFits := by
  unfold characterArrives
  repeat' split
  · exact modPort_fits _ _ _ (modLine_fits a _ p f)
  · unfold addCharacter
    repeat' split
    · exact abandonFrame_fits a p f
    · exact judgeSplit_fits a _ _ _ _ _ f
    · exact f
  · exact f
  · exact f

theorem characterFault_fits (a : Port) (p : Part) (f : p.masteryFits) : (characterFault a p).masteryFits := by
  unfold characterFault
  repeat' split
  · exact f
  · exact abandonFrame_fits a p f
  · exact f
  · exact f

theorem lineIdle_fits (a : Port) (p : Part) (f : p.masteryFits) : (lineIdle a p).masteryFits := by
  unfold lineIdle
  split <;> exact f

theorem lineStaysIdle_fits (a : Port) (p : Part) (f : p.masteryFits) : (lineStaysIdle a p).masteryFits := by
  unfold lineStaysIdle
  split
  · exact discardMalformed_fits a _ f
  · exact lineIdle_fits a p f

/-! ### Samples, time and steps -/

theorem switchSample_fits (u g : SwitchLevel) (p : Part) (f : p.masteryFits) : (switchSample u g p).masteryFits := by
  have s : (sampleSwitch u g p).masteryFits := (sampleSwitch_carSide u g p).sameLinkUnits.fits f
  unfold switchSample
  dsimp only
  split
  · exact takeOverIfSilent_fits _ s
  · exact s

theorem sampleAlarms_fits (a1 a2 a3 a4 : AlarmLevel) (p : Part) (f : p.masteryFits) :
    (sampleAlarms a1 a2 a3 a4 p).masteryFits :=
  (sampleAlarms_carSide a1 a2 a3 a4 p).sameLinkUnits.fits f

theorem tickTimers_fits (p : Part) (f : p.masteryFits) : (tickTimers p).masteryFits := by
  refine ⟨fun h => ?_, f.2.1, f.2.2⟩
  have g := f.1 h
  refine ⟨g.1, g.2.1, g.2.2.1, ?_, ?_⟩
  · change p.master.slot.map tickSlot = none; rw [g.2.2.2.1]; rfl
  · change tickTimer p.master.period = .stopped; rw [g.2.2.2.2]; rfl

theorem tick_fits (p : Part) (f : p.masteryFits) : (tick p).masteryFits := by
  have s : ∀ q : Part, q.masteryFits → Part.masteryFits (if q.pins.alarmSampled then q
      else driveAlarms q.pins.a1 q.pins.a2 q.pins.a3 q.pins.a4 q) := fun q hq => by
    split
    · exact hq
    · exact sampleAlarms_fits _ _ _ _ _ hq
  unfold tick sampleHeldPins
  refine tickTimers_fits _ (s _ ?_)
  split
  · exact f
  · exact switchSample_fits _ _ _ f

/-- Every command keeps the shape of the link mastership state. -/
theorem exec_fits (c : Instr) (s : State) (f : s.part.masteryFits) :
    ∃ q, exec c s = .next { s with part := q } ∧ q.masteryFits := by
  cases c with
  | hardReset => exact ⟨_, rfl, fun _ => ⟨rfl, rfl, rfl, rfl, rfl⟩, fun h => absurd rfl h, Nat.zero_le 63⟩
  | switchLineFiltered u g => exact ⟨_, rfl, switchSample_fits u g _ f⟩
  | alarmLineFiltered a b c d => exact ⟨_, rfl, sampleAlarms_fits a b c d _ f⟩
  | warmUpExpiry => exact ⟨_, rfl, (warmUpExpires_carSide _).sameLinkUnits.fits f⟩
  | recallLimitExpiry => exact ⟨_, rfl, (recallLimitExpires_carSide _).sameLinkUnits.fits f⟩
  | plantReportStale => exact ⟨_, rfl, (reportStale_carSide _).sameLinkUnits.fits f⟩
  | startTimerExpiry i => exact ⟨_, rfl, (startTimerExpires_carSide i _).sameLinkUnits.fits f⟩
  | tripTimerExpiry i => exact ⟨_, rfl, (tripTimerExpires_carSide i _).sameLinkUnits.fits f⟩
  | settleExpiry => exact ⟨_, rfl, (settleExpires_carSide _).sameLinkUnits.fits f⟩
  | blindExpiry => exact ⟨_, rfl, (settleExpires_carSide _).sameLinkUnits.fits f⟩
  | recoveryExpiry => exact ⟨_, rfl, (recoveryExpires_carSide _).sameLinkUnits.fits f⟩
  | holdOffExpiry => exact ⟨_, rfl, (holdOffExpires_carSide _).sameLinkUnits.fits f⟩
  | silenceExpiry => exact ⟨_, rfl, silenceExpires_fits _ f⟩
  | cyclePeriodExpiry => exact ⟨_, rfl, periodExpires_fits _ f⟩
  | replyTimerExpiry a => exact ⟨_, rfl, replyTimerExpires_fits a _ f⟩
  | sendingLineTimeout a => exact ⟨_, rfl, sendingLineExpires_fits a _ f⟩
  | frameFirstCharacter a x => exact ⟨_, rfl, characterArrives_fits a x _ f⟩
  | frameAbandoned a => exact ⟨_, rfl, characterFault_fits a _ f⟩
  | frameTruncated a => exact ⟨_, rfl, lineStaysIdle_fits a _ f⟩
  | receiverIdleResync a => exact ⟨_, rfl, lineIdle_fits a _ f⟩
  | frameDiscarded a l => exact ⟨_, rfl, completeFrame_fits a _ (judgeChars_fits a l) _ f⟩
  | transmitStart a => exact ⟨_, rfl, transmitStarts_fits a _ f⟩
  | transmitComplete a => exact ⟨_, rfl, transmitEnds_fits a _ f⟩
  | characterFaultBetweenFrames a => exact ⟨_, rfl, characterFault_fits a _ f⟩
  | _ => exact ⟨_, rfl, frameArrives_fits _ _ _ f⟩

end Sys2Proof.Machine
end

