-- ==== Sys2Proof/Laws/Wire.lean ====
section
/-! SUPPORT. The characters of frames: reading a frame back from what it sends (R121 to R134). -/

namespace Sys2Proof.Machine

/-! ### Two-byte fields -/

theorem be16_word16 (hi lo : Byte) : be16 (word16 hi lo) = [hi, lo] := by
  unfold be16 word16
  congr 1
  · apply BitVec.eq_of_getLsbD_eq
    intro i h
    rw [BitVec.getLsbD_extractLsb', BitVec.getLsbD_append, if_neg (by omega), Nat.add_sub_cancel_left]
    simp [h]
  · congr 1
    apply BitVec.eq_of_getLsbD_eq
    intro i h
    rw [BitVec.getLsbD_extractLsb', Nat.zero_add, BitVec.getLsbD_append, if_pos h]
    simp [h]

theorem word16_be16 (w : Word16) : word16 (w.extractLsb' 8 8) (w.extractLsb' 0 8) = w := by
  apply BitVec.eq_of_getLsbD_eq
  intro i h
  unfold word16
  rw [BitVec.getLsbD_append]
  by_cases hi : i < 8
  · simp [hi]
  · have : i - 8 < 8 := by omega
    have e : 8 + (i - 8) = i := by omega
    simp [hi, this, e]

theorem be16_length (w : Word16) : (be16 w).length = 2 := rfl

/-! ### A frame's payload -/

/-- The payload of a parsed frame is the one it was parsed from. -/
theorem framePayload_parse (kind address : Byte) (payload : List Byte) (f : Frame)
    (h : parseFrame kind address payload = some f) : framePayload f = payload := by
  unfold parseFrame at h
  repeat' split at h
  all_goals first
    | (cases h; done)
    | (cases h
       simp only [framePayload, orderBytes, reportBytes, be16_word16, List.cons_append, List.nil_append])

/-- A frame whose address suits its kind is read back from its kind, address and payload. -/
theorem parse_frame (f : Frame) : parseFrame (frameKind f) (frameAddress f) (framePayload f) = some f := by
  cases f with
  | cycleMark n => rfl
  | carOrder a o => rfl
  | carReport a r =>
    change some (Frame.carReport a { r with pulses := word16 _ _ }) = _
    rw [word16_be16]
  | plantPoll a => rfl
  | plantReport a power freq flags =>
    change some (Frame.plantReport a (word16 _ _) (word16 _ _) flags) = _
    rw [word16_be16, word16_be16]
  | manageRequest a p => rfl

/-- A valid frame carries at most 32 payload characters (R124, R130 to R134). -/
theorem payload_fits (port : Port) (f : Frame) (h : frameValid port f = true) : (framePayload f).length ≤ 32 := by
  unfold frameValid at h
  simp only [Bool.and_eq_true] at h
  have k := h.2
  cases f with
  | cycleMark n => simp [framePayload]
  | carOrder a o =>
    simp only [fieldsValid, orderValid, Bool.and_eq_true, decide_eq_true_eq] at k
    simp [framePayload, orderBytes]
    omega
  | carReport a r =>
    simp only [fieldsValid, reportValid, Bool.and_eq_true, decide_eq_true_eq] at k
    simp [framePayload, reportBytes, be16]
    omega
  | plantPoll a => simp [framePayload]
  | plantReport a power freq flags => simp [framePayload, be16]
  | manageRequest a p =>
    simp only [fieldsValid, Bool.and_eq_true, decide_eq_true_eq] at k
    exact k.2

/-! ### The characters of a frame -/

/-- The first three characters and the rest of a frame on the line. -/
theorem wireChars_shape (f : Frame) :
    wireChars f = frameKind f :: frameAddress f :: BitVec.ofNat 8 (framePayload f).length :: (framePayload f
      ++ be16 (crc (frameKind f :: frameAddress f :: BitVec.ofNat 8 (framePayload f).length :: framePayload f))) := rfl

theorem length_char (n : Nat) (h : n ≤ 32) : (BitVec.ofNat 8 n).toNat = n := by
  rw [BitVec.toNat_ofNat, Nat.mod_eq_of_lt]
  omega

/-- All the characters of a frame split into its parts. -/
theorem split_wire (f : Frame) (h : (framePayload f).length ≤ 32) :
    splitFrame (wireChars f) = some (frameKind f, frameAddress f, framePayload f,
      be16 (crc (frameKind f :: frameAddress f :: BitVec.ofNat 8 (framePayload f).length :: framePayload f))) := by
  rw [wireChars_shape]
  unfold splitFrame
  dsimp only
  rw [length_char _ h, if_pos ⟨h, by rw [List.length_append, be16_length]⟩]
  rw [List.take_left, List.drop_left]

theorem wireChars_length (f : Frame) : (wireChars f).length = (framePayload f).length + 5 := by
  rw [wireChars_shape]
  simp only [List.length_cons, List.length_append, be16_length]

/-- Fewer characters than the whole frame do not complete it. -/
theorem split_prefix (f : Frame) (h : (framePayload f).length ≤ 32) (n : Nat) (hn : n < (wireChars f).length) :
    splitFrame ((wireChars f).take n) = none := by
  rw [wireChars_length] at hn
  rw [wireChars_shape]
  match n with
  | 0 => rfl
  | 1 => rfl
  | 2 => rfl
  | n + 3 =>
    simp only [List.take_succ_cons]
    unfold splitFrame
    dsimp only
    rw [length_char _ h, if_neg]
    rintro ⟨_, k⟩
    rw [List.length_take, List.length_append, be16_length] at k
    omega

/-- No part of a frame of fitting length is over-long. -/
theorem overLong_prefix (f : Frame) (h : (framePayload f).length ≤ 32) (n : Nat) :
    overLong ((wireChars f).take n) = false := by
  rw [wireChars_shape]
  match n with
  | 0 => rfl
  | 1 => rfl
  | 2 => rfl
  | n + 3 =>
    simp only [List.take_succ_cons]
    unfold overLong
    dsimp only
    rw [length_char _ h]
    simp
    omega

end Sys2Proof.Machine
end

