-- ==== Sys2Proof/Laws/Received.lean ====
section
/-! SUPPORT. What it takes for a frame to reach its unit: the receiver and the line it came in on change, and the judgement hands it
on (R121, R122, R124, R146). -/

namespace Sys2Proof.Machine

/-! ### The part when a frame has been received -/

/-- In RELAY a received frame has changed the ports and the slot record alone. -/
theorem received_relay (p : Part) (port : Port) (h : p.master.mode = .relay) :
    p.received port = { p with link := (p.received port).link, slot := (p.received port).slot } := by
  unfold Part.received setReceiver noteFirst
  split
  · unfold lineReceiving modLine
    repeat' split
    · unfold Part.setSlotNow
      rw [if_pos h]
      rfl
    · rfl
    · rfl
  · rfl

/-- Outside RELAY a received frame has changed the ports and the master slot record alone. -/
theorem received_master (p : Part) (port : Port) (h : p.master.mode ≠ .relay) :
    p.received port
      = { p with link := (p.received port).link, master := { p.master with slot := (p.received port).master.slot } } := by
  unfold Part.received setReceiver noteFirst
  split
  · unfold lineReceiving modLine
    repeat' split
    · unfold Part.setSlotNow
      rw [if_neg h]
      rfl
    · rfl
    · rfl
  · rfl

/-- The link of a part whose line has noted a first character is as before. -/
theorem lineReceiving_link (port : Port) (p : Part) : (lineReceiving port p).link = p.link := by
  unfold lineReceiving modLine Part.setSlotNow
  repeat' split
  all_goals rfl

theorem noteFirst_link (port : Port) (p : Part) : (noteFirst port p).link = p.link := by
  unfold noteFirst
  split
  · exact lineReceiving_link port p
  · rfl

/-- A received frame has changed the receiver alone in the link. -/
theorem received_link (p : Part) (port : Port) :
    (p.received port).link = p.link.setPort port { p.link.port port with receiver := .betweenFrames } := by
  unfold Part.received setReceiver Part.modPort
  dsimp only
  rw [noteFirst_link]

theorem received_settings (p : Part) (port : Port) : (p.received port).link.settings = p.link.settings := by
  rw [received_link, setPort_settings]

theorem received_mode (p : Part) (port : Port) : (p.received port).master.mode = p.master.mode := by
  by_cases h : p.master.mode = .relay
  · rw [received_relay p port h]
  · rw [received_master p port h]

/-! ### A valid frame is handed on -/

theorem frameArrives_handsOn (port : Port) (f : Frame) (p : Part) (h : p.takesFrame port)
    (hv : frameValid port f = true) : frameArrives port f p = handOn port f (p.received port) := by
  unfold frameArrives completeFrame
  rw [if_pos ⟨by unfold Part.listens; rw [h.1]; rfl, h.2⟩]
  change judgeFrame port f (p.received port) = _
  unfold judgeFrame
  rw [if_neg (by have := payload_fits port f hv; omega), if_pos hv]

/-- In RELAY a valid frame reaches the forwarding unit. -/
theorem frameArrives_relay (port : Port) (f : Frame) (p : Part) (hm : p.master.mode = .relay) (h : p.takesFrame port)
    (hv : frameValid port f = true) : frameArrives port f p = relayFrame port f (p.received port) := by
  rw [frameArrives_handsOn port f p h hv]
  unfold handOn
  rw [received_mode, if_pos hm]

/-- In MASTER and HANDBACK a valid frame reaches the link master unit. -/
theorem frameArrives_master (port : Port) (f : Frame) (p : Part) (hm : p.master.mode ≠ .relay) (h : p.takesFrame port)
    (hv : frameValid port f = true) : frameArrives port f p = masterFrame port f (p.received port) := by
  rw [frameArrives_handsOn port f p h hv]
  unfold handOn
  rw [received_mode, if_neg hm]

/-- A request of the part is served on the part whose slot record has closed, and answered (R138, R148, R167). -/
theorem requestArrives_served (payload : List Byte) (p : Part) (h : p.servesRequest) (h1 : 1 ≤ payload.length)
    (h2 : payload.length ≤ 32) : requestArrives payload p = serveAndReply payload p.slotClosed := by
  unfold requestArrives
  rw [frameArrives_relay .dispatch _ p h.1.1 h.1.2
    (by simp only [frameValid, frameAccepted, addressSuits, fieldsValid, h.2]; simp [h1, h2])]
  change relayRequest _ _ _ = _
  unfold relayRequest
  rw [received_settings, if_pos rfl]
  rfl

/-! ### The slot in progress -/

theorem modLine_none (port : Port) (f : SlotLine → SlotLine) (p : Part) (h : p.slotNow = none) : modLine port f p = p := by
  unfold modLine
  rw [h]

theorem checkSlot_none (p : Part) (h : p.slotNow = none) : checkSlot p = p := by
  unfold checkSlot
  rw [h]

theorem frameEnds_none (port : Port) (p : Part) (h : p.slotNow = none) : frameEnds port p = p := by
  unfold frameEnds
  rw [modLine_none port _ p h, checkSlot_none p h]

theorem modLine_some (port : Port) (f : SlotLine → SlotLine) (p : Part) (sl : Slot) (x : SlotLine)
    (h : p.slotNow = some sl) (k : slotLine sl port = some x) :
    modLine port f p = p.setSlotNow (some (setSlotLine sl port (f x))) := by
  unfold modLine
  rw [h]
  dsimp only
  rw [k]

theorem modLine_unexpected (port : Port) (f : SlotLine → SlotLine) (p : Part) (sl : Slot) (h : p.slotNow = some sl)
    (k : slotLine sl port = none) : modLine port f p = p := by
  unfold modLine
  rw [h]
  dsimp only
  rw [k]

theorem slotNow_setSlotNow (p : Part) (x : Option Slot) : (p.setSlotNow x).slotNow = x := by
  unfold Part.setSlotNow Part.slotNow
  by_cases h : p.master.mode = .relay
  · simp [h]
  · simp only [h, if_false]

@[simp] theorem slotLine_setSlotLine (sl : Slot) (a b : Port) (x : SlotLine) :
    slotLine (setSlotLine sl a x) b = if a = b then some x else slotLine sl b := by
  cases a <;> cases b <;> rfl

/-- A slot with a line neither ANSWERED nor SILENT is not done. -/
theorem slotDone_awaited (sl : Slot) (port : Port) (x : SlotLine) (h : slotLine sl port = some x)
    (k1 : x.status ≠ .answered) (k2 : x.status ≠ .silent) : slotDone sl = false := by
  unfold slotDone expectedLines
  cases port <;> simp only [slotLine] at h <;> rw [h] <;> simp [k1, k2]

/-- A slot whose line is still awaited does not end. -/
theorem checkSlot_awaited (p : Part) (sl : Slot) (port : Port) (x : SlotLine) (hs : p.slotNow = some sl)
    (h : slotLine sl port = some x) (k1 : x.status ≠ .answered) (k2 : x.status ≠ .silent) : checkSlot p = p := by
  unfold checkSlot
  rw [hs]
  dsimp only
  rw [slotDone_awaited sl port x h k1 k2]
  rfl

/-! ### A port on which no line is expected -/

theorem modLine_lineUnexpected (port : Port) (f : SlotLine → SlotLine) (p : Part) (h : p.lineUnexpected port) :
    modLine port f p = p := by
  rcases h with h | ⟨sl, other, y, h1, h2, _⟩
  · exact modLine_none port f p h
  · exact modLine_unexpected port f p sl h1 h2

/-- The end of a frame on a port without an expected line changes no slot. -/
theorem frameEnds_lineUnexpected (port : Port) (p : Part) (h : p.lineUnexpected port) : frameEnds port p = p := by
  unfold frameEnds
  rw [modLine_lineUnexpected port _ p h]
  rcases h with h | ⟨sl, other, y, h1, _, h3, h4, h5⟩
  · exact checkSlot_none p h
  · exact checkSlot_awaited p sl other y h1 h3 h4 h5

/-- The first character of a frame on a port without an expected line changes no slot. -/
theorem noteFirst_lineUnexpected (port : Port) (p : Part) (h : p.lineUnexpected port) : noteFirst port p = p := by
  unfold noteFirst
  split
  · exact modLine_lineUnexpected port _ p h
  · rfl

end Sys2Proof.Machine
end

