-- ==== Sys2Proof/Laws/Cycles.lean ====
section
/-! SUPPORT. Master cycles (R157, R158) and the frames that pass by the slot in progress (R161 to R163). -/

namespace Sys2Proof.Machine

/-- A frame handed to a port (R129). -/
theorem handFrame_link (port : Port) (f : TxFrame) (p : Part) :
    (handFrame port f p).link = p.link.setPort port ((p.link.port port).handed f) := by
  unfold handFrame PortState.handed satInc
  rfl

/-- Frames handed to ports change the link alone. -/
theorem handAll_only (l : List Port) (f : TxFrame) : 
    ∀ p : Part, handAll l f p = { p with link := (handAll l f p).link } := by
  unfold handAll
  induction l with
  | nil => intro p; rfl
  | cons a l ih =>
    intro p
    rw [List.foldl_cons, ih]
    rfl

theorem handAll_settings (l : List Port) (f : TxFrame) :
    ∀ p : Part, (handAll l f p).link.settings = p.link.settings ∧ (handAll l f p).link.pending = p.link.pending := by
  unfold handAll
  induction l with
  | nil => intro p; exact ⟨rfl, rfl⟩
  | cons a l ih =>
    intro p
    rw [List.foldl_cons, (ih _).1, (ih _).2, handFrame_link]; simp

/-- Pending link settings come into force (R136). -/
theorem takePendingSettings_eq (p : Part) :
    takePendingSettings p = { p with link := { p.link with settings := p.link.pending.getD p.link.settings, pending := none } } := by
  unfold takePendingSettings
  cases h : p.link.pending
  · simp only [Option.getD_none]
    have : p.link = { p.link with pending := none } := by cases hp : p.link; simp [hp] at h; simp [h]
    rw [← this]
  · rfl

/-- A frame handed to several ports reaches each of them once. -/
theorem handAll_port (l : List Port) (f : TxFrame) (hl : l.Nodup) :
    ∀ (p : Part) (port : Port), (handAll l f p).link.port port
      = if port ∈ l then (p.link.port port).handed f else p.link.port port := by
  unfold handAll
  induction l with
  | nil => intro p port; simp
  | cons a l ih =>
    intro p port
    rw [List.foldl_cons, ih (List.nodup_cons.1 hl).2, handFrame_link, port_setPort]
    by_cases h : port = a
    · subst h
      simp [(List.nodup_cons.1 hl).1]
    · have h' : ¬ a = port := fun x => h x.symm
      simp [h, h']

/-- The mark of a master cycle goes to the three ports (R157). -/
theorem handAll_mark (q : Part) (c : Nat) (port : Port) :
    ((handAll [.carA, .carB, .dispatch] ⟨wireChars (.cycleMark (BitVec.ofNat 8 c)), false⟩ q).link.port port)
      = (q.link.port port).handed (markFrame c) := by
  unfold handAll
  simp only [List.foldl_cons, List.foldl_nil, handFrame_link, port_setPort]
  cases port <;> rfl

theorem matched_iff (c : Nat) (e : ScheduleEntry) : entryMatched c e = true ↔ e.matchedBy c := by
  unfold entryMatched ScheduleEntry.matchedBy; simp

/-- Frames handed to ports leave the shared counters and the settings. -/
theorem handAll_ports (l : List Port) (f : TxFrame) : ∀ p : Part,
    (handAll l f p).link = { p.link with
      dispatch := (handAll l f p).link.dispatch
      carA := (handAll l f p).link.carA
      carB := (handAll l f p).link.carB } := by
  unfold handAll
  induction l with
  | nil =>
    intro p
    rfl
  | cons a l ih =>
    intro p
    rw [List.foldl_cons, ih, handFrame_link]
    cases a <;> rfl

/-! ### The walk (R158) -/

theorem nextEntry_some (p : Part) (n : Nat) (k : Fin 64) (h : p.nextEntry n = some k) :
    (n ≤ k.val ∧ p.active.schedule[k.val].matchedBy (p.master.cycle.getD 0))
      ∧ ∀ j : Fin 64, n ≤ j.val ∧ p.active.schedule[j.val].matchedBy (p.master.cycle.getD 0) → k.val ≤ j.val := by
  unfold Part.nextEntry Part.entry at h
  have m := List.find?_some h
  rw [Bool.and_eq_true, decide_eq_true_eq] at m
  refine ⟨⟨m.1, (matched_iff _ _).1 m.2⟩, fun j ⟨hn, hj⟩ => ?_⟩
  rw [List.find?_eq_some_iff_append] at h
  obtain ⟨_, a, b, hab, before⟩ := h
  apply Nat.le_of_not_lt
  intro hlt
  have hs : List.Pairwise (· < ·) (List.finRange 64) := List.pairwise_lt_finRange 64
  have hj' : j ∈ a ++ k :: b := by
    rw [← hab]
    exact List.mem_finRange j
  rw [hab] at hs
  rw [List.mem_append, List.mem_cons] at hj'
  rcases hj' with x | x | x
  · have y := before j x
    rw [(matched_iff _ _).2 hj, decide_eq_true hn] at y
    simp at y
  · subst x
    omega
  · have y : k.val < j.val := (List.pairwise_cons.1 (List.pairwise_append.1 hs).2.1).1 j x
    omega

theorem nextEntry_none (p : Part) (n : Nat) (h : p.nextEntry n = none) (k : Fin 64) :
    ¬ (n ≤ k.val ∧ p.active.schedule[k.val].matchedBy (p.master.cycle.getD 0)) := by
  unfold Part.nextEntry Part.entry at h
  rw [List.find?_eq_none] at h
  rintro ⟨hn, hk⟩
  apply h k (List.mem_finRange k)
  rw [(matched_iff _ _).2 hk, decide_eq_true hn]
  rfl

/-- The lines of a slot that opens over the ports of b, and the ports when its frame has been handed to them. -/
theorem newSlot_pollsOn (b x t : Part) (ports : List Port) (f : TxFrame) (kind : SlotKind) (address : Byte) (held : Bool)
    (bound : Timer) (hn : ports.Nodup) (hx : x.link = b.link) (ht : t.link = (handAll ports f x).link) :
    t.pollsOn b.link.port (b.newSlot kind address ports held bound) ports f := by
  intro port
  have hp := handAll_port ports f hn x port
  rw [← ht, hx] at hp
  have hs : t.link.settings = b.link.settings := by
    rw [ht, (handAll_settings ports f x).1, hx]
  have sl : slotLine (b.newSlot kind address ports held bound) port = openedLine b b.link.settings.replyLimit ports port := by
    cases port <;> rfl
  rw [sl, hs]
  unfold openedLine Part.hasRoom
  refine ⟨fun h => ⟨?_, ?_⟩, fun h => ⟨?_, ?_⟩⟩
  · rw [hp, if_pos h]
  · rw [if_pos h]
    simp only [decide_eq_true_eq]
  · rw [hp, if_neg h]
  · rw [if_neg h]

/-- The slot of a matched entry opens as R159 and R160 say. -/
theorem openEntry_opens (b : Part) (k : Fin 64) :
    openEntry k b = { b with
      link := { b.link with
        dispatch := (openEntry k b).link.dispatch
        carA := (openEntry k b).link.carA
        carB := (openEntry k b).link.carB }
      master := { b.master with
        walk := some k
        slot := (openEntry k b).master.slot } }
    ∧ b.opensEntry (openEntry k b) b.link.port k := by
  have fits : ∀ l : Lines, (linePorts l).Nodup := fun l => by cases l <;> decide
  have en : b.entry k = b.active.schedule[k.val] := rfl
  unfold Part.opensEntry openEntry
  dsimp only
  rw [en]
  cases ht : b.active.schedule[k.val].target with
  | car address lines =>
    dsimp only
    generalize hf : (⟨wireChars (.carOrder address (b.issuedOrder address none).1), true⟩ : TxFrame) = f
    have o := handAll_only (linePorts lines) f { b with master := { b.master with walk := some k } }
    have g := handAll_ports (linePorts lines) f { b with master := { b.master with walk := some k } }
    have ss := (handAll_settings (linePorts lines) f { b with master := { b.master with walk := some k } }).1
    generalize hq : handAll (linePorts lines) f { b with master := { b.master with walk := some k } } = q at o g ss
    refine ⟨?_, _, rfl, rfl, ?_, ?_, rfl, rfl, rfl, ?_⟩
    · conv => lhs; rw [o, g]
    · exact (congrArg LinkSettings.replyLimit ss).symm
    · exact (congrArg (fun x : LinkSettings => Timer.running x.cyclePeriod) ss).symm
    · rw [hf]
      have ql : q.link = (handAll (linePorts lines) f { b with master := { b.master with walk := some k } }).link := by rw [hq]
      exact newSlot_pollsOn b { b with master := { b.master with walk := some k } } _ _ f _ _ _ _ (fits lines) rfl ql
  | plant =>
    dsimp only
    generalize hf : (⟨wireChars (.plantPoll b.link.settings.plantNode), true⟩ : TxFrame) = f
    have o := handAll_only [.dispatch] f { b with master := { b.master with walk := some k } }
    have g := handAll_ports [.dispatch] f { b with master := { b.master with walk := some k } }
    have ss := (handAll_settings [.dispatch] f { b with master := { b.master with walk := some k } }).1
    generalize hq : handAll [.dispatch] f { b with master := { b.master with walk := some k } } = q at o g ss
    refine ⟨?_, _, rfl, rfl, ?_, ?_, rfl, ?_, rfl, ?_⟩
    · conv => lhs; rw [o, g]
    · exact (congrArg LinkSettings.replyLimit ss).symm
    · exact (congrArg (fun x : LinkSettings => Timer.running x.cyclePeriod) ss).symm
    · exact (congrArg LinkSettings.plantNode ss).symm
    · have e : q.link.settings.plantNode = b.link.settings.plantNode := congrArg LinkSettings.plantNode ss
      dsimp only
      rw [e, hf]
      have ql : q.link = (handAll [.dispatch] f { b with master := { b.master with walk := some k } }).link := by rw [hq]
      exact newSlot_pollsOn b { b with master := { b.master with walk := some k } } _ _ f _ _ _ _ (by decide) rfl ql

/-! ### A master cycle (R157) -/

/-- The part after a master cycle has begun and its mark has made the link L. -/
def begunCycle (q : Part) (L : Link) : Part :=
  { q with
    link := L
    master := { q.master with
      cycle := some q.master.nextCycle
      nextCycle := (q.master.nextCycle + 1) % 64
      period := .running L.settings.cyclePeriod
      phase := .slots
      walk := some 0 } }

theorem beginCycle_begun (q : Part) : ∃ L : Link, beginCycle q = begunCycle q L
    ∧ L = { q.link with
      dispatch := L.dispatch
      carA := L.carA
      carB := L.carB
      settings := q.link.pending.getD q.link.settings
      pending := none }
    ∧ L.port = fun port => (q.link.port port).handed (markFrame q.master.nextCycle) := by
  unfold beginCycle
  dsimp only
  have M := handAll_mark q q.master.nextCycle
  have S := handAll_ports [.carA, .carB, .dispatch] ⟨wireChars (.cycleMark (BitVec.ofNat 8 q.master.nextCycle)), false⟩ q
  rw [takePendingSettings_eq, handAll_only]
  generalize (handAll _ _ q).link = L at M S ⊢
  refine ⟨_, rfl, ?_, ?_⟩
  · rw [S]
  · funext port
    rw [← M]
    cases port <;> rfl

/-- A master cycle begins as R157 and R158 say. -/
theorem startCycle_begins (q : Part) : q.beginsCycle (startCycle q) := by
  obtain ⟨L, e, l1, l2⟩ := beginCycle_begun q
  have set : L.settings = q.link.pending.getD q.link.settings := by rw [l1]
  unfold startCycle
  rw [e]
  dsimp only
  have some_ := nextEntry_some (begunCycle q L) 0
  have none_ := nextEntry_none (begunCycle q L) 0
  cases hf : (begunCycle q L).nextEntry 0 with
  | none =>
    refine ⟨?_, fun _ => ⟨rfl, rfl, rfl, fun port => congrFun l2 port⟩, fun k hk => ?_⟩
    · dsimp only
      rw [show (begunCycle q L).link = L from rfl, ← l1, ← set]
      rfl
    · exact absurd ⟨Nat.zero_le _, hk⟩ (none_ hf k)
  | some k =>
    obtain ⟨⟨_, m⟩, first⟩ := some_ k hf
    obtain ⟨o1, o2⟩ := openEntry_opens (begunCycle q L) k
    dsimp only
    generalize openEntry k (begunCycle q L) = t at o1 o2 ⊢
    have ph : t.master.phase = .slots := by rw [o1]; rfl
    have wk : t.master.walk = some k := by rw [o1]
    have lk : { q.link with
        dispatch := t.link.dispatch
        carA := t.link.carA
        carB := t.link.carB
        settings := q.link.pending.getD q.link.settings
        pending := none } = ({ L with dispatch := t.link.dispatch, carA := t.link.carA, carB := t.link.carB } : Link) := by
      rw [l1]
    refine ⟨?_, fun h => absurd m (h k), fun k' hk' hlt => ?_⟩
    · dsimp only
      rw [lk, ph, wk, ← set]
      exact o1
    · have kk : k' = k := by
        apply Fin.ext
        have x := first k' ⟨Nat.zero_le _, hk'⟩
        have y : ¬ k.val < k'.val := fun h => hlt k h m
        omega
      subst kk
      refine ⟨ph, wk, ?_⟩
      have before : (begunCycle q L).link.port = _ := l2
      rw [before] at o2
      exact o2

theorem completeHandback_handedBack (p : Part) : completeHandback p = p.handedBack := rfl

/-- The walk goes on as R158 and R164 say. -/
theorem continueWalk_walksOn (p : Part) (position : Nat) : p.walksOn (continueWalk position p) position := by
  unfold continueWalk
  have some_ := nextEntry_some p position
  have none_ := nextEntry_none p position
  cases hf : p.nextEntry position with
  | none =>
    refine ⟨fun k hk => absurd hk (none_ hf k), fun _ => ⟨fun h => ?_, fun h h' => ?_, fun h h' => ?_⟩⟩
    · dsimp only
      rw [if_pos h]
      rfl
    · dsimp only
      rw [if_neg h, if_pos h']
      exact startCycle_begins _
    · dsimp only
      rw [if_neg h, if_neg h']
  | some k =>
    obtain ⟨m, first⟩ := some_ k hf
    obtain ⟨o1, o2⟩ := openEntry_opens p k
    refine ⟨fun k' hk' hlt => ?_, fun h => absurd m (h k)⟩
    have kk : k' = k := by
      apply Fin.ext
      have x := first k' hk'
      have y := hlt k m
      omega
    subst kk
    exact ⟨o1, o2⟩

/-! ### The slot in progress (R146, R148, R159, R160) -/

theorem awaits_of_notDone (sl : Slot) (h : slotDone sl = false) : ∃ port, sl.awaits port := by
  unfold slotDone expectedLines at h
  have e : ∀ (o : Option SlotLine), o.toList.all (fun x => x.status == .answered || x.status == .silent) = false →
      ∃ x, o = some x ∧ x.status ≠ .answered ∧ x.status ≠ .silent := fun o k => by
    cases o with
    | none => cases k
    | some x =>
      refine ⟨x, rfl, ?_, ?_⟩
      · intro y
        simp [y] at k
      · intro y
        simp [y] at k
  rw [List.all_append, List.all_append, Bool.and_eq_false_iff, Bool.and_eq_false_iff] at h
  rcases h with (h | h) | h
  · obtain ⟨x, k⟩ := e _ h
    exact ⟨.dispatch, x, k⟩
  · obtain ⟨x, k⟩ := e _ h
    exact ⟨.carA, x, k⟩
  · obtain ⟨x, k⟩ := e _ h
    exact ⟨.carB, x, k⟩

/-- A slot is done exactly when no line of it is awaited. -/
theorem slotDone_iff (sl : Slot) : slotDone sl = true ↔ ∀ port, ¬ sl.awaits port := by
  constructor
  · rintro h port ⟨x, a, b, c⟩
    rw [slotDone_awaited sl port x a b c] at h
    cases h
  · intro h
    by_cases d : slotDone sl = true
    · exact d
    · obtain ⟨port, k⟩ := awaits_of_notDone sl (Bool.eq_false_iff.2 d)
      exact absurd k (h port)

theorem setSlotNow_same (p : Part) (sl : Slot) (h : p.slotNow = some sl) : p.setSlotNow (some sl) = p := by
  unfold Part.slotNow at h
  unfold Part.setSlotNow
  split <;> rename_i k
  · rw [if_pos k] at h
    rw [← h]
  · rw [if_neg k] at h
    rw [← h]

theorem settleSlot_master (sl : Slot) (p : Part) : (settleSlot sl p).master = p.master := (settleSlot_same sl p).2

/-- A slot whose lines have just changed goes on. -/
theorem checkSlot_goesOn (p : Part) (sl : Slot) : p.slotGoesOn (checkSlot (p.setSlotNow (some sl))) sl := by
  unfold checkSlot
  rw [slotNow_setSlotNow]
  dsimp only
  refine ⟨fun h => ?_, fun h => ?_⟩
  · rw [if_neg]
    intro d
    obtain ⟨port, k⟩ := h
    exact (slotDone_iff sl).1 d port k
  · rw [if_pos ((slotDone_iff sl).2 h)]
    unfold Part.setSlotNow
    refine ⟨fun m => ?_, fun k m hs hk => ?_⟩
    · rw [if_pos m]
      exact if_pos m
    · rw [if_neg m]
      rw [if_neg (show ¬ ({ p with master := { p.master with slot := some sl } } : Part).master.mode = .relay from m)]
      have e : closeSlot { p with slot := some sl, master := { p.master with slot := none } }
          = settleSlot sl (unmarkQueues { p with master := { p.master with slot := none } }) := by
        unfold closeSlot
        dsimp only
        rw [← hs]
      rw [e]
      unfold endMasterSlot
      dsimp only
      generalize hq : settleSlot sl (unmarkQueues { p with master := { p.master with slot := none } }) = q
      have w : q.walkNext = k.val + 1 := by
        unfold Part.walkNext
        rw [← hq, settleSlot_master]
        change (match p.master.walk with | some k => k.val + 1 | none => 64) = _
        rw [hk]
      rw [w]
      exact continueWalk_walksOn q _

theorem checkSlot_slotNow (p : Part) (sl : Slot) (h : p.slotNow = some sl) : p.slotGoesOn (checkSlot p) sl := by
  have e := checkSlot_goesOn p sl
  rw [setSlotNow_same p sl h] at e
  exact e

/-- A frame that is neither an answer nor a duplicate ends on a port. -/
theorem frameEnds_endsOn (port : Port) (p : Part) (sl : Slot) (h : p.slotNow = some sl) :
    p.frameEndsOn (frameEnds port p) port sl := by
  unfold frameEnds
  refine ⟨fun x hx hr => ?_, fun hn => ?_⟩
  · rw [modLine_some port _ p sl x h hx, if_pos hr]
    refine ⟨fun n t => ?_, fun t => ?_⟩
    · rw [t]
      exact checkSlot_goesOn p _
    · rw [t]
      exact checkSlot_goesOn p _
  · have e : modLine port (fun x =>
        if x.status = .receiving then { x with status := if x.timer.isRunning then .waiting else .silent } else x) p = p := by
      cases hx : slotLine sl port with
      | none => exact modLine_unexpected port _ p sl h hx
      | some x =>
        rw [modLine_some port _ p sl x h hx, if_neg (hn x hx)]
        have same : setSlotLine sl port x = sl := by
          cases port <;> (unfold slotLine at hx; unfold setSlotLine; dsimp only at hx ⊢; rw [← hx])
        rw [same]
        exact setSlotNow_same p sl h
    rw [e]
    exact checkSlot_slotNow p sl h

end Sys2Proof.Machine
end

