-- ==== Sys2Proof/Laws/Selection.lean ====
section
/-! SUPPORT. What a service selection (R97 to R99) does to every car record, said once. -/

namespace Sys2Proof.Machine

/-- A fold that acts on the picked cars of a list while some are needed acts on the first ones picked. -/
theorem foldl_picks (f act : Part → CarIdx → Part) (need : Part → Nat) (pick : Part → CarIdx → Bool)
    (changed : Part → CarIdx → Car)
    (hf : ∀ p i, f p i = if 0 < need p ∧ pick p i = true then act p i else p)
    (hcar : ∀ p i j, (act p i).car j = if i = j then changed p i else p.car j)
    (hactive : ∀ p i, (act p i).active = p.active)
    (hpick : ∀ p q i, p.active = q.active → p.car i = q.car i → pick p i = pick q i ∧ changed p i = changed q i)
    (hneed : ∀ p i, 0 < need p → pick p i = true → need (act p i) = need p - 1) :
    ∀ (l : List CarIdx) (p : Part), l.Nodup →
      (l.foldl f p).active = p.active ∧ need (l.foldl f p) = need p - (l.filter (pick p)).length
      ∧ ∀ j, (l.foldl f p).car j = if j ∈ (l.filter (pick p)).take (need p) then changed p j else p.car j
  | [], p, _ => by simp
  | i :: l, p, hd => by
    have hd' := List.nodup_cons.mp hd
    rw [List.foldl_cons, hf]
    by_cases hp : pick p i = true
    · rw [List.filter_cons_of_pos hp]
      by_cases hn : 0 < need p
      · rw [if_pos ⟨hn, hp⟩]
        obtain ⟨k1, k2, k3⟩ := foldl_picks f act need pick changed hf hcar hactive hpick hneed l (act p i) hd'.2
        have same : ∀ j, j ∈ l → (act p i).car j = p.car j := by
          intro j hj
          rw [hcar, if_neg]
          rintro rfl
          exact hd'.1 hj
        have fe : l.filter (pick (act p i)) = l.filter (pick p) :=
          List.filter_congr fun j hj => (hpick _ _ j (hactive p i) (same j hj)).1
        have take : (i :: l.filter (pick p)).take (need p) = i :: (l.filter (pick p)).take (need p - 1) := by
          obtain ⟨n, hn'⟩ : ∃ n, need p = n + 1 := ⟨need p - 1, by omega⟩
          rw [hn', List.take_succ_cons]
          rfl
        refine ⟨k1.trans (hactive p i), ?_, ?_⟩
        · rw [k2, fe, hneed p i hn hp, List.length_cons]
          omega
        · intro j
          rw [k3, fe, hneed p i hn hp, take, hcar]
          by_cases hij : i = j
          · subst hij
            have x : i ∉ (l.filter (pick p)).take (need p - 1) :=
              fun h => hd'.1 (List.mem_filter.mp (List.mem_of_mem_take h)).1
            simp [x]
          · have hji : j ≠ i := Ne.symm hij
            simp only [List.mem_cons, hji, false_or, if_neg hij]
            split
            · exact (hpick _ _ j (hactive p i) (by rw [hcar, if_neg hij])).2
            · rfl
      · rw [if_neg fun h => hn h.1]
        obtain ⟨k1, k2, k3⟩ := foldl_picks f act need pick changed hf hcar hactive hpick hneed l p hd'.2
        have z : need p = 0 := by omega
        refine ⟨k1, by rw [k2, z]; omega, ?_⟩
        intro j
        rw [k3, z]
        simp
    · rw [if_neg fun h => hp h.2, List.filter_cons_of_neg hp]
      exact foldl_picks f act need pick changed hf hcar hactive hpick hneed l p hd'.2

/-! ### The counted cars of a group (R97) -/

theorem length_filter_sum {α : Type} (b : α → Bool) (l : List α) :
    (l.filter b).length = (l.map fun x => if b x then 1 else 0).sum := by
  induction l with
  | nil => rfl
  | cons x l h =>
    by_cases k : b x = true
    · simp [k, h, Nat.add_comm]
    · simp [k, h]

/-- The number of counted cars after a change of one record. -/
theorem counted_change (p q : Part) (g : GroupIdx) (i : CarIdx) (h : ∀ j, i ≠ j → q.isCounted g j = p.isCounted g j) :
    q.counted g + (if p.isCounted g i then 1 else 0) = p.counted g + (if q.isCounted g i then 1 else 0) := by
  unfold Part.counted
  rw [length_filter_sum, length_filter_sum]
  have u := sum_update (fun j => if p.isCounted g j then 1 else 0) i (if q.isCounted g i then 1 else 0) allCars nodup_allCars
    (mem_allCars i)
  rw [← u]
  congr 2
  apply List.map_congr_left
  intro j _
  by_cases hij : i = j
  · subst hij
    simp
  · simp only [if_neg hij, h j hij]

/-- Where every counted car is listed, none twice, the counted cars are those of the list. -/
theorem counted_listed (p : Part) (g : GroupIdx) (l : List CarIdx) (hd : l.Nodup) (h : ∀ i, p.isCounted g i = true → i ∈ l) :
    p.counted g = (l.filter (p.isCounted g)).length := by
  unfold Part.counted
  apply List.Perm.length_eq
  refine (List.perm_ext_iff_of_nodup (nodup_allCars.filter _) (hd.filter _)).mpr ?_
  intro i
  simp only [List.mem_filter, mem_allCars, true_and]
  exact ⟨fun k => ⟨h i k, k⟩, fun k => k.2⟩

/-! ### The three steps -/

/-- The record of a demoted car (R99). -/
def demotedCar (floor : Nat) (c : Car) : Car :=
  if c.holdsRun then { c with pendingRecall := true }
  else { c with
    duty := if passesStanding floor c then .parked else .recall
    pendingRecall := false }

theorem car_demote (i j : CarIdx) (p : Part) :
    (demote i p).car j = if i = j then demotedCar (p.recallFloor i) (p.car i) else p.car j := by
  unfold demote setDuty demotedCar
  split
  · rw [car_modCar]
  · rw [car_modCar]

theorem car_promote (i j : CarIdx) (p : Part) :
    (promote i p).car j = if i = j then { p.car i with duty := .service, pendingRecall := false } else p.car j := by
  unfold promote setDuty
  rw [car_modCar]

theorem demote_active (i : CarIdx) (p : Part) : (demote i p).active = p.active := by rw [(demote_dutyOnly i p).same]

theorem group_congr {p q : Part} (h : q.active = p.active) (i : CarIdx) : q.group i = p.group i := by
  unfold Part.group Part.config
  rw [h]

theorem groupRec_congr {p q : Part} (h : q.active = p.active) (g : GroupIdx) : q.groupRec g = p.groupRec g := by
  unfold Part.groupRec
  rw [h]

theorem recallFloor_congr {p q : Part} (h : q.active = p.active) (i : CarIdx) : q.recallFloor i = p.recallFloor i := by
  unfold Part.recallFloor Part.config Part.group Part.config Part.groupRec
  rw [h]

theorem isCounted_congr {p q : Part} (h : q.active = p.active) (g : GroupIdx) (i : CarIdx) (k : q.car i = p.car i) :
    q.isCounted g i = p.isCounted g i := by
  unfold Part.isCounted
  rw [group_congr h, k]

theorem isCandidate_congr {p q : Part} (h : q.active = p.active) (g : GroupIdx) (i : CarIdx) (k : q.car i = p.car i) :
    q.isCandidate g i = p.isCandidate g i := by
  unfold Part.isCandidate
  rw [group_congr h, k]

/-- A demoted car is no longer counted. -/
theorem demote_notCounted (g : GroupIdx) (i : CarIdx) (p : Part) : (demote i p).isCounted g i = false := by
  unfold Part.isCounted
  rw [car_demote, if_pos rfl]
  unfold demotedCar
  repeat' split
  all_goals simp

/-- A promoted car of the group is counted. -/
theorem promote_counted (g : GroupIdx) (i : CarIdx) (p : Part) (h : p.group i = g) : (promote i p).isCounted g i = true := by
  unfold Part.isCounted
  rw [car_promote, if_pos rfl, group_congr (p := p) (q := promote i p) rfl, h]
  simp

/-- Step 1 (R98): the unlisted SERVICE cars of the group are demoted. -/
theorem car_demoteUnlisted (g : GroupIdx) (p : Part) (j : CarIdx) :
    (demoteUnlisted g p).car j
      = if p.group j = g ∧ (p.car j).duty = .service ∧ j ∉ (p.groupRec g).serviceList then
          demotedCar (p.recallFloor j) (p.car j) else p.car j := by
  unfold demoteUnlisted
  rw [foldl_ownCar _ (fun p j =>
    if p.group j = g ∧ (p.car j).duty = .service ∧ j ∉ (p.groupRec g).serviceList then
      demotedCar (p.recallFloor j) (p.car j) else p.car j)]
  · simp
  · intro p i j
    split
    · rw [car_demote]
    · by_cases hij : i = j
      · subst hij
        simp
      · simp [hij]
  · intro p q i h1 h2
    rw [group_congr h1, groupRec_congr h1, recallFloor_congr h1, h2]
  · intro p i
    split
    · exact demote_active i p
    · rfl
  · exact nodup_allCars

/-- Step 2 (R98): the counted cars that stand last in the list are demoted down to the service count. -/
theorem demoteExcess_spec (g : GroupIdx) (p : Part) (hd : (p.groupRec g).serviceList.Nodup) :
    let q := demoteExcess g p
    q.active = p.active
    ∧ ∀ j, q.car j = if j ∈ ((p.groupRec g).serviceList.reverse.filter (p.isCounted g)).take
          (p.counted g - (p.groupRec g).serviceCount) then demotedCar (p.recallFloor j) (p.car j) else p.car j := by
  have k := foldl_picks
    (fun p i => if (p.groupRec g).serviceCount < p.counted g && p.isCounted g i then demote i p else p)
    (fun p i => demote i p) (fun p => p.counted g - (p.groupRec g).serviceCount) (fun p i => p.isCounted g i)
    (fun p i => demotedCar (p.recallFloor i) (p.car i))
    (by
      intro p i
      simp only [Bool.and_eq_true, decide_eq_true_eq, Nat.sub_pos_iff_lt])
    (fun p i j => car_demote i j p) (fun p i => demote_active i p)
    (by
      intro p q i h1 h2
      exact ⟨isCounted_congr h1 g i h2, by rw [recallFloor_congr h1, h2]⟩)
    (by
      intro p i _ hp
      have c := counted_change p (demote i p) g i fun j hj =>
        isCounted_congr (demote_active i p) g j (by rw [car_demote, if_neg hj])
      rw [hp, demote_notCounted] at c
      simp only [if_true, Bool.false_eq_true, if_false] at c
      rw [groupRec_congr (demote_active i p)]
      omega)
    (p.groupRec g).serviceList.reverse p (List.pairwise_reverse.mpr (hd.imp Ne.symm))
  exact ⟨k.1, k.2.2⟩

/-- Step 3 (R98): the first candidates in list order are promoted up to the service count. -/
theorem promoteCandidates_spec (g : GroupIdx) (p : Part) (hd : (p.groupRec g).serviceList.Nodup) :
    let q := promoteCandidates g p
    q.active = p.active
    ∧ ∀ j, q.car j = if j ∈ ((p.groupRec g).serviceList.filter (p.isCandidate g)).take
          ((p.groupRec g).serviceCount - p.counted g) then { p.car j with duty := .service, pendingRecall := false }
        else p.car j := by
  have k := foldl_picks
    (fun p i => if p.counted g < (p.groupRec g).serviceCount && p.isCandidate g i then promote i p else p)
    (fun p i => promote i p) (fun p => (p.groupRec g).serviceCount - p.counted g) (fun p i => p.isCandidate g i)
    (fun p i => { p.car i with duty := .service, pendingRecall := false })
    (by
      intro p i
      simp only [Bool.and_eq_true, decide_eq_true_eq, Nat.sub_pos_iff_lt])
    (fun p i j => car_promote i j p) (fun _ _ => rfl)
    (by
      intro p q i h1 h2
      exact ⟨isCandidate_congr h1 g i h2, by rw [h2]⟩)
    (by
      intro p i _ hp
      have c := counted_change p (promote i p) g i fun j hj =>
        isCounted_congr (p := p) (q := promote i p) rfl g j (by rw [car_promote, if_neg hj])
      unfold Part.isCandidate at hp
      simp only [Bool.and_eq_true, beq_iff_eq, Bool.or_eq_true, Bool.not_eq_true'] at hp
      have n : p.isCounted g i = false := by
        unfold Part.isCounted
        rcases hp.2 with h | h
        · simp [h.1]
        · simp [h.2]
      rw [n, promote_counted g i p hp.1] at c
      simp only [if_true, Bool.false_eq_true, if_false] at c
      have e : (promote i p).groupRec g = p.groupRec g := rfl
      rw [e]
      omega)
    (p.groupRec g).serviceList p hd
  exact ⟨k.1, k.2.2⟩

/-! ### The selection of one group, and of all (R98) -/

/-- The listed cars of the group that are counted. -/
def Part.listedCounted (p : Part) (g : GroupIdx) : List CarIdx := (p.groupRec g).serviceList.filter (p.isCounted g)

/-- The listed cars that may be promoted. -/
def Part.listedCandidates (p : Part) (g : GroupIdx) : List CarIdx := (p.groupRec g).serviceList.filter (p.isCandidate g)

/-- The listed cars that serve after the selection. -/
def Part.listedKept (p : Part) (g : GroupIdx) : List CarIdx :=
  if (p.groupRec g).serviceCount ≤ (p.listedCounted g).length then (p.listedCounted g).take (p.groupRec g).serviceCount
  else p.listedCounted g ++ (p.listedCandidates g).take ((p.groupRec g).serviceCount - (p.listedCounted g).length)

theorem afterSelection_eq (p : Part) (i : CarIdx) :
    p.afterSelection i =
      if i ∈ p.listedKept (p.group i) then { p.car i with duty := .service, pendingRecall := false }
      else if (p.car i).duty = .service
          ∧ (i ∉ (p.groupRec (p.group i)).serviceList ∨ (p.car i).pendingRecall = false) then
        demotedCar (p.recallFloor i) (p.car i)
      else p.car i := by
  have a : ∀ g, p.listedCounted g = (p.groupRec g).serviceList.filter fun j =>
      p.group j = g ∧ (p.car j).duty = .service ∧ (p.car j).pendingRecall = false := by
    intro g
    unfold Part.listedCounted
    congr 1
    funext j
    unfold Part.isCounted
    rw [Bool.eq_iff_iff]
    simp [and_assoc]
  have b : ∀ g, p.listedCandidates g = (p.groupRec g).serviceList.filter fun j =>
      p.group j = g ∧ ((p.car j).duty = .parked ∧ (p.car j).blocked = false
        ∨ (p.car j).duty = .service ∧ (p.car j).pendingRecall = true) := by
    intro g
    unfold Part.listedCandidates
    congr 1
    funext j
    unfold Part.isCandidate
    rw [Bool.eq_iff_iff]
    simp
  unfold Part.afterSelection Part.listedKept demotedCar
  rw [a, b]

theorem counted_service {p : Part} {g : GroupIdx} {i : CarIdx} (h : p.isCounted g i = true) :
    p.group i = g ∧ (p.car i).duty = .service ∧ (p.car i).pendingRecall = false := by
  unfold Part.isCounted at h
  simpa [and_assoc] using h

theorem isCounted_of {p : Part} {i : CarIdx} (h : (p.car i).duty = .service) (k : (p.car i).pendingRecall = false) :
    p.isCounted (p.group i) i = true := by
  unfold Part.isCounted
  simp [h, k]

/-- A counted car that takes SERVICE is as it was. -/
theorem service_same {c : Car} (h : c.duty = .service) (k : c.pendingRecall = false) :
    { c with duty := .service, pendingRecall := false } = c := by
  rw [← h, ← k]

/-- One group's selection. -/
def selectGroup (g : GroupIdx) (p : Part) : Part := promoteCandidates g (demoteExcess g (demoteUnlisted g p))

theorem demoteUnlisted_active (g : GroupIdx) (p : Part) : (demoteUnlisted g p).active = p.active := by
  rw [(demoteUnlisted_dutyOnly g p).same]

theorem car_selectGroup (g : GroupIdx) (p : Part) (hd : (p.groupRec g).serviceList.Nodup) :
    (selectGroup g p).active = p.active
    ∧ ∀ j, (selectGroup g p).car j = if p.group j = g then p.afterSelection j else p.car j := by
  have a1 := demoteUnlisted_active g p
  have c1 := car_demoteUnlisted g p
  unfold selectGroup
  generalize demoteUnlisted g p = p1 at *
  have listed1 : ∀ j, j ∈ (p.groupRec g).serviceList → p1.car j = p.car j := by
    intro j hj
    rw [c1, if_neg]
    exact fun h => h.2.2 hj
  have cc1 : (p.groupRec g).serviceList.filter (p1.isCounted g) = p.listedCounted g :=
    List.filter_congr fun j hj => isCounted_congr a1 g j (listed1 j hj)
  have in1 : ∀ j, p1.isCounted g j = true → j ∈ (p.groupRec g).serviceList := by
    intro j h
    have s := counted_service h
    rw [group_congr a1, c1] at s
    by_cases hj : j ∈ (p.groupRec g).serviceList
    · exact hj
    · exfalso
      split at s
      · obtain ⟨_, x, y⟩ := s
        unfold demotedCar at x y
        split at x
        · rename_i k
          rw [if_pos k] at y
          simp at y
        · split at x
          · simp at x
          · simp at x
      · rename_i k
        exact k ⟨s.1, s.2.1, hj⟩
  have n1 : p1.counted g = (p.listedCounted g).length := by
    rw [← cc1]
    exact counted_listed p1 g _ hd in1
  obtain ⟨a2, c2⟩ := demoteExcess_spec g p1 (by rw [groupRec_congr a1]; exact hd)
  rw [groupRec_congr a1, n1, List.filter_reverse, cc1, List.take_reverse] at c2
  generalize demoteExcess g p1 = p2 at *
  have a20 : p2.active = p.active := a2.trans a1
  obtain ⟨a3, c3⟩ := promoteCandidates_spec g p2 (by rw [groupRec_congr a20]; exact hd)
  rw [groupRec_congr a20] at c3
  generalize promoteCandidates g p2 = p3 at *
  refine ⟨a3.trans a20, ?_⟩
  have dc : (p.listedCounted g).Nodup := hd.filter _
  have memC : ∀ j, j ∈ p.listedCounted g ↔ j ∈ (p.groupRec g).serviceList ∧ p.isCounted g j = true := fun j => List.mem_filter
  by_cases hn : (p.groupRec g).serviceCount ≤ (p.listedCounted g).length
  · have e : (p.listedCounted g).length - ((p.listedCounted g).length - (p.groupRec g).serviceCount)
        = (p.groupRec g).serviceCount := by omega
    rw [e] at c2
    have kept : p.listedKept g = (p.listedCounted g).take (p.groupRec g).serviceCount := by
      unfold Part.listedKept
      rw [if_pos hn]
    generalize (p.groupRec g).serviceCount = n at *
    have apart : ∀ j, j ∈ (p.listedCounted g).take n → j ∉ (p.listedCounted g).drop n := by
      intro j h k
      have x := dc
      rw [← List.take_append_drop n (p.listedCounted g)] at x
      exact (List.nodup_append.mp x).2.2 j h j k rfl
    have n2 : p2.counted g = n := by
      have l2 : p2.counted g = ((p.groupRec g).serviceList.filter (p2.isCounted g)).length := by
        refine counted_listed p2 g _ hd fun j h => ?_
        by_cases hj : j ∈ (p.listedCounted g).drop n
        · exact ((memC j).mp (List.mem_of_mem_drop hj)).1
        · apply in1
          rw [← h]
          exact (isCounted_congr a2 g j (by rw [c2, if_neg]; simpa using hj)).symm
      rw [l2]
      have tl : ((p.listedCounted g).take n).length = n := by
        rw [List.length_take]
        omega
      rw [← tl]
      apply List.Perm.length_eq
      refine (List.perm_ext_iff_of_nodup (hd.filter _) (dc.sublist (List.take_sublist _ _))).mpr fun j => ?_
      rw [List.mem_filter]
      constructor
      · rintro ⟨hj, hc⟩
        have out : j ∉ (p.listedCounted g).drop n := by
          intro k
          have s := counted_service hc
          rw [c2, if_pos (by simpa using k)] at s
          unfold demotedCar at s
          obtain ⟨_, x, y⟩ := s
          split at x
          · rename_i k
            rw [if_pos k] at y
            simp at y
          · split at x
            · simp at x
            · simp at x
        have hc' : j ∈ p.listedCounted g := by
          refine (memC j).mpr ⟨hj, ?_⟩
          rw [← hc]
          exact (isCounted_congr a20 g j (by rw [c2, if_neg (by simpa using out), listed1 j hj])).symm
        rw [← List.take_append_drop n (p.listedCounted g), List.mem_append] at hc'
        exact hc'.resolve_right out
      · intro hj
        have m := (memC j).mp (List.mem_of_mem_take hj)
        refine ⟨m.1, ?_⟩
        rw [← m.2]
        exact isCounted_congr a20 g j (by rw [c2, if_neg (by simpa using apart j hj), listed1 j m.1])
    intro j
    have e3 : p3.car j = p2.car j := by
      rw [c3, n2, Nat.sub_self, List.take_zero, if_neg (by simp)]
    rw [e3, c2]
    simp only [List.mem_reverse]
    by_cases hg : p.group j = g
    · rw [if_pos hg, afterSelection_eq, hg, kept]
      by_cases ht : j ∈ (p.listedCounted g).take n
      · have m := (memC j).mp (List.mem_of_mem_take ht)
        have s := counted_service m.2
        rw [if_pos ht, if_neg (apart j ht), listed1 j m.1, service_same s.2.1 s.2.2]
      · rw [if_neg ht]
        by_cases hs : (p.car j).duty = .service ∧ (j ∉ (p.groupRec g).serviceList ∨ (p.car j).pendingRecall = false)
        · rw [if_pos hs]
          by_cases hj : j ∈ (p.groupRec g).serviceList
          · have m : j ∈ p.listedCounted g :=
              (memC j).mpr ⟨hj, hg ▸ isCounted_of hs.1 (hs.2.resolve_left fun h => h hj)⟩
            rw [← List.take_append_drop n (p.listedCounted g), List.mem_append] at m
            rw [if_pos (m.resolve_left ht), listed1 j hj, recallFloor_congr a1]
          · have nd : j ∉ (p.listedCounted g).drop n := fun h => hj ((memC j).mp (List.mem_of_mem_drop h)).1
            rw [if_neg nd, c1, if_pos ⟨hg, hs.1, hj⟩]
        · have nd : j ∉ (p.listedCounted g).drop n := by
            intro h
            have s := counted_service ((memC j).mp (List.mem_of_mem_drop h)).2
            exact hs ⟨s.2.1, .inr s.2.2⟩
          rw [if_neg hs, if_neg nd, c1, if_neg]
          exact fun h => hs ⟨h.2.1, .inl h.2.2⟩
    · have nd : j ∉ (p.listedCounted g).drop n := fun h => hg (counted_service ((memC j).mp (List.mem_of_mem_drop h)).2).1
      rw [if_neg hg, if_neg nd, c1, if_neg fun h => hg h.1]
  · have e : (p.listedCounted g).length - ((p.listedCounted g).length - (p.groupRec g).serviceCount)
        = (p.listedCounted g).length := by omega
    rw [e, List.drop_length, List.reverse_nil] at c2
    have e2 : ∀ j, p2.car j = p1.car j := by
      intro j
      rw [c2, if_neg (by simp)]
    have n2 : p2.counted g = (p.listedCounted g).length := by
      rw [← n1]
      unfold Part.counted
      congr 2
      funext j
      exact isCounted_congr a2 g j (e2 j)
    have k2 : (p.groupRec g).serviceList.filter (p2.isCandidate g) = p.listedCandidates g :=
      List.filter_congr fun j hj => isCandidate_congr a20 g j ((e2 j).trans (listed1 j hj))
    rw [n2, k2] at c3
    have kept : p.listedKept g = p.listedCounted g
        ++ (p.listedCandidates g).take ((p.groupRec g).serviceCount - (p.listedCounted g).length) := by
      unfold Part.listedKept
      rw [if_neg hn]
    generalize (p.groupRec g).serviceCount - (p.listedCounted g).length = n at *
    intro j
    rw [c3, e2]
    have memK : j ∈ (p.listedCandidates g).take n → j ∈ (p.groupRec g).serviceList ∧ p.isCandidate g j = true :=
      fun h => List.mem_filter.mp (List.mem_of_mem_take h)
    by_cases hg : p.group j = g
    · rw [if_pos hg, afterSelection_eq, hg, kept]
      by_cases hk : j ∈ (p.listedCandidates g).take n
      · rw [if_pos hk, if_pos (List.mem_append.mpr (.inr hk)), listed1 j (memK hk).1]
      · rw [if_neg hk]
        by_cases hc : j ∈ p.listedCounted g
        · have m := (memC j).mp hc
          have s := counted_service m.2
          rw [if_pos (List.mem_append.mpr (.inl hc)), listed1 j m.1, service_same s.2.1 s.2.2]
        · rw [if_neg fun h => (List.mem_append.mp h).elim hc hk, c1]
          by_cases hj : j ∈ (p.groupRec g).serviceList
          · rw [if_neg fun h => h.2.2 hj, if_neg]
            rintro ⟨x, y⟩
            exact hc ((memC j).mpr ⟨hj, hg ▸ isCounted_of x (y.resolve_left fun h => h hj)⟩)
          · by_cases hs : (p.car j).duty = .service
            · rw [if_pos ⟨hg, hs, hj⟩, if_pos ⟨hs, .inl hj⟩]
            · rw [if_neg fun h => hs h.2.1, if_neg fun h => hs h.1]
    · rw [if_neg hg, if_neg, c1, if_neg fun h => hg h.1]
      intro h
      have x := (memK h).2
      unfold Part.isCandidate at x
      simp only [Bool.and_eq_true, beq_iff_eq] at x
      exact hg x.1

/-- The selection of a car's group reads that group's cars alone. -/
theorem afterSelection_congr (p q : Part) (j : CarIdx) (h : q.active = p.active)
    (k : ∀ i, p.group i = p.group j → q.car i = p.car i) : q.afterSelection j = p.afterSelection j := by
  have a : q.listedCounted (p.group j) = p.listedCounted (p.group j) := by
    unfold Part.listedCounted
    rw [groupRec_congr h]
    refine List.filter_congr fun i _ => ?_
    by_cases hi : p.group i = p.group j
    · exact isCounted_congr h _ i (k i hi)
    · unfold Part.isCounted
      rw [group_congr h, beq_eq_false_iff_ne.mpr hi]
      rfl
  have b : q.listedCandidates (p.group j) = p.listedCandidates (p.group j) := by
    unfold Part.listedCandidates
    rw [groupRec_congr h]
    refine List.filter_congr fun i _ => ?_
    by_cases hi : p.group i = p.group j
    · exact isCandidate_congr h _ i (k i hi)
    · unfold Part.isCandidate
      rw [group_congr h, beq_eq_false_iff_ne.mpr hi]
      rfl
  rw [afterSelection_eq, afterSelection_eq]
  unfold Part.listedKept
  rw [group_congr h, a, b, groupRec_congr h, recallFloor_congr h, k j rfl]

theorem foldl_selectGroup : ∀ (l : List GroupIdx) (p : Part), l.Nodup → (∀ g, (p.groupRec g).serviceList.Nodup) →
    (l.foldl (fun p g => selectGroup g p) p).active = p.active
    ∧ ∀ j, (l.foldl (fun p g => selectGroup g p) p).car j = if p.group j ∈ l then p.afterSelection j else p.car j
  | [], p, _, _ => by simp
  | g :: l, p, hl, hd => by
    have hl' := List.nodup_cons.mp hl
    obtain ⟨a, c⟩ := car_selectGroup g p (hd g)
    obtain ⟨a', c'⟩ := foldl_selectGroup l (selectGroup g p) hl'.2 fun g' => by
      rw [groupRec_congr a]
      exact hd g'
    rw [List.foldl_cons]
    refine ⟨a'.trans a, fun j => ?_⟩
    rw [c', group_congr a]
    by_cases hg : p.group j = g
    · rw [if_neg (by rw [hg]; exact hl'.1), c, if_pos hg, if_pos (by rw [hg]; exact List.mem_cons_self)]
    · rw [c, if_neg hg]
      by_cases hm : p.group j ∈ l
      · rw [if_pos hm, if_pos (List.mem_cons_of_mem _ hm)]
        refine afterSelection_congr p _ j a fun i hi => ?_
        rw [c, if_neg (by rw [hi]; exact hg)]
      · rw [if_neg hm, if_neg fun h => (List.mem_cons.mp h).elim hg hm]

/-- A service selection changes every record as `afterSelection` says (R97 to R99). -/
theorem car_serviceSelection (p : Part) (hd : ∀ g, (p.groupRec g).serviceList.Nodup) (j : CarIdx) :
    (serviceSelection p).car j = p.afterSelection j := by
  have k := (foldl_selectGroup (List.finRange 8) p (List.nodup_finRange 8) hd).2 j
  rw [if_pos (List.mem_finRange _)] at k
  exact k

end Sys2Proof.Machine
end

