-- ==== Sys2Proof/Laws/Intake.lean ====
section
/-! SUPPORT. Report intake (R26): a change of duty handed to the sequencing unit parks no car that does not stand and loses
none, said once (`KeepsStanding`); and the last steps of the intake where they have nothing to do. -/

namespace Sys2Proof.Machine

theorem passesStanding_congr (floor : Nat) {c d : Car} (h : d.live = c.live) (k : d.run = c.run) :
    passesStanding floor d = passesStanding floor c := by
  unfold passesStanding
  rw [h, k]

/-- For one car: its report and an idle run stay, it does not become LOST, and it becomes PARKED only where it stands. -/
structure KeepsStanding (i : CarIdx) (p q : Part) : Prop where
  active : q.active = p.active
  live : (q.car i).live = (p.car i).live
  idle : (p.car i).run = .idle → (q.car i).run = .idle
  found : (p.car i).duty ≠ .lost → (q.car i).duty ≠ .lost
  parked : (p.car i).run = .idle → (q.car i).duty = .parked →
    (p.car i).duty = .parked ∨ passesStanding (p.recallFloor i) (p.car i) = true

theorem KeepsStanding.same {i : CarIdx} {p q : Part} (h : q.active = p.active) (k : q.car i = p.car i) :
    KeepsStanding i p q :=
  ⟨h, by rw [k], fun x => by rw [k, x], fun x => by rw [k]; exact x, fun _ x => .inl (by rw [← k]; exact x)⟩

theorem KeepsStanding.refl (i : CarIdx) (p : Part) : KeepsStanding i p p := .same rfl rfl

theorem KeepsStanding.trans {i : CarIdx} {p q r : Part} (h : KeepsStanding i p q) (k : KeepsStanding i q r) :
    KeepsStanding i p r := by
  refine ⟨k.active.trans h.active, k.live.trans h.live, fun x => k.idle (h.idle x), fun x => k.found (h.found x), ?_⟩
  intro x y
  rcases k.parked (h.idle x) y with z | z
  · exact h.parked x z
  · right
    rw [recallFloor_congr h.active, passesStanding_congr _ h.live ((h.idle x).trans x.symm)] at z
    exact z

theorem foldl_keepsStanding {α : Type} (i : CarIdx) (f : Part → α → Part) (h : ∀ p a, KeepsStanding i p (f p a)) :
    ∀ (l : List α) (p : Part), KeepsStanding i p (l.foldl f p)
  | [], p => .refl i p
  | a :: l, p => (h p a).trans (foldl_keepsStanding i f h l (f p a))

theorem ShedOnly.keepsStanding {p q : Part} (i : CarIdx) (h : ShedOnly p q) : KeepsStanding i p q := by
  have a : q.active = p.active := by rw [h.same]
  rcases h.car i with k | ⟨_, k, _⟩
  · exact .same a k
  · refine ⟨a, by rw [k], fun x => by rw [k]; exact x, fun x => by rw [k]; exact x, fun _ x => .inl ?_⟩
    rw [k] at x
    exact x

theorem demote_keepsStanding (i j : CarIdx) (p : Part) : KeepsStanding i p (demote j p) := by
  by_cases hij : j = i
  · subst hij
    have c := car_demote j j p
    rw [if_pos rfl] at c
    unfold demotedCar at c
    split at c
    · refine ⟨demote_active j p, by rw [c], fun x => by rw [c]; exact x, fun x => by rw [c]; exact x, fun _ x => .inl ?_⟩
      rw [c] at x
      exact x
    · refine ⟨demote_active j p, by rw [c], fun x => by rw [c]; exact x, fun _ => ?_, fun _ x => .inr ?_⟩
      · rw [c]
        split <;> simp
      · rw [c] at x
        by_cases s : passesStanding (p.recallFloor j) (p.car j) = true
        · exact s
        · simp [s] at x
  · exact .same (demote_active j p) (by rw [car_demote, if_neg hij])

theorem promote_keepsStanding (i j : CarIdx) (p : Part) : KeepsStanding i p (promote j p) := by
  by_cases hij : j = i
  · subst hij
    have c := car_promote j j p
    rw [if_pos rfl] at c
    refine ⟨rfl, by rw [c], fun x => by rw [c]; exact x, fun _ => by rw [c]; simp, fun _ x => ?_⟩
    rw [c] at x
    cases x
  · exact .same rfl (by rw [car_promote, if_neg hij])

theorem serviceSelection_keepsStanding (i : CarIdx) (p : Part) : KeepsStanding i p (serviceSelection p) := by
  refine foldl_keepsStanding i _ (fun p g => ?_) _ p
  refine .trans (q := demoteUnlisted g p) ?_ (.trans (q := demoteExcess g (demoteUnlisted g p)) ?_ ?_)
  · refine foldl_keepsStanding i _ (fun p j => ?_) _ p
    split
    · exact demote_keepsStanding i j p
    · exact .refl i p
  · refine foldl_keepsStanding i _ (fun p j => ?_) _ _
    split
    · exact demote_keepsStanding i j p
    · exact .refl i p
  · refine foldl_keepsStanding i _ (fun p j => ?_) _ _
    split
    · exact promote_keepsStanding i j p
    · exact .refl i p

theorem flushQueue_keepsStanding (i : CarIdx) (p : Part) : KeepsStanding i p (flushQueue p) := by
  have c : (flushQueue p).car i = if (p.car i).run = .queued then
      { p.car i with run := .idle, priority := none, joinSeq := none } else p.car i := by
    change (p.mapCars _).car i = _
    rw [car_mapCars]
  by_cases h : (p.car i).run = .queued
  · rw [if_pos h] at c
    refine ⟨rfl, by rw [c], fun _ => by rw [c], fun x => by rw [c]; exact x, fun _ x => .inl ?_⟩
    rw [c] at x
    exact x
  · rw [if_neg h] at c
    exact .same rfl c

theorem retransferCheck_keepsStanding (i : CarIdx) (p : Part) : KeepsStanding i p (retransferCheck p) := by
  have e : ∀ f : Remembered, KeepsStanding i p (enterReturn f p) := fun f => by
    unfold enterReturn
    dsimp only
    refine .trans (q := { moveState .returning .retransferSet p with sup.remembered := some f, sup.recallLimit := .stopped })
      (.same rfl rfl) ?_
    exact (flushQueue_keepsStanding i _).trans ((shedServiceCars_shedOnly _).keepsStanding i)
  unfold retransferCheck
  repeat' split
  · exact e _
  · exact e _
  · exact .refl i p
  · exact .refl i p

theorem evaluateCompletion_keepsStanding (i : CarIdx) (p : Part) : KeepsStanding i p (evaluateCompletion p) := by
  unfold evaluateCompletion
  split
  · refine .trans (q := stopRecallLimit (moveState .service .recallDone (raiseEvent .recallDone p))) (.same rfl rfl) ?_
    exact (serviceSelection_keepsStanding i _).trans (retransferCheck_keepsStanding i _)
  · exact .refl i p

/-- A change of duty that is handed on parks no car that does not stand, and loses none. -/
theorem handDutyChange_keepsStanding (i : CarIdx) (a b : Duty) (p : Part) : KeepsStanding i p (handDutyChange a b p) := by
  unfold handDutyChange
  split
  · exact evaluateCompletion_keepsStanding i p
  · split
    · exact serviceSelection_keepsStanding i p
    · exact .refl i p
  · exact .refl i p

/-- Outside RECALL and SERVICE a change of duty that is handed on changes nothing. -/
theorem handDutyChange_elsewhere (a b : Duty) (p : Part) (h : p.sup.state ≠ .recall) (k : p.sup.state ≠ .service) :
    handDutyChange a b p = p := by
  unfold handDutyChange
  split
  · exact absurd ‹_› h
  · exact absurd ‹_› k
  · rfl

/-! ### The steps of the intake with nothing to do -/

/-- The last steps of the intake leave a car that is not QUEUED and may not join, and that stands where it is PARKED. -/
theorem intake_tail (i : CarIdx) (l : Live) (wasBlocked : Bool) (x : Part) (h1 : (x.car i).run ≠ .queued)
    (h2 : x.mayJoin i = false)
    (h3 : (x.car i).duty = .parked → (x.sup.state.onGenerator = true → passesStanding (x.recallFloor i) (x.car i) = true)
      ∧ (wasBlocked = true → (x.car i).blocked = false → x.sup.state ≠ .service)) :
    afterIntake i wasBlocked (handToAdmission i l x) = x := by
  have e : handToAdmission i l x = x := by
    have left : (if (x.car i).run = .queued ∧ (l.request = .none ∨ (x.car i).blocked) then leaveQueue i x else x) = x :=
      if_neg fun h => h1 h.1
    unfold handToAdmission
    dsimp only
    rw [left, h2]
    rfl
  rw [e]
  unfold afterIntake
  split
  · rename_i hp
    obtain ⟨a, b⟩ := h3 hp
    rw [if_neg, if_neg]
    · rintro ⟨x1, x2, x3⟩
      exact b x2 x3 x1
    · intro y
      simp only [Bool.and_eq_true, Bool.not_eq_true'] at y
      rw [a y.1] at y
      exact Bool.noConfusion y.2
  · rfl

theorem mayJoin_noRequest (p : Part) (i : CarIdx) (l : Live) (h : (p.car i).live = some l) (k : l.request = .none) :
    p.mayJoin i = false := by
  rw [mayJoin_heard p i l h, k]
  rfl

theorem mayJoin_elsewhere (p : Part) (i : CarIdx) (h : p.sup.state ≠ .recall) (k : p.sup.state ≠ .service) :
    p.mayJoin i = false := by
  unfold Part.mayJoin
  dsimp only
  split
  · rfl
  · simp [h, k]

theorem mayJoin_busy (p : Part) (i : CarIdx) (h : (p.car i).run ≠ .idle) : p.mayJoin i = false := by
  unfold Part.mayJoin
  dsimp only
  split
  · rfl
  · simp [h]

theorem mayJoin_duty (p : Part) (i : CarIdx) (h : (p.car i).duty ≠ .recall) (k : (p.car i).duty ≠ .service) :
    p.mayJoin i = false := by
  unfold Part.mayJoin
  dsimp only
  split
  · rfl
  · simp [h, k]

end Sys2Proof.Machine
end

