-- ==== Sys2Proof/Laws/Outcomes.lean ====
section
/-! SUPPORT. What the named outcomes of Safety are outcomes of: the move to RETURN (R12), the end of recall (R93, R96), a change of
duty handed on (R100), and takeover (R155); a car that no selection concerns, and the millisecond count, in them. -/

namespace Sys2Proof.Machine

/-! ### Shedding the SERVICE cars (R102) -/

/-- The record of a car after the SERVICE cars with a run have been shed. -/
theorem car_shedServiceCars (p : Part) (i : CarIdx) :
    (shedServiceCars p).car i =
      if (p.car i).duty = .service ∧ (p.car i).holdsRun = true then { p.car i with shed := true } else p.car i := by
  unfold shedServiceCars
  rw [foldl_ownCar _ (fun p i =>
    if (p.car i).duty = .service ∧ (p.car i).holdsRun = true then { p.car i with shed := true } else p.car i)]
  · simp only [mem_allCars, if_true]
  · intro p i j
    dsimp only
    by_cases hij : i = j
    · subst hij
      rw [if_pos rfl]
      split
      · rename_i hd
        rw [car_shedCar, if_pos rfl]
        cases hr : (p.car i).holdsRun
        · rw [if_neg (by simp), Bool.or_false]
        · rw [if_pos ⟨hd, rfl⟩, Bool.or_true]
      · rename_i hd
        rw [if_neg (fun h => hd h.1)]
    · rw [if_neg hij]
      split
      · rw [car_shedCar, if_neg hij]
      · rfl
  · intro p q i _ e
    rw [e]
  · intro p i
    unfold shedCar
    repeat' split
    all_goals rfl
  · exact nodup_allCars

/-- The SHED flag after some of the SERVICE cars have been shed. -/
theorem flag_foldl_shed : ∀ (l : List CarIdx), l.Nodup → ∀ p : Part,
    (l.foldl (fun p i => if (p.car i).duty = .service then shedCar i p else p) p).flag .shed = true ↔
      p.flag .shed = true
        ∨ ∃ i ∈ l, ((p.car i).duty = .service ∧ (p.car i).holdsRun = true) ∧ (p.car i).shed = false
  | [], _, p => by simp
  | a :: l, hn, p => by
    rw [List.nodup_cons] at hn
    rw [List.foldl_cons, flag_foldl_shed l hn.2]
    have e : ∀ i ∈ l, (if (p.car a).duty = .service then shedCar a p else p).car i = p.car i := fun i hi => by
      have k : a ≠ i := fun h => hn.1 (h ▸ hi)
      split
      · rw [car_shedCar, if_neg k]
      · rfl
    have f : (if (p.car a).duty = .service then shedCar a p else p).flag .shed = true ↔ p.flag .shed = true
        ∨ (((p.car a).duty = .service ∧ (p.car a).holdsRun = true) ∧ (p.car a).shed = false) := by
      unfold shedCar
      by_cases h1 : (p.car a).duty = .service
      · cases h2 : (p.car a).holdsRun <;> cases h3 : (p.car a).shed <;> simp [h1, flag_raiseEvent]
      · simp [h1]
    rw [f]
    constructor
    · rintro ((h | h) | ⟨i, h, k⟩)
      · exact .inl h
      · exact .inr ⟨a, by simp, h⟩
      · rw [e i h] at k
        exact .inr ⟨i, by simp [h], k⟩
    · rintro (h | ⟨i, h, k⟩)
      · exact .inl (.inl h)
      · rcases List.mem_cons.1 h with h | h
        · subst h
          exact .inl (.inr k)
        · exact .inr ⟨i, h, by rw [e i h]; exact k⟩

/-- The SHED flag after the SERVICE cars with a run have been shed. -/
theorem flag_shedServiceCars (p : Part) : (shedServiceCars p).flag .shed = true ↔ p.flag .shed = true
    ∨ ∃ i, ((p.car i).duty = .service ∧ (p.car i).holdsRun = true) ∧ (p.car i).shed = false := by
  have h := flag_foldl_shed allCars nodup_allCars p
  simp only [mem_allCars, true_and] at h
  exact h

/-! ### Takeover (R155) -/

/-- Takeover does what R155 says. -/
theorem takeOver_takesOver (p : Part) : p.takesOver (takeOver p) := by
  unfold takeOver Part.takesOver
  dsimp only
  have m := closeSlot_master p
  have s := closeSlot_slot p
  generalize closeSlot p = closed at m s ⊢
  generalize hc : ({ closed with master := { closed.master with mode := .master } } : Part) = x
  have xc : ∀ i, x.car i = closed.car i := fun i => by
    rw [← hc]
    rfl
  have xf : ∀ e, x.flag e = closed.flag e := fun e => by
    rw [← hc]
    rfl
  have o := shedServiceCars_shedOnly x
  refine ⟨shedServiceCars x, startCycle_begins _, ?_, fun i => ?_, fun e he => (o.other e he).trans (xf e), ?_⟩
  · rw [o.same, ← hc, ← s, ← m]
  · rw [car_shedServiceCars, xc]
  · rw [flag_shedServiceCars, xf]
    simp only [xc]

/-! ### The move to RETURN (R12) -/

theorem enterReturn_entersReturn (f : Remembered) (p : Part) : p.entersReturn (enterReturn f p) f := by
  unfold enterReturn
  dsimp only
  generalize hm : ({ moveState .returning .retransferSet p with sup.remembered := some f, sup.recallLimit := .stopped } : Part) = m
  have mc : ∀ i, m.car i = p.car i := fun i => by
    rw [← hm]
    rfl
  have mf : ∀ e, m.flag e = (p.flag e || decide (Event.transfer = e)) := fun e => by
    rw [← flag_moveState .returning .retransferSet p e, ← hm]
    rfl
  have o := shedServiceCars_shedOnly (flushQueue m)
  have c := car_shedServiceCars (flushQueue m)
  have g := flag_shedServiceCars (flushQueue m)
  have qf : ∀ e, (flushQueue m).flag e = m.flag e := fun _ => rfl
  have qc : ∀ i, (flushQueue m).car i = if (p.car i).run = .queued then
      { p.car i with run := .idle, priority := none, joinSeq := none } else p.car i := fun i => by
    change (m.mapCars _).car i = _
    rw [car_mapCars, mc]
  have hit : ∀ i, (((flushQueue m).car i).duty = .service ∧ ((flushQueue m).car i).holdsRun = true
      ↔ (p.car i).duty = .service ∧ (p.car i).holdsRun = true) ∧ ((flushQueue m).car i).shed = (p.car i).shed := fun i => by
    rw [qc]
    split
    · rename_i h
      unfold Car.holdsRun
      rw [h]
      exact ⟨Iff.rfl, rfl⟩
    · exact ⟨Iff.rfl, rfl⟩
  refine ⟨?_, fun i => ⟨fun h => ?_, fun h => ?_, fun h k => ?_⟩, ?_, ?_, fun e h k => ?_⟩
  · have e := o.same
    generalize shedServiceCars (flushQueue m) = q at e ⊢
    refine e.trans ?_
    rw [← hm]
    rfl
  · rw [c, if_neg, qc, if_pos h]
    intro k
    have x := ((hit i).1.1 k).2
    unfold Car.holdsRun at x
    rw [h] at x
    cases x
  · rw [c, if_pos ((hit i).1.2 h), qc, if_neg]
    intro k
    have x := h.2
    unfold Car.holdsRun at x
    rw [k] at x
    cases x
  · rw [c, if_neg (fun x => k ((hit i).1.1 x)), qc, if_neg h]
  · rw [o.other _ (by decide), qf, mf]
    simp
  · rw [g, qf, mf]
    simp only [fun i => (hit i).1, fun i => (hit i).2]
    simp
  · rw [o.other e k, qf, mf, decide_eq_false (fun x => h x.symm), Bool.or_false]

/-! ### The end of recall (R93, R96) -/

theorem endRecall_endsRecall (p : Part) : p.endsRecall (endRecall p) := by
  unfold endRecall
  generalize hm : stopRecallLimit (moveState .service .recallDone (raiseEvent .recallDone p)) = m
  have mf : ∀ e, m.flag e = (p.flag e || decide (Event.recallDone = e) || decide (Event.transfer = e)) := fun e => by
    rw [← flag_raiseEvent, ← flag_moveState .service .recallDone, ← hm]
    rfl
  have d := serviceSelection_dutyOnly m
  have sm : (serviceSelection m).mgmt = m.mgmt := by rw [d.same]
  have sf : ∀ e, (serviceSelection m).flag e = m.flag e := flag_congr (congrArg Management.flags sm)
  have ss : (serviceSelection m).sup = m.sup := by rw [d.same]
  have ms : m.sup = { p.sup with
      state := .service
      previous := p.sup.state
      changeTime := p.now
      cause := .recallDone
      recallLimit := .stopped } := by
    rw [← hm]
    rfl
  have rh : (serviceSelection m).retransferHeld = p.retransferHeld := by
    apply retransferHeld_congr
    rw [ss, ms]
  refine ⟨serviceSelection m, ?_, fun hl i => ?_, ?_, ?_, fun e h k => ?_, fun h => ?_, fun h => ?_⟩
  · have e := d.same
    generalize serviceSelection m = x at e sm ⊢
    refine e.trans ?_
    rw [sm, ← hm]
    rfl
  · rw [car_serviceSelection m (by rw [← hm]; exact hl.1.1), ← hm]
    rfl
  · rw [sf, mf]
    simp
  · rw [sf, mf]
    simp
  · rw [sf, mf, decide_eq_false (fun x => h x.symm), decide_eq_false (fun x => k x.symm)]
    simp
  · exact retransferCheck_none _ (rh.trans h)
  · unfold retransferCheck
    rw [if_pos (rh.trans h)]
    have st : (serviceSelection m).sup.state = .service := by rw [ss, ms]
    rw [st]
    exact enterReturn_entersReturn .service _

/-- Recall is complete exactly where no enabled record has duty RECALL without UNFIT (R93). -/
theorem recallComplete_iff (p : Part) :
    p.recallComplete = true ↔ ∀ i, (p.car i).duty = .recall → (p.car i).unfit ≠ none := by
  unfold Part.recallComplete
  rw [Bool.not_eq_true', List.any_eq_false]
  constructor
  · intro h i hd hu
    apply h i (mem_allCars i)
    rw [hd, hu]
    rfl
  · intro h i _ k
    rw [Bool.and_eq_true, beq_iff_eq, Option.isNone_iff_eq_none] at k
    exact h i k.1 k.2

/-- An evaluation of recall completion (R93). -/
theorem evaluateCompletion_evaluates (p : Part) :
    (p.sup.state = .recall → (∀ i, (p.car i).duty = .recall → (p.car i).unfit ≠ none) → p.endsRecall (evaluateCompletion p))
    ∧ (p.sup.state ≠ .recall ∨ (∃ i, (p.car i).duty = .recall ∧ (p.car i).unfit = none) → evaluateCompletion p = p) := by
  unfold evaluateCompletion
  refine ⟨fun h k => ?_, fun h => ?_⟩
  · rw [if_pos ⟨h, (recallComplete_iff p).2 k⟩]
    exact endRecall_endsRecall p
  · rw [if_neg]
    rintro ⟨a, b⟩
    rcases h with x | ⟨i, x, y⟩
    · exact x a
    · exact (recallComplete_iff p).1 b i x y

/-! ### A change of duty handed on (R100) -/

theorem selectionCause_iff (a b : Duty) :
    selectionCause a b = true ↔ a = .service ∧ b ≠ .service ∨ b = .parked ∨ a = .parked ∧ b = .recall := by
  cases a <;> cases b <;> decide

theorem handDutyChange_service (a b : Duty) (p : Part) (h : p.sup.state = .service) :
    ((a = .service ∧ b ≠ .service ∨ b = .parked ∨ a = .parked ∧ b = .recall) → handDutyChange a b p = serviceSelection p)
    ∧ (¬ (a = .service ∧ b ≠ .service ∨ b = .parked ∨ a = .parked ∧ b = .recall) → handDutyChange a b p = p) := by
  unfold handDutyChange
  rw [h]
  dsimp only
  refine ⟨fun k => if_pos ((selectionCause_iff a b).2 k), fun k => if_neg fun x => k ((selectionCause_iff a b).1 x)⟩

/-! ### A car that no selection concerns (R97): one whose duty is neither SERVICE nor PARKED -/

/-- A car whose duty is neither SERVICE nor PARKED. -/
def Part.outOfService (p : Part) (i : CarIdx) : Prop := (p.car i).duty ≠ .service ∧ (p.car i).duty ≠ .parked

/-- A walk over records or groups leaves such a car as each of its steps does. -/
theorem foldl_outOfService {α : Type} (i : CarIdx) (f : Part → α → Part)
    (h : ∀ p a, p.outOfService i → (f p a).car i = p.car i) :
    ∀ (l : List α) (p : Part), p.outOfService i → (l.foldl f p).car i = p.car i
  | [], _, _ => rfl
  | a :: l, p, k => by
    rw [List.foldl_cons, foldl_outOfService i f h l _ (by unfold Part.outOfService; rw [h p a k]; exact k), h p a k]

/-- A service selection leaves such a car. -/
theorem serviceSelection_outOfService (i : CarIdx) (p : Part) (h : p.outOfService i) :
    (serviceSelection p).car i = p.car i := by
  unfold serviceSelection
  refine foldl_outOfService i _ (fun p g h => ?_) _ p h
  have a : ∀ q : Part, q.outOfService i → (demoteUnlisted g q).car i = q.car i := fun q hq => by
    refine foldl_outOfService i _ (fun q j hq => ?_) _ q hq
    split
    · rename_i hc
      rw [car_demote, if_neg]
      rintro rfl
      exact hq.1 hc.2.1
    · rfl
  have b : ∀ q : Part, q.outOfService i → (demoteExcess g q).car i = q.car i := fun q hq => by
    refine foldl_outOfService i _ (fun q j hq => ?_) _ q hq
    split
    · rename_i hc
      rw [car_demote, if_neg]
      rintro rfl
      unfold Part.isCounted at hc
      simp [hq.1] at hc
    · rfl
  have c : ∀ q : Part, q.outOfService i → (promoteCandidates g q).car i = q.car i := fun q hq => by
    refine foldl_outOfService i _ (fun q j hq => ?_) _ q hq
    split
    · rename_i hc
      rw [car_promote, if_neg]
      rintro rfl
      unfold Part.isCandidate at hc
      simp [hq.1, hq.2] at hc
    · rfl
  have h1 := a p h
  have h2 := b (demoteUnlisted g p) (by unfold Part.outOfService; rw [h1]; exact h)
  have h3 := c (demoteExcess g (demoteUnlisted g p)) (by unfold Part.outOfService; rw [h2, h1]; exact h)
  rw [h3, h2, h1]

/-- The end of recall leaves such a car that is not queued. -/
theorem endRecall_outOfService (i : CarIdx) (p : Part) (h : p.outOfService i) (hr : (p.car i).run ≠ .queued) :
    (endRecall p).car i = p.car i := by
  unfold endRecall
  generalize hm : stopRecallLimit (moveState .service .recallDone (raiseEvent .recallDone p)) = m
  have mc : m.car i = p.car i := by
    rw [← hm]
    rfl
  have sc : (serviceSelection m).car i = p.car i := (serviceSelection_outOfService i m (by unfold Part.outOfService; rw [mc]; exact h)).trans mc
  have e : ∀ f, (enterReturn f (serviceSelection m)).car i = p.car i := fun f => by
    obtain ⟨_, c, _⟩ := enterReturn_entersReturn f (serviceSelection m)
    have shed : ¬ (((serviceSelection m).car i).duty = .service ∧ ((serviceSelection m).car i).holdsRun = true) := by
      rw [sc]
      exact fun x => h.1 x.1
    rw [(c i).2.2 (by rw [sc]; exact hr) shed, sc]
  unfold retransferCheck
  split
  · split
    · exact e _
    · exact e _
    · exact sc
  · exact sc

/-- A change of duty handed on leaves such a car that is not queued. -/
theorem handDutyChange_outOfService (i : CarIdx) (a b : Duty) (p : Part) (h : p.outOfService i)
    (hr : (p.car i).run ≠ .queued) : (handDutyChange a b p).car i = p.car i := by
  unfold handDutyChange evaluateCompletion
  split
  · split
    · exact endRecall_outOfService i p h hr
    · rfl
  · split
    · exact serviceSelection_outOfService i p h
    · rfl
  · rfl

/-! ### The millisecond count stays with the slots -/

theorem settleSlot_now (sl : Slot) (p : Part) : (settleSlot sl p).now = p.now := by
  have a : ∀ i q, (countSilentA i q).now = q.now := fun i q => by
    unfold countSilentA
    dsimp only
    split <;> rfl
  have b : ∀ i q, (countSilentB i q).now = q.now := fun i q => by
    unfold countSilentB
    dsimp only
    split <;> rfl
  unfold settleSlot judgeLines
  dsimp only
  repeat' split
  all_goals first
    | rfl
    | exact (countMiss_carSide _ p).leaves.now
    | (rw [a]; rfl)
    | (rw [b]; rfl)

theorem closeSlot_now (p : Part) : (closeSlot p).now = p.now := by
  unfold closeSlot
  split
  · rfl
  · rw [settleSlot_now]
    rfl

theorem takesOver_now (p t : Part) (h : p.takesOver t) : t.now = p.now := by
  obtain ⟨q, b, e, _⟩ := h
  rw [b.1]
  change q.now = _
  rw [e]
  exact closeSlot_now p

end Sys2Proof.Machine
end

