-- ==== Sys2Proof/Laws/Sequenced.lean ====
section
/-! SUPPORT. What the sequencing unit and an APPLY can change, said once: `Sequenced p q` (05, R101, R118, R172). -/

namespace Sys2Proof.Machine

/-- Only duties, runs that end by a flush, queue places, SHED marks, the transfer record, the alarm unit's derived state and
event flags were changed; a flag that was set stays set. -/
structure Sequenced (p q : Part) : Prop where
  same : q = { p with
    cars := q.cars
    sup := q.sup
    standing := q.standing
    alarms := q.alarms
    adm := { p.adm with joinCounter := q.adm.joinCounter }
    mgmt := { p.mgmt with flags := q.mgmt.flags } }
  car : ∀ i, q.car i = { p.car i with
    duty := (q.car i).duty
    pendingRecall := (q.car i).pendingRecall
    run := (q.car i).run
    priority := (q.car i).priority
    joinSeq := (q.car i).joinSeq
    shed := (q.car i).shed }
  kept : ∀ e, p.flag e = true → q.flag e = true

theorem Sequenced.refl (p : Part) : Sequenced p p := ⟨rfl, fun _ => rfl, fun _ h => h⟩

theorem Sequenced.trans {p q r : Part} (h : Sequenced p q) (k : Sequenced q r) : Sequenced p r := by
  refine ⟨?_, ?_, fun e x => k.kept e (h.kept e x)⟩
  · have e := k.same
    rw [h.same] at e
    exact e
  · intro i
    rw [k.car i, h.car i]

theorem DutyOnly.sequenced {p q : Part} (h : DutyOnly p q) : Sequenced p q := by
  have e := h.same
  refine ⟨?_, ?_, fun x hx => ?_⟩
  · rw [e]
  · intro i
    have k := h.car i
    rw [k]
  · rw [← hx]
    exact flag_congr (by rw [e]) x

theorem ActionsOnly.sequenced {p q : Part} (h : ActionsOnly p q) : Sequenced p q := by
  have e := h.same
  refine ⟨?_, ?_, fun x hx => ?_⟩
  · have a : q.sup = p.sup := by rw [e]
    have b : q.adm = p.adm := by rw [e]
    rw [a, b]
    exact e
  · intro i
    have k := h.record i
    rw [k]
  · by_cases hs : x = .shed
    · subst hs
      exact h.kept hx
    · rw [h.other x hs, hx]

theorem ShedOnly.sequenced {p q : Part} (h : ShedOnly p q) : Sequenced p q := h.actions.sequenced

theorem raiseEvent_sequenced (e : Event) (p : Part) : Sequenced p (raiseEvent e p) :=
  ⟨rfl, fun _ => rfl, fun x h => by rw [flag_raiseEvent, h]; rfl⟩

theorem sup_sequenced (p : Part) (x : Supervisor) : Sequenced p { p with sup := x } :=
  ⟨rfl, fun _ => rfl, fun _ h => h⟩

theorem moveState_sequenced (n : TransferState) (c : Cause) (p : Part) : Sequenced p (moveState n c p) :=
  .trans (sup_sequenced p _) (raiseEvent_sequenced .transfer _)

theorem flushQueue_sequenced (p : Part) : Sequenced p (flushQueue p) := by
  refine ⟨rfl, ?_, fun _ h => h⟩
  intro i
  have e : (flushQueue p).car i = (p.mapCars fun c =>
      if c.run = .queued then { c with run := .idle, priority := none, joinSeq := none } else c).car i := rfl
  rw [e, car_mapCars]
  split <;> rfl

theorem enterReturn_sequenced (f : Remembered) (p : Part) : Sequenced p (enterReturn f p) := by
  have a := moveState_sequenced .returning .retransferSet p
  unfold enterReturn
  dsimp only
  generalize moveState .returning .retransferSet p = moved at a ⊢
  refine .trans a (.trans (sup_sequenced moved
    { moved.sup with remembered := some f, recallLimit := .stopped }) ?_)
  generalize ({ moved with sup := { moved.sup with remembered := some f, recallLimit := .stopped } } : Part) = q
  have b := flushQueue_sequenced q
  generalize flushQueue q = flushed at b ⊢
  have c := shedServiceCars_shedOnly flushed
  generalize shedServiceCars flushed = shed at c ⊢
  exact b.trans c.sequenced

theorem retransferCheck_sequenced (p : Part) : Sequenced p (retransferCheck p) := by
  unfold retransferCheck
  repeat' split
  · exact enterReturn_sequenced _ p
  · exact enterReturn_sequenced _ p
  · exact .refl p
  · exact .refl p

theorem stopRecallLimit_sequenced (p : Part) : Sequenced p (stopRecallLimit p) := sup_sequenced p _

theorem endRecall_sequenced (p : Part) : Sequenced p (endRecall p) := by
  unfold endRecall
  exact .trans (raiseEvent_sequenced .recallDone p) (.trans (moveState_sequenced _ _ _)
    (.trans (stopRecallLimit_sequenced _) (.trans (serviceSelection_dutyOnly _).sequenced (retransferCheck_sequenced _))))

theorem evaluateCompletion_sequenced (p : Part) : Sequenced p (evaluateCompletion p) := by
  unfold evaluateCompletion
  split
  · exact endRecall_sequenced p
  · exact .refl p

theorem handDutyChange_sequenced (a b : Duty) (p : Part) : Sequenced p (handDutyChange a b p) := by
  unfold handDutyChange
  repeat' split
  · exact evaluateCompletion_sequenced p
  · exact (serviceSelection_dutyOnly p).sequenced
  all_goals exact .refl p

theorem retestParked_dutyOnly (p : Part) : DutyOnly p (retestParked p) := by
  unfold retestParked
  apply foldl_dutyOnly
  intro p i
  split
  · exact setDuty_dutyOnly i _ p
  · exact .refl p

theorem sequenceApply_sequenced (p : Part) : Sequenced p (sequenceApply p) := by
  unfold sequenceApply
  split
  · exact .trans (retestParked_dutyOnly p).sequenced (evaluateCompletion_sequenced _)
  · exact .trans (retestParked_dutyOnly p).sequenced (serviceSelection_dutyOnly _).sequenced
  · exact (retestParked_dutyOnly p).sequenced
  · exact .refl p

/-- Steps 1 to 3 of an APPLY (R172): the tables, UNFIT and APPLIED. -/
def appliedTables (p : Part) : Part :=
  raiseEvent .applied
    (Part.mapCars { p with active := copyTables p.mgmt.locked p.active p.shadow } fun c => { c with unfit := none })

/-- What an APPLY does after its tables are in force (R172). -/
theorem executeApply_sequenced (p : Part) : Sequenced (appliedTables p) (executeApply p) := by
  unfold executeApply
  change Sequenced (appliedTables p) (sequenceApply (recomputeLimits
    (if (deriveActions (appliedTables p)).overAge then becomeStale (deriveActions (appliedTables p))
      else deriveActions (appliedTables p))))
  refine .trans (deriveActions_actions _).sequenced (.trans ?_ (.trans (recomputeLimits_actions _).sequenced
    (sequenceApply_sequenced _)))
  split
  · exact .trans (sup_sequenced _ _) (raiseEvent_sequenced .plantStale _)
  · exact .refl _

end Sys2Proof.Machine
end

