-- ==== Sys2Proof/Laws/Applied.lean ====
section
/-! SUPPORT. The execution of an APPLY (R172), step by step: the tables with UNFIT and APPLIED, the actions, a report too old, the
limits, and the sequencing unit's work (R101). -/

namespace Sys2Proof.Machine

/-- The record of a car after the standing test of an APPLY (R101). -/
theorem car_retestParked (p : Part) (j : CarIdx) :
    (retestParked p).car j =
      if (p.car j).duty = .parked ∧ passesStanding (p.recallFloor j) (p.car j) = false then
        { p.car j with duty := .recall, pendingRecall := false }
      else p.car j := by
  unfold retestParked
  rw [foldl_ownCar _ (fun p i =>
    if (p.car i).duty = .parked ∧ passesStanding (p.recallFloor i) (p.car i) = false then
      { p.car i with duty := .recall, pendingRecall := false } else p.car i)]
  · simp
  · intro p i j
    dsimp only
    split
    · rw [setDuty, car_modCar]
    · by_cases hij : i = j
      · subst hij; simp
      · simp [hij]
  · intro p q i h1 h2
    rw [h2, recallFloor_congr h1]
  · intro p i
    split <;> rfl
  · exact nodup_allCars

/-- A report older than the stale limit in force becomes STALE (R16). -/
def ageReport (p : Part) : Part := if p.overAge then becomeStale p else p

/-- An APPLY in its steps (R172). -/
theorem executeApply_steps (p : Part) :
    executeApply p = sequenceApply (recomputeLimits (ageReport (deriveActions (appliedTables p)))) := rfl

theorem car_appliedTables (p : Part) (i : CarIdx) : (appliedTables p).car i = { p.car i with unfit := none } := by
  change (Part.mapCars _ _).car i = _
  rw [car_mapCars]
  rfl

theorem flag_appliedTables (p : Part) (e : Event) : (appliedTables p).flag e = (p.flag e || decide (Event.applied = e)) :=
  flag_raiseEvent .applied e _

theorem overAge_iff (p : Part) : p.overAge = true ↔
    p.sup.fresh = true ∧ ∃ r, p.sup.report = some r ∧ p.active.plant.staleLimit * 100 < (p.now - r.arrival).toNat := by
  unfold Part.overAge Part.age
  cases p.sup.report <;> simp

theorem deriveActions_active (p : Part) : (deriveActions p).active = p.active := by rw [(deriveActions_actions p).same]
theorem deriveActions_sup (p : Part) : (deriveActions p).sup = p.sup := by rw [(deriveActions_actions p).same]
theorem recomputeLimits_active (p : Part) : (recomputeLimits p).active = p.active := by rw [(recomputeLimits_actions p).same]
theorem recomputeLimits_sup (p : Part) : (recomputeLimits p).sup = p.sup := by rw [(recomputeLimits_actions p).same]
theorem retestParked_active (p : Part) : (retestParked p).active = p.active := by rw [(retestParked_dutyOnly p).same]
theorem retestParked_sup (p : Part) : (retestParked p).sup = p.sup := by rw [(retestParked_dutyOnly p).same]

theorem ageReport_active (p : Part) : (ageReport p).active = p.active := by
  unfold ageReport
  split <;> rfl

theorem ageReport_state (p : Part) : (ageReport p).sup.state = p.sup.state := by
  unfold ageReport
  split <;> rfl

theorem enterReturn_active (f : Remembered) (p : Part) : (enterReturn f p).active = p.active := by
  rw [(enterReturn_entersReturn f p).1]

theorem evaluateCompletion_active (p : Part) : (evaluateCompletion p).active = p.active := by
  unfold evaluateCompletion
  split
  · obtain ⟨x, e, _, _, _, _, a, b⟩ := endRecall_endsRecall p
    have xa : x.active = p.active := by rw [e]
    by_cases h : p.retransferHeld = true
    · obtain ⟨k, _⟩ := b h
      rw [k]
      exact xa
    · rw [a (Bool.eq_false_iff.mpr h)]
      exact xa
  · rfl

theorem serviceSelection_active (p : Part) : (serviceSelection p).active = p.active := by
  rw [(serviceSelection_dutyOnly p).same]

theorem sequenceApply_active (p : Part) : (sequenceApply p).active = p.active := by
  unfold sequenceApply
  split
  · rw [evaluateCompletion_active, retestParked_active]
  · rw [serviceSelection_active, retestParked_active]
  · exact retestParked_active p
  · rfl

/-- The active tables after an APPLY are those that its first step gives (R172). -/
theorem executeApply_active (p : Part) : (executeApply p).active = copyTables p.mgmt.locked p.active p.shadow :=
  (sequenceApply_active _).trans <| (recomputeLimits_active _).trans <| (ageReport_active _).trans <|
    (deriveActions_active _).trans rfl

/-- The transfer state that the sequencing unit finds at an APPLY is the one before it. -/
theorem limited_state (p : Part) :
    (recomputeLimits (ageReport (deriveActions (appliedTables p)))).sup.state = p.sup.state := by
  rw [recomputeLimits_sup, ageReport_state, deriveActions_sup]
  exact rfl

end Sys2Proof.Machine
end

