-- ==== Sys2Proof/Laws/Deferred.lean ====
section
/-! SUPPORT. The deferred request (R171): what empties the slot, and that the bulk release and the duty effects do not look at it,
said once (`Unseen`). -/

namespace Sys2Proof.Machine

/-- The part with the deferred slot EMPTY. -/
def Part.freed (p : Part) : Part := { p with mgmt.deferred := none }

/-- An operation that neither looks at the deferred slot nor changes it. -/
def Unseen (f : Part → Part) : Prop := ∀ p, f p.freed = (f p).freed

theorem Unseen.comp {f g : Part → Part} (hf : Unseen f) (hg : Unseen g) : Unseen fun p => f (g p) := fun p => by
  dsimp only
  rw [hg, hf]

theorem Unseen.ite {f g : Part → Part} (c : Part → Prop) [∀ p, Decidable (c p)] (hc : ∀ p : Part, c p.freed ↔ c p) (hf : Unseen f)
    (hg : Unseen g) : Unseen fun p => if c p then f p else g p := fun p => by
  dsimp only
  by_cases h : c p
  · rw [if_pos h, if_pos ((hc p).2 h), hf]
  · rw [if_neg h, if_neg (fun x => h ((hc p).1 x)), hg]

theorem unseen_id : Unseen fun p => p := fun _ => rfl

theorem foldl_unseen {α : Type} (f : Part → α → Part) (h : ∀ a, Unseen fun p => f p a) :
    ∀ l : List α, Unseen fun p => l.foldl f p
  | [] => unseen_id
  | a :: l => fun p => by
    dsimp only
    rw [List.foldl_cons, List.foldl_cons]
    have e := h a p
    dsimp only at e
    rw [e]
    exact foldl_unseen f h l (f p a)

/-! ### Shedding and actions -/

theorem shedCar_unseen (i : CarIdx) : Unseen (shedCar i) := by
  unfold shedCar
  exact .ite (fun p => ((p.car i).holdsRun && !(p.car i).shed) = true) (fun _ => Iff.rfl) (fun _ => rfl) unseen_id

theorem shedWhileAbove_unseen (limit : Nat) : ∀ (l : List CarIdx) (n : Nat), Unseen (shedWhileAbove limit l n)
  | [], _ => unseen_id
  | i :: l, n => fun p => by
    unfold shedWhileAbove
    rw [show (p.freed.car i) = p.car i from rfl]
    split
    · rw [shedCar_unseen i p]
      exact shedWhileAbove_unseen limit l _ _
    · rfl

theorem derateShed_unseen (limit : Nat) : Unseen (derateShed limit) := fun p =>
  shedWhileAbove_unseen limit (sortCars p.derateBefore (allCars.filter p.derateCandidate)) p.retained p

theorem recomputeLimits_unseen : Unseen recomputeLimits := fun p => by
  unfold recomputeLimits
  dsimp only
  rw [show p.freed.capEff = p.capEff from rfl, show p.freed.standing = p.standing from rfl]
  by_cases h : p.capEff < p.standing
  · rw [if_pos h, if_pos h, derateShed_unseen p.capEff p]
    rfl
  · rw [if_neg h, if_neg h]
    rfl

theorem shedSweep_unseen : Unseen shedSweep := fun p => by
  unfold shedSweep
  dsimp only
  refine foldl_unseen (fun q i => if hasGroup (p.covered .shedAll) (q.group i)
    || (hasGroup (p.covered .shedRegen) (q.group i) && 0 < (q.car i).r) then shedCar i q else q) (fun i => ?_) allCars p
  exact .ite (fun q => (hasGroup (p.covered .shedAll) (q.group i)
    || (hasGroup (p.covered .shedRegen) (q.group i) && decide (0 < (q.car i).r))) = true) (fun _ => Iff.rfl)
    (shedCar_unseen i) unseen_id

theorem deriveActions_unseen : Unseen deriveActions := fun p => by
  unfold deriveActions
  dsimp only
  rw [show deriveCoverage (deriveStatus p.freed) = (deriveCoverage (deriveStatus p)).freed from rfl, shedSweep_unseen]
  rfl

theorem rederiveActions_unseen : Unseen rederiveActions := fun p => by
  unfold rederiveActions
  dsimp only
  rw [deriveActions_unseen p]
  generalize deriveActions p = q
  by_cases h : q.alarms.q = p.alarms.q
  · rw [if_pos h, if_pos (show q.freed.alarms.q = p.freed.alarms.q from h)]
  · rw [if_neg h, if_neg (show ¬ q.freed.alarms.q = p.freed.alarms.q from h), recomputeLimits_unseen]

/-! ### The bulk release and the duty effects -/

theorem settleDuty_unseen (b : Car) (i : CarIdx) : Unseen (settleDuty b i) := fun p => by
  unfold settleDuty
  dsimp only
  rw [show (p.freed.car i) = p.car i from rfl]
  repeat' split
  all_goals rfl

theorem releaseRun_unseen (i : CarIdx) : Unseen (releaseRun i) := fun p => by
  unfold releaseRun endWindowOf
  rw [show ((setCommit i 0 0 p.freed).modCar i releasedCar) = ((setCommit i 0 0 p).modCar i releasedCar).freed from rfl]
  generalize (setCommit i 0 0 p).modCar i releasedCar = q
  rw [show q.freed.adm = q.adm from rfl]
  repeat' split
  all_goals rfl

theorem bulkReleaseCar_unseen (i : CarIdx) : Unseen (bulkReleaseCar i) := fun p => by
  unfold bulkReleaseCar
  rw [show (p.freed.car i) = p.car i from rfl]
  split
  · rw [releaseRun_unseen i p, settleDuty_unseen]
  · rfl

theorem bulkRelease_unseen : Unseen bulkRelease := fun p => by
  have e := foldl_unseen (fun q i => bulkReleaseCar i q) (fun i => bulkReleaseCar_unseen i) allCars (flushQueue p)
  unfold bulkRelease
  dsimp only
  rw [show flushQueue p.freed = (flushQueue p).freed from rfl]
  dsimp only at e
  rw [e]
  generalize allCars.foldl (fun q i => bulkReleaseCar i q) (flushQueue p) = q
  rfl

theorem stopTransferTimers_unseen (left : TransferState) : Unseen (stopTransferTimers left) := fun p => by
  cases left <;> rfl

theorem moveState_unseen (n : TransferState) (c : Cause) : Unseen (moveState n c) := fun _ => rfl

theorem stoppingEffect_unseen : Unseen stoppingEffect := fun _ => rfl

theorem restoringEffect_unseen : Unseen restoringEffect := fun _ => rfl

theorem breakerEffect_unseen : Unseen breakerEffect := fun _ => rfl

/-! ### The request that waits (R171) -/

theorem executeStartService_ends (p : Part) (h : p.sup.state = .recall) : p.endsRecall (executeStartService p) := by
  unfold executeStartService
  rw [if_pos h]
  exact endRecall_endsRecall p

/-- What an execution of the deferred request does, by what waits: the slot is EMPTY, and an APPLY or a START SERVICE acts. -/
theorem executeDeferred_executes (p : Part) :
    (p.mgmt.deferred = none → executeDeferred p = p)
    ∧ (p.mgmt.deferred = some .apply → executeDeferred p = executeApply p.freed)
    ∧ (p.mgmt.deferred = some .startService → executeDeferred p = executeStartService p.freed) := by
  unfold executeDeferred Part.freed
  refine ⟨fun h => ?_, fun h => ?_, fun h => ?_⟩
  all_goals rw [h]

/-- A change to OUTAGE or NORMAL does all it does with an EMPTY slot, then executes the request that waits (R171). -/
theorem executeDeferred_after (f : Part → Part) (hf : Unseen f) (p : Part) (hd : (f p).mgmt.deferred = p.mgmt.deferred) :
    (p.mgmt.deferred = some .apply → executeDeferred (f p) = executeApply (executeDeferred (f p.freed)))
    ∧ (p.mgmt.deferred = some .startService → (f p).sup.state ≠ .recall → executeDeferred (f p) = executeDeferred (f p.freed)) := by
  have e : executeDeferred (f p.freed) = (f p).freed := by
    rw [hf p]
    exact executeDeferred_none _ rfl
  rw [e]
  refine ⟨fun h => (executeDeferred_executes (f p)).2.1 (hd.trans h), fun h k => ?_⟩
  rw [(executeDeferred_executes (f p)).2.2 (hd.trans h)]
  unfold executeStartService
  exact if_neg k

end Sys2Proof.Machine
end

