-- ==== Sys2Proof/Laws/Leaving.lean ====
section
/-! SUPPORT. Leaving RECALL, SERVICE and RETURN (R10, R11, R117): the actions derived afresh where no line is in effect and no run
is held, and what the bulk release leaves of the part. -/

namespace Sys2Proof.Machine

/-! ### Actions with no line in effect (R117) -/

theorem lineInEffect_off (p : Part) (h : p.sup.state.onGenerator = false) (k : Fin 4) : p.lineInEffect k = false := by
  unfold Part.lineInEffect
  rw [h, Bool.and_false]

theorem inEffect_deriveLine (p : Part) (k : Fin 4) :
    (deriveLine p k).asserted = p.lineAsserted k ∧ (deriveLine p k).inEffect = p.lineInEffect k := by
  unfold deriveLine
  dsimp only
  split
  · rename_i h
    exact h
  · exact ⟨rfl, rfl⟩

theorem alarmStatus_deriveStatus (p : Part) (k : Fin 4) : (deriveStatus p).alarmStatus k = deriveLine p k := by
  match k with
  | 0 => rfl
  | 1 => rfl
  | 2 => rfl
  | 3 => rfl

/-- Where every line is out of effect, no group is covered by any action. -/
theorem covered_none (p : Part) (a : Action) (h : ∀ k, (p.alarmStatus k).inEffect = false) : p.covered a = 0 := by
  have e : ∀ k, p.actionOn a k = false := fun k => by
    unfold Part.actionOn
    rw [h, Bool.false_and]
  unfold Part.covered allLines
  simp only [e]
  rfl

theorem shedSweep_none (p : Part) (h : ∀ k, (p.alarmStatus k).inEffect = false) : shedSweep p = p := by
  unfold shedSweep
  dsimp only
  rw [covered_none p .shedAll h, covered_none p .shedRegen h]
  have e : ∀ g : GroupIdx, hasGroup 0 g = false := fun g => by simp [hasGroup]
  simp only [e, Bool.false_or, Bool.false_and, Bool.false_eq_true, if_false]
  generalize allCars = l
  induction l with
  | nil => rfl
  | cons i l ih => exact ih

/-- Derate shedding sheds no car where no car holds a run (R114). -/
theorem derateShed_none (n : Nat) (p : Part) (h : ∀ i, (p.car i).holdsRun = false) : derateShed n p = p := by
  have e : allCars.filter p.derateCandidate = [] := by
    rw [List.filter_eq_nil_iff]
    intro i _
    unfold Part.derateCandidate
    simp [h i]
  unfold derateShed
  rw [e, sortCars_nil]
  rfl

/-- The actions derived afresh outside RECALL, SERVICE and RETURN, with no run held (R117). -/
theorem rederiveActions_off (p : Part) (h : p.sup.state.onGenerator = false) (k : ∀ i, (p.car i).holdsRun = false) :
    rederiveActions p = { p with
      alarms := { p.alarms with
        status := (deriveStatus p).alarms.status
        halted := 0
        regenShed := 0
        q := 0 }
      standing := if p.alarms.q = 0 then p.standing else (rederiveActions p).capEff }
    ∧ ∀ k, ((rederiveActions p).alarmStatus k).inEffect = false
      ∧ ((rederiveActions p).alarmStatus k).asserted = p.lineAsserted k := by
  have s : ∀ k, ((deriveStatus p).alarmStatus k).inEffect = false := fun k => by
    rw [alarmStatus_deriveStatus, (inEffect_deriveLine p k).2, lineInEffect_off p h]
  have s2 : ∀ k, ((deriveCoverage (deriveStatus p)).alarmStatus k).inEffect = false := s
  have d : deriveActions p = { p with alarms := { p.alarms with
        status := (deriveStatus p).alarms.status
        halted := 0
        regenShed := 0
        q := 0 } } := by
    unfold deriveActions
    dsimp only
    rw [shedSweep_none _ s2]
    have z : (deriveCoverage (deriveStatus p)).derateTotal = 0 := by
      unfold Part.derateTotal
      have e : ∀ k, (deriveCoverage (deriveStatus p)).actionOn .derate k = false := fun k => by
        unfold Part.actionOn
        rw [s2, Bool.false_and]
      simp only [e]
      rfl
    rw [z]
    unfold deriveCoverage
    rw [covered_none _ _ s, covered_none _ _ s, covered_none _ _ s]
    rfl
  have r : rederiveActions p = { deriveActions p with
      standing := if p.alarms.q = 0 then p.standing else (rederiveActions p).capEff } := by
    unfold rederiveActions
    dsimp only
    have q0 : (deriveActions p).alarms.q = 0 := by rw [d]
    by_cases z : p.alarms.q = 0
    · rw [if_pos (q0.trans z.symm), if_pos z]
      rw [d]
    · rw [if_neg (fun x => z (x.symm.trans q0)), if_neg z]
      unfold recomputeLimits
      dsimp only
      rw [derateShed_none _ _ (by rw [d]; exact k), ite_self]
      rfl
  refine ⟨r.trans (by rw [d]), fun j => ?_⟩
  have e : (rederiveActions p).alarmStatus j = (deriveStatus p).alarmStatus j := by
    rw [r, d]
    rfl
  rw [e]
  exact ⟨s j, by rw [alarmStatus_deriveStatus, (inEffect_deriveLine p j).1]⟩

/-! ### The bulk release (R10) -/

theorem holdsRun_idle {c : Car} (h : c.run = .idle) : c.holdsRun = false := by
  unfold Car.holdsRun
  rw [h]
  rfl
theorem bulkDuty_run (a b : Duty → Bool) (d : Duty) (c : Car) : (bulkDuty a b d c).run = c.run := by
  unfold bulkDuty
  repeat' split
  all_goals rfl

/-- Of the admission unit, at most the sums, the window with its timers, the hold-off timer and the join counter were changed. -/
def AdmKept (p q : Part) : Prop :=
  q.adm = { p.adm with
    joinCounter := q.adm.joinCounter
    sumM := q.adm.sumM
    sumR := q.adm.sumR
    window := q.adm.window
    settle := q.adm.settle
    recovery := q.adm.recovery
    holdOff := q.adm.holdOff }

theorem AdmKept.trans {p q r : Part} (h : AdmKept p q) (k : AdmKept q r) : AdmKept p r := by
  unfold AdmKept at *
  rw [h] at k
  exact k

theorem bulkReleaseCar_admKept (i : CarIdx) (p : Part) : AdmKept p (bulkReleaseCar i p) := by
  unfold bulkReleaseCar releaseRun settleDuty endWindowOf
  dsimp only
  repeat' split
  all_goals rfl

theorem bulkRelease_admKept (p : Part) : AdmKept p (bulkRelease p) := by
  have e : ∀ (l : List CarIdx) (q : Part), AdmKept q (l.foldl (fun p i => bulkReleaseCar i p) q) := by
    intro l
    induction l with
    | nil => exact fun _ => rfl
    | cons i l ih => exact fun q => (bulkReleaseCar_admKept i q).trans (ih _)
  have k := e allCars (flushQueue p)
  unfold bulkRelease
  dsimp only
  generalize List.foldl _ (flushQueue p) allCars = x at *
  exact AdmKept.trans (show AdmKept p (flushQueue p) from rfl) (k.trans (show AdmKept x _ from rfl))

/-- What the bulk release leaves of the part but the car records (R10). -/
theorem bulkRelease_eq (p : Part) : bulkRelease p = { p with
    cars := (bulkRelease p).cars
    adm := { p.adm with
      joinCounter := 0
      sumM := 0
      sumR := 0
      window := none
      settle := .stopped
      recovery := .stopped
      holdOff := .stopped } } := by
  obtain ⟨b1, b2, b3, b4, b5, b6, b7⟩ := bulkRelease_adm p
  have k := bulkRelease_admKept p
  unfold AdmKept at k
  rw [b1, b2, b3, b4, b5, b6, b7] at k
  rw [← k]
  exact bulkRelease_carsAdm p

theorem breakerOpen_holdsRun (p : Part) (i : CarIdx) : ((breakerEffect (bulkRelease p)).car i).holdsRun = false := by
  apply holdsRun_idle
  unfold breakerEffect
  rw [car_mapCars, bulkDuty_run, car_bulkRelease]
  exact bulkReleased_idle _

theorem closedTransition_holdsRun (p : Part) (i : CarIdx) : ((restoringEffect (bulkRelease p)).car i).holdsRun = false := by
  apply holdsRun_idle
  unfold restoringEffect
  rw [car_mapCars, bulkDuty_run, car_bulkRelease]
  exact bulkReleased_idle _

theorem Part.status_of {p q : Part} (h : p = q) : p.alarms.status = q.alarms.status := by rw [h]

/-- The actions derived afresh after a bulk release and a duty effect: no line is in effect, and no car is shed (R117). -/
theorem rederiveActions_released (left y : Part) (hy : y = { left with
      cars := y.cars
      adm := { left.adm with
        joinCounter := 0
        sumM := 0
        sumR := 0
        window := none
        settle := .stopped
        recovery := .stopped
        holdOff := .stopped } }) (ho : left.sup.state.onGenerator = false) (hr : ∀ i, (y.car i).holdsRun = false) :
    rederiveActions y = { left with
      cars := y.cars
      adm := { left.adm with
        joinCounter := 0
        sumM := 0
        sumR := 0
        window := none
        settle := .stopped
        recovery := .stopped
        holdOff := .stopped }
      alarms := { left.alarms with
        status := (rederiveActions y).alarms.status
        halted := 0
        regenShed := 0
        q := 0 }
      standing := if left.alarms.q = 0 then left.standing else (rederiveActions y).capEff }
    ∧ ∀ k, ((rederiveActions y).alarmStatus k).inEffect = false
      ∧ ((rederiveActions y).alarmStatus k).asserted = left.lineAsserted k := by
  have o : y.sup.state.onGenerator = false := by rw [hy]; exact ho
  obtain ⟨r1, r2⟩ := rederiveActions_off y o hr
  have la : ∀ k, y.lineAsserted k = left.lineAsserted k := fun k => by rw [hy]; rfl
  refine ⟨?_, fun k => ⟨(r2 k).1, (r2 k).2.trans (la k)⟩⟩
  have st := Part.status_of r1
  dsimp only at st
  rw [← st] at r1
  generalize rederiveActions y = z at *
  refine r1.trans ?_
  have a1 : y.alarms = left.alarms := by rw [hy]
  have a2 : y.standing = left.standing := by rw [hy]
  rw [a1, a2]
  generalize (z.alarms.status) = s
  generalize z.capEff = cap
  generalize y.cars = cs at hy
  subst hy
  rfl

end Sys2Proof.Machine
end

