-- ==== Sys2Proof/Laws/PerInstr.lean ====
section
/-! SUPPORT. The family WireFit: a well-formed command that stands for a frame spells a valid frame of its port, of at most 37
characters, which the port reads back whole (R122 to R134, R166). -/

namespace Sys2Proof.Laws.WireFit

open Sys2Proof.Machine

/-- The port a command's frame arrives on, and the frame, at a part with this address; none for a command that is no frame. -/
def frameOf (part : Byte) : Instr → Option (Port × Frame)
  | .cycleMark number => some (.dispatch, .cycleMark number)
  | .carOrder address order => some (.dispatch, .carOrder address order)
  | .plantPoll address => some (.dispatch, .plantPoll address)
  | .plantReport address power freq flags => some (.dispatch, .plantReport address power freq flags)
  | .manageRequestOtherAddress address payload => some (.dispatch, .manageRequest address payload)
  | .carReport port address report => some (port, .carReport address report)
  | .masterCarReport port address report => some (port, .carReport address report)
  | .masterPlantReport address power freq flags => some (.dispatch, .plantReport address power freq flags)
  | .masterCycleMark number => some (.dispatch, .cycleMark number)
  | .masterDispatchFrameIgnored frame => some (.dispatch, frame)
  | .handbackFrameDropped frame => some (.dispatch, frame)
  | .manageRequestBadKind kind args => some (.dispatch, .manageRequest part (kind :: args))
  | .read args => some (.dispatch, .manageRequest part (1 :: args))
  | .writeCarIdentity args => some (.dispatch, .manageRequest part (2 :: 1 :: args))
  | .writeCarConfiguration args => some (.dispatch, .manageRequest part (2 :: 2 :: args))
  | .writeClass args => some (.dispatch, .manageRequest part (2 :: 4 :: args))
  | .writePlant args => some (.dispatch, .manageRequest part (2 :: 5 :: args))
  | .writeGroup args => some (.dispatch, .manageRequest part (2 :: 6 :: args))
  | .writeRecallOrder args => some (.dispatch, .manageRequest part (2 :: 7 :: args))
  | .writeTripMap args => some (.dispatch, .manageRequest part (2 :: 8 :: args))
  | .writeSchedule args => some (.dispatch, .manageRequest part (2 :: 9 :: args))
  | .writeLinkSettings args => some (.dispatch, .manageRequest part (2 :: 10 :: args))
  | .copyActiveToShadow args => some (.dispatch, .manageRequest part (3 :: args))
  | .apply args => some (.dispatch, .manageRequest part (4 :: args))
  | .startService args => some (.dispatch, .manageRequest part (5 :: args))
  | .enable index args => some (.dispatch, .manageRequest part (6 :: index :: 0 :: args))
  | .disable index args => some (.dispatch, .manageRequest part (6 :: index :: 1 :: args))
  | .isolate index args => some (.dispatch, .manageRequest part (6 :: index :: 2 :: args))
  | .restore index args => some (.dispatch, .manageRequest part (6 :: index :: 3 :: args))
  | .clearUnfit index args => some (.dispatch, .manageRequest part (6 :: index :: 4 :: args))
  | .clearFlags args => some (.dispatch, .manageRequest part (7 :: args))
  | .setNoticeMask args => some (.dispatch, .manageRequest part (8 :: args))
  | .clearCounters args => some (.dispatch, .manageRequest part (9 :: args))
  | .summary args => some (.dispatch, .manageRequest part (10 :: args))
  | .lock args => some (.dispatch, .manageRequest part (11 :: args))
  | .restart args => some (.dispatch, .manageRequest part (12 :: args))
  | _ => none

/-- A frame that its port takes and reads back from its characters. -/
def Reads (port : Port) (f : Frame) : Prop :=
  frameValid port f = true ∧ (wireChars f).length ≤ 37
    ∧ ∃ check, splitFrame (wireChars f) = some (frameKind f, frameAddress f, framePayload f, check)
      ∧ parseFrame (frameKind f) (frameAddress f) (framePayload f) = some f

/-- A well-formed command that stands for a frame spells one that its port reads. -/
def Statement (c : Instr) : Prop :=
  ∀ part port f, isNodeAddress part = true → c.wellFormed = true → frameOf part c = some (port, f) → Reads port f

/-- A valid frame is read back from its characters. -/
theorem reads_of_valid (port : Port) (f : Frame) (h : frameValid port f = true) : Reads port f := by
  have k := payload_fits port f h
  exact ⟨h, by rw [wireChars_length]; omega, _, split_wire f k, parse_frame f⟩

/-- A request of 1 to 32 bytes to a node address is valid on the dispatch port (R126, R134). -/
theorem request_valid (part : Byte) (payload : List Byte) (h : isNodeAddress part = true) (h1 : 1 ≤ payload.length)
    (h2 : payload.length ≤ 32) : frameValid .dispatch (.manageRequest part payload) = true := by
  simp [frameValid, frameAccepted, addressSuits, fieldsValid, h, h1, h2]

/-- A command that is no frame. -/
theorem noFrame (c : Instr) (h : ∀ part, frameOf part c = none) : Statement c := by
  intro part port f _ _ e
  rw [h] at e
  cases e

/-- A command whose frame is valid. -/
theorem ofFrame (c : Instr) (port : Port) (f : Frame) (h : ∀ part, frameOf part c = some (port, f))
    (k : c.wellFormed = true → frameValid port f = true) : Statement c := by
  intro part a x _ hw e
  rw [h] at e
  injection e with e
  injection e with e1 e2
  rw [← e1, ← e2]
  exact reads_of_valid port f (k hw)

/-- A command that is a request of the part. -/
theorem ofRequest (c : Instr) (payload : List Byte) (h : ∀ part, frameOf part c = some (.dispatch, .manageRequest part payload))
    (k : c.wellFormed = true → 1 ≤ payload.length ∧ payload.length ≤ 32) : Statement c := by
  intro part a x hp hw e
  rw [h] at e
  injection e with e
  injection e with e1 e2
  rw [← e1, ← e2]
  exact reads_of_valid .dispatch _ (request_valid part payload hp (k hw).1 (k hw).2)

/-- The arguments that fit behind k bytes make a request of 1 to 32 bytes. -/
theorem fit_length (k n : Nat) (args : List Byte) (h : argsFit k args = true) (hk : 1 ≤ k) (hn : n = k + args.length) :
    1 ≤ n ∧ n ≤ 32 := by
  unfold argsFit at h
  simp only [decide_eq_true_eq] at h
  omega

/-! ### One lemma for each command -/

theorem hardReset : Statement .hardReset := noFrame _ fun _ => rfl
theorem switchLineFiltered (util gen : SwitchLevel) : Statement (.switchLineFiltered util gen) :=
  noFrame _ fun _ => rfl
theorem alarmLineFiltered (a1 a2 a3 a4 : AlarmLevel) : Statement (.alarmLineFiltered a1 a2 a3 a4) :=
  noFrame _ fun _ => rfl
theorem warmUpExpiry : Statement .warmUpExpiry := noFrame _ fun _ => rfl
theorem recallLimitExpiry : Statement .recallLimitExpiry := noFrame _ fun _ => rfl
theorem plantReportStale : Statement .plantReportStale := noFrame _ fun _ => rfl
theorem startTimerExpiry (car : CarIdx) : Statement (.startTimerExpiry car) := noFrame _ fun _ => rfl
theorem tripTimerExpiry (car : CarIdx) : Statement (.tripTimerExpiry car) := noFrame _ fun _ => rfl
theorem settleExpiry : Statement .settleExpiry := noFrame _ fun _ => rfl
theorem blindExpiry : Statement .blindExpiry := noFrame _ fun _ => rfl
theorem recoveryExpiry : Statement .recoveryExpiry := noFrame _ fun _ => rfl
theorem holdOffExpiry : Statement .holdOffExpiry := noFrame _ fun _ => rfl
theorem silenceExpiry : Statement .silenceExpiry := noFrame _ fun _ => rfl
theorem cyclePeriodExpiry : Statement .cyclePeriodExpiry := noFrame _ fun _ => rfl
theorem replyTimerExpiry (port : Port) : Statement (.replyTimerExpiry port) := noFrame _ fun _ => rfl
theorem sendingLineTimeout (port : Port) : Statement (.sendingLineTimeout port) := noFrame _ fun _ => rfl
theorem frameFirstCharacter (port : Port) (char : Byte) : Statement (.frameFirstCharacter port char) :=
  noFrame _ fun _ => rfl
theorem frameAbandoned (port : Port) : Statement (.frameAbandoned port) := noFrame _ fun _ => rfl
theorem frameTruncated (port : Port) : Statement (.frameTruncated port) := noFrame _ fun _ => rfl
theorem receiverIdleResync (port : Port) : Statement (.receiverIdleResync port) := noFrame _ fun _ => rfl
theorem frameDiscarded (port : Port) (chars : List Byte) : Statement (.frameDiscarded port chars) :=
  noFrame _ fun _ => rfl
theorem transmitStart (port : Port) : Statement (.transmitStart port) := noFrame _ fun _ => rfl
theorem transmitComplete (port : Port) : Statement (.transmitComplete port) := noFrame _ fun _ => rfl
theorem cycleMark (number : Byte) : Statement (.cycleMark number) := ofFrame _ _ _ (fun _ => rfl) id
theorem carOrder (address : Byte) (order : OrderPayload) : Statement (.carOrder address order) :=
  ofFrame _ _ _ (fun _ => rfl) id
theorem plantPoll (address : Byte) : Statement (.plantPoll address) := ofFrame _ _ _ (fun _ => rfl) id
theorem plantReport (address : Byte) (power freq : Word16) (flags : Byte) : Statement (.plantReport address power freq flags) :=
  ofFrame _ _ _ (fun _ => rfl) id
theorem manageRequestOtherAddress (address : Byte) (payload : List Byte) : Statement (.manageRequestOtherAddress address payload) :=
  ofFrame _ _ _ (fun _ => rfl) id
theorem carReport (port : Port) (address : Byte) (report : ReportPayload) : Statement (.carReport port address report) :=
  ofFrame _ _ _ (fun _ => rfl) fun h => (Bool.and_eq_true _ _ ▸ h).2
theorem masterCarReport (port : Port) (address : Byte) (report : ReportPayload) : Statement (.masterCarReport port address report) :=
  ofFrame _ _ _ (fun _ => rfl) fun h => (Bool.and_eq_true _ _ ▸ h).2
theorem masterPlantReport (address : Byte) (power freq : Word16) (flags : Byte) : Statement (.masterPlantReport address power freq flags) :=
  ofFrame _ _ _ (fun _ => rfl) id
theorem masterCycleMark (number : Byte) : Statement (.masterCycleMark number) := ofFrame _ _ _ (fun _ => rfl) id
theorem masterDispatchFrameIgnored (frame : Frame) : Statement (.masterDispatchFrameIgnored frame) :=
  ofFrame _ _ _ (fun _ => rfl) fun h => (Bool.and_eq_true _ _ ▸ h).2
theorem handbackFrameDropped (frame : Frame) : Statement (.handbackFrameDropped frame) :=
  ofFrame _ _ _ (fun _ => rfl) id
theorem manageRequestBadKind (kind : Byte) (args : List Byte) : Statement (.manageRequestBadKind kind args) :=
  ofRequest _ _ (fun _ => rfl) fun h => fit_length 1 _ args (Bool.and_eq_true _ _ ▸ h).2 (by decide) (by simp only [List.length_cons]; omega)
theorem read (args : List Byte) : Statement (.read args) :=
  ofRequest _ _ (fun _ => rfl) fun h => fit_length 1 _ args h (by decide) (by simp only [List.length_cons]; omega)
theorem writeCarIdentity (args : List Byte) : Statement (.writeCarIdentity args) :=
  ofRequest _ _ (fun _ => rfl) fun h => fit_length 2 _ args h (by decide) (by simp only [List.length_cons]; omega)
theorem writeCarConfiguration (args : List Byte) : Statement (.writeCarConfiguration args) :=
  ofRequest _ _ (fun _ => rfl) fun h => fit_length 2 _ args h (by decide) (by simp only [List.length_cons]; omega)
theorem writeClass (args : List Byte) : Statement (.writeClass args) :=
  ofRequest _ _ (fun _ => rfl) fun h => fit_length 2 _ args h (by decide) (by simp only [List.length_cons]; omega)
theorem writePlant (args : List Byte) : Statement (.writePlant args) :=
  ofRequest _ _ (fun _ => rfl) fun h => fit_length 2 _ args h (by decide) (by simp only [List.length_cons]; omega)
theorem writeGroup (args : List Byte) : Statement (.writeGroup args) :=
  ofRequest _ _ (fun _ => rfl) fun h => fit_length 2 _ args h (by decide) (by simp only [List.length_cons]; omega)
theorem writeRecallOrder (args : List Byte) : Statement (.writeRecallOrder args) :=
  ofRequest _ _ (fun _ => rfl) fun h => fit_length 2 _ args h (by decide) (by simp only [List.length_cons]; omega)
theorem writeTripMap (args : List Byte) : Statement (.writeTripMap args) :=
  ofRequest _ _ (fun _ => rfl) fun h => fit_length 2 _ args h (by decide) (by simp only [List.length_cons]; omega)
theorem writeSchedule (args : List Byte) : Statement (.writeSchedule args) :=
  ofRequest _ _ (fun _ => rfl) fun h => fit_length 2 _ args h (by decide) (by simp only [List.length_cons]; omega)
theorem writeLinkSettings (args : List Byte) : Statement (.writeLinkSettings args) :=
  ofRequest _ _ (fun _ => rfl) fun h => fit_length 2 _ args h (by decide) (by simp only [List.length_cons]; omega)
theorem copyActiveToShadow (args : List Byte) : Statement (.copyActiveToShadow args) :=
  ofRequest _ _ (fun _ => rfl) fun h => fit_length 1 _ args h (by decide) (by simp only [List.length_cons]; omega)
theorem apply (args : List Byte) : Statement (.apply args) :=
  ofRequest _ _ (fun _ => rfl) fun h => fit_length 1 _ args h (by decide) (by simp only [List.length_cons]; omega)
theorem startService (args : List Byte) : Statement (.startService args) :=
  ofRequest _ _ (fun _ => rfl) fun h => fit_length 1 _ args h (by decide) (by simp only [List.length_cons]; omega)
theorem enable (index : Byte) (args : List Byte) : Statement (.enable index args) :=
  ofRequest _ _ (fun _ => rfl) fun h => fit_length 3 _ args h (by decide) (by simp only [List.length_cons]; omega)
theorem disable (index : Byte) (args : List Byte) : Statement (.disable index args) :=
  ofRequest _ _ (fun _ => rfl) fun h => fit_length 3 _ args h (by decide) (by simp only [List.length_cons]; omega)
theorem isolate (index : Byte) (args : List Byte) : Statement (.isolate index args) :=
  ofRequest _ _ (fun _ => rfl) fun h => fit_length 3 _ args h (by decide) (by simp only [List.length_cons]; omega)
theorem restore (index : Byte) (args : List Byte) : Statement (.restore index args) :=
  ofRequest _ _ (fun _ => rfl) fun h => fit_length 3 _ args h (by decide) (by simp only [List.length_cons]; omega)
theorem clearUnfit (index : Byte) (args : List Byte) : Statement (.clearUnfit index args) :=
  ofRequest _ _ (fun _ => rfl) fun h => fit_length 3 _ args h (by decide) (by simp only [List.length_cons]; omega)
theorem clearFlags (args : List Byte) : Statement (.clearFlags args) :=
  ofRequest _ _ (fun _ => rfl) fun h => fit_length 1 _ args h (by decide) (by simp only [List.length_cons]; omega)
theorem setNoticeMask (args : List Byte) : Statement (.setNoticeMask args) :=
  ofRequest _ _ (fun _ => rfl) fun h => fit_length 1 _ args h (by decide) (by simp only [List.length_cons]; omega)
theorem clearCounters (args : List Byte) : Statement (.clearCounters args) :=
  ofRequest _ _ (fun _ => rfl) fun h => fit_length 1 _ args h (by decide) (by simp only [List.length_cons]; omega)
theorem summary (args : List Byte) : Statement (.summary args) :=
  ofRequest _ _ (fun _ => rfl) fun h => fit_length 1 _ args h (by decide) (by simp only [List.length_cons]; omega)
theorem lock (args : List Byte) : Statement (.lock args) :=
  ofRequest _ _ (fun _ => rfl) fun h => fit_length 1 _ args h (by decide) (by simp only [List.length_cons]; omega)
theorem restart (args : List Byte) : Statement (.restart args) :=
  ofRequest _ _ (fun _ => rfl) fun h => fit_length 1 _ args h (by decide) (by simp only [List.length_cons]; omega)
theorem characterFaultBetweenFrames (port : Port) : Statement (.characterFaultBetweenFrames port) :=
  noFrame _ fun _ => rfl

end Sys2Proof.Laws.WireFit
end

