-- ==== Sys2Proof/Laws/Served.lean ====
section
/-! SUPPORT. How a request of the part ends: what serving it gives is answered with one MANAGE REPLY; and the fields of the
tables read back as written (R166 to R169). -/

namespace Sys2Proof.Machine

/-! ### From serving to the reply -/

theorem sendReply_replied (r : Reply) (p : Part) : sendReply r p = p.replied (resultCode r.code) r.data := by
  unfold sendReply Part.replied handFrame Part.modPort frameChars
  have h : (resultCode r.code :: r.data).length = 1 + r.data.length := by simp [Nat.add_comm]
  rw [h]
  dsimp only [Link.setPort, Link.port]
  split <;> rfl

/-- A request whose serving answers r and leaves the part t ends with the reply that says r. -/
theorem request_answers (s : State) (payload : List Byte) (r : Reply) (t : Part) (h : s.part.servesRequest)
    (h1 : 1 ≤ payload.length) (h2 : payload.length ≤ 32) (hs : serveRequest payload s.part.slotClosed = (r, t)) :
    completes (requestArrives payload) s = .next { s with part := t.replied (resultCode r.code) r.data } := by
  unfold completes
  rw [requestArrives_served payload s.part h h1 h2]
  unfold serveAndReply
  rw [hs, sendReply_replied]

/-! ### Fields -/

theorem byte_toNat (n : Nat) (h : n < 256) : (byte n).toNat = n := by
  unfold byte
  rw [BitVec.toNat_ofNat]
  omega

theorem indexOf_index (n : Nat) (hn : n ≤ 256) (i : Fin n) : indexOf n (BitVec.ofNat 8 i.val) = some i := by
  have h : (BitVec.ofNat 8 i.val).toNat = i.val := by
    rw [BitVec.toNat_ofNat]
    omega
  unfold indexOf
  simp [h]

theorem indexOf_none (n : Nat) (b : Byte) (h : n ≤ b.toNat) : indexOf n b = none := by
  unfold indexOf
  rw [dif_neg (by omega)]

/-- The two bytes of a number. -/
theorem two_eq (n : Nat) : two n = [(BitVec.ofNat 16 n).extractLsb' 8 8, (BitVec.ofNat 16 n).extractLsb' 0 8] := rfl

/-- A two-byte number reads back as written. -/
theorem nat2_two (n : Nat) (h : n < 65536) :
    nat2 ((BitVec.ofNat 16 n).extractLsb' 8 8) ((BitVec.ofNat 16 n).extractLsb' 0 8) = n := by
  unfold nat2
  rw [word16_be16, BitVec.toNat_ofNat]
  omega

theorem inRange_true (lo hi n : Nat) (h1 : lo ≤ n) (h2 : n ≤ hi) : inRange lo hi n = true := by simp [inRange, h1, h2]

/-- Indices read back as written. -/
theorem readIndices_indices (l : List CarIdx) : readIndices (l.map fun i => BitVec.ofNat 8 i.val) = some l := by
  induction l with
  | nil => rfl
  | cons i l h =>
    unfold readIndices
    simp only [List.map_cons]
    rw [indexOf_index 48 (by decide) i, h]

/-! ### Records read back as written -/

theorem readClass_bytes (x : ClassRec) (h1 : x.a < 256) (h2 : x.k < 65536) (h3 : x.b < 256) (h4 : x.acc < 65536)
    (h5 : x.minProgress < 256) (h6 : x.startLimit < 256) (h7 : x.tripLimit < 65536) :
    readClass (classBytes x) = if classInRange x then some x else none := by
  simp only [classBytes, two_eq, readClass, List.cons_append, List.nil_append, nat2_two _ h2, nat2_two _ h4,
    nat2_two _ h7, byte_toNat _ h1, byte_toNat _ h3, byte_toNat _ h5, byte_toNat _ h6]

theorem readPlant_bytes (x : Plant) (h1 : x.g < 65536) (h2 : x.usePct < 256) (h3 : x.baseKW < 65536) (h4 : x.stepPct < 256)
    (h5 : x.revPct < 256) (h6 : x.brakeKW < 65536) (h7 : x.staleKW < 65536) (h8 : x.fOk < 65536) (h9 : x.settleCode < 256)
    (h10 : x.recoveryLimit < 256) (h11 : x.holdOff < 256) (h12 : x.staleLimit < 256) (h13 : x.warmUp < 256)
    (h14 : x.recallLimit < 65536) (h15 : x.maxMoving < 256) (h16 : x.skipLimit < 256) (h17 : x.stallLimit < 256)
    (h18 : x.utilDepth < 256) (h19 : x.genDepth < 256) :
    readPlant (plantBytes x) = if plantInRange x then some x else none := by
  simp only [plantBytes, two_eq, readPlant, List.cons_append, List.nil_append, nat2_two _ h1, nat2_two _ h3, nat2_two _ h6,
    nat2_two _ h7, nat2_two _ h8, nat2_two _ h14, byte_toNat _ h2, byte_toNat _ h4, byte_toNat _ h5, byte_toNat _ h9,
    byte_toNat _ h10, byte_toNat _ h11, byte_toNat _ h12, byte_toNat _ h13, byte_toNat _ h15, byte_toNat _ h16,
    byte_toNat _ h17, byte_toNat _ h18, byte_toNat _ h19]

theorem readGroup_bytes (x : GroupRec) (h1 : x.recallFloor < 256) (h2 : x.maxRunning < 256) (h3 : x.serviceCount < 256)
    (h4 : x.serviceList.length < 256) : readGroup (groupBytes x) = if groupInRange x then some x else none := by
  have h : (indexBytes x.serviceList).length = x.serviceList.length := by simp [indexBytes]
  have k : readIndices (indexBytes x.serviceList) = some x.serviceList := readIndices_indices x.serviceList
  simp only [groupBytes, readGroup, List.cons_append, List.nil_append, k, byte_toNat _ h1, byte_toNat _ h2, byte_toNat _ h3,
    byte_toNat _ h4, h, beq_self_eq_true, Bool.and_true]

theorem readTrip_bytes (x : TripEntry) (h1 : x.depth < 256) (h2 : x.percent < 256) :
    readTrip (tripBytes x) = if tripInRange x then some x else none := by
  rcases x with ⟨e, l, d, a, g, n⟩
  have k1 : flagOf (yes e) = some e := by cases e <;> rfl
  have k2 : alarmOf (alarmCode l) = some l := by cases l <;> rfl
  have k3 : actionOf (actionCode a) = some a := by cases a <;> rfl
  simp only [tripBytes, readTrip, k1, k2, k3, byte_toNat _ h1, byte_toNat _ h2]

theorem readSettings_bytes (x : LinkSettings) (h1 : x.replyLimit < 65536) (h2 : x.silenceLimit < 65536)
    (h3 : x.cyclePeriod < 65536) (h4 : x.lossLimit < 256) (h5 : x.lineLimit < 256) :
    readSettings (settingsBytes x) = if settingsInRange x then some x else none := by
  simp only [settingsBytes, two_eq, readSettings, List.cons_append, List.nil_append, nat2_two _ h1, nat2_two _ h2,
    nat2_two _ h3, byte_toNat _ h4, byte_toNat _ h5]

/-! ### Reads and writes -/

/-- A READ of an entry that the table has (R168). -/
theorem serveRead_entry (p : Part) (code selector index : Byte) (t : Table) (data : List Byte)
    (ht : tableOf code = some t) (hs : selectorAllowed t selector.toNat = true)
    (he : tableEntry p t selector.toNat index = some data) :
    serveRead [code, selector, index] p = (⟨.done, data⟩, p) := by
  unfold serveRead
  simp only [ht, hs, he, if_true, List.isEmpty_nil]

/-- A WRITE to an indexed table, by what its fields decode to (R169). -/
theorem writeEntry_index {α : Type} (n : Nat) (hn : n ≤ 256) (decode : List Byte → Option α)
    (store : Fin n → α → Part → Part) (i : Fin n) (fields : List Byte) (p : Part) :
    writeEntry n decode store (BitVec.ofNat 8 i.val :: fields) p
      = match decode fields with
        | some x => answer .done (store i x p)
        | none => answer .badValue p := by
  have h := indexOf_index n hn i
  cases hd : decode fields <;> simp only [writeEntry, h, hd]

theorem writeEntry_outside {α : Type} (n : Nat) (decode : List Byte → Option α) (store : Fin n → α → Part → Part)
    (b : Byte) (fields : List Byte) (p : Part) (h : n ≤ b.toNat) :
    writeEntry n decode store (b :: fields) p = answer .badIndex p := by
  unfold writeEntry
  simp only [indexOf_none n b h]

/-! ### A WRITE by its table code (R166) -/

theorem serveWrite_identity (args : List Byte) (p : Part) : serveWrite (1 :: args) p = serveWriteIdentity args p := rfl

theorem serveWrite_config (args : List Byte) (p : Part) : serveWrite (2 :: args) p = serveWriteConfig args p := rfl

theorem serveWrite_class (args : List Byte) (p : Part) : serveWrite (4 :: args) p = serveWriteClass args p := rfl

theorem serveWrite_plant (args : List Byte) (p : Part) : serveWrite (5 :: args) p = serveWritePlant args p := rfl

theorem serveWrite_group (args : List Byte) (p : Part) : serveWrite (6 :: args) p = serveWriteGroup args p := rfl

theorem serveWrite_recallOrder (args : List Byte) (p : Part) : serveWrite (7 :: args) p = serveWriteRecallOrder args p := rfl

theorem serveWrite_trip (args : List Byte) (p : Part) : serveWrite (8 :: args) p = serveWriteTrip args p := rfl

theorem serveWrite_schedule (args : List Byte) (p : Part) : serveWrite (9 :: args) p = serveWriteSchedule args p := rfl

theorem serveWrite_settings (args : List Byte) (p : Part) : serveWrite (10 :: args) p = serveWriteSettings args p := rfl

end Sys2Proof.Machine
end

