-- ==== Sys2Proof/Laws/Refused.lean ====
section
/-! SUPPORT. What the readers of a WRITE's fields refuse: for each table, the fields out of range and the wrong lengths that
read as nothing, so that the WRITE answers BAD VALUE (R167, R169). -/

namespace Sys2Proof.Machine

/-! ### Single fields -/

theorem flagOf_none (b : Byte) (h : 2 ≤ b.toNat) : flagOf b = none := by
  unfold flagOf
  rw [if_neg (by rintro rfl; exact absurd h (by decide)), if_neg (by rintro rfl; exact absurd h (by decide))]

theorem alarmOf_none (b : Byte) (h : 2 ≤ b.toNat) : alarmOf b = none := by
  unfold alarmOf
  rw [if_neg (by rintro rfl; exact absurd h (by decide)), if_neg (by rintro rfl; exact absurd h (by decide))]

theorem linesOf_none (b : Byte) (h : 3 ≤ b.toNat) : linesOf b = none := by
  unfold linesOf
  rw [if_neg (by rintro rfl; exact absurd h (by decide)), if_neg (by rintro rfl; exact absurd h (by decide)),
    if_neg (by rintro rfl; exact absurd h (by decide))]

theorem actionOf_none (b : Byte) (h : 4 ≤ b.toNat) : actionOf b = none := by
  unfold actionOf
  rw [if_neg (by rintro rfl; exact absurd h (by decide)), if_neg (by rintro rfl; exact absurd h (by decide)),
    if_neg (by rintro rfl; exact absurd h (by decide)), if_neg (by rintro rfl; exact absurd h (by decide))]

theorem inRange_false (lo hi n : Nat) (h : n < lo ∨ hi < n) : inRange lo hi n = false := by
  simp [inRange]
  omega

/-! ### Lists of car indices -/

theorem readIndices_outside (l : List Byte) (h : ∃ b ∈ l, 48 ≤ b.toNat) : readIndices l = none := by
  induction l with
  | nil => simp at h
  | cons b l ih =>
    unfold readIndices
    by_cases hb : 48 ≤ b.toNat
    · rw [indexOf_none 48 b hb]
    · rw [ih (by
        rcases h with ⟨c, hc, hk⟩
        rcases List.mem_cons.1 hc with rfl | hc
        · exact absurd hk hb
        · exact ⟨c, hc, hk⟩)]
      split <;> simp_all

/-- Bytes below 48 are the indices read from them. -/
theorem readIndices_map (l : List Byte) (is : List CarIdx) (h : readIndices l = some is) :
    l = is.map fun i => BitVec.ofNat 8 i.val := by
  induction l generalizing is with
  | nil =>
    obtain rfl : [] = is := Option.some.inj h
    rfl
  | cons b l ih =>
    unfold readIndices at h
    split at h
    · rename_i i js hi hj
      obtain rfl := Option.some.inj h
      rw [List.map_cons, ← ih js hj]
      unfold indexOf at hi
      split at hi
      · rw [← Option.some.inj hi]
        simp
      · simp at hi
    · simp at h

theorem distinct_false (l : List CarIdx) (h : ¬ (l.map fun i => (BitVec.ofNat 8 i.val : Byte)).Nodup) :
    distinct l = false := by
  rw [Bool.eq_false_iff]
  intro hd
  have hn := (distinct_iff l).1 hd
  refine h (List.pairwise_map.2 (List.Pairwise.imp ?_ hn))
  intro x y hne hxy
  have h := congrArg BitVec.toNat hxy
  simp only [BitVec.toNat_ofNat] at h
  exact hne (Fin.ext (by omega))

/-! ### Entries -/

theorem readConfig_none (cls group floor : Byte)
    (h : 16 ≤ cls.toNat ∨ 8 ≤ group.toNat ∨ (128 ≤ floor.toNat ∧ floor ≠ 255)) :
    readConfig [cls, group, floor] = none := by
  simp only [readConfig]
  split
  · rename_i c g hc hg
    rcases h with h | h | ⟨h, hf⟩
    · rw [indexOf_none 16 cls h] at hc
      simp at hc
    · rw [indexOf_none 8 group h] at hg
      simp at hg
    · rw [if_neg hf, if_neg (by omega)]
  · rfl

theorem readConfig_length (fields : List Byte) (h : fields.length ≠ 3) : readConfig fields = none := by
  unfold readConfig
  split
  · simp at h
  · rfl

theorem readClass_length (fields : List Byte) (h : fields.length ≠ 10) : readClass fields = none := by
  unfold readClass
  split
  · simp at h
  · rfl

theorem readPlant_length (fields : List Byte) (h : fields.length ≠ 25) : readPlant fields = none := by
  unfold readPlant
  split
  · simp at h
  · rfl

theorem readGroup_length (fields : List Byte) (h : fields.length < 4) : readGroup fields = none := by
  unfold readGroup
  split
  · simp only [List.length_cons] at h
    omega
  · rfl

theorem readTrip_length (fields : List Byte) (h : fields.length ≠ 6) : readTrip fields = none := by
  unfold readTrip
  split
  · simp at h
  · rfl

theorem readSchedule_length (fields : List Byte) (h : fields.length ≠ 6) : readSchedule fields = none := by
  unfold readSchedule
  split
  · simp at h
  · rfl

theorem readSettings_length (fields : List Byte) (h : fields.length ≠ 10) : readSettings fields = none := by
  unfold readSettings
  split
  · simp at h
  · rfl

theorem readIdentity_length (fields : List Byte) (h : fields.length ≠ 2) : readIdentity fields = none := by
  unfold readIdentity
  split
  · simp at h
  · rfl

theorem readGroup_none (floor most count len : Byte) (list : List Byte)
    (h : 128 ≤ floor.toNat ∨ 17 ≤ most.toNat ∨ 9 ≤ count.toNat ∨ 9 ≤ list.length ∨ len.toNat ≠ list.length
      ∨ (∃ b ∈ list, 48 ≤ b.toNat) ∨ ¬ list.Nodup) :
    readGroup (floor :: most :: count :: len :: list) = none := by
  simp only [readGroup]
  split
  · rename_i is hi
    have hm := readIndices_map list is hi
    have hl : list.length = is.length := by rw [hm, List.length_map]
    refine if_neg ?_
    rcases h with h | h | h | h | h | h | h
    · simp [groupInRange, inRange_false 0 127 floor.toNat (Or.inr (by omega))]
    · simp [groupInRange, inRange_false 0 16 most.toNat (Or.inr (by omega))]
    · simp [groupInRange, inRange_false 0 8 count.toNat (Or.inr (by omega))]
    · simp [groupInRange, inRange_false 0 8 is.length (Or.inr (by omega))]
    · simp [h]
    · rw [readIndices_outside list h] at hi
      simp at hi
    · rw [hm] at h
      simp [groupInRange, distinct_false is h]
  · rfl

theorem readRecallOrder_none (old : List CarIdx) (start : Nat) (run : List Byte)
    (h : old.length < start ∨ 48 < start + run.length ∨ (∃ b ∈ run, 48 ≤ b.toNat)
      ∨ ¬ ((old.take start).map (fun i => (BitVec.ofNat 8 i.val : Byte)) ++ run).Nodup) :
    readRecallOrder old start run = none := by
  simp only [readRecallOrder]
  split
  · rename_i is hi
    have hm := readIndices_map run is hi
    have hl : run.length = is.length := by rw [hm, List.length_map]
    refine if_neg ?_
    rcases h with h | h | h | h
    · simp
      omega
    · simp
      omega
    · rw [readIndices_outside run h] at hi
      simp at hi
    · rw [hm, ← List.map_append] at h
      simp [distinct_false _ h]
  · rfl

theorem readTrip_none (enable level depth action groups percent : Byte)
    (h : 2 ≤ enable.toNat ∨ 2 ≤ level.toNat ∨ depth.toNat < 1 ∨ 15 < depth.toNat ∨ 4 ≤ action.toNat
      ∨ 100 < percent.toNat) :
    readTrip [enable, level, depth, action, groups, percent] = none := by
  simp only [readTrip]
  split
  · rename_i e l a he hl ha
    rcases h with h | h | h | h | h | h
    · simp [flagOf_none _ h] at he
    · simp [alarmOf_none _ h] at hl
    · simp [tripInRange, inRange_false 1 15 depth.toNat (Or.inl h)]
    · simp [tripInRange, inRange_false 1 15 depth.toNat (Or.inr h)]
    · simp [actionOf_none _ h] at ha
    · simp [tripInRange, inRange_false 0 100 percent.toNat (Or.inr h)]
  · rfl

theorem readSchedule_none (used kind address lines value mask : Byte)
    (h : 2 ≤ used.toNat ∨ 2 ≤ kind.toNat ∨ 64 ≤ value.toNat ∨ 64 ≤ mask.toNat
      ∨ (kind = 0 ∧ (isCarAddress address = false ∨ 3 ≤ lines.toNat))) :
    readSchedule [used, kind, address, lines, value, mask] = none := by
  simp only [readSchedule]
  split
  · rfl
  · rename_i u hu
    rcases h with h | h | h | h | ⟨rfl, h⟩
    · simp [flagOf_none _ h] at hu
    · have h0 : kind ≠ 0 := by rintro rfl; exact absurd h (by decide)
      have h1 : kind ≠ 1 := by rintro rfl; exact absurd h (by decide)
      simp only [if_neg h1, if_neg (fun e : kind = 0 ∧ isCarAddress address = true => h0 e.1), ite_self]
    · simp [inRange_false 0 63 value.toNat (Or.inr h)]
    · simp [inRange_false 0 63 mask.toNat (Or.inr h)]
    · rcases h with h | h
      · simp [h]
      · simp [linesOf_none _ h]

theorem readIdentity_none (address lines : Byte) (h : isCarAddress address = false ∨ 3 ≤ lines.toNat) :
    readIdentity [address, lines] = none := by
  simp only [readIdentity]
  rcases h with h | h
  · simp [h]
  · simp [linesOf_none _ h]

/-! ### Requests -/

/-- Fields that read as nothing are refused with BAD VALUE. -/
theorem writeEntry_refused {α : Type} (n : Nat) (hn : n ≤ 256) (decode : List Byte → Option α)
    (store : Fin n → α → Part → Part) (i : Fin n) (fields : List Byte) (p : Part) (h : decode fields = none) :
    writeEntry n decode store (BitVec.ofNat 8 i.val :: fields) p = answer .badValue p := by
  rw [writeEntry_index n hn decode store i fields p, h]

/-- With the lock CLEAR the write is made as if there were no lock. -/
theorem underLock_clear (n : Nat) (args : List Byte) (p : Part) (write : List Byte → Part → Reply × Part)
    (h : p.mgmt.locked = false) : underLock n args p write = write args p := by
  unfold underLock
  cases args <;> simp [h]

/-- An index outside the table is judged before the lock. -/
theorem underLock_outside (n : Nat) (b : Byte) (fields : List Byte) (p : Part) (write : List Byte → Part → Reply × Part)
    (h : n ≤ b.toNat) : underLock n (b :: fields) p write = write (b :: fields) p := by
  unfold underLock
  simp [indexOf_none n b h]

end Sys2Proof.Machine
end

