-- ==== Sys2Proof/Tests/Slice0.lean ====
section
/-! SUPPORT. Tests: what WellFormed refuses, the words of the spec's worked examples, and for every statement of
Certificates/Slice0 a state and operands that meet its hypotheses, clause by clause. -/

namespace Sys2Proof.Tests

set_option Elab.async false

open Sys2Proof.Machine

/-! ### WellFormed refuses -/

def goodOrder : OrderPayload := ⟨4, 127, 2, 1, []⟩
def goodReport : ReportPayload := ⟨127, 1, 2, 2, 2, 255, 2, 127, 0, 0, []⟩
def bytes (n : Nat) : List Byte := List.replicate n 0

theorem test_wf_frames_good :
    (Instr.cycleMark 63).wellFormed = true ∧ (Instr.carOrder 63 goodOrder).wellFormed = true
      ∧ (Instr.plantPoll 126).wellFormed = true ∧ (Instr.plantReport 64 0xFFFF 0xFFFF 255).wellFormed = true
      ∧ (Instr.manageRequestOtherAddress 64 (bytes 32)).wellFormed = true
      ∧ (Instr.carReport .carA 1 goodReport).wellFormed = true
      ∧ (Instr.masterCarReport .carB 1 goodReport).wellFormed = true := by decide

theorem test_wf_mark_number : (Instr.cycleMark 64).wellFormed = false ∧ (Instr.masterCycleMark 64).wellFormed = false := by
  decide

theorem test_wf_car_address :
    (Instr.carOrder 0 goodOrder).wellFormed = false ∧ (Instr.carOrder 64 goodOrder).wellFormed = false
      ∧ (Instr.carReport .carA 64 goodReport).wellFormed = false
      ∧ (Instr.masterCarReport .carA 0 goodReport).wellFormed = false := by decide

theorem test_wf_node_address :
    (Instr.plantPoll 63).wellFormed = false ∧ (Instr.plantReport 127 0 0 0).wellFormed = false
      ∧ (Instr.masterPlantReport 127 0 0 0).wellFormed = false
      ∧ (Instr.manageRequestOtherAddress 127 [1]).wellFormed = false := by decide

theorem test_wf_order_fields :
    (Instr.carOrder 1 { goodOrder with mode := 5 }).wellFormed = false
      ∧ (Instr.carOrder 1 { goodOrder with target := 128 }).wellFormed = false
      ∧ (Instr.carOrder 1 { goodOrder with door := 3 }).wellFormed = false
      ∧ (Instr.carOrder 1 { goodOrder with permit := 2 }).wellFormed = false
      ∧ (Instr.carOrder 1 { goodOrder with priv := bytes 9 }).wellFormed = false := by decide

theorem test_wf_report_fields :
    (Instr.carReport .carA 1 { goodReport with floor := 128 }).wellFormed = false
      ∧ (Instr.carReport .carA 1 { goodReport with direction := 3 }).wellFormed = false
      ∧ (Instr.carReport .carA 1 { goodReport with motion := 3 }).wellFormed = false
      ∧ (Instr.carReport .carA 1 { goodReport with door := 3 }).wellFormed = false
      ∧ (Instr.carReport .carA 1 { goodReport with request := 3 }).wellFormed = false
      ∧ (Instr.carReport .carA 1 { goodReport with target := 128 }).wellFormed = false
      ∧ (Instr.carReport .carA 1 { goodReport with priv := bytes 9 }).wellFormed = false := by decide

theorem test_wf_port :
    (Instr.carReport .dispatch 1 goodReport).wellFormed = false
      ∧ (Instr.masterCarReport .dispatch 1 goodReport).wellFormed = false
      ∧ (Instr.masterDispatchFrameIgnored (.carReport 1 goodReport)).wellFormed = false
      ∧ (Instr.handbackFrameDropped (.carReport 1 goodReport)).wellFormed = false := by decide

theorem test_wf_ignored_kind :
    (Instr.masterDispatchFrameIgnored (.cycleMark 0)).wellFormed = false
      ∧ (Instr.masterDispatchFrameIgnored (.plantPoll 64)).wellFormed = true
      ∧ (Instr.handbackFrameDropped (.cycleMark 64)).wellFormed = false := by decide

theorem test_wf_request_length :
    (Instr.manageRequestOtherAddress 64 []).wellFormed = false
      ∧ (Instr.manageRequestOtherAddress 64 (bytes 33)).wellFormed = false
      ∧ (Instr.read (bytes 32)).wellFormed = false ∧ (Instr.read (bytes 31)).wellFormed = true
      ∧ (Instr.writeClass (bytes 31)).wellFormed = false ∧ (Instr.writeClass (bytes 30)).wellFormed = true
      ∧ (Instr.enable 0 (bytes 30)).wellFormed = false ∧ (Instr.enable 0 (bytes 29)).wellFormed = true := by decide

theorem test_wf_unknown_kind :
    (Instr.manageRequestBadKind 0 []).wellFormed = true ∧ (Instr.manageRequestBadKind 13 []).wellFormed = true
      ∧ (Instr.manageRequestBadKind 1 []).wellFormed = false ∧ (Instr.manageRequestBadKind 12 []).wellFormed = false := by
  decide

/-- A frame that a port would take is no discarded frame, and neither are characters that complete no frame. -/
theorem test_wf_discarded :
    (Instr.frameDiscarded .dispatch [0x20, 0x60, 0x00, 0x41, 0x70]).wellFormed = false
      ∧ (Instr.frameDiscarded .dispatch [0x20, 0x60, 0x00, 0x41, 0x71]).wellFormed = true
      ∧ (Instr.frameDiscarded .carA [0x20, 0x60, 0x00, 0x41, 0x70]).wellFormed = true
      ∧ (Instr.frameDiscarded .dispatch [0x20, 0x60, 0x01, 0x41, 0x70]).wellFormed = false := by decide +kernel

/-- No row of the table has bits, so no word spells a command. -/
theorem test_decode_none : decodeTableWord 8 0 = none ∧ decodeTableWord 64 12345 = none := by decide

/-! ### Worked figures (03) -/

def shuttle : ClassRec := { a := 12, k := 180, b := 45, acc := 120 }
def localDrive : ClassRec := { a := 6, k := 60, b := 45, acc := 150 }
def heavy : ClassRec := { a := 40, k := 400, b := 45, acc := 100 }

theorem test_figures_car7 : computeFigures shuttle .down (some 70) = ⟨22800, 0, 3300, .down⟩ := by decide
theorem test_figures_car12 :
    computeFigures shuttle .up (some 90) = ⟨30900, 9300, 0, .up⟩
      ∧ computeFigures shuttle .up (some 140) = ⟨37200, 15600, 0, .up⟩ := by decide
theorem test_figures_car3 :
    computeFigures localDrive .up none = ⟨14400, 5400, 2100, .up⟩
      ∧ computeFigures localDrive .down none = ⟨12300, 3300, 4200, .down⟩ := by decide
theorem test_figures_heavy :
    computeFigures heavy .up (some 100) = ⟨66000, 26000, 0, .up⟩
      ∧ computeFigures heavy .up (some 40) = ⟨44000, 2000, 0, .up⟩ := by decide

def sitePlant : Plant := { g := 1500, usePct := 90, baseKW := 600, stepPct := 30, revPct := 5, brakeKW := 200 }
def site : Part := { active := { plant := sitePlant }, sup := { fresh := true, report := some ⟨820, 5000, false, 0⟩ } }

theorem test_site_limits :
    site.cap = 75000 ∧ site.capEff = 75000 ∧ site.stepMax = 45000 ∧ site.regenMax = 27500
      ∧ kW site.capEff = 750 ∧ kW 9301 = 94 ∧ kW 0 = 0
      ∧ ({ site with alarms.q := 40 } : Part).capEff = 45000
      ∧ ({ site with alarms.q := 40, sup.fresh := false, active.plant.staleKW := 500 } : Part).capEff = 0
      ∧ ({ site with sup.fresh := false, active.plant.staleKW := 500 } : Part).capEff = 25000
      ∧ site.measuredCheck 30900 = true
      ∧ ({ site with sup.report := some ⟨1100, 5000, false, 0⟩ } : Part).measuredCheck 30900 = false := by decide

theorem test_floor_limits :
    let p : Part := { active := { plant := { g := 1250, usePct := 85, baseKW := 500 } }, sup := { fresh := true } }
    ({ p with alarms.q := 15 } : Part).capEff = 47812 ∧ kW 47812 = 479 ∧ ({ p with alarms.q := 35 } : Part).capEff = 36562
      ∧ kW 36562 = 366 := by decide


/-! ### Witnesses: commands, time and what every step keeps -/

def base : Part := {}
def ofPart (p : Part) : State := { part := p }
def inState (x : TransferState) (p : Part) : Part := { p with sup.state := x }
def quickOrder : OrderPayload := ⟨4, 255, 0, 0, []⟩
def standing : Live := ⟨0, .zoneIn, .none, .stopped, .closed, some 70, .none, 0, 0, ⟨false, false, false, false⟩⟩
def figure : Figures := ⟨22800, 3300, 10, .down⟩
def heldCar : Car :=
  { address := some 1, duty := .recall, run := .running, m := 3300, r := 10, snapshot := some figure,
    startTimer := .running 1, tripTimer := .running 0 }
def withHeld : Part := { base.setCar 7 heldCar with adm := { sumM := 3300, sumR := 10 } }

theorem test_witness_StepRunsFrontCommand :
    ({ pending := [.hardReset, .lock []] } : State).pending = .hardReset :: [.lock []] := by decide

/-- A timer with 1 ms left is not due, one with 0 left is. -/
theorem test_witness_IdleStep :
    (ofPart base).pending = [] ∧ dueCommands base = [] ∧ dueCommands { base with sup.warmUp := .running 1 } = []
      ∧ dueCommands { base with sup.warmUp := .running 0 } = [.warmUpExpiry]
      ∧ dueCommands { base with adm.settle := .running 0, sup.warmUp := .running 0 } ≠ [] := by decide +kernel

theorem test_witness_EveryStepKeepsSums :
    let s : State := { part := withHeld, pending := [.lock []] }
    s.part.sumsAgree ∧ ∃ t, step s = .next t := by
  refine ⟨?_, _, rfl⟩
  unfold Part.sumsAgree Part.totalM Part.totalR
  decide +kernel

theorem test_witness_EveryStepKeepsLinkBounds :
    let s : State := { part := { base with link := { malformed := 65535, strays := 65535, pending := some {} } },
                       pending := [.transmitStart .carA] }
    s.part.link.bounded ∧ s.part.listsDistinct ∧ ∃ t, step s = .next t := by
  refine ⟨?_, by unfold Part.listsDistinct Tables.listsDistinct; decide +kernel, _, rfl⟩
  refine ⟨?_, ?_, ?_, by decide, by decide, by decide, by decide, ?_⟩
  · unfold PortState.bounded; decide
  · unfold PortState.bounded; decide
  · unfold PortState.bounded; decide
  · rintro r h
    cases h
    decide

def mastered : Part :=
  { inState .recall base with master := { mode := .master, silent := true, silence := .expired, nextCycle := 63,
                                          phase := .wait, cycle := some 62, period := .running 5 } }

theorem test_witness_EveryStepKeepsMasteryShape :
    let s : State := { part := mastered, pending := [.cyclePeriodExpiry] }
    s.part.masteryFits ∧ ∃ t, step s = .next t := by
  refine ⟨?_, _, rfl⟩
  unfold Part.masteryFits
  decide +kernel

theorem test_witness_LockGuardsPlantAndTripMap :
    let s : State := { part := { base with mgmt.locked := true }, pending := [.writePlant (bytes 9)] }
    s.part.mgmt.locked = true ∧ s.pending.head? ≠ some .hardReset ∧ ∃ t, step s = .next t :=
  ⟨by decide, by decide, _, rfl⟩

/-! ### Witnesses: the transfer supervisor -/

theorem test_witness_QuietOutput :
    (inState .returning base).quiet = true ∧ (inState .returning withHeld).quiet = false
      ∧ base.sup.state = .normal ∧ base.quiet = false := by decide +kernel

def onUtility (n : Nat) : Part :=
  { base with sup := { util := ⟨some .closed, some .closed, n⟩, gen := ⟨some .opened, some .opened, 0⟩,
                       position := .utility } }

/-- The sample before the last of a depth of 5. -/
theorem test_witness_SwitchSampleBelowDepth :
    let p := onUtility 3
    p.sup.util.level = some .closed ∧ p.sup.gen.level = some .opened
      ∧ p.sup.position = positionOf (some .closed) (some .opened)
      ∧ (SwitchLevel.opened ≠ .closed → p.sup.util.count + 1 < p.active.plant.utilDepth)
      ∧ (SwitchLevel.opened ≠ .opened → p.sup.gen.count + 1 < p.active.plant.genDepth) := by decide +kernel

/-- The last sample of a depth of 5. -/
theorem test_witness_UtilityLossStopsCars :
    let p := onUtility 4
    p.sup.util.level = some .closed ∧ p.sup.gen.level = some .opened ∧ p.sup.position = .utility
      ∧ p.sup.state = .normal ∧ p.active.plant.utilDepth ≤ p.sup.util.count + 1 ∧ p.mgmt.deferred = none
      ∧ p.master.mode = .relay ∧ p.master.silent = false := by decide +kernel

theorem test_witness_TransferStateTable :
    [Position.opened, .invalid, .generator, .utility].all (fun new =>
      base.sup.position != new && base.mgmt.deferred == none && base.active.plant.warmUp != 0
        && (openLike base.sup.position && openLike new) == false) = true := by decide +kernel

def onGenerator (x : TransferState) : Part :=
  inState x { base.setCar 0 { address := some 1, duty := .parked } with sup.position := .generator }

theorem test_witness_LeavingGenerator :
    [TransferState.recall, .service, .returning].all (fun x =>
      (onGenerator x).sup.state.onGenerator && (onGenerator x).sup.position == .generator
        && (onGenerator x).mgmt.deferred == none && ((onGenerator x).car 0).duty == .parked
        && ((onGenerator x).car 0).run == .idle) = true := by decide +kernel

theorem test_witness_RestoredDutyTable :
    (inState .outage base).sup.state = .outage ∧ ((inState .recall base).car 0).live = none
      ∧ (inState .recall (base.setCar 0 { live := some standing })).restoredDuty 0 = .parked
      ∧ (inState .recall (base.setCar 0 { live := some { standing with floor := 1 } })).restoredDuty 0 = .recall := by
  decide +kernel

theorem test_witness_WarmUpExpiryEntersRecall :
    let p := inState .standby { base.setCar 47 { address := some 63, duty := .stopped } with sup.warmUp := .running 0 }
    p.sup.state = .standby ∧ p.sup.warmUp = .running 0 ∧ p.retransferHeld = false ∧ p.queuedCars = []
      ∧ p.mgmt.deferred = none ∧ (p.car 47).duty = .stopped ∧ passesStanding (p.recallFloor 47) (p.car 47) = false
      ∧ (p.car 47).unfit = none := by decide +kernel

theorem test_witness_RecallLimitExpiry :
    let p := inState .recall { base with sup.recallLimit := .running 0 }
    p.sup.state = .recall ∧ p.sup.recallLimit = .running 0 ∧ p.retransferHeld = false := by decide +kernel

theorem test_witness_PlantReportBecomesStale : base.sup.fresh = false ∧ site.sup.fresh = true := by decide +kernel

/-- Both ends of the addresses that are not the plant node's, and the plant node's 96. -/
theorem test_witness_PlantReportTaken :
    base.takesRequest ∧ isNodeAddress 64 = true ∧ isNodeAddress 126 = true ∧ isNodeAddress 96 = true
      ∧ (64 : Byte) ≠ base.link.settings.plantNode ∧ (96 : Byte) = base.link.settings.plantNode
      ∧ base.sup.state.onGenerator = false ∧ base.adm.window = none ∧ base.sup.fresh = false
      ∧ site.sup.fresh = true := by
  unfold Part.takesRequest Part.takesFrame
  decide +kernel

theorem test_witness_RetransferReportMovesToReturn :
    (inState .recall site).sup.state = .recall ∧ (inState .service site).sup.state = .service
      ∧ (inState .recall site).sup.fresh = true ∧ (inState .recall site).adm.window = none := by decide +kernel

/-! ### Witnesses: figures and limits -/

/-- Run figures above 0, at 0 and below 0; a load at the balance; a class without K; both requests. -/
theorem test_witness_KnownLoadFigures :
    (computeFigures { a := 1, k := 10, b := 30 } .down (some 40)).mRun = 0
      ∧ (computeFigures { a := 1, k := 10, b := 30 } .down (some 40)).rRun = 0
      ∧ (computeFigures { a := 1, k := 10, b := 30 } .down (some 41)).rRun = 10
      ∧ (computeFigures { a := 1, k := 10, b := 30 } .up (some 30)).mRun = 100
      ∧ ((base.setCar 3 { live := some { standing with request := .up } }).car 3).live = some { standing with request := .up }
      ∧ ((base.setCar 3 { live := some { standing with request := .down } }).car 3).live
          = some { standing with request := .down } := by decide +kernel

theorem test_witness_AbsentLoadFigures : ({ b := 125 } : ClassRec).b ≤ 125 ∧ shuttle.b ≤ 125 := by decide

/-- A site at the limit of the measured check: 100 * 1026 + 32400 is 1500 * 90. -/
theorem test_witness_PlantLimits :
    let p : Part := { site with sup.report := some ⟨1026, 5000, false, 0⟩, alarms.q := 100 }
    p.alarms.q ≤ 100 ∧ p.sup.fresh = true ∧ base.sup.fresh = false ∧ p.measuredCheck 32400 = true
      ∧ p.measuredCheck 32401 = false := by decide +kernel

/-! ### Witnesses: trips -/

theorem test_witness_StartTimerExpiry :
    (withHeld.car 7).startTimer = .running 1 ∧ (withHeld.car 7).run = .running ∧ (withHeld.car 7).stalled = false
      ∧ ((withHeld.setCar 7 { heldCar with run := .starting }).car 7).snapshot = some figure
      ∧ ((withHeld.setCar 7 { heldCar with run := .starting }).car 7).run = .starting
      ∧ ((withHeld.setCar 7 { heldCar with stalled := true }).car 7).stalled = true
      ∧ (base.car 7).startTimer.isRunning = false := by decide +kernel

theorem test_witness_TripTimerExpiry :
    let lost := withHeld.setCar 7 { heldCar with duty := .lost, prior := some .service }
    (withHeld.car 7).tripTimer = .running 0 ∧ (withHeld.car 7).run = .running ∧ (withHeld.car 7).duty ≠ .lost
      ∧ (withHeld.car 7).stalled = false
      ∧ ((withHeld.setCar 7 { heldCar with stalled := true }).car 7).stalled = true
      ∧ (withHeld.car 7).holdsRun = true
      ∧ (lost.car 7).tripTimer = .running 0 ∧ (lost.car 7).holdsRun = true ∧ (lost.car 7).duty = .lost
      ∧ (lost.car 7).disablePending = false ∧ lost.queuedCars = [] ∧ lost.mgmt.deferred = none := by decide +kernel

/-- Progress of 2 up where 2 is the least: good. Of 1: stagnant. Of -2: reversed. Of -1: both. -/
theorem test_witness_ProgressCounts :
    countProgress 2 .up 2 { stagnant := 3, goodRun := 1 } = { stagnant := 0, goodRun := 2 }
      ∧ countProgress 2 .up 1 { stagnant := 15, goodRun := 1 } = { stagnant := 15, goodRun := 0 }
      ∧ countProgress 2 .up (-2) { reverse := 14 } = { reverse := 15 }
      ∧ countProgress 2 .up (-1) {} = { stagnant := 1, reverse := 1 } := by decide +kernel

/-- One miss below the loss limit of 8, and the miss that reaches it. -/
theorem test_witness_MissesLoseTheCar :
    let near (n : Nat) : Part := base.setCar 7 { address := some 1, duty := .normal, missCount := n }
    ((near 6).car 7).missCount + 1 < base.link.settings.lossLimit
      ∧ base.link.settings.lossLimit ≤ ((near 7).car 7).missCount + 1 ∧ ((near 7).car 7).duty ≠ .lost
      ∧ ((near 7).car 7).run = .idle := by
  decide +kernel

/-! ### Witnesses: admission -/

theorem test_witness_StepGap :
    base.gapOpen = false ∧ (inState .recall base).gapOpen = true ∧ (inState .service base).gapOpen = true
      ∧ base.queuedCars = [] ∧ base.mgmt.deferred = none := by decide +kernel

def settling (phase : WindowPhase) (freq : Word16) : Part :=
  inState .recall { withHeld.setCar 7 { heldCar with run := .starting } with
    adm := { sumM := 3300, sumR := 10, window := some ⟨phase, 7⟩, settle := .running 0, recovery := .running 0,
             reportMark := true }
    sup := { fresh := true, report := some ⟨0, freq, false, 0⟩ } }

/-- A frequency at f_ok, and one below it. -/
theorem test_witness_SettleExpiry :
    (settling .settling 4900).adm.window = some ⟨.settling, 7⟩ ∧ (settling .settling 4900).adm.settle = .running 0
      ∧ (settling .settling 4900).sup.fresh = true ∧ (settling .settling 4900).adm.reportMark = true
      ∧ (settling .settling 4900).active.plant.fOk ≤ (4900 : Word16).toNat
      ∧ ((settling .settling 4900).car 7).snapshot = some figure
      ∧ (4899 : Word16).toNat < (settling .settling 4899).active.plant.fOk
      ∧ ({ settling .settling 4900 with sup.fresh := false } : Part).sup.fresh = false := by decide +kernel

theorem test_witness_WindowTimers :
    (settling .blind 0).adm.window = some ⟨.blind, 7⟩ ∧ (settling .blind 0).adm.settle = .running 0
      ∧ (settling .waiting 0).adm.window = some ⟨.waiting, 7⟩ ∧ (settling .waiting 0).adm.recovery = .running 0
      ∧ ((settling .waiting 0).car 7).snapshot = some figure
      ∧ ({ base with adm.holdOff := .running 0 } : Part).adm.holdOff = .running 0 := by decide +kernel

def waiting (d : Duty) (k : Priority) (n : Nat) : Car :=
  { address := some 1, duty := d, run := .queued, priority := some k, joinSeq := some n,
    live := some { standing with request := .down } }

def queued : Part :=
  ((((inState .recall site).setCar 7 (waiting .recall .recall 0)).setCar 6 (waiting .recall .trapped 1)).setCar 5
    (waiting .service .service 3)).setCar 4 (waiting .service .service 2)

theorem test_witness_QueueOrder :
    queued.queue = [6, 7, 4, 5] ∧ (queued.car 7).priority = some .recall ∧ (queued.car 6).priority = some .trapped
      ∧ (queued.car 5).joinSeq = some 3 ∧ (queued.car 4).joinSeq = some 2
      ∧ (5 : CarIdx) ∉ queued.active.recallOrder ∧ queued.active.recallOrder.length ≤ 48
      ∧ ({ queued with active.recallOrder := [7, 6] } : Part).queue = [6, 7, 4, 5] := by decide +kernel

/-- The shuttle of the worked example at its site, with every check at or below its limit. -/
theorem test_witness_HeadOfQueueIsGranted :
    let p : Part := { (inState .recall site).setCar 7 (waiting .recall .recall 0) with
      active.classes := site.active.classes.set 0 shuttle }
    p.gapOpen = true ∧ p.active.plant.g ≠ 0 ∧ p.queue = [7] ∧ p.master.mode = .relay
      ∧ (p.figures 7).start ≤ p.stepMax ∧ p.adm.sumM + (p.figures 7).start ≤ p.capEff
      ∧ p.adm.sumR + (p.figures 7).rRun ≤ p.regenMax
      ∧ (p.sup.fresh = true → 100 * p.measured + (p.figures 7).start ≤ p.active.plant.g * p.active.plant.usePct)
      ∧ p.groupCount (p.group 7) < (p.groupRec (p.group 7)).maxRunning ∧ p.movingCount < p.active.plant.maxMoving
      ∧ hasGroup p.alarms.halted (p.group 7) = false
      ∧ ((p.figures 7).rRun = 0 ∨ hasGroup p.alarms.regenShed (p.group 7) = false) := by decide +kernel

/-! ### Witnesses: alarms -/

def alarmed (action : Action) (groups : BitVec 8) : Part :=
  inState .recall { withHeld with
    active.tripMap := #v[{ enabled := true, action := action, groups := groups, percent := 60 }, {}, {}, {}]
    alarms.filters := #v[⟨some .high, some .high, 3⟩, ⟨some .low, some .low, 0⟩, ⟨some .low, some .low, 0⟩,
      ⟨some .low, some .low, 0⟩] }

theorem test_witness_AlarmSampleBelowDepth :
    let p := alarmed .halt 1
    let level (k : Fin 4) : AlarmLevel := if k = 0 then .high else .low
    (∀ k, (p.alarmFilter k).level = some (level k))
      ∧ (p.alarmFilter 0).count + 1 < (p.tripEntry 0).depth := by decide +kernel

/-- A line in effect that sheds the group of a car with a run, by each of the two shedding actions, and one that sheds none. -/
theorem test_witness_ActionsInEffect :
    ((deriveActions (alarmed .shedAll 1)).car 7).shed = true ∧ ((deriveActions (alarmed .shedRegen 1)).car 7).shed = true
      ∧ ((deriveActions (alarmed .shedAll 2)).car 7).shed = false ∧ (deriveActions (alarmed .derate 0)).alarms.q = 60
      ∧ (deriveActions (alarmed .halt 128)).alarms.halted = 128 := by decide +kernel

theorem test_witness_DerateShedding :
    ({ withHeld with standing := 1 } : Part).capEff < ({ withHeld with standing := 1 } : Part).standing
      ∧ withHeld.standing ≤ withHeld.capEff ∧ ({ base with standing := 1 } : Part).retained ≤ base.capEff := by
  decide +kernel

/-! ### Witnesses: the link ports -/

def atPort (port : Port) (x : PortState) : Part := base.modPort port fun _ => x
def slotOf (a b : Option SlotLine) : Slot := ⟨.car, false, 7, none, a, b, 500, false, .stopped⟩
def line (x : LineStatus) : SlotLine := ⟨x, .running 500⟩
def polled (a b : LineStatus) : Part := { base with slot := some (slotOf (some (line a)) (some (line b))) }

theorem test_witness_ReceiverEvents :
    base.slotNow = none ∧ (base.link.port .dispatch).sending = false
      ∧ (base.link.port .dispatch).receiver = .betweenFrames
      ∧ ((atPort .carA { receiver := .inFrame [] }).link.port .carA).receiver = .inFrame []
      ∧ ((atPort .carA { receiver := .inFrame [0x11] }).link.port .carA).sending = false
      ∧ ((atPort .carB { receiver := .discarding }).link.port .carB).receiver = .discarding
      ∧ ((atPort .dispatch { sending := true, queue := [{ chars := [] }] }).link.port .dispatch).sending = true := by
  decide +kernel

theorem test_witness_FirstCharacterMovesTheLine :
    let p := polled .waiting .sending
    let q := (polled .sending .receiving).modPort .carB fun x => { x with receiver := .inFrame [0x11] }
    p.slotNow = some (slotOf (some (line .waiting)) (some (line .sending))) ∧ (p.link.port .carA).sending = false
      ∧ (p.link.port .carA).receiver = .betweenFrames
      ∧ q.slotNow = some (slotOf (some (line .sending)) (some (line .receiving))) ∧ (q.link.port .carB).sending = false
      ∧ (q.link.port .carB).receiver = .inFrame [0x11]
      ∧ splitFrame [0x11, 0x07, 0x00, 0x00, 0x00] = some (0x11, 0x07, [], [0x00, 0x00])
      ∧ ([0x00, 0x00] : List Byte) ≠ be16 (crc [0x11, 0x07, 0x00]) := by decide +kernel

/-- Every kind of frame on a port that takes it. -/
theorem test_witness_FramesAreTheirCharacters :
    base.lineFree .dispatch ∧ base.lineFree .carA
      ∧ frameValid .dispatch (.cycleMark 63) = true ∧ frameValid .dispatch (.carOrder 63 goodOrder) = true
      ∧ frameValid .carA (.carReport 1 goodReport) = true ∧ frameValid .dispatch (.plantPoll 126) = true
      ∧ frameValid .dispatch (.plantReport 64 0xFFFF 0 255) = true
      ∧ frameValid .dispatch (.manageRequest 64 (bytes 32)) = true := by
  unfold Part.lineFree
  decide +kernel

/-- A poll with a wrong check, and one whose address is a car's with its own check. -/
theorem test_witness_DiscardedFrames :
    base.takesFrame .dispatch ∧ base.slotNow = none
      ∧ splitFrame [0x20, 0x60, 0x00, 0x41, 0x71] = some (0x20, 0x60, [], [0x41, 0x71])
      ∧ [0x41, 0x71] ≠ be16 (crc [0x20, 0x60, 0x00])
      ∧ splitFrame (wireChars (.plantPoll 0x3F)) = some (0x20, 0x3F, [], be16 (crc [0x20, 0x3F, 0x00]))
      ∧ parseFrame 0x20 0x3F [] = some (.plantPoll 0x3F) ∧ frameValid .dispatch (.plantPoll 0x3F) = false
      ∧ parseFrame 0x31 0x60 [] = none := by
  unfold Part.takesFrame
  decide +kernel

def sent (forSlot : Bool) : TxFrame := ⟨[0x01], forSlot⟩

theorem test_witness_TransmitterEvents :
    let waits := atPort .carA { queue := [sent false] }
    let goes := atPort .carA { queue := [sent false], sending := true }
    let opens : Part := { atPort .carA { queue := [sent true], sending := true } with
      slot := some (slotOf (some ⟨.sending, .stopped⟩) none) }
    (waits.link.port .carA).sending = false ∧ (waits.link.port .carA).queue ≠ []
      ∧ (waits.link.port .carA).receiver = .betweenFrames ∧ (base.link.port .carA).queue = []
      ∧ (goes.link.port .carA).sending = true ∧ (goes.link.port .carA).queue = [sent false]
      ∧ (opens.link.port .carA).queue = [sent true] ∧ (opens.link.port .carA).sending = true
      ∧ opens.slotNow = some (slotOf (some ⟨.sending, .stopped⟩) none) := by decide +kernel

/-! ### Witnesses: relay -/

theorem test_witness_DispatchFramesCloseTheSlot :
    (polled .answered .waiting).takesRequest ∧ isNodeAddress 64 = true ∧ isNodeAddress 126 = true
      ∧ (64 : Byte) ≠ base.link.settings.partAddress := by
  unfold Part.takesRequest Part.takesFrame
  decide +kernel

/-- Both lines silent, both answered, one of each, and a single expected line, for car 7 and for no car. -/
theorem test_witness_ClosedSlot :
    let known : Part := base.setCar 7 { address := some 7, duty := .normal }
    base.findEnabled 7 = none ∧ known.findEnabled 7 = some 7
      ∧ (slotOf (some (line .waiting)) (some (line .silent))).kind = .car
      ∧ (slotOf (some (line .waiting)) (some (line .silent))).dispatch = none
      ∧ (polled .answered .waiting).slot = some (slotOf (some (line .answered)) (some (line .waiting)))
      ∧ (line .answered).status = .answered ∧ (line .waiting).status ≠ .answered
      ∧ (slotOf (some (line .answered)) none).carB = none ∧ (slotOf none (some (line .answered))).carA = none := by
  decide +kernel

theorem test_witness_CycleMarkRelayed : (polled .answered .waiting).takesRequest ∧ (63 : Byte).toNat ≤ 63 := by
  unfold Part.takesRequest Part.takesFrame
  decide +kernel

theorem test_witness_CarOrderRelayed :
    base.takesRequest ∧ isCarAddress 1 = true ∧ isCarAddress 63 = true ∧ orderValid goodOrder = true
      ∧ orderValid quickOrder = true := by
  unfold Part.takesRequest Part.takesFrame
  decide +kernel

/-- A record for each row of the table of issued orders. -/
theorem test_witness_IssuedOrderTable :
    let held (x : TransferState) (c : Car) : Part := inState x (base.setCar 7 { c with address := some 7 })
    base.sup.state = .normal ∧ (held .normal { duty := .normal, order := some goodOrder }).findEnabled 7 = some 7
      ∧ (inState .outage base).sup.state ≠ .normal ∧ (inState .outage base).findEnabled 7 = none
      ∧ (held .recall { heldCar with shed := true }).findEnabled 7 = some 7
      ∧ ((held .recall { heldCar with shed := true }).car 7).stopAtLanding = true
      ∧ ((held .service { duty := .service, order := some goodOrder }).car 7).stopAtLanding = false
      ∧ (held .service { duty := .service, order := some goodOrder }).master.mode = .relay
      ∧ (held .service { duty := .service, order := some goodOrder }).findEnabled 7 = some 7
      ∧ ((held .service { duty := .lost, prior := some .service }).car 7).prior = some .service
      ∧ ({ held .service { duty := .service, live := some standing } with master.mode := .master } : Part).findEnabled 7 = some 7
      ∧ (held .outage { duty := .stopped }).findEnabled 7 = some 7
      ∧ ((held .recall heldCar).issuedOrder 7 none).1.permit = 1 := by decide +kernel

theorem test_witness_CarReportClassed :
    let p := (polled .receiving .sending).modPort .carA fun x => { x with receiver := .inFrame [0x11] }
    p.master.mode = .relay ∧ p.takesFrame .carA ∧ isCarAddress 7 = true ∧ reportValid goodReport = true
      ∧ (p.received .carA).slot = some (slotOf (some (line .receiving)) (some (line .sending)))
      ∧ (slotOf (some (line .receiving)) (some (line .sending))).answered = false
      ∧ base.takesFrame .carA ∧ (base.received .carA).slot = none := by
  unfold Part.takesFrame
  decide +kernel

/-- The duplicate: the other line answered, then this one; and the address beside its slot's. -/
theorem test_witness_CarReportDuplicate :
    let sl : Slot := { slotOf (some (line .receiving)) (some (line .waiting)) with answered := true }
    let p := ({ base with slot := some sl } : Part).modPort .carA fun x => { x with receiver := .inFrame [0x11] }
    p.takesFrame .carA ∧ (p.received .carA).slot = some sl ∧ sl.address = 7 ∧ sl.answered = true
      ∧ slotLine sl .carA = some (line .receiving) ∧ slotLine sl .carB = some (line .waiting) := by
  unfold Part.takesFrame
  decide +kernel

theorem test_witness_ReportIntake :
    let p := inState .recall (base.setCar 7 { address := some 7, duty := .recall, live := some standing })
    base.sup.state = .normal ∧ (base.car 7).run = .idle ∧ (base.car 7).duty ≠ .lost ∧ (base.car 7).duty ≠ .parked
      ∧ p.sup.state = .recall ∧ (p.car 7).live ≠ none ∧ (p.car 7).run = .idle ∧ (p.car 7).duty = .recall
      ∧ (p.car 7).isolatePending = false ∧ (p.car 7).disablePending = false ∧ (p.car 7).unfit = none
      ∧ p.adm.joinCounter < 65535
      ∧ ({ p with adm.holdOff := .running 1 } : Part).gapOpen = false := by decide +kernel

theorem test_witness_LineTimersSilence :
    let p : Part := { mastered with master.slot := some (slotOf (some ⟨.sending, .stopped⟩) (some (line .waiting))) }
    (polled .waiting .sending).slotNow = some (slotOf (some (line .waiting)) (some (line .sending)))
      ∧ (polled .receiving .waiting).slotNow = some (slotOf (some (line .receiving)) (some (line .waiting)))
      ∧ p.slotNow = some (slotOf (some ⟨.sending, .stopped⟩) (some (line .waiting))) ∧ p.master.mode ≠ .relay := by
  decide +kernel

/-! ### Witnesses: link mastership -/

theorem test_witness_SilenceAndPeriod :
    base.master.silence = .running 200 ∧ base.master.mode = .relay ∧ base.sup.state = .normal
      ∧ (inState .service (base.setCar 7 { heldCar with duty := .service })).sup.state ≠ .normal
      ∧ ((inState .service (base.setCar 7 { heldCar with duty := .service })).car 7).holdsRun = true
      ∧ mastered.master.period = .running 5 ∧ mastered.master.mode = .master ∧ mastered.master.phase = .wait
      ∧ ({ mastered with master.phase := .slots } : Part).master.phase ≠ .wait := by decide +kernel

def answering (x : LinkMode) : Part :=
  let sl : Slot := ⟨.plant, false, 96, some (line .receiving), none, none, 500, false, .running 5⟩
  { mastered with master := { mastered.master with mode := x, phase := .slots, walk := some 63, slot := some sl } }

/-- The plant slot on a RECEIVING port, for its own address and for another. -/
theorem test_witness_MasterPlantReport :
    [LinkMode.master, .handback].all (fun x =>
      let q := (answering x).received .dispatch
      q.master.mode == x && (q.link.port .dispatch).receiver == .betweenFrames && q.master.walk == some 63
        && q.master.slot == (answering x).master.slot && q.slot == none) = true
      ∧ (answering .master).takesFrame .dispatch ∧ isNodeAddress 96 = true ∧ isNodeAddress 97 = true
      ∧ (mastered.received .dispatch).master.slot = none := by
  unfold Part.takesFrame
  decide +kernel

theorem test_witness_MasterCarReport :
    let sl := slotOf (some (line .receiving)) (some (line .waiting))
    let p := ({ mastered with master.slot := some sl } : Part).modPort .carA fun x => { x with receiver := .inFrame [0x11] }
    p.master.mode ≠ .relay ∧ p.takesFrame .carA ∧ isCarAddress 7 = true ∧ reportValid goodReport = true
      ∧ (p.received .carA).master.slot = some sl ∧ (mastered.received .carB).master.slot = none := by
  unfold Part.takesFrame
  decide +kernel

/-- With no slot open, and in a plant slot. -/
theorem test_witness_MasterDispatchFrames :
    mastered.takesFrame .dispatch ∧ (mastered.received .dispatch).master.slot = none ∧ mastered.master.mode = .master
      ∧ mastered.master.phase ≠ .slots ∧ frameValid .dispatch (.plantPoll 64) = true
      ∧ (∀ n, Frame.plantPoll 64 ≠ .cycleMark n)
      ∧ (∀ a power freq flags, Frame.plantPoll 64 ≠ .plantReport a power freq flags)
      ∧ (answering .master).takesFrame .dispatch ∧ (answering .master).master.phase = .slots
      ∧ (answering .handback).takesFrame .dispatch ∧ frameValid .dispatch (.cycleMark 63) = true := by
  unfold Part.takesFrame
  refine ⟨by decide +kernel, by decide +kernel, by decide +kernel, by decide +kernel, by decide, ?_, ?_,
    by decide +kernel, by decide +kernel, by decide +kernel, by decide⟩
  · exact fun n h => Frame.noConfusion h
  · exact fun a power freq flags h => Frame.noConfusion h

/-! ### Witnesses: management -/

theorem test_serves : base.servesRequest ∧ (inState .recall base).servesRequest := by
  unfold Part.servesRequest Part.takesRequest Part.takesFrame
  decide +kernel

/-- The bounds at which a READ is refused, for the tables and selectors that the clauses name. -/
theorem test_witness_ReadsAreAnswered :
    13 < (14 : Byte).toNat ∧ 3 < (4 : Byte).toNat ∧ 1 < (2 : Byte).toNat ∧ 48 ≤ (48 : Byte).toNat ∧ 12 < (13 : Byte).toNat
      ∧ base.link.pending = none := by decide +kernel

/-- The reply to a read, character for character, and the refusal of an index outside the table. -/
theorem test_read_reply :
    ((base.replied 0 (identityBytes (base.car 0))).link.dispatch.queue.map TxFrame.chars).map (·.take 4)
        = [[0x31, 120, 3, 0]]
      ∧ (serveRequest [0x01, 1, 0, 48] base).1.code = .badIndex ∧ (serveRequest [0x01, 14, 0, 0] base).1.code = .badTable := by
  decide +kernel

def greatest : Plant :=
  { g := 4000, usePct := 100, baseKW := 4000, stepPct := 100, revPct := 20, brakeKW := 1000, staleKW := 4000, fOk := 7000,
    settleCode := 255, recoveryLimit := 255, holdOff := 255, staleLimit := 255, warmUp := 255, recallLimit := 65535,
    maxMoving := 48, skipLimit := 15, stallLimit := 15, utilDepth := 15, genDepth := 15 }

def least : Plant :=
  { g := 20, usePct := 50, stepPct := 5, fOk := 4000, settleCode := 0, recoveryLimit := 1, holdOff := 0, staleLimit := 1,
    warmUp := 0, skipLimit := 0, stallLimit := 2, utilDepth := 1, genDepth := 1 }

/-- The greatest and least records of the staged tables, and a group's list without doubles. -/
theorem test_witness_StagedWrites :
    let c : ClassRec := ⟨100, 500, 60, 300, 255, 30, 600⟩
    let g : GroupRec := ⟨127, 16, 8, [0, 1, 2, 3, 4, 5, 6, 47]⟩
    c.a ≤ 100 ∧ c.k ≤ 500 ∧ 30 ≤ c.b ∧ c.b ≤ 60 ∧ c.acc ≤ 300 ∧ 1 ≤ c.minProgress ∧ c.minProgress ≤ 255
      ∧ 1 ≤ c.startLimit ∧ c.startLimit ≤ 30 ∧ 10 ≤ c.tripLimit ∧ c.tripLimit ≤ 600
      ∧ g.recallFloor ≤ 127 ∧ g.maxRunning ≤ 16 ∧ g.serviceCount ≤ 8 ∧ g.serviceList.length ≤ 8 ∧ g.serviceList.Nodup
      ∧ (0 : Fin 49).val ≤ base.shadow.recallOrder.length
      ∧ (base.shadow.recallOrder.take 0 ++ [47, 0] : List CarIdx).Nodup ∧ isCarAddress 63 = true
      ∧ 100 < ({ c with a := 101 } : ClassRec).a ∧ ({ c with a := 255 } : ClassRec).a < 256 := by decide +kernel

theorem test_witness_GuardedAndDirectWrites :
    base.slotClosed.mgmt.locked = false ∧ ({ base with mgmt.locked := true } : Part).slotClosed.mgmt.locked = true
      ∧ plantInRange greatest = true ∧ plantInRange least = true
      ∧ (base.slotClosed.car 47).duty = .disabled
      ∧ ((base.setCar 47 { duty := .normal }).slotClosed.car 47).duty ≠ .disabled
      ∧ settingsInRange { base.link.settings with plantNode := 126, partAddress := 64 } = true := by decide +kernel

theorem test_witness_TablesFlagsCountersAndLock :
    ({ base with mgmt.locked := true } : Part).slotClosed.mgmt.locked = true
      ∧ base.alert = false ∧ ({ base with mgmt := { flags := 0x800, mask := 0x800 } } : Part).alert = true
      ∧ ([0] : List Byte) ≠ [] ∧ (bytes 31).length ≤ 31 := by decide +kernel

/-- A request at once and one that waits, an occupied slot, and the gap OPEN and CLOSED in RECALL. -/
theorem test_witness_DeferredRequests :
    let open_ := (inState .recall base).slotClosed
    let closed := ({ inState .recall base with adm.holdOff := .running 1 } : Part).slotClosed
    let full := ({ inState .recall base with mgmt.deferred := some .apply } : Part).slotClosed
    base.slotClosed.mgmt.deferred = none ∧ base.slotClosed.gapOpen = false ∧ base.slotClosed.sup.state = .normal
      ∧ open_.mgmt.deferred = none ∧ open_.gapOpen = true ∧ open_.sup.state = .recall
      ∧ closed.gapOpen = false ∧ closed.sup.state = .recall ∧ closed.mgmt.deferred = none
      ∧ full.mgmt.deferred ≠ none := by decide +kernel

/-- A record for each clause about one car. -/
theorem test_witness_CarControl :
    let with_ (c : Car) : Part := (inState .service (base.setCar 47 { c with address := some 63 })).slotClosed
    (∀ j, (base.slotClosed.car j).duty = .disabled)
      ∧ ((with_ {}).car 47).duty = .disabled ∧ ((with_ {}).car 47).address = some 63
      ∧ ((with_ heldCar).car 47).holdsRun = true ∧ ((with_ { heldCar with disablePending := true }).car 47).disablePending = true
      ∧ ((with_ { heldCar with isolatePending := true }).car 47).isolatePending = true
      ∧ ((with_ { duty := .lost, prior := some .isolated }).car 47).prior = some .isolated
      ∧ ((with_ { duty := .isolated }).car 47).duty = .isolated ∧ ((with_ { duty := .isolated }).car 47).holdsRun = false
      ∧ ((with_ (waiting .service .service 0)).car 47).run = .queued
      ∧ ((with_ { duty := .parked }).car 47).run = .idle
      ∧ 48 ≤ (48 : Byte).toNat := by decide +kernel

theorem test_witness_RestartClears :
    base.slotClosed.sup.state = .normal ∧ (inState .recall base).slotClosed.sup.state ≠ .normal
      ∧ ((base.setCar 7 heldCar).slotClosed.car 7).duty ≠ .disabled ∧ (base.slotClosed.car 7).duty = .disabled := by
  decide +kernel

/-! ### Witnesses: the clauses about settle windows, RETURN, the walk, reports and line samples -/

/-- The part after a command. -/
def after (c : Instr) (p : Part) : Part :=
  match exec c (ofPart p) with
  | .next t => t.part
  | .fault _ => p
  | .refused _ => p

/-- A list with cars in it, and the selection by its first entry. -/
theorem test_witness_RecallLimitExpiry_lists :
    let g : GroupRec := { serviceCount := 1, serviceList := [5, 4] }
    let p : Part := { queued with sup.recallLimit := .running 0, active.groups := base.active.groups.set 0 g }
    p.listsDistinct ∧ p.sup.state = .recall ∧ p.retransferHeld = false
      ∧ (p.afterSelection 5).duty = .service ∧ (p.afterSelection 4).duty = .recall := by
  unfold Part.listsDistinct Tables.listsDistinct
  decide +kernel

/-- A report in each phase of the window, in a state it does not move. -/
theorem test_witness_PlantReportTaken_window :
    let p := settling .waiting 0
    p.takesRequest ∧ p.sup.state.onGenerator = true ∧ (p.sup.state = .returning ↔ false = true)
      ∧ p.adm.window = some ⟨.waiting, 7⟩ ∧ (p.car 7).snapshot = some figure
      ∧ p.active.plant.fOk ≤ (4900 : Word16).toNat ∧ (4899 : Word16).toNat < p.active.plant.fOk
      ∧ (settling .settling 0).takesRequest ∧ (settling .settling 0).adm.window = some ⟨.settling, 7⟩
      ∧ (settling .blind 0).takesRequest ∧ (settling .blind 0).adm.window = some ⟨.blind, 7⟩ := by
  unfold Part.takesRequest Part.takesFrame
  decide +kernel

def returning (x : Remembered) : Part :=
  { inState .returning (base.setCar 7 { address := some 7, duty := .recall }) with sup.remembered := some x }

theorem test_witness_PlantReportTaken_clear :
    (returning .service).takesRequest ∧ (returning .service).sup.state = .returning ∧ (returning .service).nothingWaits
      ∧ (returning .service).sup.remembered = some .service ∧ (returning .service).listsDistinct
      ∧ (returning .recall).takesRequest ∧ (returning .recall).nothingWaits
      ∧ (returning .recall).sup.remembered = some .recall ∧ ((returning .recall).car 7).duty = .recall
      ∧ ((returning .recall).car 7).unfit = none := by
  unfold Part.takesRequest Part.takesFrame Part.nothingWaits Part.listsDistinct Tables.listsDistinct
  decide +kernel

theorem test_witness_TripTimerExpiry_starting :
    let p := withHeld.setCar 7 { heldCar with run := .starting }
    (p.car 7).tripTimer = .running 0 ∧ (p.car 7).run = .starting ∧ (p.car 7).duty ≠ .lost ∧ (p.car 7).stalled = false
      ∧ (p.car 7).snapshot = some figure := by decide +kernel

theorem test_witness_QueueOrder_rank :
    let p : Part := { queued with active.recallOrder := [7, 6] }
    p.active.recallOrder = [7] ++ 6 :: [] ∧ (6 : CarIdx) ∉ ([7] : List CarIdx) ∧ p.recallRank 6 = 1
      ∧ p.active.recallOrder = [] ++ 7 :: [6] ∧ p.recallRank 7 = 0 := by decide +kernel

def walked (c : Car) : Part :=
  { (inState .recall site).setCar 7 c with active.classes := site.active.classes.set 0 shuttle }

/-- A step limit below the start, a halted group below the skip limit and at it, and a car that has left the queue. -/
theorem test_witness_HeadOfQueue_walk :
    let c := waiting .recall .recall 0
    let narrow : Part := { walked c with active.plant := { sitePlant with stepPct := 5 } }
    let halted : Part := { walked c with alarms.halted := 1 }
    let barred : Part := { walked { c with skipCount := 2 } with alarms.halted := 1 }
    narrow.gapOpen = true ∧ narrow.active.plant.g ≠ 0 ∧ narrow.stepMax < (narrow.figures 7).start
      ∧ (narrow.car 7).run = .queued
      ∧ hasGroup halted.alarms.halted (halted.group 7) = true ∧ (halted.figures 7).start ≤ halted.stepMax
      ∧ (halted.car 7).skipCount + 1 < halted.active.plant.skipLimit
      ∧ barred.active.plant.skipLimit ≤ (barred.car 7).skipCount + 1
      ∧ (halted.car 6).run ≠ .queued := by decide +kernel

/-- In single-car mode: with a run, behind a halted car, and with every car halted. -/
theorem test_witness_HeadOfQueue_single :
    let single (groups : BitVec 8) (p : Part) : Part := { p with
      active.plant.g := 0
      active.config := base.active.config.set 6 { group := 1 }
      alarms.halted := groups }
    let passes (p : Part) (i : CarIdx) : Bool := p.groupChecks i (p.figures i)
    (single 2 queued).gapOpen = true ∧ (single 2 queued).active.plant.g = 0 ∧ (single 2 queued).movingCount = 0
      ∧ (single 2 queued).queue = [6] ++ 7 :: [4, 5] ∧ passes (single 2 queued) 6 = false
      ∧ passes (single 2 queued) 7 = true
      ∧ (single 3 queued).queue.all (fun i => passes (single 3 queued) i == false) = true
      ∧ (single 0 (inState .recall withHeld)).movingCount ≠ 0
      ∧ (single 0 (inState .recall withHeld)).gapOpen = true := by decide +kernel

/-- The sample that reaches the depth at the beginning of an action and at its end, and one below the depth. -/
theorem test_witness_AlarmLineFiltered :
    let lines (x : AlarmLevel) (n : Nat) (p : Part) : Part := { p with
      alarms.filters := #v[⟨some x, some x, n⟩, ⟨some .low, some .low, 0⟩, ⟨some .low, some .low, 0⟩,
        ⟨none, some .low, 4⟩] }
    let begins := lines .low 4 (alarmed .halt 1)
    let stands := lines .high 4 (deriveActions (lines .high 0 (alarmed .halt 1)))
    let begun := after (.alarmLineFiltered .high .low .low .low) begins
    let ended := after (.alarmLineFiltered .low .low .low .low) stands
    (begun.alarmFilter 0).level = some .high ∧ (begun.alarmFilter 3).level = some .low
      ∧ (begins.alarmStatus 0).inEffect = false ∧ (begun.alarmStatus 0).inEffect = true
      ∧ (stands.alarmStatus 0).inEffect = true ∧ (ended.alarmFilter 0).level = some .low
      ∧ (ended.alarmStatus 0).inEffect = false
      ∧ (((after (.alarmLineFiltered .high .low .low .low) (lines .low 3 (alarmed .halt 1))).alarmFilter 0).level
          = some .low) := by decide +kernel

/-- A shed car takes the retained figure to the limit, and the next one stays. -/
theorem test_witness_DerateShedding_order :
    let p : Part := { (withHeld.setCar 6 { heldCar with duty := .service, grantTime := 1, m := 100 }) with
      standing := 5000
      active.plant := { g := 100, usePct := 50, baseKW := 0 }
      sup.fresh := true
      now := 2
      adm.sumM := 5100
      alarms.q := 0 }
    p.capEff = 5000 ∧ ((recomputeLimits { p with standing := 6000 }).car 6).shed = true
      ∧ ((recomputeLimits { p with standing := 6000 }).car 7).shed = false
      ∧ (recomputeLimits { p with standing := 6000 }).flag .shed = true := by decide +kernel

/-- A slot that is open on the other line only. -/
theorem test_witness_lineUnexpected :
    let p : Part := { base with slot := some (slotOf (some (line .waiting)) none) }
    p.lineUnexpected .carB ∧ p.lineUnexpected .dispatch ∧ base.lineUnexpected .carA ∧ p.takesFrame .dispatch := by
  refine ⟨.inr ⟨_, .carA, _, rfl, rfl, rfl, by decide, by decide⟩,
    .inr ⟨_, .carA, _, rfl, rfl, rfl, by decide, by decide⟩, .inl rfl, ?_⟩
  unfold Part.takesFrame
  decide +kernel

/-- Strays: another address with the timer running and expired; a line SENDING, ANSWERED or not expected, with the other one
awaited; and the last awaited line. -/
theorem test_witness_CarReportClassed_strays :
    let heard (a b : Option SlotLine) : Part :=
      ({ base with slot := some (slotOf a b) } : Part).modPort .carA fun x => { x with receiver := .inFrame [0x11] }
    let shape (a b : Option SlotLine) : Prop :=
      (heard a b).takesFrame .carA ∧ ((heard a b).received .carA).slot = some (slotOf a b)
    shape (some (line .receiving)) none ∧ shape (some ⟨.receiving, .expired⟩) (some (line .answered))
      ∧ shape (some (line .sending)) (some (line .waiting)) ∧ shape (some (line .answered)) (some (line .waiting))
      ∧ shape none (some (line .waiting)) ∧ shape (some (line .waiting)) none
      ∧ isCarAddress 8 = true ∧ (slotOf none none).address ≠ 8
      ∧ (line .receiving).timer = .running 500 ∧ (⟨.receiving, .expired⟩ : SlotLine).timer.isRunning = false := by
  unfold Part.takesFrame
  decide +kernel

/-! ### Witnesses: report intake -/

def carWith (x : TransferState) (c : Car) : Part := inState x (base.setCar 7 { c with address := some 7 })
def passing : Live := { standing with motion := .moving, pulses := 40 }
def elsewhere : Live := { standing with floor := 3 }
def faulted : Live := { standing with faults := ⟨true, false, false, false⟩ }

/-- A queued car, a record never heard, a LOST one and PARKED ones. -/
theorem test_witness_ReportIntake_duties :
    let leaving := carWith .recall { waiting .recall .recall 0 with live := some standing }
    let first := carWith .recall { duty := .recall }
    let lost := carWith .service { duty := .lost, prior := some .service, live := some standing }
    let parked := carWith .service { duty := .parked, live := some faulted }
    (leaving.car 7).run = .queued ∧ (leaving.car 7).live ≠ none ∧ (leaving.car 7).duty = .recall
      ∧ standing.request = .none ∧ first.sup.state.onGenerator = true ∧ (first.car 7).live = none
      ∧ (first.car 7).duty = .recall ∧ (first.car 7).run = .idle ∧ standing.floor = first.recallFloor 7
      ∧ elsewhere.floor ≠ first.recallFloor 7 ∧ (lost.car 7).duty = .lost ∧ (lost.car 7).prior = some .service
      ∧ (lost.car 7).run = .idle ∧ (lost.car 7).blocked = false ∧ (parked.car 7).duty = .parked
      ∧ (parked.car 7).run = .idle ∧ (parked.car 7).blocked = true ∧ parked.sup.state = .service
      ∧ (carWith .outage { duty := .parked }).sup.state.onGenerator = false := by decide +kernel

/-- A report in motion of a stalled car, one that counts, and one that stalls a RUNNING and a STARTING car. -/
theorem test_witness_ReportIntake_motion :
    let moving (c : Car) : Part := carWith .recall { c with live := some standing, moved := true }
    let counted (c : Car) : Car := countProgress 1 .down (passing.pulses - standing.pulses).toInt c
    passing.motion ≠ .stopped ∧ ((moving heldCar).car 7).holdsRun = true
      ∧ ((moving { heldCar with stalled := true }).car 7).stalled = true
      ∧ ((moving heldCar).car 7).snapshot = some figure ∧ ((moving heldCar).car 7).stalled = false
      ∧ (counted heldCar).reverse < base.active.plant.stallLimit
      ∧ (counted heldCar).stagnant < base.active.plant.stallLimit
      ∧ base.active.plant.stallLimit ≤ (counted { heldCar with reverse := 2 }).reverse
      ∧ ((moving { heldCar with run := .starting, reverse := 2 }).car 7).run = .starting
      ∧ (moving { heldCar with run := .starting }).nothingWaits := by
  unfold Part.nothingWaits
  decide +kernel

/-- A STOPPED report that arrives, one of a car that has not moved, and one with the stall limit lowered to the count. -/
theorem test_witness_ReportIntake_stopped :
    let halted (c : Car) : Part := carWith .recall { c with live := some standing }
    let limited := halted { heldCar with moved := true, stagnant := 3 }
    standing.motion = .stopped ∧ (halted heldCar).nothingWaits ∧ ((halted heldCar).car 7).moved = false
      ∧ ((halted heldCar).car 7).disablePending = false ∧ ((halted heldCar).car 7).blocked = false
      ∧ ((halted { heldCar with moved := true }).car 7).moved = true
      ∧ ((halted { heldCar with shed := true }).car 7).shed = true
      ∧ ({ standing with request := .up } : Live).request ≠ .none
      ∧ limited.active.plant.stallLimit ≤ (limited.car 7).stagnant ∧ (limited.car 7).run = .running
      ∧ (limited.car 7).stalled = false := by
  unfold Part.nothingWaits
  decide +kernel

/-- An arrival after the stall limit was lowered to the standing count stalls first (R35): STALL, the stall count, RECALL. -/
theorem test_arrival_at_lowered_limit :
    let p := carWith .recall { heldCar with live := some standing, moved := true, stagnant := 3 }
    let t := intake 7 elsewhere p
    t.flag .stall = true ∧ (t.car 7).stallCount = 1 ∧ (t.car 7).run = .idle ∧ (t.car 7).duty = .recall
      ∧ (t.car 7).stalled = false := by decide +kernel

/-- The first matched entry hands the issued order to its lines behind the mark, and a PLANT entry the poll. -/
theorem test_cycle_polls :
    let cycle (target : SlotTarget) : Part := { mastered with
      active.schedule := base.active.schedule.set 2 { used := true, target := target } }
    let car := after .cyclePeriodExpiry (cycle (.car 7 .a))
    let plant := after .cyclePeriodExpiry (cycle .plant)
    car.link.carA.queue = [markFrame 63, ⟨wireChars (.carOrder 7 ⟨3, 255, 0, 0, []⟩), true⟩]
      ∧ car.link.carB.queue = [markFrame 63] ∧ car.link.dispatch.queue = [markFrame 63]
      ∧ plant.link.dispatch.queue = [markFrame 63, ⟨wireChars (.plantPoll 96), true⟩]
      ∧ plant.master.walk = some 2 := by decide +kernel

/-- A takeover with a SERVICE car that holds a run. -/
theorem test_witness_SilenceTakeover :
    let p : Part := { inState .service (base.setCar 7 { heldCar with duty := .service }) with
      master.silence := .running 0 }
    let t := after .silenceExpiry p
    p.master.mode = .relay ∧ t.master.mode = .master ∧ (t.car 7).shed = true ∧ t.flag .shed = true
      ∧ t.flag .dispatchSilent = true ∧ t.master.phase = .wait := by decide +kernel

/-! ### Witnesses: the millisecond, first levels, silent takeover, waiting requests, the rest of R30, the walk -/

/-- The count wraps, a running timer loses one millisecond and no other timer does, and the held levels are sampled once. -/
theorem test_millisecond :
    let p : Part := { onUtility 0 with
      now := 0xFFFFFFFF
      sup := { (onUtility 0).sup with warmUp := .running 5, recallLimit := .expired }
      pins := { util := .opened, gen := .opened } }
    let t := tick p
    t.now = 0 ∧ t.sup.warmUp = .running 4 ∧ t.sup.recallLimit = .expired ∧ t.master.silence = .running 199
      ∧ t.sup.util.count = 1 ∧ t.pins.switchSampled = false
      ∧ (tick { p with pins := { p.pins with switchSampled := true } }).sup.util.count = 0 := by decide +kernel

/-- A report of the stale limit's age is not due and one a millisecond older is; a SENDING line at its bound is due. -/
theorem test_due :
    let aged (now : Time) : Part := { site with now := now, sup := { site.sup with report := some ⟨820, 5000, false, 0⟩ } }
    let sending : Part := { mastered with
      master.slot := some { slotOf (some ⟨.sending, .stopped⟩) (some (line .waiting)) with sendBound := .running 0 } }
    dueCommands (aged 2000) = [] ∧ dueCommands (aged 2001) = [.plantReportStale]
      ∧ dueCommands sending = [.sendingLineTimeout .carA] := by decide +kernel

/-- The first levels after reset, and the first position; one line UNKNOWN leaves the position UNKNOWN. -/
theorem test_witness_first_position :
    let p (n : Nat) : Part := { base with sup := { util := ⟨none, some .closed, 4⟩, gen := ⟨none, some .opened, n⟩ } }
    let t := after (.switchLineFiltered .closed .opened)
    (t (p 4)).sup.position = .utility ∧ (t (p 4)).sup.util = ⟨some .closed, none, 0⟩ ∧ (t (p 4)).sup.state = .normal
      ∧ (t (p 3)).sup.position = .unknown ∧ (t (p 3)).sup.gen = ⟨none, some .opened, 4⟩
      ∧ (after (.switchLineFiltered .closed .closed) (p 3)).sup.gen = ⟨none, some .closed, 1⟩ := by decide +kernel

/-- The loss of the utility while the status is SILENT in RELAY takes the link at once. -/
theorem test_witness_silent_loss :
    let p : Part := { onUtility 4 with master := { silent := true, silence := .expired } }
    let t := after (.switchLineFiltered .opened .opened) p
    p.master.mode = .relay ∧ t.sup.state = .outage ∧ t.master.mode = .master ∧ t.master.cycle = some 0
      ∧ t.master.phase = .wait := by decide +kernel

/-- Each waiting request in RECALL and elsewhere, and before each change to OUTAGE or NORMAL. -/
theorem test_witness_waiting_request :
    let waits (x : TransferState) (r : Deferred) : Part := { onGenerator x with
      mgmt.deferred := some r
      shadow.recallOrder := [5] }
    (waits .recall .startService).sup.state = .recall ∧ (waits .returning .startService).sup.state ≠ .recall
      ∧ (executeDeferred (waits .returning .startService)).mgmt.deferred = none
      ∧ (executeDeferred (waits .outage .apply)).active.recallOrder = [5]
      ∧ (executeDeferred (waits .outage .apply)).mgmt.deferred = none
      ∧ (waits .service .apply).sup.position = .generator ∧ openLike .generator = false
      ∧ (takePosition .utility (waits .standby .apply)).active.recallOrder = [5]
      ∧ (takePosition .utility (waits .standby .startService)).active.recallOrder = []
      ∧ (takePosition .utility (waits .standby .startService)).mgmt.deferred = none
      ∧ (takePosition .invalid (waits .standby .apply)).active.recallOrder = [5]
      ∧ (takePosition .invalid (waits .standby .apply)).sup.cause = .switchInvalid := by decide +kernel

/-- The rows of R30 for a QUEUED car and for one that holds a run, its trip timer running and expired. -/
theorem test_witness_loss_rows :
    let near (x : TransferState) (c : Car) : Part := carWith x { c with duty := .service, missCount := 7 }
    let running := near .standby { heldCar with run := .running }
    let timedOut := near .standby { heldCar with tripTimer := .expired }
    let queue := near .standby { run := .queued, priority := some .service, joinSeq := some 0 }
    ((countMiss 7 queue).car 7).run = .idle ∧ ((countMiss 7 queue).car 7).duty = .lost
      ∧ (running.car 7).holdsRun = true ∧ (running.car 7).tripTimer ≠ .expired
      ∧ ((countMiss 7 running).car 7).run = .running
      ∧ (timedOut.car 7).holdsRun = true ∧ (timedOut.car 7).tripTimer = .expired ∧ ((countMiss 7 timedOut).car 7).run = .idle
      ∧ ((countMiss 7 timedOut).car 7).prior = some .service := by decide +kernel

/-- Recall with a car still in duty RECALL, with one that is UNFIT, and with a report of retransfer pending held. -/
theorem test_witness_completion :
    let p := carWith .recall { duty := .recall }
    let q := carWith .recall { duty := .recall, unfit := some ⟨none⟩ }
    p.sup.state = .recall ∧ (p.car 7).duty = .recall ∧ (p.car 7).unfit = none
      ∧ (∀ i, (q.car i).duty = .recall → (q.car i).unfit ≠ none) ∧ q.recallComplete = true ∧ q.retransferHeld = false
      ∧ ({ q with sup.report := some ⟨0, 0, true, 0⟩ } : Part).retransferHeld = true := by decide +kernel

/-- A car that leaves SERVICE is replaced in SERVICE by the first candidate of the list. -/
theorem test_witness_selection_cause :
    let g : GroupRec := { serviceCount := 1, serviceList := [7] }
    let p : Part := { carWith .service { duty := .parked } with active.groups := base.active.groups.set 0 g }
    p.sup.state = .service ∧ p.listsDistinct ∧ (p.afterSelection 7).duty = .service
      ∧ (inState .standby p).sup.state ≠ .recall ∧ (inState .standby p).sup.state ≠ .service := by
  unfold Part.listsDistinct Tables.listsDistinct
  decide +kernel

/-- The last awaited line of a slot: in RELAY it closes with a miss; in MASTER and HANDBACK the walk goes on. -/
theorem test_witness_walk_goes_on :
    let last := slotOf (some (line .waiting)) (some (line .silent))
    let relay : Part := { carWith .normal { duty := .normal } with slot := some last }
    let master (mode : LinkMode) (period : Timer) (used : Bool) : Part := { mastered with
      active.schedule := base.active.schedule.set 62 { used := used, target := .plant }
      master := { mastered.master with
        mode := mode, phase := .slots, walk := some 5, period := period, slot := some last } }
    let t := after (.replyTimerExpiry .carA)
    relay.slotNow = some last ∧ (t relay).slot = none ∧ ((t relay).car 7).missCount = 1
      ∧ (master .master (.running 5) true).slotNow = some last ∧ (master .master (.running 5) true).slot = none
      ∧ (t (master .master (.running 5) true)).master.walk = some 62
      ∧ (t (master .master (.running 5) true)).link.dispatch.queue = [⟨wireChars (.plantPoll 96), true⟩]
      ∧ (t (master .master (.running 5) false)).master.phase = .wait
      ∧ (t (master .master .expired false)).master.cycle = some 63
      ∧ (t (master .handback (.running 5) false)).master.mode = .relay
      ∧ (t (master .handback .expired true)).master.walk = some 62 := by decide +kernel

/-- An answer begun within the limit and abandoned: the line waits on, or is SILENT and the slot ends, by its reply timer. -/
theorem test_witness_abandoned_answer :
    let begun (x : SlotLine) : Part := { carWith .normal { duty := .normal } with
      slot := some (slotOf (some x) none)
      link.carA := { receiver := .inFrame [0x11] } }
    let t := after (.frameAbandoned .carA)
    (t (begun (line .receiving))).slot = some (slotOf (some (line .waiting)) none)
      ∧ (t (begun ⟨.receiving, .expired⟩)).slot = none ∧ ((t (begun ⟨.receiving, .expired⟩)).car 7).missCount = 1 := by
  decide +kernel

/-- Frames that do not answer the plant slot, its reply timer running and expired. -/
theorem test_witness_plant_slot_passed :
    let p (mode : LinkMode) (x : SlotLine) : Part := { answering mode with
      master.mode := mode
      master.slot := some ⟨.plant, false, 96, some x, none, none, 500, false, .running 5⟩ }
    let late : SlotLine := ⟨.receiving, .expired⟩
    let waits (q : Part) : Bool := q.master.slot == some ⟨.plant, false, 96, some (line .waiting), none, none, 500, false, .running 5⟩
    waits (after (.masterDispatchFrameIgnored (.plantPoll 64)) (p .master (line .receiving))) = true
      ∧ (after (.masterDispatchFrameIgnored (.plantPoll 64)) (p .master late)).master.phase = .wait
      ∧ waits (after (.masterPlantReport 97 0 0 0) (p .handback (line .receiving))) = true
      ∧ (after (.masterPlantReport 97 0 0 0) (p .handback late)).link.dropped = 1
      ∧ (after (.handbackFrameDropped (.plantPoll 64)) (p .handback late)).master.mode = .relay
      ∧ waits (after (.masterCycleMark 0) (p .master (line .receiving))) = true
      ∧ (after (.masterCycleMark 0) (p .master (line .receiving))).master.mode = .handback
      ∧ (after (.masterCycleMark 0) (p .master late)).master.mode = .relay := by decide +kernel

/-! ### Witnesses: the duties a release and a report settle, and APPLY -/

/-- Runs with each settlement, a LOST record that holds a run and a QUEUED car, before the position leaves GENERATOR. -/
theorem test_witness_LeavingGenerator_runs :
    let p : Part := ((((((onGenerator .service).setCar 1 { heldCar with isolatePending := true }).setCar 2
      { heldCar with stallCount := 2 }).setCar 3 { heldCar with disablePending := true }).setCar 4
      { heldCar with duty := .lost, prior := some .service }).setCar 5 { heldCar with pendingRecall := true, shed := true }).setCar
      6 (waiting .recall .recall 0)
    p.sup.state.onGenerator = true ∧ p.sup.position = .generator ∧ p.mgmt.deferred = none
      ∧ (∀ i ∈ [1, 2, 3, 4, 5], (p.car i).holdsRun = true) ∧ (p.car 1).isolatePending = true ∧ 2 ≤ (p.car 2).stallCount
      ∧ (p.car 3).disablePending = true ∧ (p.car 4).prior = some .service ∧ (p.car 5).pendingRecall = true
      ∧ (p.car 6).run = .queued := by decide +kernel

/-- A report that becomes STALE while its figures held the capacity up. -/
theorem test_witness_stale_fall :
    let p : Part := { site with active.plant.staleKW := 100 }
    let s : Part := { p with standing := p.capEff }
    s.sup.fresh = true ∧ ({ s with sup.fresh := false } : Part).capEff < s.standing := by decide +kernel

/-- A LOST record that holds a run: its report in motion, stopped with no end of the trip, and each end of the trip. -/
theorem test_witness_ReportIntake_lost_run :
    let lost (c : Car) : Part := (carWith .recall { c with
      duty := .lost, prior := some .recall, live := some standing }).setCar 8 { address := some 8, duty := .recall }
    let asking : Live := { elsewhere with request := .up }
    let result (l : Live) (c : Car) : Car := (intake 7 l (lost c)).car 7
    (∀ c ∈ [heldCar, { heldCar with moved := true }, { heldCar with disablePending := true }],
      ((lost c).car 7).duty = .lost ∧ ((lost c).car 7).prior = some .recall ∧ ((lost c).car 7).holdsRun = true
        ∧ (lost c).nothingWaits)
      ∧ passing.motion ≠ .stopped ∧ (result passing heldCar).run = heldCar.run ∧ (result passing heldCar).duty = .recall
      ∧ asking.motion = .stopped ∧ heldCar.moved = false ∧ heldCar.shed = false ∧ heldCar.stalled = false
      ∧ heldCar.isolatePending = false ∧ (result asking heldCar).run = heldCar.run
      ∧ (result elsewhere { heldCar with moved := true }).run = .idle
      ∧ (result elsewhere { heldCar with moved := true }).duty = .recall
      ∧ (result elsewhere { heldCar with moved := true, isolatePending := true }).duty = .isolated
      ∧ (result asking { heldCar with stalled := true, disablePending := true }).duty = .disabled := by
  unfold Part.nothingWaits
  decide +kernel

/-- A RECALL car with a pending DISABLE whose trip ends is disabled. -/
theorem test_witness_pending_disable :
    let p := (carWith .recall { heldCar with
      duty := .recall, live := some standing, moved := true, disablePending := true }).setCar 8 { address := some 8, duty := .recall }
    (p.car 7).disablePending = true ∧ (p.car 7).run = .running ∧ p.nothingWaits
      ∧ ((intake 7 elsewhere p).car 7).duty = .disabled := by
  unfold Part.nothingWaits
  decide +kernel

/-- A car that joins with the gap OPEN and with the gap CLOSED, and one that joins at the greatest join counter. -/
theorem test_witness_join :
    let asking : Live := { elsewhere with request := .up }
    let ready := carWith .recall { duty := .recall, live := some asking }
    let closed : Part := { ready with adm.holdOff := .running 1 }
    let full : Part := { closed.setCar 9 { waiting .recall .recall 65534 with address := some 9 } with adm.joinCounter := 65535 }
    (ready.car 7).live = some asking ∧ (ready.car 7).run = .idle ∧ (ready.car 7).blocked = false ∧ ready.gapOpen = true
      ∧ closed.gapOpen = false ∧ closed.adm.joinCounter < 65535 ∧ 65535 ≤ full.adm.joinCounter
      ∧ ((handToAdmission 7 asking closed).car 7).joinSeq = some 0
      ∧ ((handToAdmission 7 asking full).car 9).joinSeq = some 0
      ∧ ((handToAdmission 7 asking full).car 7).joinSeq = some 1
      ∧ (handToAdmission 7 asking full).adm.joinCounter = 2 := by decide +kernel

/-- An APPLY with a lowered stale limit and a PARKED record that no longer stands at its recall floor. -/
theorem test_witness_apply :
    let p : Part := { carWith .recall { duty := .parked, live := some elsewhere } with
      now := 5000
      sup.state := .recall
      sup.fresh := true
      sup.report := some ⟨0, 5000, false, 0⟩
      shadow.plant := { base.shadow.plant with staleLimit := 1 } }
    p.sup.fresh = true ∧ (executeApply p).active.plant.staleLimit * 100 < (p.now - 0).toNat
      ∧ (executeApply p).sup.fresh = false ∧ (executeApply p).flag .plantStale = true
      ∧ (p.car 7).duty = .parked ∧ passesStanding (p.recallFloor 7) (p.car 7) = false
      ∧ ((executeApply p).car 7).duty = .recall := by decide +kernel

/-! ### Witnesses: refused writes -/

/-- The first value outside each range of the staged records. -/
theorem test_witness_StagedWrites_refused :
    (∀ b ∈ ([128, 254] : List Byte), 128 ≤ b.toNat ∧ b ≠ 255) ∧ 16 ≤ (16 : Byte).toNat ∧ 8 ≤ (8 : Byte).toNat
      ∧ 17 ≤ (17 : Byte).toNat ∧ (bytes 9).length = 9 ∧ (bytes 25).length ≤ 25 ∧ (1 : Byte).toNat ≠ (bytes 0).length
      ∧ 48 ≤ (48 : Byte).toNat ∧ ¬ ([3, 3] : List Byte).Nodup ∧ base.shadow.recallOrder.length < (1 : Fin 49).val
      ∧ 48 < (20 : Fin 49).val + (bytes 29).length ∧ 2 ≤ (2 : Byte).toNat ∧ 64 ≤ (64 : Byte).toNat
      ∧ isCarAddress 0 = false ∧ isCarAddress 64 = false ∧ 3 ≤ (3 : Byte).toNat ∧ (bytes 2).length ≠ 3
      ∧ (bytes 29).length ≠ 10 ∧ (bytes 3).length < 4 ∧ (bytes 7).length ≠ 6 := by decide +kernel

/-- The first values outside the ranges of the plant table and the link settings, and the records that judge an identity. -/
theorem test_witness_GuardedAndDirectWrites_refused :
    (∀ x ∈ [{ greatest with g := 1 }, { greatest with g := 19 }, { greatest with g := 4001 }, { greatest with maxMoving := 49 },
        { greatest with stallLimit := 16 }, { least with usePct := 49 }, { least with fOk := 3999 }, { least with maxMoving := 0 },
        { least with stallLimit := 1 }, { least with genDepth := 0 }],
      plantInRange x = false ∧ x.g < 65536 ∧ x.fOk < 65536 ∧ x.maxMoving < 256)
      ∧ isNodeAddress 63 = false ∧ isNodeAddress 127 = false ∧ (bytes 24).length ≠ 25 ∧ (bytes 9).length ≠ 10
      ∧ (∀ x ∈ [{ base.link.settings with replyLimit := 99 }, { base.link.settings with silenceLimit := 2001 },
          { base.link.settings with lossLimit := 65 }, { base.link.settings with lineLimit := 0 }],
        settingsInRange x = false ∧ x.replyLimit < 65536 ∧ x.silenceLimit < 65536 ∧ x.lossLimit < 256)
      ∧ (base.slotClosed.car 0).duty = .disabled ∧ ((base.setCar 0 { duty := .isolated }).slotClosed.car 0).duty ≠ .disabled
      ∧ 1 ≤ (1 : Byte).toNat ∧ 4 ≤ (4 : Byte).toNat ∧ 48 ≤ (48 : Byte).toNat := by decide +kernel

end Sys2Proof.Tests
end

section
/-! The QUIET output (R14): what asserts it, and the transfer state under RESTART (R18, R178). -/

namespace Sys2Proof.Machine

theorem holdsRun_eq_false_iff (c : Car) : c.holdsRun = false ↔ c.run ≠ .starting ∧ c.run ≠ .running := by
  unfold Car.holdsRun
  rw [Bool.or_eq_false_iff, beq_eq_false_iff_ne, beq_eq_false_iff_ne]

/-- The duty plays no part, so a LOST record counts as any other. -/
theorem quiet_iff (p : Part) : p.quiet = true ↔ p.sup.state = .returning ∧ ∀ i, (p.car i).holdsRun = false := by
  unfold Part.quiet
  rw [Bool.and_eq_true, beq_iff_eq, Bool.not_eq_true', List.any_eq_false]
  simp only [mem_allCars, true_imp_iff, Bool.not_eq_true]

theorem quiet_eq_false_of_state_ne {p : Part} (h : p.sup.state ≠ .returning) : p.quiet = false :=
  Bool.eq_false_iff.mpr fun hq => h ((quiet_iff p).mp hq).1

/-- RESTART clears the remembered state and the timers of the transfer supervisor; its state stands. -/
theorem restartPart_state (p : Part) : (restartPart p).sup.state = p.sup.state := by
  unfold restartPart
  rw [recomputeLimits_sup]
  rfl

/-- Settles O11: QUIET reads the transfer state and the runs alone, and both hard reset and RESTART leave the transfer state
in NORMAL. -/
theorem quietOutput : Obligations.QuietOutput := by
  refine ⟨fun p => ?asserted, ?afterReset, fun p hNormal => ?afterRestart⟩
  case asserted =>
    rw [quiet_iff]
    simp only [holdsRun_eq_false_iff]
  case afterReset =>
    have hReset : State.reset.part.sup.state = .normal := rfl
    exact quiet_eq_false_of_state_ne (by simp [hReset])
  case afterRestart =>
    exact quiet_eq_false_of_state_ne (by simp [restartPart_state, hNormal])

end Sys2Proof.Machine
end

section
/-! The standing test and the restored duty by transfer state (R21). -/

namespace Sys2Proof.Machine

theorem passesStanding_iff (floor : Nat) (c : Car) : passesStanding floor c = true ↔
    c.run = .idle ∧ ∃ l, c.live = some l ∧ l.motion = .stopped ∧ l.zone = .zoneIn ∧ l.floor = floor := by
  unfold passesStanding
  cases hLive : c.live with
  | some l =>
    dsimp only
    simp only [Bool.and_eq_true, beq_iff_eq, Option.some.injEq, exists_eq_left', and_assoc]
  | none =>
    dsimp only
    exact iff_of_false Bool.false_ne_true fun ⟨_, l, hHeard, _⟩ => Option.some_ne_none l hHeard.symm

theorem passesStanding_of_unheard (floor : Nat) {c : Car} (h : c.live = none) : passesStanding floor c = false := by
  unfold passesStanding
  rw [h]

/-! ### The rows of R21's table -/

theorem restoredDuty_normal {p : Part} (i : CarIdx) (h : p.sup.state = .normal) : p.restoredDuty i = .normal := by
  unfold Part.restoredDuty
  rw [h]

theorem restoredDuty_stopped {p : Part} (i : CarIdx) (h : p.sup.state = .outage ∨ p.sup.state = .standby) :
    p.restoredDuty i = .stopped := by
  unfold Part.restoredDuty
  obtain h | h := h <;> rw [h]

theorem restoredDuty_onGenerator {p : Part} (i : CarIdx)
    (h : p.sup.state = .recall ∨ p.sup.state = .service ∨ p.sup.state = .returning) :
    p.restoredDuty i = if passesStanding (p.recallFloor i) (p.car i) then .parked else .recall := by
  unfold Part.restoredDuty
  obtain h | h | h := h <;> rw [h]

/-- Settles O16: in the last three states the duty is PARKED or RECALL by the standing test, which a record that has not been
heard fails. -/
theorem restoredDutyTable : Obligations.RestoredDutyTable := by
  refine fun p i => ⟨restoredDuty_normal i, restoredDuty_stopped i, fun hState => ?onGenerator⟩
  case onGenerator =>
    rw [restoredDuty_onGenerator i hState, ← passesStanding_iff]
    by_cases hStands : passesStanding (p.recallFloor i) (p.car i) = true
    · have hHeard : (p.car i).live ≠ none := fun hUnheard => by
        rw [passesStanding_of_unheard _ hUnheard] at hStands
        exact Bool.false_ne_true hStands
      rw [if_pos hStands]
      exact ⟨.inl rfl, iff_of_true rfl hStands, fun hUnheard => absurd hUnheard hHeard⟩
    · rw [if_neg hStands]
      exact ⟨.inr rfl, iff_of_false (by decide) hStands, fun _ => rfl⟩

end Sys2Proof.Machine
end

section
/-! The figures of a car with a known load (R51 to R53). -/

namespace Sys2Proof.Machine

/-- The direction d of R51: 1 for UP and -1 for DOWN. -/
def travelSign : Travel → Int
  | .up => 1
  | .down => -1

/-- The imbalance power d·U·K of R52, with U the clamped load less the balance (R51). -/
def imbalancePower (c : ClassRec) (d : Travel) (load : Nat) : Int :=
  travelSign d * ((min load 125 : Nat) - (c.b : Int)) * c.k

theorem imbalancePower_eq_zero (c : ClassRec) (d : Travel) (load : Nat)
    (h : (min load 125 : Nat) - (c.b : Int) = 0 ∨ c.k = 0) : imbalancePower c d load = 0 := by
  unfold imbalancePower
  obtain hBalance | hNoK := h
  · rw [hBalance, Int.mul_zero, Int.zero_mul]
  · rw [hNoK, Int.natCast_zero, Int.mul_zero]

/-- P = 100·a + d·U·K, the run figure before its split (R52). -/
def runFigure (c : ClassRec) (d : Travel) (load : Nat) : Int := 100 * c.a + imbalancePower c d load

theorem computeFigures_known (c : ClassRec) (d : Travel) (load : Nat) : computeFigures c d (some load) =
    { start := (100 * c.a + c.acc * c.k + max 0 (imbalancePower c d load)).toNat
      mRun := (runFigure c d load).toNat
      rRun := (-runFigure c d load).toNat
      dir := d } := by
  unfold computeFigures runFigure imbalancePower
  cases d with
  | up => simp only [travelSign, Int.one_mul]
  | down => simp only [travelSign, Int.neg_one_mul]

theorem runFigures_of_nonneg {c : ClassRec} {d : Travel} {load : Nat} (h : 0 ≤ runFigure c d load) :
    ((computeFigures c d (some load)).mRun : Int) = runFigure c d load
      ∧ (computeFigures c d (some load)).rRun = 0 := by
  rw [computeFigures_known]
  exact ⟨Int.toNat_of_nonneg h, Int.toNat_of_nonpos (Int.neg_nonpos_of_nonneg h)⟩

theorem runFigures_of_neg {c : ClassRec} {d : Travel} {load : Nat} (h : runFigure c d load < 0) :
    (computeFigures c d (some load)).mRun = 0
      ∧ ((computeFigures c d (some load)).rRun : Int) = -runFigure c d load := by
  rw [computeFigures_known]
  exact ⟨Int.toNat_of_nonpos (Int.le_of_lt h), Int.toNat_of_nonneg (Int.neg_nonneg_of_nonpos (Int.le_of_lt h))⟩

/-- No clamp acts on S: each of its three parts is at least 0 (R53). -/
theorem startFigure_known (c : ClassRec) (d : Travel) (load : Nat) :
    ((computeFigures c d (some load)).start : Int)
      = 100 * c.a + c.acc * c.k + max 0 (imbalancePower c d load) := by
  have hLosses : 0 ≤ (100 * c.a + c.acc * c.k : Int) := Int.natCast_nonneg (100 * c.a + c.acc * c.k)
  rw [computeFigures_known]
  exact Int.toNat_of_nonneg (Int.add_nonneg hLosses (Int.le_max_left 0 _))

/-- Without imbalance power the run figure is the standing losses, and nothing is returned (R52). -/
theorem runFigures_of_no_imbalance {c : ClassRec} {d : Travel} {load : Nat} (h : imbalancePower c d load = 0) :
    (computeFigures c d (some load)).mRun = 100 * c.a ∧ (computeFigures c d (some load)).rRun = 0 := by
  have hLosses : runFigure c d load = (100 * c.a : Nat) := by
    rw [runFigure, h, Int.add_zero]
    rfl
  obtain ⟨hDrawn, hReturned⟩ := runFigures_of_nonneg (hLosses ▸ Int.natCast_nonneg _)
  exact ⟨Int.ofNat.inj (hDrawn.trans hLosses), hReturned⟩

/-- The figures of a heard car come from its active class, its run request and its latest load (R51). -/
theorem figures_of_heard {p : Part} {i : CarIdx} {l : Live} (h : (p.car i).live = some l) :
    p.figures i = computeFigures (p.classOf i) (travelOf l.request) l.load := by
  unfold Part.figures
  rw [h]

/-- Settles O22: the figures are one set of equations in P and d·U·K, and each clause is a sign or a zero of these two. -/
theorem knownLoadFigures : Obligations.KnownLoadFigures := by
  refine ⟨fun p i l hHeard => ⟨fun hUp => ?requestUp, fun hDown => ?requestDown⟩,
    fun c d load => ⟨runFigures_of_nonneg, runFigures_of_neg, startFigure_known c d load, fun hNone => ?balanced, ?direction⟩⟩
  case requestUp => rw [figures_of_heard hHeard, hUp]; rfl
  case requestDown => rw [figures_of_heard hHeard, hDown]; rfl
  case balanced => exact runFigures_of_no_imbalance (imbalancePower_eq_zero c d load hNone)
  case direction => exact congrArg Figures.dir (computeFigures_known c d load)

end Sys2Proof.Machine
end

section
/-! What every step keeps (R85, R89, R90, R108, R129, R135, R137, R155, R157, R177): each invariant is read off what one step can do
to the part, `step_partSide`, or, for the shape of the link mastership, `exec_fits`. -/

namespace Sys2Proof.Machine

/-! ### Steps -/

theorem step_front {s : State} {c : Instr} {rest : List Instr} (h : s.pending = c :: rest) :
    step s = exec c { s with pending := rest } := by
  unfold step
  rw [h]

theorem step_idle {s : State} (h : s.pending = []) : step s = idleStep s := by
  unfold step
  rw [h]

/-- A property of the part that reset has and every change a step is made of keeps, holds after every step. -/
theorem step_keeps {P : Part → Prop} (hReset : ∀ p, P (resetPart p)) (hKeeps : ∀ {p q}, PartSide p q → P p → P q)
    {s t : State} (hs : P s.part) (h : step s = .next t) : P t.part := by
  obtain ⟨u, hu, hChange⟩ := step_partSide s
  obtain rfl : u = t := Host.Outcome.next.inj (hu.symm.trans h)
  obtain ⟨-, hPart⟩ | hSide := hChange
  · exact hPart ▸ hReset s.part
  · exact hKeeps hSide hs

/-- A command completes with what it makes of the part. -/
theorem completes_eq {f : Part → Part} {s : State} {q : Part} (h : f s.part = q) :
    completes f s = .next { s with part := q } := by
  rw [completes, h]

/-! ### The part at reset -/

/-- The records at reset hold no commitment. -/
theorem reset_sumsAgree (p : Part) : (resetPart p).sumsAgree := by
  have hNone : ∀ i, (resetPart p).car i = {} := fun i => by simp [Part.car, resetPart]
  refine ⟨?_, ?_⟩
  · simp only [Part.totalM, hNone]
    exact (sum_zero allCars).symm
  · simp only [Part.totalR, hNone]
    exact (sum_zero allCars).symm

theorem reset_bounded (p : Part) : (resetPart p).link.bounded := by
  have hPort : PortState.bounded {} := ⟨by decide, by decide, by decide⟩
  have hSettings : settingsInRange {} = true := by decide
  exact ⟨hPort, hPort, hPort, Nat.zero_le _, Nat.zero_le _, Nat.zero_le _, hSettings,
    fun r hr => absurd hr.symm (Option.some_ne_none r)⟩

theorem reset_listsDistinct (p : Part) : (resetPart p).listsDistinct := by
  have hEmpty : Tables.listsDistinct {} := by
    refine ⟨fun g => ?_, List.nodup_nil⟩
    rw [Vector.getElem_replicate]
    exact List.nodup_nil
  exact ⟨hEmpty, hEmpty⟩

theorem reset_masteryFits (p : Part) : (resetPart p).masteryFits :=
  ⟨fun _ => ⟨rfl, rfl, rfl, rfl, rfl⟩, fun hMode => absurd rfl hMode, Nat.zero_le 63⟩

/-! ### The obligations -/

/-- Settles O1. -/
theorem stepRunsFrontCommand : Obligations.StepRunsFrontCommand := fun _ _ _ => step_front

/-- Settles O4: what HARD_RESET keeps is in the one field that `resetPart` takes over. -/
theorem hardResetReturnsEveryBlock : Obligations.HardResetReturnsEveryBlock := fun _ => rfl

/-- Settles O5. -/
theorem resetKeepsInvariants : Obligations.ResetKeepsInvariants :=
  ⟨reset_sumsAgree {}, reset_bounded {}, reset_masteryFits {}, reset_listsDistinct {}⟩

/-- Settles O6. -/
theorem everyStepKeepsSums : Obligations.EveryStepKeepsSums :=
  fun _ _ => step_keeps reset_sumsAgree PartSide.sums

/-- Settles O7. -/
theorem everyStepKeepsLinkBounds : Obligations.EveryStepKeepsLinkBounds :=
  ⟨fun _ _ => step_keeps (P := fun p => p.link.bounded) reset_bounded PartSide.bounded,
    fun _ _ => step_keeps reset_listsDistinct PartSide.lists⟩

/-- Settles O8: a command keeps the shape, whether it waits at the front of the queue or has come due; so does a millisecond. -/
theorem everyStepKeepsMasteryShape : Obligations.EveryStepKeepsMasteryShape := by
  have hExec : ∀ (c : Instr) (u t : State), u.part.masteryFits → exec c u = .next t → t.part.masteryFits := fun c u t hu h => by
    obtain ⟨q, hq, hFits⟩ := exec_fits c u hu
    obtain rfl := Host.Outcome.next.inj (hq.symm.trans h)
    exact hFits
  intro s t hs h
  cases hPending : s.pending with
  | cons c rest =>
    rw [step_front hPending] at h
    exact hExec c { s with pending := rest } t hs h
  | nil =>
    rw [step_idle hPending] at h
    unfold idleStep at h
    cases hDue : nextDue s with
    | none =>
      rw [hDue] at h
      obtain rfl := Host.Outcome.next.inj h
      exact tick_fits s.part hs
    | some due =>
      obtain ⟨c, chosen⟩ := due
      rw [hDue] at h
      exact hExec c chosen t ((nextDue_part s c chosen hDue).1 ▸ hs) h

/-- Settles O9: a hard reset is the one change of the part that the lock does not stop. -/
theorem lockGuardsPlantAndTripMap : Obligations.LockGuardsPlantAndTripMap := by
  intro s t hLocked hFront h
  obtain ⟨u, hu, hChange⟩ := step_partSide s
  obtain rfl : u = t := Host.Outcome.next.inj (hu.symm.trans h)
  obtain ⟨hReset, -⟩ | hSide := hChange
  · exact absurd hReset hFront
  · obtain ⟨hStays, hTables⟩ := hSide.lock hLocked
    simp only [Part.lockedTables, Prod.mk.injEq] at hTables
    exact ⟨hStays, hTables⟩

/-- Settles O10. -/
theorem everyStepAnswersNext : Obligations.EveryStepAnswersNext := fun s => by
  obtain ⟨t, ht, -⟩ := step_partSide s
  exact ⟨t, ht⟩

end Sys2Proof.Machine
end

section
/-! The machine right after hard reset, and a step with no command waiting: an event that has come due, or one millisecond
(00 §1.5; log entries 1, 2, 5, 42 and 49). -/

namespace Sys2Proof.Machine

/-! ### Values at reset -/

theorem reset_car (i : CarIdx) : State.reset.part.car i = {} := Vector.getElem_replicate _

theorem reset_config (i : CarIdx) : State.reset.part.config i = {} := Vector.getElem_replicate _

theorem reset_alarmFilter (k : Fin 4) : State.reset.part.alarmFilter k = {} := Vector.getElem_replicate _

theorem reset_alarmStatus (k : Fin 4) : State.reset.part.alarmStatus k = {} := Vector.getElem_replicate _

/-- No record holds a run at reset, so none is QUEUED. -/
theorem reset_queue : State.reset.part.queue = [] := by
  have hNone : State.reset.part.queuedCars = [] := List.filter_eq_nil_iff.mpr fun i _ => by simp [reset_car]
  rw [Part.queue, hNone, sortCars_nil]

/-- Settles O3. -/
theorem resetValues : Obligations.ResetValues := by
  have hGap : State.reset.part.gapOpen = false := by simp [Part.gapOpen, State.reset]
  refine ⟨rfl, rfl, rfl, rfl, rfl, rfl, rfl, rfl, rfl, rfl, rfl, rfl, rfl, rfl, rfl,
    fun i => ⟨reset_config i, reset_car i⟩, rfl, rfl, rfl, rfl, rfl, rfl, rfl, rfl, rfl, rfl, rfl, rfl, rfl, reset_queue, hGap,
    fun k => ⟨reset_alarmFilter k, reset_alarmStatus k⟩, rfl, rfl, rfl, rfl, rfl, rfl, rfl, rfl, rfl, rfl, rfl, rfl, rfl, rfl, rfl,
    rfl, rfl, rfl, rfl, rfl, rfl, rfl, rfl, rfl, rfl, rfl, rfl,
    fun _ => Vector.getElem_replicate _, fun _ => Vector.getElem_replicate _, rfl, fun _ => Vector.getElem_replicate _,
    fun _ => Vector.getElem_replicate _, rfl⟩

/-! ### One millisecond -/

/-- No reaction to a sample of the switch lines changes the millisecond count. -/
theorem driveSwitch_now (util gen : SwitchLevel) (p : Part) : (driveSwitch util gen p).now = p.now := by
  have hSampled (q : Part) : (sampleSwitch util gen q).now = q.now := (sampleSwitch_carSide util gen q).leaves.now
  unfold driveSwitch switchSample takeOverIfSilent
  dsimp only
  split
  · split
    · exact (takesOver_now _ _ (takeOver_takesOver _)).trans (hSampled _)
    · exact hSampled _
  · exact hSampled _

theorem driveAlarms_now (a1 a2 a3 a4 : AlarmLevel) (p : Part) : (driveAlarms a1 a2 a3 a4 p).now = p.now :=
  (sampleAlarms_carSide a1 a2 a3 a4 _).leaves.now

/-- The part when the switch lines have been sampled at the levels they hold, unless a command has sampled them (R1). -/
def sampleHeldSwitch (p : Part) : Part := if p.pins.switchSampled then p else driveSwitch p.pins.util p.pins.gen p

/-- The part when the alarm lines have been sampled in the same way (R106). -/
def sampleHeldAlarms (p : Part) : Part :=
  if p.pins.alarmSampled then p else driveAlarms p.pins.a1 p.pins.a2 p.pins.a3 p.pins.a4 p

theorem sampleHeldPins_eq (p : Part) : sampleHeldPins p = sampleHeldAlarms (sampleHeldSwitch p) := rfl

theorem sampleHeldPins_now (p : Part) : (sampleHeldPins p).now = p.now := by
  rw [sampleHeldPins_eq]
  have hSwitch : (sampleHeldSwitch p).now = p.now := by
    unfold sampleHeldSwitch
    split
    · rfl
    · exact driveSwitch_now _ _ p
  unfold sampleHeldAlarms
  split
  · exact hSwitch
  · exact (driveAlarms_now _ _ _ _ _).trans hSwitch

theorem car_tickTimers (p : Part) (i : CarIdx) : (tickTimers p).car i = tickCar (p.car i) := by
  simp [Part.car, tickTimers]

/-! ### Events that have come due -/

theorem mem_whenDue {t : Timer} {c d : Instr} : c ∈ whenDue t d ↔ c = d ∧ t = .running 0 := by
  cases t with
  | stopped => simp [whenDue, timerDue]
  | expired => simp [whenDue, timerDue]
  | running n => cases n <;> simp [whenDue, timerDue]

theorem timerDue_iff {t : Timer} : timerDue t = true ↔ t = .running 0 := by
  cases t <;> simp [timerDue]

theorem mem_dueSupervisor {p : Part} {c : Instr} : c ∈ dueSupervisor p ↔
    (c = .warmUpExpiry ∧ p.sup.warmUp = .running 0) ∨ (c = .recallLimitExpiry ∧ p.sup.recallLimit = .running 0)
      ∨ (c = .plantReportStale ∧ p.overAge = true) := by
  unfold dueSupervisor
  rw [List.mem_append, List.mem_append, mem_whenDue, mem_whenDue, or_assoc]
  by_cases hOld : p.overAge = true <;> simp [hOld]

theorem mem_dueCar {p : Part} {i : CarIdx} {c : Instr} : c ∈ dueCar p i ↔
    (c = .startTimerExpiry i ∧ (p.car i).startTimer = .running 0)
      ∨ (c = .tripTimerExpiry i ∧ (p.car i).tripTimer = .running 0) := by
  unfold dueCar
  rw [List.mem_append, mem_whenDue, mem_whenDue]

/-- In BLIND the settle timer's second run ends with the command BLIND_EXPIRY (R79, R82). -/
theorem eq_settleCommand {p : Part} {c : Instr} : c = settleCommand p ↔
    (c = .settleExpiry ∧ ∀ i, p.adm.window ≠ some ⟨.blind, i⟩)
      ∨ (c = .blindExpiry ∧ ∃ i, p.adm.window = some ⟨.blind, i⟩) := by
  unfold settleCommand
  cases hWindow : p.adm.window with
  | none => simp
  | some w =>
    obtain ⟨phase, car⟩ := w
    cases phase <;> simp

theorem mem_dueAdmission {p : Part} {c : Instr} : c ∈ dueAdmission p ↔
    (c = .settleExpiry ∧ p.adm.settle = .running 0 ∧ ∀ i, p.adm.window ≠ some ⟨.blind, i⟩)
      ∨ (c = .blindExpiry ∧ p.adm.settle = .running 0 ∧ ∃ i, p.adm.window = some ⟨.blind, i⟩)
      ∨ (c = .recoveryExpiry ∧ p.adm.recovery = .running 0) ∨ (c = .holdOffExpiry ∧ p.adm.holdOff = .running 0) := by
  unfold dueAdmission
  rw [List.mem_append, List.mem_append, mem_whenDue, mem_whenDue, mem_whenDue, eq_settleCommand]
  rw [or_and_right, and_right_comm (a := c = .settleExpiry), and_assoc (a := c = .settleExpiry),
    and_right_comm (a := c = .blindExpiry), and_assoc (a := c = .blindExpiry), or_assoc, or_assoc]

theorem mem_dueLine {sl : Slot} {port : Port} {c : Instr} : c ∈ dueLine sl port ↔
    c = .sendingLineTimeout port ∧ ∃ x, slotLine sl port = some x ∧ x.status = .sending := by
  unfold dueLine
  cases hLine : slotLine sl port with
  | none => simp
  | some x => by_cases hSending : x.status = .sending <;> simp [hSending]

theorem mem_dueMaster {p : Part} {c : Instr} : c ∈ dueMaster p ↔
    (c = .silenceExpiry ∧ p.master.silence = .running 0) ∨ (c = .cyclePeriodExpiry ∧ p.master.period = .running 0)
      ∨ ∃ port sl x, c = .sendingLineTimeout port ∧ p.master.mode ≠ .relay ∧ p.master.slot = some sl
        ∧ sl.sendBound = .running 0 ∧ slotLine sl port = some x ∧ x.status = .sending := by
  unfold dueMaster
  rw [List.mem_append, List.mem_append, mem_whenDue, mem_whenDue, or_assoc]
  refine or_congr_right (or_congr_right ?_)
  cases hSlot : p.master.slot with
  | none => simp
  | some sl =>
    dsimp only
    simp only [timerDue_iff]
    split
    next hBound =>
      obtain ⟨hMode, hPassed⟩ := hBound
      simp only [List.mem_append, mem_dueLine]
      constructor
      · rintro ((⟨hc, x, hx⟩ | ⟨hc, x, hx⟩) | ⟨hc, x, hx⟩) <;> exact ⟨_, sl, x, hc, hMode, rfl, hPassed, hx⟩
      · rintro ⟨port, _, x, hc, -, ⟨⟩, -, hx⟩
        cases port with
        | dispatch => exact .inl (.inl ⟨hc, x, hx⟩)
        | carA => exact .inl (.inr ⟨hc, x, hx⟩)
        | carB => exact .inr ⟨hc, x, hx⟩
    next hBound =>
      refine iff_of_false (List.not_mem_nil) ?_
      rintro ⟨port, _, x, -, hMode, ⟨⟩, hPassed, -⟩
      exact hBound ⟨hMode, hPassed⟩

theorem nextDue_none {s : State} (h : dueCommands s.part = []) : nextDue s = none := by
  unfold nextDue
  rw [h]

/-- Where an event has come due, one of them is taken, and only the model's count of free choices has changed. -/
theorem nextDue_some {s : State} (h : dueCommands s.part ≠ []) :
    ∃ c ∈ dueCommands s.part, ∃ n, nextDue s = some (c, { s with freeCount := n }) := by
  unfold nextDue
  match hDue : dueCommands s.part with
  | [] => exact absurd hDue h
  | [c] => exact ⟨c, List.mem_singleton_self c, s.freeCount, rfl⟩
  | c :: d :: rest =>
    have hIndex : Config.freeChoice s.freeCount % (rest.length + 2) < (c :: d :: rest).length :=
      Nat.mod_lt _ (Nat.succ_pos _)
    refine ⟨_, ?_, s.freeCount + 1, rfl⟩
    rw [← List.getElem_eq_getD (h := hIndex)]
    exact List.getElem_mem hIndex

/-- Settles O2. -/
theorem idleStepTakesDueEventOrMillisecond : Obligations.IdleStepTakesDueEventOrMillisecond := by
  refine ⟨fun s hIdle => ⟨fun hNone => ?quiet, fun hDue => ?due⟩, fun s => ?millisecond, fun p c => ?commands⟩
  case quiet => rw [step_idle hIdle, idleStep, nextDue_none hNone]
  case due =>
    obtain ⟨c, hc, n, hTaken⟩ := nextDue_some hDue
    exact ⟨c, hc, n, by rw [step_idle hIdle, idleStep, hTaken]⟩
  case millisecond =>
    refine ⟨{ s with part := sampleHeldSwitch s.part }, { s with part := sampleHeldPins s.part }, ?_⟩
    intro p t less
    have hLess : less = tickTimer := funext fun timer => by cases timer <;> rfl
    rw [hLess]
    refine ⟨fun hSampled => ?_, fun hSampled => ?_, fun hSampled => ?_, fun hSampled => ?_, rfl, ?_, fun i => car_tickTimers _ i⟩
    · simp [sampleHeldSwitch, hSampled]
    · simp [sampleHeldSwitch, hSampled, exec, execSwitchLineFiltered, completes]
    · dsimp only at hSampled
      simp [sampleHeldPins_eq, sampleHeldAlarms, hSampled]
    · dsimp only at hSampled
      simp [sampleHeldPins_eq, sampleHeldAlarms, hSampled, exec, execAlarmLineFiltered, completes]
    · change ((sampleHeldPins s.part).now + 1).toNat = _
      rw [sampleHeldPins_now, BitVec.toNat_add]
      rfl
  case commands =>
    simp only [dueCommands, List.mem_append, List.mem_flatMap, mem_allCars, true_and, mem_dueSupervisor, mem_dueCar,
      mem_dueAdmission, mem_dueMaster, overAge_iff, exists_or, or_assoc]

end Sys2Proof.Machine
end

section
/-! The transfer supervisor's reaction to the switch lines (R1 to R7, R10, R11, R155): a sample, a new position, and leaving the
generator. -/

namespace Sys2Proof.Machine

/-! ### One sample of the switch lines (R1, R2) -/

theorem filterSample_below {α : Type} [DecidableEq α] {depth : Nat} {x level : α} {f : LineFilter α} (h : f.level = some level)
    (hBelow : x ≠ level → f.count + 1 < depth) :
    filterSample depth x f = { f with count := if x = level then 0 else f.count + 1 } := by
  unfold filterSample
  rw [h]
  dsimp only
  by_cases hSame : x = level
  · rw [if_pos hSame, if_pos hSame]
  · rw [if_neg hSame, if_neg hSame, if_neg (Nat.not_le.mpr (hBelow hSame))]

/-- A differing sample that fills the depth makes the sampled level the filtered one. -/
theorem filterSample_reaches {α : Type} [DecidableEq α] {depth : Nat} {x level : α} {f : LineFilter α} (h : f.level = some level)
    (hDiffers : x ≠ level) (hDepth : depth ≤ f.count + 1) :
    filterSample depth x f = { f with level := some x, count := 0 } := by
  unfold filterSample
  rw [h]
  dsimp only
  rw [if_neg hDiffers, if_pos hDepth]

theorem filterSample_agrees {α : Type} [DecidableEq α] {depth : Nat} {x : α} {f : LineFilter α} (h : f.level = some x) :
    filterSample depth x f = { f with count := 0 } := by
  unfold filterSample
  rw [h]
  dsimp only
  rw [if_pos rfl]

/-- The part when the two lines have been driven and filtered, its position not yet derived. -/
def switchFiltered (util gen : SwitchLevel) (p : Part) : Part :=
  { p with
    pins.util := util
    pins.gen := gen
    pins.switchSampled := true
    sup.util := filterSample p.active.plant.utilDepth util p.sup.util
    sup.gen := filterSample p.active.plant.genDepth gen p.sup.gen }

/-- The part when the position that the filtered levels show has been taken (R3). -/
def switchMoved (util gen : SwitchLevel) (p : Part) : Part :=
  let sampled := switchFiltered util gen p
  takePosition (positionOf sampled.sup.util.level sampled.sup.gen.level) sampled

theorem exec_switchLineFiltered (util gen : SwitchLevel) (s : State) :
    exec (.switchLineFiltered util gen) s = .next { s with
      part := if s.part.sup.state = .normal then takeOverIfSilent (switchMoved util gen s.part) else switchMoved util gen s.part } :=
  rfl

theorem takePosition_same {new : Position} {p : Part} (h : p.sup.position = new) : takePosition new p = p := by
  unfold takePosition
  dsimp only
  rw [if_pos h]

theorem takeOverIfSilent_holds {p : Part} (hRelay : p.master.mode = .relay) (hSilent : p.master.silent = true)
    (hState : p.sup.state ≠ .normal) : takeOverIfSilent p = takeOver p := by
  unfold takeOverIfSilent
  rw [if_pos ⟨hRelay, hSilent, hState⟩]

theorem takeOverIfSilent_else {p : Part} (h : p.sup.state = .normal ∨ p.master.mode ≠ .relay ∨ p.master.silent = false) :
    takeOverIfSilent p = p := by
  unfold takeOverIfSilent
  refine if_neg ?_
  rintro ⟨hRelay, hSilent, hState⟩
  obtain h | h | h := h
  · exact hState h
  · exact h hRelay
  · exact Bool.false_ne_true (h.symm.trans hSilent)

/-- No reaction to a position touches the link master unit. -/
theorem switchMoved_master (util gen : SwitchLevel) (p : Part) : (switchMoved util gen p).master = p.master :=
  (takePosition_carSide _ _).leaves.master

/-- A sample that leaves the position moves the filters alone: no state changes, so no takeover is made. -/
theorem exec_switchLineFiltered_still {util gen : SwitchLevel} {s : State}
    (h : s.part.sup.position
      = positionOf (switchFiltered util gen s.part).sup.util.level (switchFiltered util gen s.part).sup.gen.level) :
    exec (.switchLineFiltered util gen) s = .next { s with part := switchFiltered util gen s.part } := by
  have hMoved : switchMoved util gen s.part = switchFiltered util gen s.part := takePosition_same h
  rw [exec_switchLineFiltered, hMoved]
  split
  next hNormal => rw [takeOverIfSilent_else (p := switchFiltered util gen s.part) (.inl hNormal)]
  next => rfl

/-- Settles O12: the position is judged on the filtered levels, and a takeover needs a change out of NORMAL. -/
theorem switchSampleBelowDepth : Obligations.SwitchSampleBelowDepth := by
  refine ⟨fun s u g lu lg hUtil hGen hPosition hUtilBelow hGenBelow => ?below, fun s u g => ?sample⟩
  case below =>
    have hFiltered : switchFiltered u g s.part = { s.part with
        pins.util := u
        pins.gen := g
        pins.switchSampled := true
        sup.util.count := if u = lu then 0 else s.part.sup.util.count + 1
        sup.gen.count := if g = lg then 0 else s.part.sup.gen.count + 1 } := by
      unfold switchFiltered
      rw [filterSample_below hUtil hUtilBelow, filterSample_below hGen hGenBelow]
    rw [exec_switchLineFiltered_still, hFiltered]
    rw [hFiltered, hPosition, ← hUtil, ← hGen]
  case sample =>
    intro next util gen position sampled moved becomes
    have hNext : next = filterSample := by
      funext depth x old
      dsimp only [next]
      unfold filterSample
      cases old.level <;> rfl
    have hSampled : sampled = switchFiltered u g s.part := by
      dsimp only [sampled, util, gen]
      rw [hNext]
      rfl
    have hPosition : position = positionOf sampled.sup.util.level sampled.sup.gen.level := by
      dsimp only [position, sampled]
      rcases util.level with _ | _ | _ <;> rcases gen.level with _ | _ | _ <;> rfl
    have hMoved : moved = switchMoved u g s.part := by
      dsimp only [moved]
      rw [hPosition, hSampled]
      rfl
    have hMaster : moved.master = s.part.master := hMoved ▸ switchMoved_master u g s.part
    refine ⟨fun hStays => ?_, fun hChanges => ⟨fun hNoTakeOver => ?_, fun hNormal hLeft hRelay hSilent => ?_⟩⟩
    · dsimp only [becomes]
      rw [hSampled]
      refine exec_switchLineFiltered_still ?_
      rw [← hSampled, ← hPosition]
      exact hStays.symm
    · dsimp only [becomes]
      rw [exec_switchLineFiltered, ← hMoved]
      split
      next hNormal =>
        rw [takeOverIfSilent_else]
        rw [hMaster]
        exact hNoTakeOver.resolve_left fun hNot => hNot hNormal
      next => rfl
    · refine ⟨takeOver moved, ?_, takeOver_takesOver moved⟩
      dsimp only [becomes]
      rw [exec_switchLineFiltered, ← hMoved, if_pos hNormal,
        takeOverIfSilent_holds (hMaster ▸ hRelay) (hMaster ▸ hSilent) hLeft]

/-! ### The moves of the transfer state (R5, R6, R7, R10, R11) -/

/-- What the effects of a move on the cars leave: the supervisor, the deferred slot, and every flag but SHED. -/
structure LeavesSupervisor (p q : Part) : Prop where
  sup : q.sup = p.sup
  deferred : q.mgmt.deferred = p.mgmt.deferred
  flag : ∀ e, e ≠ .shed → q.flag e = p.flag e

theorem LeavesSupervisor.refl (p : Part) : LeavesSupervisor p p := ⟨rfl, rfl, fun _ _ => rfl⟩

theorem breakerOpen_leaves (p : Part) : LeavesSupervisor p (rederiveActions (breakerEffect (bulkRelease p))) where
  sup := by rw [rederiveActions_sup, breakerEffect_sup, bulkRelease_sup]
  deferred := by rw [rederiveActions_deferred, breakerEffect_mgmt, bulkRelease_mgmt]
  flag e he := by rw [rederiveActions_flag _ e he]; exact flag_congr (by rw [breakerEffect_mgmt, bulkRelease_mgmt]) e

theorem closedTransition_leaves (p : Part) : LeavesSupervisor p (rederiveActions (restoringEffect (bulkRelease p))) where
  sup := by rw [rederiveActions_sup, restoringEffect_sup, bulkRelease_sup]
  deferred := by rw [rederiveActions_deferred, restoringEffect_mgmt, bulkRelease_mgmt]
  flag e he := by rw [rederiveActions_flag _ e he]; exact flag_congr (by rw [restoringEffect_mgmt, bulkRelease_mgmt]) e

/-- The effects on the cars of a move to OUTAGE, by the state that is left. -/
def outageEffect (left : TransferState) (p : Part) : Part :=
  match left with
  | .normal => stoppingEffect p
  | .recall => rederiveActions (breakerEffect (bulkRelease p))
  | .service => rederiveActions (breakerEffect (bulkRelease p))
  | .returning => rederiveActions (breakerEffect (bulkRelease p))
  | _ => p

/-- The effects on the cars of a move to NORMAL, by the state that is left. -/
def normalEffect (left : TransferState) (p : Part) : Part :=
  match left with
  | .recall => rederiveActions (restoringEffect (bulkRelease p))
  | .service => rederiveActions (restoringEffect (bulkRelease p))
  | .returning => rederiveActions (restoringEffect (bulkRelease p))
  | _ => restoringEffect p

theorem outageEffect_leaves (left : TransferState) (p : Part) : LeavesSupervisor p (outageEffect left p) := by
  cases left with
  | normal => exact ⟨rfl, rfl, fun _ _ => rfl⟩
  | outage => exact .refl p
  | standby => exact .refl p
  | _ => exact breakerOpen_leaves p

theorem normalEffect_leaves (left : TransferState) (p : Part) : LeavesSupervisor p (normalEffect left p) := by
  cases left with
  | normal => exact ⟨rfl, rfl, fun _ _ => rfl⟩
  | outage => exact ⟨rfl, rfl, fun _ _ => rfl⟩
  | standby => exact ⟨rfl, rfl, fun _ _ => rfl⟩
  | _ => exact closedTransition_leaves p

/-- The part with its change of state recorded and the timers of the state that is left stopped (R4, R7, R10, R11). -/
def leftFor (new : TransferState) (cause : Cause) (p : Part) : Part := stopTransferTimers p.sup.state (moveState new cause p)

theorem leftFor_deferred (new : TransferState) (cause : Cause) (p : Part) :
    (leftFor new cause p).mgmt.deferred = p.mgmt.deferred := by
  unfold leftFor stopTransferTimers
  split <;> rfl

/-- A move is the change of state and its effect on the cars, and then the request that waits. -/
theorem enterOutage_eq (cause : Cause) (p : Part) :
    enterOutage cause p = executeDeferred (outageEffect p.sup.state (leftFor .outage cause p)) := by
  unfold enterOutage outageEffect leftFor
  cases p.sup.state <;> rfl

theorem enterNormal_eq (p : Part) :
    enterNormal p = executeDeferred (normalEffect p.sup.state (leftFor .normal .switchUtility p)) := by
  unfold enterNormal normalEffect leftFor
  cases p.sup.state <;> rfl

/-- With no request waiting the move ends there. -/
theorem enterOutage_noRequest {p : Part} (cause : Cause) (h : p.mgmt.deferred = none) :
    enterOutage cause p = outageEffect p.sup.state (leftFor .outage cause p) := by
  rw [enterOutage_eq, executeDeferred_none]
  rw [(outageEffect_leaves _ _).deferred, leftFor_deferred, h]

theorem enterNormal_noRequest {p : Part} (h : p.mgmt.deferred = none) :
    enterNormal p = normalEffect p.sup.state (leftFor .normal .switchUtility p) := by
  rw [enterNormal_eq, executeDeferred_none]
  rw [(normalEffect_leaves _ _).deferred, leftFor_deferred, h]

/-- The record of a change of transfer state stands in q (R4). -/
structure Recorded (p q : Part) (new : TransferState) (cause : Cause) : Prop where
  position : q.sup.position = p.sup.position
  state : q.sup.state = new
  previous : q.sup.previous = p.sup.state
  changeTime : q.sup.changeTime = p.now
  cause : q.sup.cause = cause
  flag : q.flag .transfer = true

theorem moveState_recorded (new : TransferState) (cause : Cause) (p : Part) : Recorded p (moveState new cause p) new cause :=
  ⟨rfl, rfl, rfl, rfl, rfl, by rw [flag_moveState]; exact Bool.or_true _⟩

theorem leftFor_recorded (new : TransferState) (cause : Cause) (p : Part) : Recorded p (leftFor new cause p) new cause := by
  obtain ⟨hPosition, hState, hPrevious, hTime, hCause, hFlag⟩ := moveState_recorded new cause p
  unfold leftFor stopTransferTimers
  split <;> exact ⟨hPosition, hState, hPrevious, hTime, hCause, hFlag⟩

theorem Recorded.effect {p q r : Part} {new : TransferState} {cause : Cause} (h : Recorded p q new cause)
    (k : LeavesSupervisor q r) : Recorded p r new cause := by
  obtain ⟨hPosition, hState, hPrevious, hTime, hCause, hFlag⟩ := h
  refine ⟨?_, ?_, ?_, ?_, ?_, (k.flag .transfer (by decide)).trans hFlag⟩ <;> rw [k.sup] <;> assumption

theorem enterOutage_recorded {p : Part} (cause : Cause) (h : p.mgmt.deferred = none) :
    Recorded p (enterOutage cause p) .outage cause :=
  enterOutage_noRequest cause h ▸ (leftFor_recorded _ _ p).effect (outageEffect_leaves _ _)

theorem enterNormal_recorded {p : Part} (h : p.mgmt.deferred = none) : Recorded p (enterNormal p) .normal .switchUtility :=
  enterNormal_noRequest h ▸ (leftFor_recorded _ _ p).effect (normalEffect_leaves _ _)

theorem enterStandby_recorded {p : Part} (h : p.active.plant.warmUp ≠ 0) :
    Recorded p (enterStandby p) .standby .switchGenerator := by
  obtain ⟨hPosition, hState, hPrevious, hTime, hCause, hFlag⟩ := moveState_recorded .standby .switchGenerator p
  unfold enterStandby
  rw [if_neg h]
  exact ⟨hPosition, hState, hPrevious, hTime, hCause, hFlag⟩

/-! ### The reaction to a position (R3) -/

/-- The part with a new position, the transfer state not yet reacting. -/
def positioned (new : Position) (p : Part) : Part := { p with sup.position := new }

theorem takePosition_unknown {p : Part} (h : p.sup.position ≠ .unknown) : takePosition .unknown p = positioned .unknown p := by
  unfold takePosition
  exact if_neg h

theorem takePosition_utility {p : Part} (h : p.sup.position ≠ .utility) :
    takePosition .utility p = reactUtility (positioned .utility p) := by
  unfold takePosition
  exact if_neg h

theorem takePosition_generator {p : Part} (h : p.sup.position ≠ .generator) :
    takePosition .generator p = reactGenerator (positioned .generator p) := by
  unfold takePosition
  exact if_neg h

theorem takePosition_opened {p : Part} (h : p.sup.position ≠ .opened) : takePosition .opened p =
    if openLike p.sup.position then positioned .opened p else reactOpen .switchOpen (positioned .opened p) := by
  unfold takePosition
  exact if_neg h

theorem takePosition_invalid {p : Part} (h : p.sup.position ≠ .invalid) : takePosition .invalid p = noteInvalid
    (if openLike p.sup.position then positioned .invalid p else reactOpen .switchInvalid (positioned .invalid p)) := by
  unfold takePosition
  exact if_neg h

theorem reactOpen_outage {p : Part} (cause : Cause) (h : p.sup.state = .outage) : reactOpen cause p = p := by
  unfold reactOpen
  rw [h]

theorem reactOpen_else {p : Part} (cause : Cause) (h : p.sup.state ≠ .outage) : reactOpen cause p = enterOutage cause p := by
  unfold reactOpen
  split
  · contradiction
  · rfl

theorem reactUtility_normal {p : Part} (h : p.sup.state = .normal) : reactUtility p = p := by
  unfold reactUtility
  rw [h]

theorem reactUtility_else {p : Part} (h : p.sup.state ≠ .normal) : reactUtility p = enterNormal p := by
  unfold reactUtility
  split
  · contradiction
  · rfl

theorem reactGenerator_normal {p : Part} (h : p.sup.state = .normal) : reactGenerator p = enterStandby (stoppingEffect p) := by
  unfold reactGenerator
  rw [h]

theorem reactGenerator_outage {p : Part} (h : p.sup.state = .outage) : reactGenerator p = enterStandby p := by
  unfold reactGenerator
  rw [h]

theorem reactGenerator_else {p : Part} (h : p.sup.state ≠ .normal) (k : p.sup.state ≠ .outage) : reactGenerator p = p := by
  unfold reactGenerator
  split
  · contradiction
  · contradiction
  · rfl

/-! ### The table of transfer states -/

theorem transferTable_opened (x : TransferState) : transferTable x .opened = .outage := by cases x <;> rfl

theorem transferTable_invalid (x : TransferState) : transferTable x .invalid = .outage := by cases x <;> rfl

theorem transferTable_utility (x : TransferState) : transferTable x .utility = .normal := by cases x <;> rfl

theorem transferTable_unknown (x : TransferState) : transferTable x .unknown = x := by cases x <;> rfl

theorem transferTable_generator (x : TransferState) :
    transferTable x .generator = if x = .normal ∨ x = .outage then .standby else x := by cases x <;> rfl

/-- A position that asks for the state that stands, or that is a change between OPEN and INVALID, changes no state. -/
theorem takePosition_still {new : Position} {p : Part} (hNew : p.sup.position ≠ new)
    (h : (openLike p.sup.position && openLike new) = true ∨ transferTable p.sup.state new = p.sup.state) :
    takePosition new p =
      if new = .invalid then raiseEvent .transfer { p with sup.position := new, sup.cause := .switchInvalid }
      else { p with sup.position := new } := by
  have hOpen (cause : Cause) (k : openLike p.sup.position = true ∨ .outage = p.sup.state) :
      (if openLike p.sup.position then positioned new p else reactOpen cause (positioned new p)) = positioned new p := by
    split
    next => rfl
    next hLike => exact reactOpen_outage cause (k.resolve_left hLike).symm
  cases new with
  | unknown => exact takePosition_unknown hNew
  | utility =>
    rw [transferTable_utility] at h
    exact (takePosition_utility hNew).trans (reactUtility_normal (h.resolve_left (by simp [openLike])).symm)
  | generator =>
    rw [transferTable_generator] at h
    have hElse : ¬ (p.sup.state = .normal ∨ p.sup.state = .outage) := fun hMoves => by
      rw [if_pos hMoves] at h
      obtain hMoves | hMoves := hMoves <;> simp [openLike, hMoves] at h
    exact (takePosition_generator hNew).trans (reactGenerator_else (fun hIs => hElse (.inl hIs)) fun hIs => hElse (.inr hIs))
  | opened =>
    rw [transferTable_opened] at h
    exact (takePosition_opened hNew).trans (hOpen _ (h.imp_left fun hLike => (Bool.and_eq_true_iff.mp hLike).1))
  | invalid =>
    rw [transferTable_invalid] at h
    rw [takePosition_invalid hNew, hOpen _ (h.imp_left fun hLike => (Bool.and_eq_true_iff.mp hLike).1)]
    rfl

/-- A change of state that a position makes stands recorded with its cause (R4). -/
theorem takePosition_recorded {new : Position} {p : Part} (hNew : p.sup.position ≠ new) (hDeferred : p.mgmt.deferred = none)
    (hWarmUp : p.active.plant.warmUp ≠ 0) (hLike : (openLike p.sup.position && openLike new) = false)
    (hMoves : transferTable p.sup.state new ≠ p.sup.state) :
    Recorded (positioned new p) (takePosition new p) (transferTable p.sup.state new) (positionCause new) := by
  cases new with
  | unknown => exact absurd (transferTable_unknown _) hMoves
  | utility =>
    rw [transferTable_utility] at hMoves ⊢
    rw [takePosition_utility hNew, reactUtility_else (p := positioned .utility p) hMoves.symm]
    exact enterNormal_recorded hDeferred
  | generator =>
    rw [transferTable_generator] at hMoves ⊢
    rw [takePosition_generator hNew]
    by_cases hState : p.sup.state = .normal ∨ p.sup.state = .outage
    · rw [if_pos hState]
      obtain hNormal | hOutage := hState
      · rw [reactGenerator_normal (p := positioned .generator p) hNormal]
        obtain ⟨hPosition, hStandby, hPrevious, hTime, hCause, hFlag⟩ :=
          enterStandby_recorded (p := stoppingEffect (positioned .generator p)) hWarmUp
        exact ⟨hPosition, hStandby, hPrevious, hTime, hCause, hFlag⟩
      · rw [reactGenerator_outage (p := positioned .generator p) hOutage]
        exact enterStandby_recorded hWarmUp
    · exact absurd (if_neg hState) hMoves
  | opened =>
    rw [transferTable_opened] at hMoves ⊢
    rw [takePosition_opened hNew, if_neg (by simpa [openLike] using hLike), reactOpen_else (p := positioned .opened p) _ hMoves.symm]
    exact enterOutage_recorded _ hDeferred
  | invalid =>
    rw [transferTable_invalid] at hMoves ⊢
    rw [takePosition_invalid hNew, if_neg (by simpa [openLike] using hLike), reactOpen_else (p := positioned .invalid p) _ hMoves.symm]
    obtain ⟨hPosition, hOutage, hPrevious, hTime, -, -⟩ :=
      enterOutage_recorded (p := positioned .invalid p) .switchInvalid hDeferred
    exact ⟨hPosition, hOutage, hPrevious, hTime, rfl, by rw [noteInvalid, flag_raiseEvent]; exact Bool.or_true _⟩

/-- Settles O14: a position either leaves the state or makes one recorded move. -/
theorem transferStateTable : Obligations.TransferStateTable := by
  refine fun p new hNew => ⟨takePosition_still hNew, fun hDeferred hWarmUp hLike => ?_⟩
  by_cases hMoves : transferTable p.sup.state new = p.sup.state
  · rw [takePosition_still hNew (.inr hMoves), hMoves]
    refine ⟨?_, ?_, fun hNot => absurd rfl hNot⟩ <;> split <;> rfl
  · obtain ⟨hPosition, hState, hPrevious, hTime, hCause, hFlag⟩ := takePosition_recorded hNew hDeferred hWarmUp hLike hMoves
    exact ⟨hPosition, hState, fun _ => ⟨hPrevious, hTime, hCause, hFlag⟩⟩

end Sys2Proof.Machine
end

section
/-! The loss of the utility (R5, R155) and leaving the generator (R10, R11, R38, R39, R117). -/

namespace Sys2Proof.Machine

/-! ### Bulk changes of duty (R5, R6, R10) -/

theorem prior_same {c : Car} {x : Option Duty} (h : c.prior = x) : { c with prior := x } = c := by rw [← h]

/-- A bulk effect acts on the duty held, or on the prior duty of a LOST record. -/
theorem bulkDuty_eq (hit lostHit : Duty → Bool) (d : Duty) (c : Car) : bulkDuty hit lostHit d c =
    if c.duty = .lost then { c with prior := c.prior.map fun x => if lostHit x then d else x }
    else if hit c.duty then { c with duty := d, pendingRecall := false }
    else c := by
  unfold bulkDuty
  split
  · cases hPrior : c.prior with
    | none => exact (prior_same hPrior).symm
    | some x =>
      dsimp only [Option.map_some]
      split
      · rfl
      · exact (prior_same hPrior).symm
  · rfl

theorem car_stoppingEffect (p : Part) (i : CarIdx) : (stoppingEffect p).car i =
    if (p.car i).duty = .lost then
      { p.car i with prior := (p.car i).prior.map fun x => if x = .isolated then .isolated else .stopped }
    else if (p.car i).duty ∈ [Duty.normal, .stopped, .recall, .parked, .service] then
      { p.car i with duty := .stopped, pendingRecall := false }
    else p.car i := by
  have hPrior : (fun x => if notIsolated x then Duty.stopped else x) = fun x => if x = .isolated then .isolated else .stopped := by
    funext x
    cases x <;> rfl
  unfold stoppingEffect
  rw [car_mapCars, bulkDuty_eq, hPrior]
  cases hDuty : (p.car i).duty <;> simp [hDuty]

/-- Settles O13: the levels show OPEN, and the move from NORMAL stops the cars and touches nothing else. -/
theorem utilityLossStopsCars : Obligations.UtilityLossStopsCars := by
  intro s hUtil hGen hPosition hState hDepth hDeferred
  have hFiltered : filterSample s.part.active.plant.utilDepth .opened s.part.sup.util
      = ⟨some .opened, s.part.sup.util.candidate, 0⟩ := filterSample_reaches hUtil (by decide) hDepth
  have hLevels : positionOf (switchFiltered .opened .opened s.part).sup.util.level
      (switchFiltered .opened .opened s.part).sup.gen.level = .opened := by
    unfold switchFiltered
    rw [hFiltered, filterSample_agrees hGen]
    change positionOf (some .opened) s.part.sup.gen.level = .opened
    rw [hGen]
    rfl
  have hMoved : switchMoved .opened .opened s.part
      = stoppingEffect (moveState .outage .switchOpen (positioned .opened (switchFiltered .opened .opened s.part))) := by
    unfold switchMoved
    dsimp only
    rw [hLevels, takePosition_opened (by change s.part.sup.position ≠ .opened; rw [hPosition]; decide)]
    change (if openLike s.part.sup.position then _ else _) = _
    rw [hPosition, if_neg (by decide),
      reactOpen_else (p := positioned .opened (switchFiltered .opened .opened s.part)) _
        (by change s.part.sup.state ≠ .outage; rw [hState]; decide),
      enterOutage_noRequest (p := positioned .opened (switchFiltered .opened .opened s.part)) _ hDeferred]
    unfold leftFor
    change outageEffect s.part.sup.state (stopTransferTimers s.part.sup.state _) = _
    rw [hState]
    rfl
  refine ⟨switchMoved .opened .opened s.part, takeOverIfSilent (switchMoved .opened .opened s.part), ?_,
    fun hLive => takeOverIfSilent_else ?_, fun hRelay hSilent => ?_, ?_⟩
  · rw [exec_switchLineFiltered, if_pos hState]
  · rw [switchMoved_master]
    exact .inr hLive
  · rw [takeOverIfSilent_holds ((switchMoved_master _ _ _).symm ▸ hRelay) ((switchMoved_master _ _ _).symm ▸ hSilent)
      (by rw [hMoved]; simp [moveState])]
    exact takeOver_takesOver _
  · rw [hMoved]
    refine ⟨hFiltered, rfl, rfl, hState, rfl, rfl, ?_, fun e he => ?_, fun i => ?_, rfl, rfl, rfl, rfl, rfl, rfl, rfl, rfl, rfl, rfl,
      rfl⟩
    · rw [flag_congr (congrArg Management.flags (stoppingEffect_mgmt _)), flag_moveState]
      exact Bool.or_true _
    · rw [flag_congr (congrArg Management.flags (stoppingEffect_mgmt _)), flag_moveState, decide_eq_false he.symm, Bool.or_false]
      rfl
    · rw [car_stoppingEffect]
      have hSame : (moveState .outage .switchOpen (positioned .opened (switchFiltered .opened .opened s.part))).car i
        = s.part.car i := rfl
      rw [hSame]
      cases hDuty : (s.part.car i).duty <;> simp [hDuty]

/-! ### Leaving the generator (R10, R11) -/

/-- The part with its change of state recorded, the transfer timers stopped and no state remembered (R10, R11). -/
def leftGenerator (new : TransferState) (cause : Cause) (p : Part) : Part :=
  let moved := moveState new cause p
  { moved with sup := { moved.sup with warmUp := .stopped, recallLimit := .stopped, remembered := none } }

theorem leftFor_onGenerator (new : TransferState) (cause : Cause) {p : Part} (h : p.sup.state.onGenerator = true) :
    leftFor new cause p = leftGenerator new cause p := by
  unfold leftFor stopTransferTimers
  cases hState : p.sup.state with
  | normal | outage | standby =>
    rw [hState] at h
    exact absurd h (by decide)
  | _ => rfl

theorem outageEffect_onGenerator {left : TransferState} (p : Part) (h : left.onGenerator = true) :
    outageEffect left p = rederiveActions (breakerEffect (bulkRelease p)) := by
  cases left with
  | normal => exact absurd h (by decide)
  | outage => exact absurd h (by decide)
  | standby => exact absurd h (by decide)
  | _ => rfl

theorem normalEffect_onGenerator {left : TransferState} (p : Part) (h : left.onGenerator = true) :
    normalEffect left p = rederiveActions (restoringEffect (bulkRelease p)) := by
  cases left with
  | normal => exact absurd h (by decide)
  | outage => exact absurd h (by decide)
  | standby => exact absurd h (by decide)
  | _ => rfl

/-- A record after its part of the bulk release, the duty effect not yet made (R10). -/
def leftCar (c : Car) : Car := { bulkReleased (flushedCar c) with m := 0, r := 0 }

/-- The duty that the settlement of a release gives where no DISABLE is pending (R39). -/
def releasedDuty (c : Car) (held : Duty) : Duty :=
  if c.isolatePending = true ∨ 2 ≤ c.stallCount then .isolated
  else if c.pendingRecall = true then .recall
  else held

theorem settledDuty_eq (c : Car) (held : Duty) :
    settledDuty c held = if c.disablePending = true then none else some (releasedDuty c held) := by
  unfold settledDuty releasedDuty
  simp only [Bool.or_eq_true, decide_eq_true_eq]
  by_cases hDisable : c.disablePending = true
  · rw [if_pos hDisable, if_pos hDisable]
  · rw [if_neg hDisable, if_neg hDisable]
    split
    · rfl
    · split <;> rfl

theorem releasedDuty_prior (c : Car) (prior : Option Duty) :
    (prior.map fun _ => releasedDuty c (prior.getD .stopped)) = prior.map (releasedDuty c) := by
  cases prior <;> rfl

/-- The record as the settlement leaves it where no DISABLE is pending: the duty, or the prior duty of a LOST record (R39). -/
theorem settledCar_released {before : Car} (c : Car) (h : before.disablePending = false) : settledCar before c = { c with
    duty := if c.duty = .lost then .lost else releasedDuty before c.duty
    prior := if c.duty = .lost then c.prior.map (releasedDuty before) else c.prior
    pendingRecall := false } := by
  unfold settledCar
  rw [settledDuty_eq, if_neg (by simp [h])]
  dsimp only
  by_cases hLost : c.duty = .lost
  · simp only [if_pos hLost]
    rw [releasedDuty_prior, ← hLost]
  · simp only [if_neg hLost]

theorem settledCar_disabled {before : Car} (c : Car) (h : before.disablePending = true) :
    settledCar before c = disabledCar { c with m := 0, r := 0 } := by
  unfold settledCar
  rw [settledDuty_eq, if_pos h]

theorem leftCar_eq (c : Car) : leftCar c =
    if c.run = .queued then { c with run := .idle, priority := none, joinSeq := none, m := 0, r := 0 }
    else if c.holdsRun = true then
      if c.disablePending = true then { ({} : Car) with
        address := c.address
        lines := c.lines }
      else { c with
        run := .idle, m := 0, r := 0, snapshot := none, shed := false, stalled := false, isolatePending := false
        startTimer := .stopped, tripTimer := .stopped, stagnant := 0, reverse := 0, goodRun := 0
        duty := if c.duty = .lost then .lost else releasedDuty c c.duty
        prior := if c.duty = .lost then c.prior.map (releasedDuty c) else c.prior
        pendingRecall := false }
    else { c with m := 0, r := 0 } := by
  unfold leftCar flushedCar
  by_cases hQueued : c.run = .queued
  · rw [if_pos hQueued, if_pos hQueued]
    rfl
  · rw [if_neg hQueued, if_neg hQueued]
    unfold bulkReleased
    by_cases hRun : c.holdsRun = true
    · rw [if_pos hRun, if_pos hRun]
      by_cases hDisable : c.disablePending = true
      · rw [if_pos hDisable, settledCar_disabled _ hDisable]
        rfl
      · rw [if_neg hDisable, settledCar_released _ (Bool.eq_false_iff.mpr hDisable)]
        rfl
    · rw [if_neg hRun, if_neg hRun]

theorem bulkDuty_duty (hit lostHit : Duty → Bool) (d : Duty) (c : Car) :
    (bulkDuty hit lostHit d c).duty = if c.duty = .lost then .lost else if hit c.duty then d else c.duty := by
  rw [bulkDuty_eq]
  split
  next hLost => exact hLost
  next => split <;> rfl

/-- No record keeps a duty that the effect replaces by another. -/
theorem bulkDuty_duty_ne {hit lostHit : Duty → Bool} {d x : Duty} (c : Car) (hHit : hit x = true) (hGiven : d ≠ x)
    (hLost : x ≠ .lost) : (bulkDuty hit lostHit d c).duty ≠ x := by
  rw [bulkDuty_duty]
  split
  next => exact hLost.symm
  next =>
    split
    next => exact hGiven
    next hNot => exact fun hIs => hNot (hIs ▸ hHit)

/-- q is what leaving the generator makes of the part `left`, the duty effect replacing by `given` the duties that `hit` and, for the
prior duty of a LOST record, `lostHit` name (R10, R11, R117). -/
structure LeavesGenerator (left q : Part) (hit lostHit : Duty → Bool) (given : Duty) : Prop where
  same : q = { left with
    cars := q.cars
    adm := { left.adm with
      joinCounter := 0
      sumM := 0
      sumR := 0
      window := none
      settle := .stopped
      recovery := .stopped
      holdOff := .stopped }
    alarms := { left.alarms with
      status := q.alarms.status
      halted := 0
      regenShed := 0
      q := 0 }
    standing := if left.alarms.q = 0 then left.standing else q.capEff }
  lines : ∀ k, (q.alarmStatus k).inEffect = false ∧ (q.alarmStatus k).asserted = left.lineAsserted k
  car : ∀ i, q.car i = bulkDuty hit lostHit given (leftCar (left.car i))

/-- With every run released no car is shed when the actions are derived afresh. -/
theorem leavesGenerator_of (left : Part) (hit lostHit : Duty → Bool) (given : Duty)
    (h : left.sup.state.onGenerator = false) :
    LeavesGenerator left (rederiveActions ((bulkRelease left).mapCars (bulkDuty hit lostHit given))) hit lostHit given := by
  have hCar : ∀ i, ((bulkRelease left).mapCars (bulkDuty hit lostHit given)).car i
      = bulkDuty hit lostHit given (leftCar (left.car i)) := fun i => by
    rw [car_mapCars, car_bulkRelease]
    rfl
  have hIdle : ∀ i, (((bulkRelease left).mapCars (bulkDuty hit lostHit given)).car i).holdsRun = false := fun i => by
    rw [hCar]
    exact holdsRun_idle ((bulkDuty_run _ _ _ _).trans (bulkReleased_idle _))
  have hReleased : (bulkRelease left).mapCars (bulkDuty hit lostHit given) = { left with
      cars := ((bulkRelease left).mapCars (bulkDuty hit lostHit given)).cars
      adm := { left.adm with
        joinCounter := 0
        sumM := 0
        sumR := 0
        window := none
        settle := .stopped
        recovery := .stopped
        holdOff := .stopped } } := by
    have hBulk := bulkRelease_eq left
    generalize bulkRelease left = b at hBulk ⊢
    generalize b.cars = cs at hBulk
    subst hBulk
    rfl
  generalize (bulkRelease left).mapCars (bulkDuty hit lostHit given) = y at hCar hIdle hReleased ⊢
  obtain ⟨hSame, hLines⟩ := rederiveActions_released left y hReleased h hIdle
  have hCars : (rederiveActions y).cars = y.cars := by rw [hSame]
  refine ⟨?_, hLines, fun i => ?_⟩
  · rw [hCars]
    exact hSame
  · rw [← hCar]
    unfold Part.car
    rw [hCars]

/-- The duties that a breaker open replaces (R10). -/
def isGeneratorDuty : Duty → Bool
  | .recall => true
  | .service => true
  | _ => false

/-- The duties that a closed transition replaces (R6, R11). -/
def isRestoredDuty : Duty → Bool
  | .stopped => true
  | .recall => true
  | .parked => true
  | .service => true
  | _ => false

/-- What a position that leaves the generator makes of the part (R10, R11): the move, the bulk release and the duty effect. -/
theorem takePosition_leavesGenerator {p : Part} {new : Position} (hState : p.sup.state.onGenerator = true)
    (hPosition : p.sup.position = .generator) (hDeferred : p.mgmt.deferred = none) :
    (∀ cause, LeavesGenerator (leftGenerator .outage cause (positioned new p)) (enterOutage cause (positioned new p))
      isGeneratorDuty isGeneratorDuty .stopped)
    ∧ (new = .opened → takePosition new p = enterOutage .switchOpen (positioned new p))
    ∧ (new = .invalid → takePosition new p = noteInvalid (enterOutage .switchInvalid (positioned new p)))
    ∧ (new = .utility → LeavesGenerator (leftGenerator .normal .switchUtility (positioned new p)) (takePosition new p)
        isRestoredDuty notIsolated .normal) := by
  have hNew (x : Position) (hx : x ≠ .generator) : p.sup.position ≠ x := fun h => hx (h.symm.trans hPosition)
  have hNotLike : ¬ openLike p.sup.position = true := by rw [hPosition]; decide
  have hNotOutage : p.sup.state ≠ .outage := fun h => by rw [h] at hState; exact absurd hState (by decide)
  have hNotNormal : p.sup.state ≠ .normal := fun h => by rw [h] at hState; exact absurd hState (by decide)
  have hGenerator : (positioned new p).sup.state.onGenerator = true := hState
  refine ⟨fun cause => ?_, ?_, ?_, ?_⟩
  · rw [enterOutage_noRequest (p := positioned new p) cause hDeferred, leftFor_onGenerator _ _ hGenerator,
      outageEffect_onGenerator _ hGenerator]
    exact leavesGenerator_of _ _ _ _ rfl
  · rintro rfl
    rw [takePosition_opened (hNew _ (by decide)), if_neg hNotLike, reactOpen_else (p := positioned .opened p) _ hNotOutage]
  · rintro rfl
    rw [takePosition_invalid (hNew _ (by decide)), if_neg hNotLike, reactOpen_else (p := positioned .invalid p) _ hNotOutage]
  · rintro rfl
    rw [takePosition_utility (hNew _ (by decide)), reactUtility_else (p := positioned .utility p) hNotNormal,
      enterNormal_noRequest (p := positioned .utility p) hDeferred, leftFor_onGenerator _ _ hGenerator,
      normalEffect_onGenerator _ hGenerator]
    exact leavesGenerator_of _ _ _ _ rfl

/-- The flags after leaving the generator: TRANSFER, and those that were set. -/
theorem LeavesGenerator.flag {p q : Part} {new : TransferState} {cause : Cause} {hit lostHit : Duty → Bool} {given : Duty}
    (h : LeavesGenerator (leftGenerator new cause p) q hit lostHit given) (e : Event) :
    q.flag e = (p.flag e || decide (.transfer = e)) := by
  have hFlags : q.mgmt.flags = (moveState new cause p).mgmt.flags := by rw [h.same]; rfl
  rw [flag_congr hFlags, flag_moveState]

theorem LeavesGenerator.mgmt {left q : Part} {hit lostHit : Duty → Bool} {given : Duty}
    (h : LeavesGenerator left q hit lostHit given) : q.mgmt = left.mgmt := by rw [h.same]

/-- A record after the duty effect holds no run, no commitment, and none of the duties the effect replaces. -/
theorem bulkDuty_leftCar (hit lostHit : Duty → Bool) (given : Duty) (c : Car) :
    (bulkDuty hit lostHit given (leftCar c)).run = .idle ∧ (bulkDuty hit lostHit given (leftCar c)).m = 0
      ∧ (bulkDuty hit lostHit given (leftCar c)).r = 0 := by
  obtain ⟨hm, hr, -, -⟩ := keeps_bulkDuty hit lostHit given (leftCar c)
  exact ⟨(bulkDuty_run _ _ _ _).trans (bulkReleased_idle c), hm, hr⟩

theorem leftCar_idle {c : Car} (h : c.run = .idle) : leftCar c = { c with m := 0, r := 0 } := by
  rw [leftCar_eq, if_neg (by rw [h]; decide), if_neg (by rw [holdsRun_idle h]; decide)]

/-- Settles O15: every record is first what the bulk release leaves of it, then what the duty effect makes of that. -/
theorem leavingGeneratorReleasesEveryRun : Obligations.LeavingGeneratorReleasesEveryRun := by
  intro p new hState hPosition hLeaves hDeferred
  obtain ⟨hOutage, hOpened, hInvalid, hUtility⟩ := takePosition_leavesGenerator (new := new) hState hPosition hDeferred
  intro q settled replaces replacesPrior given taking
  have hCar : ∀ i, q.car i = bulkDuty replaces replacesPrior given (leftCar (p.car i)) := by
    obtain rfl | rfl | rfl := hLeaves
    · have hReplaces : replaces = isGeneratorDuty := by funext d; cases d <;> rfl
      have hPrior : replacesPrior = isGeneratorDuty := by funext d; cases d <;> rfl
      rw [hReplaces, hPrior]
      exact fun i => (congrArg (Part.car · i) (hOpened rfl)).trans ((hOutage .switchOpen).car i)
    · have hReplaces : replaces = isGeneratorDuty := by funext d; cases d <;> rfl
      have hPrior : replacesPrior = isGeneratorDuty := by funext d; cases d <;> rfl
      rw [hReplaces, hPrior]
      exact fun i => (congrArg (Part.car · i) (hInvalid rfl)).trans ((hOutage .switchInvalid).car i)
    · have hReplaces : replaces = isRestoredDuty := by funext d; cases d <;> rfl
      have hPrior : replacesPrior = notIsolated := by funext d; cases d <;> rfl
      rw [hReplaces, hPrior]
      exact (hUtility rfl).car
  have hFlag : ∀ e, q.flag e = (p.flag e || decide (.transfer = e)) := fun e => by
    obtain rfl | rfl | rfl := hLeaves
    · exact (congrArg (Part.flag · e) (hOpened rfl)).trans ((hOutage .switchOpen).flag e)
    · refine (congrArg (Part.flag · e) (hInvalid rfl)).trans ?_
      rw [noteInvalid, flag_raiseEvent]
      change ((enterOutage .switchInvalid (positioned .invalid p)).flag e || _) = _
      rw [(hOutage .switchInvalid).flag e, Bool.or_assoc, Bool.or_self]
      rfl
    · exact (hUtility rfl).flag e
  have hGiven : ∀ x, replaces x = true → given ≠ x := by
    obtain rfl | rfl | rfl := hLeaves <;> intro x <;> cases x <;> decide
  refine ⟨?same, ?flag, fun e he => ?flags, fun k => ?lines, fun i => ?record⟩
  case same =>
    obtain rfl | rfl | rfl := hLeaves
    · have h := hOutage .switchOpen
      rw [← hOpened rfl] at h
      have hMgmt : q.mgmt = _ := h.mgmt
      rw [hMgmt]
      exact h.same
    · have hq : q = noteInvalid (enterOutage .switchInvalid (positioned .invalid p)) := hInvalid rfl
      have hSame := (hOutage .switchInvalid).same
      rw [hq]
      generalize enterOutage .switchInvalid (positioned .invalid p) = x at hSame ⊢
      have hCars : (noteInvalid x).cars = x.cars := rfl
      have hAlarms : (noteInvalid x).alarms = x.alarms := rfl
      have hCapEff : (noteInvalid x).capEff = x.capEff := rfl
      rw [hCars, hAlarms, hCapEff]
      generalize x.cars = cars at hSame ⊢
      generalize x.alarms.status = status at hSame ⊢
      generalize x.capEff = capEff at hSame ⊢
      subst hSame
      rfl
    · have h := hUtility rfl
      have hMgmt : q.mgmt = _ := h.mgmt
      rw [hMgmt]
      exact h.same
  case flag => rw [hFlag]; exact Bool.or_true _
  case flags => rw [hFlag, decide_eq_false he.symm, Bool.or_false]
  case lines =>
    have hLine : (q.alarmStatus k).inEffect = false ∧ (q.alarmStatus k).asserted = p.lineAsserted k := by
      obtain rfl | rfl | rfl := hLeaves
      · rw [show q = _ from hOpened rfl]
        exact (hOutage .switchOpen).lines k
      · rw [show q = _ from hInvalid rfl]
        exact (hOutage .switchInvalid).lines k
      · exact (hUtility rfl).lines k
    exact ⟨hLine.1, by rw [hLine.2, Part.lineAsserted, beq_iff_eq]⟩
  case record =>
    intro c freed
    have hFreed : leftCar c = freed := leftCar_eq c
    have hLost : ∀ x, replaces x = true → x ≠ .lost := fun x hx hIs => by rw [hIs] at hx; exact Bool.false_ne_true hx
    have hNot : ∀ x, replaces x = true → (q.car i).duty ≠ x := fun x hx => by
      rw [hCar]
      exact bulkDuty_duty_ne _ hx (hGiven x hx) (hLost x hx)
    obtain ⟨hRun, hm, hr⟩ := bulkDuty_leftCar replaces replacesPrior given c
    refine ⟨?_, ?_, ?_, ?_, hNot .recall rfl, hNot .service rfl, fun hNew hParked hIdle => ?_, fun hNew => ?_⟩
    · rw [hCar, bulkDuty_eq, hFreed]
    · rw [hCar, hRun]
    · rw [hCar, hm]
    · rw [hCar, hr]
    · have hKept : replaces .parked = false := decide_eq_false hNew
      rw [hCar, bulkDuty_duty, leftCar_idle hIdle]
      simp only [hParked, hKept]
      rfl
    · exact ⟨hNot .parked (decide_eq_true hNew), hNot .stopped (decide_eq_true hNew)⟩

end Sys2Proof.Machine
end

section
/-! Derate shedding (R59, R111, R114): the candidates in their order, how far the list is shed, and the report that becomes STALE
(R16). -/

namespace Sys2Proof.Machine

/-- The candidates of derate shedding, first to be shed first (R114). -/
def Part.derateOrder (p : Part) : List CarIdx := sortCars p.derateBefore (allCars.filter p.derateCandidate)

/-- The retained figure left when these cars have been shed (R114). -/
def Part.leftAfter (p : Part) (shed : List CarIdx) : Nat := p.retained - (shed.map fun i => (p.car i).m).sum

theorem derateCandidate_iff (p : Part) (i : CarIdx) : p.derateCandidate i = true ↔
    (p.car i).holdsRun = true ∧ (p.car i).duty ≠ .lost ∧ (p.car i).shed = false ∧ 0 < (p.car i).m := by
  simp [Part.derateCandidate, and_assoc]

theorem derateBefore_iff (p : Part) (i j : CarIdx) : p.derateBefore i j = true ↔
    let rank (k : CarIdx) : Nat := if (p.car k).duty = .service then 0 else 1
    let age (k : CarIdx) : Nat := (p.now - (p.car k).grantTime).toNat
    rank i < rank j ∨ (rank i = rank j ∧ (age i < age j ∨ (age i = age j ∧ j < i))) := by
  unfold Part.derateBefore
  dsimp only
  rw [Bool.or_eq_true, Bool.and_eq_true, Bool.or_eq_true, Bool.and_eq_true, decide_eq_true_iff, decide_eq_true_iff,
    decide_eq_true_iff, beq_iff_eq, beq_iff_eq]
  rfl

theorem mem_derateOrder (p : Part) (i : CarIdx) : i ∈ p.derateOrder ↔ p.derateCandidate i = true := by
  simp [Part.derateOrder, mem_sortCars]

theorem nodup_derateOrder (p : Part) : p.derateOrder.Nodup := nodup_sortCars _ _ (nodup_allCars.filter _)

theorem pairwise_derateOrder (p : Part) : p.derateOrder.Pairwise fun i j => p.derateBefore i j = true :=
  pairwise_derate p _ (nodup_allCars.filter _)

/-- The first n candidates are shed when the limits are computed afresh: each while the figure exceeded a Cap_eff that has fallen,
and no more once it does not (R59, R114). -/
structure ShedsFirst (p q : Part) (n : Nat) : Prop where
  bound : n ≤ p.derateOrder.length
  car : ∀ i, q.car i = if i ∈ p.derateOrder.take n then { p.car i with shed := true } else p.car i
  retained : q.retained = p.leftAfter (p.derateOrder.take n)
  needed : ∀ k, k < n → p.capEff < p.standing ∧ p.capEff < p.leftAfter (p.derateOrder.take k)
  enough : n < p.derateOrder.length → p.standing ≤ p.capEff ∨ p.leftAfter (p.derateOrder.take n) ≤ p.capEff
  flag : 0 < n → q.flag .shed = true

theorem recomputeLimits_shedsFirst (p : Part) : ∃ n, ShedsFirst p (recomputeLimits p) n := by
  by_cases hFall : p.capEff < p.standing
  · obtain ⟨n, hBound, hCar, hRetained, hNeeded, hEnough, hFlag⟩ :=
      shedWhileAbove_spec p.capEff p.derateOrder p (nodup_derateOrder p) fun i hi => by
        obtain ⟨hRun, -, hShed, -⟩ := (derateCandidate_iff p i).mp ((mem_derateOrder p i).mp hi)
        exact ⟨hRun, hShed⟩
    have hSame : recomputeLimits p = { shedWhileAbove p.capEff p.derateOrder p.retained p with standing := p.capEff } := by
      unfold recomputeLimits derateShed
      rw [if_pos hFall]
      rfl
    refine ⟨n, ⟨hBound, ?_, ?_, fun k hk => ⟨hFall, hNeeded k hk⟩, fun hn => .inr (hEnough hn), ?_⟩⟩ <;> rw [hSame]
    · exact hCar
    · exact hRetained
    · exact hFlag
  · have hSame : recomputeLimits p = { p with standing := p.capEff } := by
      unfold recomputeLimits
      rw [if_neg hFall]
    refine ⟨0, ⟨Nat.zero_le _, fun i => ?_, ?_, fun k hk => absurd hk (Nat.not_lt_zero k), fun _ => .inl (Nat.le_of_not_lt hFall),
      fun h => absurd h (Nat.lt_irrefl 0)⟩⟩ <;> rw [hSame, List.take_zero]
    · rw [if_neg List.not_mem_nil]
      rfl
    · exact (Nat.sub_zero _).symm

/-- Beside the cars and the SHED flag the limits change their standing value alone (R59). -/
theorem recomputeLimits_same (p : Part) : recomputeLimits p = { p with
    cars := (recomputeLimits p).cars
    standing := p.capEff
    mgmt := { p.mgmt with flags := (recomputeLimits p).mgmt.flags } } := by
  obtain ⟨q, hShed, hSame⟩ := recomputeLimits_shape p
  rw [hSame]
  exact congrArg (fun x : Part => { x with standing := p.capEff }) hShed.same

theorem recomputeLimits_capEff (p : Part) : (recomputeLimits p).capEff = p.capEff := by
  obtain ⟨q, hShed, hSame⟩ := recomputeLimits_shape p
  rw [hSame]
  exact hShed.capEff

theorem recomputeLimits_standing (p : Part) : (recomputeLimits p).standing = p.capEff := rfl

/-- A shed car is a candidate. -/
theorem recomputeLimits_car (p : Part) (i : CarIdx) : (recomputeLimits p).car i = p.car i
    ∨ (p.derateCandidate i = true ∧ (recomputeLimits p).car i = { p.car i with shed := true }) := by
  obtain ⟨n, h⟩ := recomputeLimits_shedsFirst p
  rw [h.car]
  split
  next hShed => exact .inr ⟨(mem_derateOrder p i).mp (List.mem_of_mem_take hShed), rfl⟩
  next => exact .inl rfl

/-- After a fall of Cap_eff the retained figure fits, or every candidate is shed (R114). -/
theorem recomputeLimits_fits (p : Part) (hFall : p.capEff < p.standing) :
    (recomputeLimits p).retained ≤ p.capEff ∨ ∀ i, (recomputeLimits p).derateCandidate i = false := by
  obtain ⟨n, h⟩ := recomputeLimits_shedsFirst p
  obtain hMore | hAll := Nat.lt_or_ge n p.derateOrder.length
  · exact .inl (h.retained ▸ (h.enough hMore).resolve_left (Nat.not_le.mpr hFall))
  · refine .inr fun i => Bool.eq_false_iff.mpr fun hCandidate => ?_
    rw [derateCandidate_iff, h.car, List.take_of_length_le hAll] at hCandidate
    split at hCandidate
    next =>
      obtain ⟨-, -, hMarked, -⟩ := hCandidate
      exact Bool.noConfusion hMarked
    next hWas => exact hWas ((mem_derateOrder p i).mpr ((derateCandidate_iff p i).mpr hCandidate))

/-- Settles O36. -/
theorem derateShedding : Obligations.DerateShedding := by
  intro p q candidate rank age before left
  obtain ⟨n, h⟩ := recomputeLimits_shedsFirst p
  have hNone : p.standing ≤ p.capEff ∨ p.retained ≤ p.capEff → n = 0 := fun hFits => by
    refine Decidable.byContradiction fun hSome => ?_
    obtain ⟨hFall, hAbove⟩ := h.needed 0 (Nat.pos_of_ne_zero hSome)
    simp only [List.take_zero, Part.leftAfter, List.map_nil, List.sum_nil, Nat.sub_zero] at hAbove
    omega
  refine ⟨rfl, recomputeLimits_capEff p, (by rw [recomputeLimits_same p] : (recomputeLimits p).adm = p.adm),
    recomputeLimits_car p, fun hFall => ?_,
    fun hFits i => ?_, p.derateOrder, n, nodup_derateOrder p, fun i => ?_, ?_, h.bound, h.car, h.retained, h.needed, h.enough,
    h.flag⟩
  · rw [recomputeLimits_capEff]
    exact recomputeLimits_fits p hFall
  · rw [h.car, hNone hFits, List.take_zero, if_neg List.not_mem_nil]
  · rw [mem_derateOrder, derateCandidate_iff]
  · exact (pairwise_derateOrder p).imp (derateBefore_iff p _ _).mp

/-- Settles O19: what becomes STALE is one field and one flag, and the limits follow from it. -/
theorem plantReportBecomesStale : Obligations.PlantReportBecomesStale := by
  refine fun s => ⟨fun hFresh => ?_, fun hStale => ?_⟩
  · intro stale t
    have hStale : ∀ e, stale.flag e = (s.part.flag e || decide (.plantStale = e)) := fun e => flag_raiseEvent .plantStale e _
    have hActions : ActionsOnly stale t := recomputeLimits_actions stale
    have hTaken : reportStale s.part = t := by
      unfold reportStale
      rw [if_pos hFresh]
      rfl
    have hSet : stale.flag .plantStale = true := by rw [hStale]; exact Bool.or_true _
    have hOther : ∀ e, e ≠ .plantStale → stale.flag e = s.part.flag e := fun e he => by
      rw [hStale, decide_eq_false he.symm, Bool.or_false]
    have hSame : t = { stale with
        cars := t.cars
        standing := stale.capEff
        mgmt := { stale.mgmt with flags := t.mgmt.flags } } := recomputeLimits_same stale
    refine ⟨completes_eq hTaken, hSet, hOther, recomputeLimits_sup stale, (hActions.other _ (by decide)).trans hSet,
      (recomputeLimits_capEff stale).symm, by rw [hSame]; rfl, by rw [hSame]; rfl, by rw [hSame]; rfl, by rw [hSame]; rfl,
      by rw [hSame]; rfl, by rw [hSame]; rfl, by rw [hSame]; rfl, by rw [hSame]; rfl, by rw [hSame]; rfl,
      fun e he hs => (hActions.other e hs).trans (hOther e he), fun hFall => ?_, hActions.car⟩
    rw [recomputeLimits_capEff]
    exact recomputeLimits_fits stale hFall
  · have hSame : reportStale s.part = s.part := by
      unfold reportStale
      rw [hStale]
      rfl
    exact completes_eq hSame

end Sys2Proof.Machine
end

section
/-! Entries to RECALL, SERVICE and RETURN (R8, R9, R12, R13, R91, R95, R96) and plant reports (R15, R78, R80). -/

namespace Sys2Proof.Machine

/-! ### Recall that goes on -/

/-- While an enabled record has duty RECALL without UNFIT an evaluation of completion changes nothing (R93). -/
theorem evaluateCompletion_incomplete {p : Part} {k : CarIdx} (hDuty : (p.car k).duty = .recall) (hFit : (p.car k).unfit = none) :
    evaluateCompletion p = p :=
  (evaluateCompletion_evaluates p).2 (.inr ⟨k, hDuty, hFit⟩)

theorem recallAssignment_same (p : Part) : recallAssignment p = { p with cars := (recallAssignment p).cars } :=
  (recallAssignment_dutyOnly p).same

theorem assignedDuty_of {c : Car} (floor : Nat) (h : c.duty = .stopped ∨ c.duty = .parked) :
    assignedDuty floor c = if passesStanding floor c then .parked else .recall := by
  unfold assignedDuty
  obtain h | h := h <;> rw [h]

/-- The record of a car after the recall assignment, its duty by the standing test (R91). -/
theorem car_recallAssignment_stands (p : Part) (i : CarIdx) : (recallAssignment p).car i =
    if (p.car i).duty = .stopped ∨ (p.car i).duty = .parked then { p.car i with
      duty := if passesStanding (p.recallFloor i) (p.car i) then .parked else .recall
      pendingRecall := false }
    else p.car i := by
  rw [car_recallAssignment]
  by_cases hAssigned : (p.car i).duty = .stopped ∨ (p.car i).duty = .parked
  · rw [if_pos hAssigned, if_pos hAssigned, assignedDuty_of _ hAssigned]
  · rw [if_neg hAssigned, if_neg hAssigned]

/-- Where recall is not complete, nothing waits and no retransfer is held, an entry to RECALL ends with the assignment. -/
theorem recallEntry_ends {p : Part} {k : CarIdx} (hDuty : ((recallAssignment p).car k).duty = .recall)
    (hFit : (p.car k).unfit = none) (hWaits : p.nothingWaits) (hHeld : p.retransferHeld = false) :
    retransferCheck (judgeGap (evaluateCompletion (recallAssignment p))) = recallAssignment p := by
  have hOnly := recallAssignment_dutyOnly p
  have hRun : ∀ i, ((recallAssignment p).car i).run = (p.car i).run := fun i => by rw [hOnly.car i]
  have hSame := recallAssignment_same p
  rw [evaluateCompletion_incomplete hDuty (by rw [hOnly.car k]; exact hFit),
    judgeGap_nothingWaits _ (nothingWaits_congr hRun (by rw [hSame]) hWaits),
    retransferCheck_none _ (by rw [retransferHeld_congr (q := recallAssignment p) (p := p) (by rw [hSame]), hHeld])]

/-- The part in RECALL before the assignment (R8, R9, R109): the move recorded, the recall limit timer started, and on leaving
STANDBY the actions derived afresh. -/
def recallEntered (cause : Cause) (p : Part) : Part :=
  let entered := startRecallLimit (moveState .recall cause p)
  if p.sup.state = .standby then rederiveActions entered else entered

theorem enterRecall_eq (cause : Cause) (p : Part) : enterRecall cause p
    = retransferCheck (judgeGap (evaluateCompletion (recallAssignment (recallEntered cause p)))) := rfl

theorem warmUpExpires_standby {p : Part} {n : Nat} (hTimer : p.sup.warmUp = .running n) (hState : p.sup.state = .standby) :
    warmUpExpires p = enterRecall .warmUp { p with sup.warmUp := .expired } := by
  unfold warmUpExpires
  rw [hTimer]
  exact if_pos hState

/-- Settles O17: what the actions in effect shed before the assignment touches no duty and no run. -/
theorem warmUpExpiryEntersRecall : Obligations.WarmUpExpiryEntersRecall := by
  intro s n k hState hTimer hHeld hWaits hStopped hStands hFit
  let entered := startRecallLimit (moveState .recall .warmUp { s.part with sup.warmUp := .expired })
  have hActions : ActionsOnly entered (rederiveActions entered) := rederiveActions_actions entered
  have hSup : (rederiveActions entered).sup = entered.sup := rederiveActions_sup entered
  have hCar : ∀ i, (rederiveActions entered).car i
      = { s.part.car i with shed := ((rederiveActions entered).car i).shed } := hActions.record
  have hActive : (rederiveActions entered).active = s.part.active := by rw [hActions.same]; rfl
  have hFloor : ∀ i, passesStanding ((rederiveActions entered).recallFloor i) ((rederiveActions entered).car i)
      = passesStanding (s.part.recallFloor i) (s.part.car i) := fun i => by
    rw [recallFloor_congr hActive i]
    exact passesStanding_congr _ (by rw [hCar i]) (by rw [hCar i])
  have hDuty : ∀ i, ((recallAssignment (rederiveActions entered)).car i).duty =
      if (s.part.car i).duty = .stopped ∨ (s.part.car i).duty = .parked then
        if passesStanding (s.part.recallFloor i) (s.part.car i) then .parked else .recall
      else (s.part.car i).duty := fun i => by
    have hSame : ((rederiveActions entered).car i).duty = (s.part.car i).duty := by rw [hCar i]
    rw [car_recallAssignment_stands, hFloor, hSame]
    split
    · split <;> rfl
    · exact hSame
  have hEnds : warmUpExpires s.part = recallAssignment (rederiveActions entered) := by
    rw [warmUpExpires_standby hTimer hState, enterRecall_eq]
    have hEntered : recallEntered .warmUp { s.part with sup.warmUp := .expired } = rederiveActions entered := if_pos hState
    rw [hEntered]
    refine recallEntry_ends (k := k) ?_ (by rw [hCar k]; exact hFit) ?_ ?_
    · rw [hDuty, if_pos (.inl hStopped), hStands]
      rfl
    · exact nothingWaits_congr (p := s.part) (fun i => by rw [hCar i]) (rederiveActions_deferred entered) hWaits
    · rw [retransferHeld_congr (q := rederiveActions entered) (p := s.part) (by rw [hSup]; rfl), hHeld]
  have hRest := recallAssignment_same (rederiveActions entered)
  refine ⟨{ s with part := recallAssignment (rederiveActions entered) }, completes_eq hEnds, ?_⟩
  have hAssignedSup : (recallAssignment (rederiveActions entered)).sup = { s.part.sup with
      state := .recall
      previous := .standby
      changeTime := s.part.now
      cause := .warmUp
      warmUp := .expired
      recallLimit := if s.part.active.plant.recallLimit = 0 then .stopped
        else .running (s.part.active.plant.recallLimit * 1000) } := by
    rw [hRest, ← hState]
    exact hSup
  have hFlag : (recallAssignment (rederiveActions entered)).flag .transfer = true := by
    have hMgmt : (recallAssignment (rederiveActions entered)).mgmt = (rederiveActions entered).mgmt := by rw [hRest]
    have hMoved : entered.flag .transfer = true := (flag_moveState .recall .warmUp _ .transfer).trans (Bool.or_true _)
    rw [flag_congr (congrArg Management.flags hMgmt), hActions.other _ (by decide), hMoved]
  have hKept : ∀ i, (recallAssignment (rederiveActions entered)).car i = { s.part.car i with
      shed := ((rederiveActions entered).car i).shed
      duty := ((recallAssignment (rederiveActions entered)).car i).duty
      pendingRecall := ((recallAssignment (rederiveActions entered)).car i).pendingRecall } := fun i => by
    rw [(recallAssignment_dutyOnly (rederiveActions entered)).car i, hCar i]
  have hLeaves := (warmUpExpires_carSide s.part).leaves
  rw [hEnds] at hLeaves
  have hTables : (recallAssignment (rederiveActions entered)).active = s.part.active := by rw [hRest]; exact hActive
  generalize recallAssignment (rederiveActions entered) = after at *
  rw [hAssignedSup]
  exact ⟨rfl, rfl, rfl, rfl, hFlag, rfl, rfl,
    fun i => ⟨by rw [hKept i], by rw [hKept i], by rw [hKept i], by rw [hKept i], hDuty i⟩,
    hLeaves.link, hLeaves.slot, hLeaves.master, hTables, hLeaves.shadow, hLeaves.now⟩

/-! ### The end of recall by its limit (R95) -/

theorem recallLimitExpires_recall {p : Part} {n : Nat} (hTimer : p.sup.recallLimit = .running n) (hState : p.sup.state = .recall) :
    recallLimitExpires p = endRecall { p with sup.recallLimit := .expired } := by
  unfold recallLimitExpires
  rw [hTimer]
  exact if_pos hState

/-- Settles O18: with no retransfer held, the end of recall is the move and a service selection, which changes duties alone. -/
theorem recallLimitExpiryEndsRecall : Obligations.RecallLimitExpiryEndsRecall := by
  intro s n hState hTimer hHeld
  let expired : Part := { s.part with sup.recallLimit := .expired }
  obtain ⟨x, hSame, hSelected, hDone, hMoved, -, hEnds, -⟩ := endRecall_endsRecall expired
  have hOnly : DutyOnly (stopRecallLimit (moveState .service .recallDone (raiseEvent .recallDone expired))) x := by
    rw [← hEnds hHeld, endRecall_noRetransfer expired hHeld]
    exact serviceSelection_dutyOnly _
  have hCar : ∀ i, x.car i = { s.part.car i with duty := (x.car i).duty, pendingRecall := (x.car i).pendingRecall } := hOnly.car
  have hLimit : recallLimitExpires s.part = x := (recallLimitExpires_recall hTimer hState).trans (hEnds hHeld)
  refine ⟨{ s with part := x }, completes_eq hLimit, ?_⟩
  have hAfter : s.part.listsDistinct → ∀ i, x.car i = s.part.afterSelection i := fun hLists i =>
    (hSelected hLists i).trans (afterSelection_congr s.part expired i rfl fun _ _ => rfl)
  have hSup : x.sup = { s.part.sup with
      state := .service, previous := .recall, changeTime := s.part.now, cause := .recallDone, recallLimit := .stopped } := by
    rw [hSame, ← hState]
  dsimp only
  rw [hSup]
  refine ⟨rfl, rfl, rfl, rfl, hDone, hMoved, rfl,
    fun i => ⟨by rw [hCar i], by rw [hCar i], by rw [hCar i], by rw [hCar i], by rw [hCar i], by rw [hCar i]⟩, hAfter,
    ?_, ?_, ?_, ?_, ?_, ?_, ?_⟩ <;> rw [hSame]

/-! ### The taking of a plant report (R15) -/

/-- The part with the report held, FRESH, and the limits following where it was STALE (R15, R59). -/
def reportTaken (power freq : Word16) (retransfer : Bool) (p : Part) : Part :=
  if p.sup.fresh then reportFields power freq retransfer p else recomputeLimits (reportFields power freq retransfer p)

theorem reportTaken_sup (power freq : Word16) (retransfer : Bool) (p : Part) : (reportTaken power freq retransfer p).sup
    = { p.sup with report := some ⟨power, freq, retransfer, p.now⟩, fresh := true } := by
  unfold reportTaken
  split
  · rfl
  · exact recomputeLimits_sup _

/-- Beside the report, its arrival changes the standing value, SHED marks and the SHED flag alone. -/
theorem reportTaken_same (power freq : Word16) (retransfer : Bool) (p : Part) : reportTaken power freq retransfer p = { p with
    sup := (reportTaken power freq retransfer p).sup
    cars := (reportTaken power freq retransfer p).cars
    standing := (reportTaken power freq retransfer p).standing
    mgmt := { p.mgmt with flags := (reportTaken power freq retransfer p).mgmt.flags } } := by
  unfold reportTaken
  split
  · rfl
  · have hSame := recomputeLimits_same (reportFields power freq retransfer p)
    generalize recomputeLimits (reportFields power freq retransfer p) = q at hSame ⊢
    rw [hSame]
    rfl

theorem reportTaken_car (power freq : Word16) (retransfer : Bool) (p : Part) (i : CarIdx) :
    (reportTaken power freq retransfer p).car i = p.car i
      ∨ ((p.car i).holdsRun = true ∧ (reportTaken power freq retransfer p).car i = { p.car i with shed := true }
          ∧ (reportTaken power freq retransfer p).flag .shed = true) := by
  unfold reportTaken
  split
  · exact .inl rfl
  · exact (recomputeLimits_actions _).car i

theorem reportTaken_record (power freq : Word16) (retransfer : Bool) (p : Part) (i : CarIdx) :
    (reportTaken power freq retransfer p).car i
      = { p.car i with shed := ((reportTaken power freq retransfer p).car i).shed } := by
  obtain hSame | ⟨-, hShed, -⟩ := reportTaken_car power freq retransfer p i
  · rw [hSame]
  · rw [hShed]

theorem takePlantReport_eq (power freq : Word16) (retransfer : Bool) (p : Part) : takePlantReport power freq retransfer p =
    admitReport (if p.sup.state = .returning ∧ retransfer = false then leaveReturn (reportTaken power freq retransfer p)
      else retransferCheck (reportTaken power freq retransfer p)) := by
  have hState : (reportTaken power freq retransfer p).sup.state = p.sup.state := by rw [reportTaken_sup]
  rw [← hState]
  rfl

theorem retransferCheck_recall {p : Part} (hHeld : p.retransferHeld = true) (hState : p.sup.state = .recall) :
    retransferCheck p = enterReturn .recall p := by
  unfold retransferCheck
  rw [if_pos hHeld, hState]

theorem retransferCheck_service {p : Part} (hHeld : p.retransferHeld = true) (hState : p.sup.state = .service) :
    retransferCheck p = enterReturn .service p := by
  unfold retransferCheck
  rw [if_pos hHeld, hState]

/-- Outside RECALL and SERVICE a retransfer pending moves nothing (R12). -/
theorem retransferCheck_elsewhere {p : Part} (hRecall : p.sup.state ≠ .recall) (hService : p.sup.state ≠ .service) :
    retransferCheck p = p := by
  unfold retransferCheck
  split
  · split
    · contradiction
    · contradiction
    · rfl
  · rfl

theorem admitReport_noWindow {p : Part} (h : p.adm.window = none) : admitReport p = p := by
  unfold admitReport
  rw [h]

/-- A record after the move to RETURN: a queued car leaves the queue, a SERVICE car with a run is shed (R12). -/
theorem entersReturn_record {p q : Part} {f : Remembered} (h : p.entersReturn q f) (i : CarIdx) : q.car i = { p.car i with
    run := if (p.car i).run = .queued then .idle else (p.car i).run
    priority := (q.car i).priority
    joinSeq := (q.car i).joinSeq
    shed := (p.car i).shed || ((p.car i).holdsRun && (p.car i).duty == .service) } := by
  obtain ⟨-, hCars, -⟩ := h
  obtain ⟨hQueued, hShed, hElse⟩ := hCars i
  by_cases hRun : (p.car i).run = .queued
  · have hNoRun : (p.car i).holdsRun = false := by rw [Car.holdsRun, hRun]; rfl
    rw [hQueued hRun, if_pos hRun, hNoRun, Bool.false_and, Bool.or_false]
  · rw [if_neg hRun]
    by_cases hService : (p.car i).duty = .service ∧ (p.car i).holdsRun = true
    · rw [hShed hService, hService.1, hService.2, beq_self_eq_true, Bool.and_self, Bool.or_true]
    · have hNot : ((p.car i).holdsRun && (p.car i).duty == .service) = false := by
        rw [Bool.and_eq_false_iff, beq_eq_false_iff_ne, ← Bool.not_eq_true]
        exact (Decidable.not_and_iff_or_not.mp hService).symm
      rw [hElse hRun hService, hNot, Bool.or_false]

theorem entersReturn_queue {p q : Part} {f : Remembered} (h : p.entersReturn q f) : q.queue = [] := by
  have hNone : q.queuedCars = [] := List.filter_eq_nil_iff.mpr fun i _ => by
    rw [entersReturn_record h i]
    dsimp only
    split
    next => decide
    next hRun => simpa using hRun
  rw [Part.queue, hNone, sortCars_nil]

/-- Settles O21: what the report makes of the part before the move is the held report alone. -/
theorem retransferReportMovesToReturn : Obligations.RetransferReportMovesToReturn := by
  intro p power freq hState hFresh hWindow q
  let remembered : Remembered := if p.sup.state = .recall then .recall else .service
  let taken := reportFields power freq true p
  have hTaken : reportTaken power freq true p = taken := if_pos hFresh
  have hCheck : retransferCheck taken = enterReturn remembered taken := by
    obtain hRecall | hService := hState
    · rw [retransferCheck_recall (p := taken) rfl hRecall]
      exact congrArg (enterReturn · _) (if_pos hRecall).symm
    · rw [retransferCheck_service (p := taken) rfl hService]
      exact congrArg (enterReturn · _) (if_neg (by rw [hService]; decide)).symm
  have hEntered : taken.entersReturn (enterReturn remembered taken) remembered := enterReturn_entersReturn _ _
  have hq : q = enterReturn remembered taken := by
    have hAdmitted : q = admitReport (enterReturn remembered taken) := by
      change takePlantReport power freq true p = _
      rw [takePlantReport_eq, if_neg (fun h => Bool.noConfusion h.2), hTaken, hCheck]
    rw [hAdmitted, admitReport_noWindow]
    rw [hEntered.1]
    exact hWindow
  rw [← hq] at hEntered
  clear_value q
  have hRecord : ∀ i, _ := entersReturn_record hEntered
  have hQueue := entersReturn_queue hEntered
  obtain ⟨hSame, -, hTransfer, -, -⟩ := hEntered
  have hSup : q.sup = { p.sup with
      state := .returning, previous := p.sup.state, changeTime := p.now, cause := .retransferSet, remembered := some remembered
      recallLimit := .stopped, report := some ⟨power, freq, true, p.now⟩, fresh := true } := by rw [hSame]; rfl
  have hAdm : q.adm = { p.adm with joinCounter := 0 } := by rw [hSame]; rfl
  rw [hSup, hAdm]
  refine ⟨rfl, rfl, rfl, rfl, rfl, rfl, rfl, hTransfer, hQueue, rfl, rfl, rfl, ?_, ?_, ?_, ?_, ?_, ?_, fun i => ?_⟩
  case refine_7 =>
    rw [hRecord i]
    exact ⟨rfl, rfl, rfl, rfl, rfl⟩
  all_goals rw [hSame]; rfl

end Sys2Proof.Machine
end

section
/-! Plant reports taken in RELAY (R13, R15, R59, R78, R80, R83, R138): the report held, the move back out of RETURN, and the settle
window. -/

namespace Sys2Proof.Machine

/-! ### The settle window (R78, R80) -/

/-- t is x after the admission unit has taken the arrival of a report with this frequency. -/
def Admits (freq : Word16) (x t : Part) : Prop :=
  (x.adm.window = none → t = x)
  ∧ ∀ i, (x.adm.window = some ⟨.settling, i⟩ → t = { x with adm.reportMark := true })
    ∧ (x.adm.window = some ⟨.blind, i⟩ → t = x)
    ∧ (x.adm.window = some ⟨.waiting, i⟩ →
      (freq.toNat < x.active.plant.fOk → t = x)
      ∧ ∀ f, x.active.plant.fOk ≤ freq.toNat → (x.car i).snapshot = some f → t = judgeGap (x.stepCompleted i f))

theorem recovered_iff {p : Part} {r : PlantReport} (h : p.sup.report = some r) :
    p.recovered = true ↔ p.active.plant.fOk ≤ r.freq.toNat := by
  unfold Part.recovered
  rw [h]
  exact decide_eq_true_iff

theorem completeStep_eq {p : Part} {i : CarIdx} {f : Figures} (h : (p.car i).snapshot = some f) :
    completeStep i p = judgeGap (p.stepCompleted i f) := by
  rw [completeStep, completeRun_eq p i f h]

theorem admitReport_admits {x : Part} {r : PlantReport} (h : x.sup.report = some r) : Admits r.freq x (admitReport x) := by
  refine ⟨admitReport_noWindow, fun i => ⟨fun hSettling => ?_, fun hBlind => ?_,
    fun hWaiting => ⟨fun hLow => ?_, fun f hOk hSnap => ?_⟩⟩⟩
  · simp [admitReport, hSettling]
  · simp [admitReport, hBlind]
  · have hNot : ¬ x.recovered = true := fun hIs => Nat.not_le.mpr hLow ((recovered_iff h).mp hIs)
    simp [admitReport, hWaiting, hNot]
  · simp [admitReport, hWaiting, (recovered_iff h).mpr hOk, completeStep_eq hSnap]

/-! ### A report that reaches the supervisor (R138) -/

theorem received_relay_sup {p : Part} {port : Port} (h : p.master.mode = .relay) : (p.received port).sup = p.sup := by
  rw [received_relay p port h]

theorem exec_plantReport {s : State} {address : Byte} {power freq : Word16} {flags : Byte} (h : s.part.takesRequest)
    (hNode : isNodeAddress address = true) : exec (.plantReport address power freq flags) s = .next { s with
      part := if address = s.part.link.settings.plantNode then
          takePlantReport power freq (flags.getLsbD 0) (s.part.received .dispatch)
        else s.part.received .dispatch } := by
  obtain ⟨hMode, hTakes⟩ := h
  refine completes_eq (f := frameArrives .dispatch (.plantReport address power freq flags)) ?_
  rw [frameArrives_relay .dispatch _ _ hMode hTakes (by simp [frameValid, frameAccepted, addressSuits, fieldsValid, hNode]),
    ← received_settings s.part .dispatch]
  rfl

/-! ### The move back out of RETURN (R13) -/

/-- With nothing waiting and the flag clear, a return to SERVICE is the move and a service selection. -/
theorem leaveReturn_service {p : Part} (h : p.sup.remembered = some .service) (hWaits : p.nothingWaits)
    (hHeld : p.retransferHeld = false) :
    leaveReturn p = serviceSelection (moveState .service .retransferClear { p with sup.remembered := none }) := by
  have hOnly := serviceSelection_dutyOnly (moveState .service .retransferClear { p with sup.remembered := none })
  have hLeave : leaveReturn p = retransferCheck (judgeGap (serviceSelection
      (moveState .service .retransferClear { p with sup.remembered := none }))) := by
    unfold leaveReturn
    rw [h]
    rfl
  rw [hLeave]
  generalize serviceSelection (moveState .service .retransferClear { p with sup.remembered := none }) = x at hOnly ⊢
  have hWaitsX : x.nothingWaits := nothingWaits_congr (p := p) (fun i => by rw [hOnly.car i]; rfl) (by rw [hOnly.same]; rfl) hWaits
  rw [judgeGap_nothingWaits x hWaitsX, retransferCheck_none x]
  rw [retransferHeld_congr (q := x) (p := p) (by rw [hOnly.same]; rfl), hHeld]

/-- With nothing waiting, the flag clear and recall not complete, a return to RECALL is the move and the assignment. -/
theorem leaveReturn_recall {p : Part} {k : CarIdx} (h : p.sup.remembered = some .recall) (hState : p.sup.state = .returning)
    (hWaits : p.nothingWaits) (hHeld : p.retransferHeld = false) (hDuty : (p.car k).duty = .recall) (hFit : (p.car k).unfit = none) :
    leaveReturn p
      = recallAssignment (startRecallLimit (moveState .recall .retransferClear { p with sup.remembered := none })) := by
  have hEntered : recallEntered .retransferClear { p with sup.remembered := none }
      = startRecallLimit (moveState .recall .retransferClear { p with sup.remembered := none }) :=
    if_neg (by change p.sup.state ≠ .standby; rw [hState]; decide)
  have hLeave : leaveReturn p = enterRecall .retransferClear { p with sup.remembered := none } := by
    unfold leaveReturn
    rw [h]
  rw [hLeave, enterRecall_eq, hEntered]
  refine recallEntry_ends (k := k) ?_ hFit (nothingWaits_congr (p := p) (fun _ => rfl) rfl hWaits)
    ((retransferHeld_congr (p := p) rfl).trans hHeld)
  rw [car_recallAssignment]
  change (if (p.car k).duty = .stopped ∨ (p.car k).duty = .parked then _ else p.car k).duty = _
  rw [if_neg (by rw [hDuty]; decide), hDuty]

/-- The report that is held moves no state where no run exists, or where RETURN and the flag agree (R12, R13). -/
theorem takePlantReport_still {p : Part} {power freq : Word16} {retransfer : Bool}
    (h : p.sup.state.onGenerator = false ∨ (p.sup.state = .returning ↔ retransfer = true)) :
    takePlantReport power freq retransfer p = admitReport (reportTaken power freq retransfer p) := by
  have hSup := reportTaken_sup power freq retransfer p
  have hState : (reportTaken power freq retransfer p).sup.state = p.sup.state := by rw [hSup]
  have hNotBack : ¬ (p.sup.state = .returning ∧ retransfer = false) := by
    rintro ⟨hReturning, hClear⟩
    obtain hOff | hSame := h
    · rw [hReturning] at hOff
      exact absurd hOff (by decide)
    · exact Bool.false_ne_true (hClear.symm.trans (hSame.mp hReturning))
  have hCheck : retransferCheck (reportTaken power freq retransfer p) = reportTaken power freq retransfer p := by
    by_cases hClear : retransfer = false
    · refine retransferCheck_none _ ?_
      unfold Part.retransferHeld
      rw [hSup]
      exact hClear
    · have hNot : p.sup.state ≠ .recall ∧ p.sup.state ≠ .service := by
        obtain hOff | hSame := h
        · exact ⟨fun hIs => by rw [hIs] at hOff; exact absurd hOff (by decide),
            fun hIs => by rw [hIs] at hOff; exact absurd hOff (by decide)⟩
        · have hReturning := hSame.mpr (eq_true_of_ne_false hClear)
          rw [hReturning]
          exact ⟨by decide, by decide⟩
      exact retransferCheck_elsewhere (hState ▸ hNot.1) (hState ▸ hNot.2)
  rw [takePlantReport_eq, if_neg hNotBack, hCheck]

theorem flag_moveState_kept {n : TransferState} {c : Cause} {p : Part} {e : Event} (h : p.flag e = true) :
    (moveState n c p).flag e = true := by
  rw [flag_moveState, h, Bool.true_or]

/-- A service selection after the move back to SERVICE changes duties alone (R13, R97). -/
theorem leaveReturn_service_spec (p : Part) :
    let x := serviceSelection (moveState .service .retransferClear { p with sup.remembered := none })
    x = { p with
      sup := { p.sup with
        state := .service, previous := p.sup.state, changeTime := p.now, cause := .retransferClear, remembered := none }
      cars := x.cars
      mgmt := { p.mgmt with flags := x.mgmt.flags } }
    ∧ (p.listsDistinct → ∀ i, x.car i = p.afterSelection i) ∧ x.flag .transfer = true
    ∧ ∀ e, p.flag e = true → x.flag e = true := by
  intro x
  have hOnly : DutyOnly (moveState .service .retransferClear { p with sup.remembered := none }) x := serviceSelection_dutyOnly _
  have hFlag : ∀ e, x.flag e = (moveState .service .retransferClear { p with sup.remembered := none }).flag e :=
    fun e => flag_congr (by rw [hOnly.same]) e
  refine ⟨?_, fun hLists i => ?_, ?_, fun e he => ?_⟩
  · have hMgmt : x.mgmt = (moveState .service .retransferClear { p with sup.remembered := none }).mgmt := by rw [hOnly.same]
    rw [hMgmt]
    exact hOnly.same
  · refine (car_serviceSelection _ (fun g => ?_) i).trans (afterSelection_congr p _ i rfl fun _ _ => rfl)
    exact hLists.1.1 g
  · rw [hFlag, flag_moveState]
    exact Bool.or_true _
  · rw [hFlag]
    exact flag_moveState_kept (p := { p with sup.remembered := none }) he

/-- The assignment after the move back to RECALL (R9, R13, R91). -/
theorem leaveReturn_recall_spec (p : Part) :
    let x := recallAssignment (startRecallLimit (moveState .recall .retransferClear { p with sup.remembered := none }))
    x = { p with
      sup := { p.sup with
        state := .recall, previous := p.sup.state, changeTime := p.now, cause := .retransferClear, remembered := none
        recallLimit := if p.active.plant.recallLimit = 0 then .stopped else .running (p.active.plant.recallLimit * 1000) }
      cars := x.cars
      mgmt := { p.mgmt with flags := x.mgmt.flags } }
    ∧ (∀ i, x.car i =
        if (p.car i).duty = .stopped ∨ (p.car i).duty = .parked then { p.car i with
          duty := if passesStanding (p.recallFloor i) (p.car i) then .parked else .recall
          pendingRecall := false }
        else p.car i)
    ∧ x.flag .transfer = true ∧ ∀ e, p.flag e = true → x.flag e = true := by
  intro x
  have hSame : x = { startRecallLimit (moveState .recall .retransferClear { p with sup.remembered := none }) with cars := x.cars } :=
    recallAssignment_same _
  have hMgmt : x.mgmt = (moveState .recall .retransferClear { p with sup.remembered := none }).mgmt := by rw [hSame]; rfl
  refine ⟨?_, fun i => car_recallAssignment_stands _ i, ?_, fun e he => ?_⟩
  · rw [hMgmt]
    exact hSame
  · rw [flag_congr (congrArg Management.flags hMgmt), flag_moveState]
    exact Bool.or_true _
  · rw [flag_congr (congrArg Management.flags hMgmt)]
    exact flag_moveState_kept (p := { p with sup.remembered := none }) he

/-- Settles O20: the report is held, and the state it finds decides between the window alone and a move back before it. -/
theorem plantReportTaken : Obligations.PlantReportTaken := by
  intro s address power freq flags hTakes hNode command retransfer q held taken admitted
  have hExec : exec command s = _ := exec_plantReport hTakes hNode
  have hReceived : q = { s.part with link := q.link, slot := q.slot } := received_relay s.part .dispatch hTakes.1
  have hSupQ : q.sup = s.part.sup := received_relay_sup hTakes.1
  have hTaken : reportTaken power freq retransfer q = taken := by
    have hFields : reportFields power freq retransfer q = held := by
      have hNow : q.now = s.part.now := by rw [hReceived]
      dsimp only [held]
      rw [← hNow]
      rfl
    unfold reportTaken
    rw [hFields, hSupQ]
  have hSup : taken.sup = { s.part.sup with report := some ⟨power, freq, retransfer, s.part.now⟩, fresh := true } := by
    rw [← hTaken, reportTaken_sup, hReceived]
  have hSame := reportTaken_same power freq retransfer q
  have hCar := reportTaken_car power freq retransfer q
  have hRecord := reportTaken_record power freq retransfer q
  have hStill : s.part.sup.state.onGenerator = false ∨ (s.part.sup.state = .returning ↔ retransfer = true) →
      takePlantReport power freq retransfer q = admitReport taken := fun h => by
    rw [takePlantReport_still (by rw [hSupQ]; exact h), hTaken]
  rw [hTaken] at hSame hCar hRecord
  have hCarQ : ∀ i, q.car i = s.part.car i := fun i => by rw [hReceived]; rfl
  have hAdm : taken.adm = s.part.adm := by rw [hSame, hReceived]
  have hActive : taken.active = s.part.active := by rw [hSame, hReceived]
  have hLink : taken.link = q.link := by rw [hSame]
  have hSlot : taken.slot = q.slot := by rw [hSame]
  have hMaster : taken.master = s.part.master := by rw [hSame, hReceived]
  have hStandingQ : q.standing = s.part.standing := by rw [hReceived]
  refine ⟨fun hOther => ?other, fun hPlant hOff hWindow => ?off, fun hPlant hState => ?still,
    fun hPlant hReturning hClear hWaits => ?back⟩
  case other => rw [hExec, if_neg hOther]
  case off =>
    have hEnds : takePlantReport power freq retransfer q = taken := by
      rw [hStill (.inl hOff), admitReport_noWindow (by rw [hAdm]; exact hWindow)]
    have hFresh : s.part.sup.fresh = true → taken.standing = s.part.standing := fun h => by
      have hHeld : taken = held := if_pos h
      rw [hHeld]
      exact hStandingQ
    have hStale : s.part.sup.fresh = false → taken.standing = taken.capEff := fun h => by
      have hHeld : taken = recomputeLimits held := if_neg (by rw [h]; decide)
      rw [hHeld]
      exact (recomputeLimits_standing held).trans (recomputeLimits_capEff held).symm
    exact ⟨{ s with part := taken }, by rw [hExec, if_pos hPlant, hEnds], hSup, hAdm, hLink, hSlot, hMaster, hStale, hFresh,
      fun i => hCarQ i ▸ hCar i⟩
  case still =>
    refine ⟨admitReport taken, by rw [hExec, if_pos hPlant, hStill hState], ?_⟩
    exact admitReport_admits (r := ⟨power, freq, retransfer, s.part.now⟩) (by rw [hSup])
  case back =>
    have hHeld : taken.retransferHeld = false := by
      unfold Part.retransferHeld
      rw [hSup]
      exact hClear
    have hState : taken.sup.state = .returning := by rw [hSup]; exact hReturning
    have hWaitsT : taken.nothingWaits :=
      nothingWaits_congr (p := s.part) (fun i => by rw [hRecord i, hCarQ i]) (by rw [hSame, hReceived]) hWaits
    have hBack : takePlantReport power freq retransfer q = admitReport (leaveReturn taken) := by
      rw [takePlantReport_eq, hTaken, if_pos ⟨hSupQ ▸ hReturning, hClear⟩]
    have hAdmits : ∀ x : Part, x.sup.report = taken.sup.report → Admits freq x (admitReport x) := fun x hx =>
      admitReport_admits (r := ⟨power, freq, retransfer, s.part.now⟩) (by rw [hx, hSup])
    have hNow : taken.now = s.part.now := by rw [hSame, hReceived]
    have hShadow : taken.shadow = s.part.shadow := by rw [hSame, hReceived]
    refine ⟨fun hRemembered => ?toService, fun k hRemembered hDuty hFit => ?toRecall⟩
    case toService =>
      have hLeft := leaveReturn_service (p := taken) (by rw [hSup]; exact hRemembered) hWaitsT hHeld
      obtain ⟨hx, hSelected, hTransfer, hKept⟩ := leaveReturn_service_spec taken
      rw [← hLeft] at hx hSelected hTransfer hKept
      refine ⟨leaveReturn taken, admitReport (leaveReturn taken), by rw [hExec, if_pos hPlant, hBack], hAdmits _ (by rw [hx]), ?_,
        fun hLists => hSelected ?_, hTransfer, hKept, ?_⟩
      · rw [← hNow, ← hState, hx]
      · unfold Part.listsDistinct
        rw [hActive, hShadow]
        exact hLists
      · rw [hx]
        exact ⟨rfl, rfl, rfl, rfl, rfl, rfl, rfl, rfl⟩
    case toRecall =>
      have hLeft := leaveReturn_recall (p := taken) (k := k) (by rw [hSup]; exact hRemembered) hState hWaitsT hHeld
        (by rw [hRecord, hCarQ]; exact hDuty) (by rw [hRecord, hCarQ]; exact hFit)
      obtain ⟨hx, hCars, hTransfer, hKept⟩ := leaveReturn_recall_spec taken
      rw [← hLeft] at hx hCars hTransfer hKept
      refine ⟨leaveReturn taken, admitReport (leaveReturn taken), by rw [hExec, if_pos hPlant, hBack], hAdmits _ (by rw [hx]), ?_,
        fun i => ?_, hTransfer, hKept, ?_⟩
      · rw [← hNow, ← hState, ← hActive, hx]
      · rw [hCars i, recallFloor_congr hActive i]
      · rw [hx]
        exact ⟨rfl, rfl, rfl, rfl, rfl, rfl, rfl, rfl⟩

end Sys2Proof.Machine
end

section
/-! Figures at the worst load and the plant limits (R54, R56 to R61), and the counts of a report in motion (R34, R35). -/

namespace Sys2Proof.Machine

/-! ### Figures and limits -/

/-- The worst load for a direction draws the larger imbalance, and returns the other one less the losses (R54). -/
theorem computeFigures_absent (c : ClassRec) (d : Travel) : computeFigures c d none =
    let draws := match d with | .up => 125 - c.b | .down => c.b
    let returns := match d with | .up => c.b | .down => 125 - c.b
    { start := 100 * c.a + draws * c.k + c.acc * c.k
      mRun := 100 * c.a + draws * c.k
      rRun := returns * c.k - 100 * c.a
      dir := d } := by
  cases d with
  | up => rfl
  | down => rfl

/-- Settles O23: the equations of an ABSENT load, with the balance within its range. -/
theorem absentLoadFigures : Obligations.AbsentLoadFigures := by
  intro c hBalance up down
  have hUp : up = _ := computeFigures_absent c .up
  have hDown : down = _ := computeFigures_absent c .down
  have hOver : ((125 - c.b : Nat) : Int) = 125 - c.b := Int.ofNat_sub hBalance
  rw [hUp, hDown]
  refine ⟨?upDraws, ?upReturns, ?downDraws, ?downReturns, rfl, rfl⟩
  case upDraws => push_cast [hOver]; rfl
  case upReturns => exact (Int.max_eq_right (Int.natCast_nonneg _)).symm
  case downDraws => push_cast; rfl
  case downReturns => exact (Int.max_eq_right (Int.natCast_nonneg _)).symm

/-- Rounding up to whole kW (R61). -/
theorem kW_eq (n : Nat) : kW n = n / 100 + (if n % 100 = 0 then 0 else 1) := by
  unfold kW
  split <;> omega

/-- Settles O24: each limit is its formula, clamped where the formula can fall below 0. -/
theorem plantLimits : Obligations.PlantLimits := by
  intro p start t
  refine ⟨?cap, fun hRange => ?capEff, rfl, rfl, fun hStale => ?unchecked, fun r hReport hFresh => ?checked, kW_eq⟩
  case cap => exact congrArg Nat.cast (Nat.zero_max _).symm
  case capEff =>
    unfold Part.capEff
    rw [Nat.zero_max]
  case unchecked =>
    unfold Part.measuredCheck
    rw [hStale]
    rfl
  case checked =>
    unfold Part.measuredCheck Part.measured
    rw [hReport, hFresh]
    exact decide_eq_true_iff

/-! ### Progress (R34, R35) -/

/-- Progress is reversed exactly when its sign is against the granted direction. -/
theorem backward_iff (d : Travel) (x : Int) : backward d x = true ↔ (match d with | .up => 1 | .down => -1) * x < 0 := by
  cases d with
  | up => simp [backward]
  | down => simp [backward]

theorem forward_iff (d : Travel) (x : Int) : forward d x = true ↔ 0 < (match d with | .up => 1 | .down => -1) * x := by
  cases d with
  | up => simp [forward]
  | down => simp [forward]

/-- The size of a signed figure, from either direction. -/
theorem natAbs_signed (d : Travel) (x : Int) : ((match d with | .up => 1 | .down => -1) * x).natAbs = x.natAbs := by
  cases d with
  | up => simp
  | down => simp

theorem countProgress_good {n : Nat} {d : Travel} {x : Int} {c : Car} (h : ¬ x.natAbs < n) (k : forward d x = true) :
    countProgress n d x c = { c with
      goodRun := min 2 (c.goodRun + 1)
      stagnant := if 1 ≤ c.goodRun then 0 else c.stagnant
      reverse := if 1 ≤ c.goodRun then 0 else c.reverse } := by
  have hGood : min 2 (c.goodRun + 1) = 2 ↔ 1 ≤ c.goodRun := by omega
  have hGuard : (!decide (x.natAbs < n) && forward d x) = true := by rw [decide_eq_false h, k]; rfl
  unfold countProgress
  dsimp only
  rw [if_pos hGuard]
  by_cases hTwo : 1 ≤ c.goodRun
  · rw [if_pos (hGood.mpr hTwo), if_pos hTwo, if_pos hTwo]
  · rw [if_neg fun hIs => hTwo (hGood.mp hIs), if_neg hTwo, if_neg hTwo]

theorem countProgress_notGood {n : Nat} {d : Travel} {x : Int} {c : Car} (h : x.natAbs < n ∨ forward d x = false) :
    countProgress n d x c = { c with
      stagnant := if x.natAbs < n then satInc 15 c.stagnant else c.stagnant
      reverse := if backward d x = true then satInc 15 c.reverse else c.reverse
      goodRun := if x.natAbs < n ∨ backward d x = true then 0 else c.goodRun } := by
  obtain hShort | hBack := h
  · simp [countProgress, hShort]
  · simp [countProgress, hBack]

/-- Settles O27: the three marks of a progress are read from its sign and its size; a good one is neither of the others. -/
theorem progressCounts : Obligations.ProgressCounts := by
  intro c least d progress sign good stagnant reversed plus q
  have hBack : backward d progress = true ↔ reversed := backward_iff d progress
  have hForward : forward d progress = true ↔ 0 < sign * progress := forward_iff d progress
  have hSize : (sign * progress).natAbs = progress.natAbs := natAbs_signed d progress
  have hCounts : progress.natAbs < least ∨ forward d progress = false → q = { c with
      stagnant := if stagnant then plus c.stagnant else c.stagnant
      reverse := if backward d progress = true then plus c.reverse else c.reverse
      goodRun := if stagnant ∨ backward d progress = true then 0 else c.goodRun } := countProgress_notGood
  refine ⟨fun hGood => ?good, fun hShort hNot => ?stagnant, fun hReversed hNot => ?reversed, fun hShort hReversed => ?both⟩
  case good =>
    obtain ⟨hFar, hPositive⟩ := hGood
    exact countProgress_good (by omega) (hForward.mpr hPositive)
  case stagnant =>
    have hNotBack : ¬ backward d progress = true := fun h => hNot (hBack.mp h)
    rw [hCounts (.inl hShort), if_pos hShort, if_neg hNotBack, if_pos (Or.inl hShort)]
  case reversed =>
    have hNegative : sign * progress < 0 := hReversed
    have hNotForward : ¬ forward d progress = true := fun h => Int.lt_asymm hNegative (hForward.mp h)
    rw [hCounts (.inr (Bool.eq_false_iff.mpr hNotForward)), if_neg hNot, if_pos (hBack.mpr hReversed),
      if_pos (Or.inr (hBack.mpr hReversed))]
  case both =>
    rw [hCounts (.inl hShort), if_pos hShort, if_pos (hBack.mpr hReversed), if_pos (Or.inl hShort)]

end Sys2Proof.Machine
end

section
/-! The timers of a trip (R31, R36 to R39): the stall, and the release of a LOST car with nothing waiting for the gap. -/

namespace Sys2Proof.Machine

/-! ### Stall (R37) -/

theorem exec_startTimerExpiry (i : CarIdx) (s : State) :
    exec (.startTimerExpiry i) s = .next { s with part := startTimerExpires i s.part } :=
  completes_eq (f := startTimerExpires i) rfl

theorem exec_tripTimerExpiry (i : CarIdx) (s : State) :
    exec (.tripTimerExpiry i) s = .next { s with part := tripTimerExpires i s.part } :=
  completes_eq (f := tripTimerExpires i) rfl

/-- The part after the marks of a stall, the record otherwise c (R37). -/
def stallMarked (i : CarIdx) (c : Car) (p : Part) : Part :=
  raiseEvent .stall (p.setCar i { c with stalled := true, stallCount := satInc 255 c.stallCount })

/-- On a car that is not STARTING a stall is its marks alone. -/
theorem stall_setCar_running {i : CarIdx} {c : Car} {p : Part} (h : c.run = .running) :
    stall i (p.setCar i c) = stallMarked i c p := by
  have hRun : ((p.setCar i c).car i).run = .running := by rw [car_setCar_self]; exact h
  unfold stall
  rw [modCar_setCar, if_neg (by rw [hRun]; decide)]
  rfl

/-- On a STARTING car the step completes after the marks. -/
theorem stall_setCar_starting {i : CarIdx} {c : Car} {f : Figures} {p : Part} (h : c.run = .starting) (k : c.snapshot = some f) :
    stall i (p.setCar i c) = judgeGap ((stallMarked i c p).stepCompleted i f) := by
  have hRun : ((p.setCar i c).car i).run = .starting := by rw [car_setCar_self]; exact h
  have hSnapshot : ((stallMarked i c p).car i).snapshot = some f := by
    change ((p.setCar i _).car i).snapshot = _
    rw [car_setCar_self]
    exact k
  unfold stall
  rw [modCar_setCar, if_pos hRun]
  exact completeStep_eq hSnapshot

theorem isRunning_running {t : Timer} {n : Nat} (h : t = .running n) : t.isRunning = true := by
  rw [h]
  rfl

theorem holdsRun_running {c : Car} (h : c.run = .running) : c.holdsRun = true := by
  unfold Car.holdsRun
  rw [h]
  rfl

theorem holdsRun_starting {c : Car} (h : c.run = .starting) : c.holdsRun = true := by
  unfold Car.holdsRun
  rw [h]
  rfl

theorem startTimerExpires_stalls {i : CarIdx} {p : Part} {n : Nat} (h : (p.car i).startTimer = .running n)
    (hRun : (p.car i).holdsRun = true) (hNot : (p.car i).stalled = false) :
    startTimerExpires i p = stall i (p.setCar i { p.car i with startTimer := .expired }) := by
  unfold startTimerExpires
  rw [if_pos (isRunning_running h)]
  exact if_pos (by rw [hRun, hNot]; rfl)

/-- Settles O25: the expiry marks the timer, and stalls a car with a run that is not yet STALLED. -/
theorem startTimerExpiryStallsCar : Obligations.StartTimerExpiryStallsCar := by
  intro s i c stalled
  rw [exec_startTimerExpiry]
  refine ⟨fun n hTimer hRun hNot => ?running, fun n f hTimer hRun hNot hSnapshot => ?starting, fun n hTimer hStalled => ?already,
    fun hStopped => ?stopped⟩
  case running =>
    have hStall : startTimerExpires i s.part = stalled := (startTimerExpires_stalls hTimer (holdsRun_running hRun) hNot).trans
      (stall_setCar_running (c := { c with startTimer := .expired }) hRun)
    rw [hStall]
  case starting =>
    have hStall : startTimerExpires i s.part = judgeGap (stalled.stepCompleted i f) :=
      (startTimerExpires_stalls hTimer (holdsRun_starting hRun) hNot).trans
        (stall_setCar_starting (c := { c with startTimer := .expired }) hRun hSnapshot)
    rw [hStall]
  case already =>
    have hExpires : startTimerExpires i s.part = s.part.setCar i { c with startTimer := .expired } := by
      unfold startTimerExpires
      rw [if_pos (isRunning_running hTimer)]
      refine if_neg ?_
      change ¬ (c.holdsRun && !c.stalled) = true
      rw [hStalled, Bool.not_true, Bool.and_false]
      decide
    rw [hExpires]
  case stopped =>
    have hStays : startTimerExpires i s.part = s.part := if_neg (by rw [hStopped]; decide)
    rw [hStays]

/-! ### Release with nothing waiting (R38, R39) -/

/-- No car is QUEUED exactly when the queue is empty. -/
theorem queuedCars_nil_iff (p : Part) : p.queuedCars = [] ↔ ∀ i, (p.car i).run ≠ .queued := by
  unfold Part.queuedCars
  rw [List.filter_eq_nil_iff]
  exact ⟨fun h i => by simpa using h i (mem_allCars i), fun h i _ => by simpa using h i⟩

theorem afterRelease_nothingWaits (wasOpen : Bool) {p : Part} (h : p.nothingWaits) : afterRelease wasOpen p = p := by
  cases wasOpen with
  | true => exact attempt_noQueue p h.1
  | false => exact judgeGap_nothingWaits p h

theorem releaseRun_nothingWaits (i : CarIdx) {p : Part} (h : p.nothingWaits) : (releaseRun i p).nothingWaits := by
  refine ⟨(queuedCars_nil_iff _).mpr fun j => ?_, by rw [releaseRun_carsAdm i p]; exact h.2⟩
  rw [car_releaseRun]
  by_cases hij : i = j
  · rw [if_pos hij]
    exact Run.noConfusion
  · rw [if_neg hij]
    exact (queuedCars_nil_iff p).mp h.1 j

/-- With nothing waiting for the gap, a release is that of the run, the settlement, and the change of duty it hands on. -/
theorem release_nothingWaits (i : CarIdx) {p : Part} (h : p.nothingWaits) :
    release i p = handSettlement i (p.car i).duty (settleDuty (p.car i) i (releaseRun i p)) := by
  have hFreed : ∀ b, afterRelease b (releaseRun i p) = releaseRun i p := fun b =>
    afterRelease_nothingWaits b (releaseRun_nothingWaits i h)
  have hCar : (releaseRun i p).car i = releasedCar { p.car i with m := 0, r := 0 } := by
    rw [car_releaseRun, if_pos rfl]
  unfold release
  dsimp only
  rw [hFreed, hCar]
  rfl

/-- The settlement of a LOST record that no DISABLE waits for goes into its prior duty (R39). -/
def lostSettled (before c : Car) : Car :=
  { c with
    prior := c.prior.map fun d =>
      if before.isolatePending ∨ 2 ≤ before.stallCount then .isolated else if before.pendingRecall then .recall else d
    pendingRecall := false }

theorem settleDuty_lost {before : Car} {i : CarIdx} {p : Part} (h : (p.car i).duty = .lost)
    (hKept : before.disablePending = false) : settleDuty before i p = p.setCar i (lostSettled before (p.car i)) := by
  have hDuty : ∀ held, settledDuty before held = some (if before.isolatePending ∨ 2 ≤ before.stallCount then .isolated
      else if before.pendingRecall then .recall else held) := fun held => by
    unfold settledDuty
    simp only [hKept, Bool.false_eq_true, if_false, Bool.or_eq_true, decide_eq_true_eq]
    repeat' split
    all_goals rfl
  have hPrior : ∀ g : Duty → Duty, (p.car i).prior.map (fun _ => g ((p.car i).prior.getD .stopped)) = (p.car i).prior.map g := by
    intro g
    cases (p.car i).prior with
    | none => rfl
    | some d => rfl
  unfold settleDuty lostSettled
  dsimp only
  rw [hDuty, ← hPrior]
  dsimp only
  rw [if_pos h, if_pos h]
  rfl

/-- The admission unit after the release of a run (R38, R84, R85). -/
theorem releaseRun_adm (i : CarIdx) (p : Part) :
    (releaseRun i p).adm.sumM = p.adm.sumM - (p.car i).m ∧ (releaseRun i p).adm.sumR = p.adm.sumR - (p.car i).r
    ∧ (releaseRun i p).adm.holdOff = p.adm.holdOff
    ∧ ∀ w, p.adm.window = some w → w.car = i → (releaseRun i p).adm.window = none
        ∧ (releaseRun i p).adm.settle = .stopped ∧ (releaseRun i p).adm.recovery = .stopped := by
  have hEnd : ∀ x : Part, (endWindowOf i x).adm.sumM = x.adm.sumM ∧ (endWindowOf i x).adm.sumR = x.adm.sumR
      ∧ (endWindowOf i x).adm.holdOff = x.adm.holdOff := fun x => by
    unfold endWindowOf
    repeat' split
    all_goals exact ⟨rfl, rfl, rfl⟩
  obtain ⟨hM, hR, hHold⟩ := hEnd ((setCommit i 0 0 p).modCar i releasedCar)
  refine ⟨hM, hR, hHold, fun w hw hCar => ?_⟩
  have hClose : releaseRun i p = closeWindow ((setCommit i 0 0 p).modCar i releasedCar) := by
    have hWindow : ((setCommit i 0 0 p).modCar i releasedCar).adm.window = some w := hw
    unfold releaseRun endWindowOf
    rw [hWindow]
    exact if_pos hCar
  rw [hClose]
  exact ⟨rfl, rfl, rfl⟩

/-- A LOST car is released without a change of duty to hand on (R31, R38, R39). -/
theorem release_lost {i : CarIdx} {p : Part} (h : p.nothingWaits) (hLost : (p.car i).duty = .lost)
    (hKept : (p.car i).disablePending = false) :
    release i p = (releaseRun i p).setCar i (lostSettled (p.car i) (releasedCar { p.car i with m := 0, r := 0 })) := by
  have hCar : (releaseRun i p).car i = releasedCar { p.car i with m := 0, r := 0 } := by
    rw [car_releaseRun, if_pos rfl]
  rw [release_nothingWaits i h, settleDuty_lost (by rw [hCar]; exact hLost) hKept, hCar]
  refine if_pos ?_
  rw [car_setCar_self]
  rfl

/-! ### The trip timer (R31, R36) -/

theorem tripTimerExpires_released {i : CarIdx} {p : Part} {n : Nat} (h : (p.car i).tripTimer = .running n)
    (hRun : (p.car i).holdsRun = true) (hLost : (p.car i).duty = .lost) :
    tripTimerExpires i p = release i (p.setCar i { p.car i with tripTimer := .expired }) := by
  unfold tripTimerExpires
  rw [if_pos (isRunning_running h)]
  dsimp only
  rw [if_pos hRun, if_pos hLost]
  rfl

theorem tripTimerExpires_still {i : CarIdx} {p : Part} {n : Nat} (h : (p.car i).tripTimer = .running n)
    (hRun : (p.car i).holdsRun = true) (hNot : (p.car i).duty ≠ .lost) :
    tripTimerExpires i p = if (p.car i).stalled = true then p.setCar i { p.car i with tripTimer := .expired }
      else stall i (p.setCar i { p.car i with tripTimer := .expired }) := by
  unfold tripTimerExpires
  rw [if_pos (isRunning_running h)]
  dsimp only
  rw [if_pos hRun, if_neg hNot]
  rfl

/-- Settles O26: with a run, the expiry stalls a car that is heard of and releases one that is LOST. -/
theorem tripTimerExpiryStallsOrReleases : Obligations.TripTimerExpiryStallsOrReleases := by
  intro s i n c stalled hTimer
  have hStalls : c.holdsRun = true → c.duty ≠ .lost → c.stalled = false →
      tripTimerExpires i s.part = stall i (s.part.setCar i { c with tripTimer := .expired }) := fun hRun hDuty hNot =>
    (tripTimerExpires_still hTimer hRun hDuty).trans (if_neg (by rw [hNot]; decide))
  rw [exec_tripTimerExpiry]
  refine ⟨fun hRun hDuty hNot => ?running, fun f hRun hDuty hNot hSnapshot => ?starting, fun hRun hDuty hStalled => ?already,
    fun hRun hLost hKept hWaits => ?released⟩
  case running =>
    have hStall : tripTimerExpires i s.part = stalled := (hStalls (holdsRun_running hRun) hDuty hNot).trans
      (stall_setCar_running (c := { c with tripTimer := .expired }) hRun)
    rw [hStall]
  case starting =>
    have hStall : tripTimerExpires i s.part = judgeGap (stalled.stepCompleted i f) :=
      (hStalls (holdsRun_starting hRun) hDuty hNot).trans
        (stall_setCar_starting (c := { c with tripTimer := .expired }) hRun hSnapshot)
    rw [hStall]
  case already => rw [tripTimerExpires_still hTimer hRun hDuty, if_pos hStalled]
  case released =>
    let expired : Part := s.part.setCar i { c with tripTimer := .expired }
    have hCar : expired.car i = { c with tripTimer := .expired } := car_setCar_self _ _ _
    have hOthers : ∀ j, j ≠ i → expired.car j = s.part.car j := fun j hj => by
      change (s.part.setCar i _).car j = _
      rw [car_setCar, if_neg (Ne.symm hj)]
    have hWaitsE : expired.nothingWaits := by
      refine nothingWaits_congr (p := s.part) (fun j => ?_) rfl hWaits
      by_cases hj : j = i
      · rw [hj, hCar]
      · rw [hOthers j hj]
    have hEnds : tripTimerExpires i s.part = release i expired := tripTimerExpires_released hTimer hRun hLost
    rw [hEnds, release_lost hWaitsE (by rw [hCar]; exact hLost) (by rw [hCar]; exact hKept)]
    obtain ⟨hM, hR, hHold, hWindow⟩ := releaseRun_adm i expired
    have hOnly : releaseRun i expired = { expired with cars := (releaseRun i expired).cars, adm := (releaseRun i expired).adm } :=
      releaseRun_carsAdm i expired
    refine ⟨_, rfl, ?_, fun j hj => ?_, ?_, ?_, hWindow, hHold, ?_⟩
    · rw [car_setCar_self, hCar]
      rfl
    · rw [car_setCar, if_neg (Ne.symm hj), car_releaseRun, if_neg (Ne.symm hj), hOthers j hj]
    · rw [setCar_adm, hM, hCar]
      rfl
    · rw [setCar_adm, hR, hCar]
      rfl
    · rw [hOnly]
      exact ⟨rfl, rfl, rfl, rfl, rfl, rfl, rfl⟩

end Sys2Proof.Machine
end

section
/-! Loss (R30, R31): a miss counts, and at the loss limit the record becomes LOST; what a change of duty handed on does (R93, R96,
R100). -/

namespace Sys2Proof.Machine

/-- A record stored again changes nothing. -/
theorem setCar_car (p : Part) (i : CarIdx) : p.setCar i (p.car i) = p := by
  have hCars : (p.setCar i (p.car i)).cars = p.cars := by
    refine Vector.ext fun n hn => ?_
    have hSelf := car_setCar p i ⟨n, hn⟩ (p.car i)
    by_cases hi : i = ⟨n, hn⟩
    · rw [if_pos hi, hi] at hSelf
      rw [hi]
      exact hSelf
    · rw [if_neg hi] at hSelf
      exact hSelf
  change { p with cars := (p.setCar i (p.car i)).cars } = p
  rw [hCars]

/-! ### Leaving the queue (R64) -/

theorem queuedCars_isEmpty_iff (p : Part) : p.queuedCars.isEmpty = true ↔ ¬ ∃ j, (p.car j).run = .queued := by
  rw [List.isEmpty_iff, queuedCars_nil_iff, not_exists]

theorem settleJoinCounter_queued {p : Part} (h : ∃ j, (p.car j).run = .queued) : settleJoinCounter p = p :=
  if_neg fun hEmpty => (queuedCars_isEmpty_iff p).mp hEmpty h

theorem settleJoinCounter_empty {p : Part} (h : ¬ ∃ j, (p.car j).run = .queued) :
    settleJoinCounter p = { p with adm := { p.adm with joinCounter := 0 } } := if_pos ((queuedCars_isEmpty_iff p).mpr h)

/-! ### Runs under a change of duty handed on -/

/-- A run stays, or a QUEUED car has left the queue. -/
def RunStays (i : CarIdx) (p q : Part) : Prop :=
  (q.car i).run = (p.car i).run ∨ (p.car i).run = .queued ∧ (q.car i).run = .idle

theorem DutyOnly.run {p q : Part} (h : DutyOnly p q) (i : CarIdx) : (q.car i).run = (p.car i).run := by rw [h.car i]

theorem enterReturn_runStays (i : CarIdx) (f : Remembered) (p : Part) : RunStays i p (enterReturn f p) := by
  obtain ⟨-, hCars, -⟩ := enterReturn_entersReturn f p
  obtain ⟨hLeft, hShed, hSame⟩ := hCars i
  by_cases hQueued : (p.car i).run = .queued
  · exact .inr ⟨hQueued, by rw [hLeft hQueued]⟩
  · refine .inl ?_
    by_cases hMark : (p.car i).duty = .service ∧ (p.car i).holdsRun = true
    · rw [hShed hMark]
    · rw [hSame hQueued hMark]

theorem retransferCheck_runStays (i : CarIdx) (p : Part) : RunStays i p (retransferCheck p) := by
  unfold retransferCheck
  split
  · split
    · exact enterReturn_runStays i _ p
    · exact enterReturn_runStays i _ p
    · exact .inl rfl
  · exact .inl rfl

theorem endRecall_runStays (i : CarIdx) (p : Part) : RunStays i p (endRecall p) := by
  have hSelected := (serviceSelection_dutyOnly (stopRecallLimit (moveState .service .recallDone (raiseEvent .recallDone p)))).run i
  have hStays := retransferCheck_runStays i
    (serviceSelection (stopRecallLimit (moveState .service .recallDone (raiseEvent .recallDone p))))
  unfold RunStays at hStays ⊢
  rw [hSelected] at hStays
  exact hStays

theorem handDutyChange_runStays (i : CarIdx) (a b : Duty) (p : Part) : RunStays i p (handDutyChange a b p) := by
  unfold handDutyChange evaluateCompletion
  split
  · split
    · exact endRecall_runStays i p
    · exact .inl rfl
  · split
    · exact .inl ((serviceSelection_dutyOnly p).run i)
    · exact .inl rfl
  · exact .inl rfl

/-! ### The record that becomes LOST -/

/-- The part with the record of car i as c, but LOST, the duty held remembered (R30). -/
def lostMarked (i : CarIdx) (c : Car) (p : Part) : Part :=
  raiseEvent .lost (p.setCar i { c with prior := some c.duty, duty := .lost })

/-- The part when the change of duty of the record c to LOST has been handed on. -/
def lostHanded (i : CarIdx) (c : Car) (p : Part) : Part := handDutyChange c.duty .lost (lostMarked i c p)

theorem becomeLost_setCar (i : CarIdx) (c : Car) (p : Part) :
    becomeLost i (p.setCar i c) = if ((lostHanded i c p).car i).run = .queued then leaveQueue i (lostHanded i c p)
      else if ((lostHanded i c p).car i).holdsRun ∧ ((lostHanded i c p).car i).tripTimer = .expired then
        release i (lostHanded i c p)
      else lostHanded i c p := by
  unfold becomeLost
  rw [modCar_setCar, car_setCar_self]
  rfl

/-- The change of duty leaves the LOST record, unless it is QUEUED. -/
theorem car_lostHanded {i : CarIdx} {c : Car} {p : Part} (h : c.run ≠ .queued) :
    (lostHanded i c p).car i = { c with prior := some c.duty, duty := .lost } := by
  have hCar : (lostMarked i c p).car i = { c with prior := some c.duty, duty := .lost } := car_setCar_self p i _
  unfold lostHanded
  rw [handDutyChange_outOfService i c.duty .lost (lostMarked i c p) ?_ (by rw [hCar]; exact h), hCar]
  unfold Part.outOfService
  rw [hCar]
  exact ⟨Duty.noConfusion, Duty.noConfusion⟩

/-- The record of a car with one more miss (R30). -/
def missed (c : Car) : Car := { c with missCount := satInc 255 c.missCount }

theorem countMiss_below {i : CarIdx} {p : Part}
    (h : (missed (p.car i)).missCount < p.link.settings.lossLimit ∨ (p.car i).duty = .lost) :
    countMiss i p = p.setCar i (missed (p.car i)) := by
  unfold countMiss
  refine if_neg ?_
  rintro ⟨hReached, hHeard⟩
  rw [car_modCar_self] at hReached
  obtain hLow | hLost := h
  · exact Nat.not_le.mpr hLow hReached
  · exact hHeard hLost

theorem countMiss_reaches {i : CarIdx} {p : Part} (h : p.link.settings.lossLimit ≤ (missed (p.car i)).missCount)
    (k : (p.car i).duty ≠ .lost) : countMiss i p = becomeLost i (p.setCar i (missed (p.car i))) := by
  unfold countMiss
  exact if_pos ⟨by rw [car_modCar_self]; exact h, k⟩

theorem notQueued_holdsRun {c : Car} (h : c.holdsRun = true) : c.run ≠ .queued := fun hQueued => by
  rw [Car.holdsRun, hQueued] at h
  exact absurd h (by decide)

theorem notHoldsRun_idle {c : Car} (h : c.run = .idle) : ¬ c.holdsRun = true := by
  rw [Car.holdsRun, h]
  decide

/-- A trip timer that had expired, set running once more, releases the LOST car as it stands (R31). -/
theorem tripTimerExpires_again {i : CarIdx} {q : Part} (hRun : (q.car i).holdsRun = true) (hLost : (q.car i).duty = .lost)
    (hTimer : (q.car i).tripTimer = .expired) :
    tripTimerExpires i (q.setCar i { q.car i with tripTimer := .running 0 }) = release i q := by
  have hSet : (q.setCar i { q.car i with tripTimer := .running 0 }).car i = { q.car i with tripTimer := .running 0 } :=
    car_setCar_self _ _ _
  have hSame : { q.car i with tripTimer := .expired } = q.car i := by rw [← hTimer]
  rw [tripTimerExpires_released (n := 0) (by rw [hSet]) (by rw [hSet]; exact hRun) (by rw [hSet]; exact hLost), hSet,
    setCar_setCar]
  dsimp only
  rw [hSame, setCar_car]

/-- A car that is not QUEUED is released where its trip timer has expired, and otherwise keeps its run (R31). -/
theorem becomeLost_notQueued {i : CarIdx} {c : Car} {p : Part} (h : c.run ≠ .queued) :
    becomeLost i (p.setCar i c) = if c.holdsRun = true ∧ c.tripTimer = .expired then release i (lostHanded i c p)
      else lostHanded i c p := by
  have hCar : (lostHanded i c p).car i = { c with prior := some c.duty, duty := .lost } := car_lostHanded h
  rw [becomeLost_setCar, hCar]
  exact if_neg h

/-- Settles O28: below the limit the count alone moves; at it the record is LOST, and its run decides what follows. -/
theorem missesLoseTheCar : Obligations.MissesLoseTheCar := by
  refine ⟨fun p i => ?misses, evaluateCompletion_evaluates, fun p a b => ?handedOn⟩
  case misses =>
    intro c count lost handed without
    have hHanded : lostHanded i (missed c) p = handed := rfl
    have hLost : count ≥ p.link.settings.lossLimit → c.duty ≠ .lost → countMiss i p = becomeLost i (p.setCar i (missed c)) :=
      countMiss_reaches
    clear_value handed
    refine ⟨fun hBelow => countMiss_below hBelow, fun hReached hHeard => ?_⟩
    rw [hLost hReached hHeard]
    refine ⟨fun hIdle => ?idle, fun hQueued => ?queued, fun hRun hTimer => ?runs, fun hRun hTimer s => ?expired⟩
    case idle =>
      rw [becomeLost_notQueued (c := missed c) (fun h => Run.noConfusion (hIdle.symm.trans h)), hHanded]
      exact if_neg fun h => notHoldsRun_idle hIdle h.1
    case queued =>
      rw [becomeLost_setCar, hHanded]
      refine ⟨fun hStill => ?_, fun hLeft => ?_⟩
      · rw [if_pos hStill]
        by_cases hOthers : ∃ j, ((handed.setCar i { handed.car i with run := .idle, priority := none, joinSeq := none }).car j).run
            = .queued
        · exact (settleJoinCounter_queued hOthers).trans (if_pos hOthers).symm
        · exact (settleJoinCounter_empty hOthers).trans (if_neg hOthers).symm
      · have hStays : RunStays i (lostMarked i (missed c) p) handed :=
          hHanded ▸ handDutyChange_runStays i _ _ _
        have hMarked : ((lostMarked i (missed c) p).car i).run = .queued := by
          change ((p.setCar i _).car i).run = _
          rw [car_setCar_self]
          exact hQueued
        have hIdle : (handed.car i).run = .idle := by
          obtain hSame | ⟨-, hIdle⟩ := hStays
          · exact absurd (hSame.trans hMarked) hLeft
          · exact hIdle
        rw [if_neg hLeft]
        exact if_neg fun h => notHoldsRun_idle hIdle h.1
    case runs =>
      rw [becomeLost_notQueued (c := missed c) (notQueued_holdsRun hRun), hHanded]
      exact if_neg fun h => hTimer h.2
    case expired =>
      have hNotQueued : (missed c).run ≠ .queued := notQueued_holdsRun hRun
      have hCar : handed.car i = _ := hHanded ▸ car_lostHanded hNotQueued
      have hReleased : tripTimerExpires i (handed.setCar i { handed.car i with tripTimer := .running 0 }) = release i handed :=
        tripTimerExpires_again (by rw [hCar]; exact hRun) (by rw [hCar]) (by rw [hCar]; exact hTimer)
      rw [exec_tripTimerExpiry, hReleased, becomeLost_notQueued hNotQueued, hHanded, if_pos ⟨hRun, hTimer⟩]
  case handedOn =>
    intro selects q
    refine ⟨fun hRecall => ?inRecall, fun hService => ?inService, fun hNotRecall hNotService =>
      handDutyChange_elsewhere a b p hNotRecall hNotService⟩
    case inRecall =>
      change handDutyChange a b p = _
      unfold handDutyChange
      rw [hRecall]
    case inService =>
      obtain ⟨hSelects, hNot⟩ := handDutyChange_service a b p hService
      have hOnly := serviceSelection_dutyOnly p
      refine ⟨fun h => ?_, hNot⟩
      have hSelected : q = serviceSelection p := hSelects h
      rw [hSelected]
      exact ⟨hOnly.same, fun hLists i => car_serviceSelection p hLists.1.1 i⟩

end Sys2Proof.Machine
end

section
/-! Admission (R62, R65, R68, R78 to R83): the step gap, the timers of the settle window, and the order of the queue. -/

namespace Sys2Proof.Machine

/-! ### The step gap (R68) -/

theorem isRunning_iff (t : Timer) : t.isRunning = true ↔ ∃ n, t = .running n := by
  cases t with
  | running n => exact ⟨fun _ => ⟨n, rfl⟩, fun _ => rfl⟩
  | stopped => exact ⟨fun h => absurd h (by decide), fun ⟨_, h⟩ => Timer.noConfusion h⟩
  | expired => exact ⟨fun h => absurd h (by decide), fun ⟨_, h⟩ => Timer.noConfusion h⟩

theorem retransferHeld_false_iff (p : Part) : p.retransferHeld = false ↔ ∀ r, p.sup.report = some r → r.retransfer = false := by
  unfold Part.retransferHeld
  cases p.sup.report with
  | none => exact ⟨fun _ r h => Option.noConfusion rfl (heq_of_eq h), fun _ => rfl⟩
  | some r => exact ⟨fun h x hx => Option.some.inj hx ▸ h, fun h => h r rfl⟩

theorem gapOpen_iff (p : Part) : p.gapOpen = true ↔
    (∀ i : CarIdx, (p.car i).run ≠ .starting) ∧ (∀ n, p.adm.holdOff ≠ .running n)
      ∧ (p.sup.state = .recall ∨ p.sup.state = .service) ∧ ∀ r, p.sup.report = some r → r.retransfer = false := by
  have hStarting : (!allCars.any fun i => (p.car i).run == .starting) = true ↔ ∀ i : CarIdx, (p.car i).run ≠ .starting := by
    rw [Bool.not_eq_true', List.any_eq_false]
    exact ⟨fun h i => by simpa using h i (mem_allCars i), fun h i _ => by simpa using h i⟩
  have hHoldOff : (!p.adm.holdOff.isRunning) = true ↔ ∀ n, p.adm.holdOff ≠ .running n := by
    rw [Bool.not_eq_true', Bool.eq_false_iff, ne_eq, isRunning_iff, not_exists]
  unfold Part.gapOpen
  rw [Bool.and_eq_true, Bool.and_eq_true, Bool.and_eq_true, hStarting, hHoldOff, Bool.or_eq_true, beq_iff_eq, beq_iff_eq,
    Bool.not_eq_true', retransferHeld_false_iff, and_assoc, and_assoc]

/-- Settles O29: the gap's four conditions, and what judging it does in either state. -/
theorem stepGap : Obligations.StepGap := fun p =>
  ⟨gapOpen_iff p, fun hClosed => if_neg (Bool.eq_false_iff.mp hClosed), fun hOpen => if_pos hOpen, judgeGap_nothingWaits p⟩

/-! ### The timers of the settle window (R79 to R82) -/

theorem settleExpires_settling {p : Part} {i : CarIdx} {n : Nat} (h : p.adm.window = some ⟨.settling, i⟩)
    (k : p.adm.settle = .running n) :
    settleExpires p = judgeSettle ⟨.settling, i⟩ { p with adm := { p.adm with settle := .expired } } := by
  unfold settleExpires
  rw [if_pos (isRunning_running k)]
  dsimp only
  rw [h]

theorem settleExpires_blind {p : Part} {i : CarIdx} {n : Nat} (h : p.adm.window = some ⟨.blind, i⟩)
    (k : p.adm.settle = .running n) :
    settleExpires p = completeStep i { p with adm := { p.adm with settle := .expired } } := by
  unfold settleExpires
  rw [if_pos (isRunning_running k)]
  dsimp only
  rw [h]

theorem recoveryExpires_waiting {p : Part} {i : CarIdx} {n : Nat} (h : p.adm.window = some ⟨.waiting, i⟩)
    (k : p.adm.recovery = .running n) : recoveryExpires p
      = completeStep i (startHoldOff (raiseEvent .stepFault { p with adm := { p.adm with recovery := .expired } })) := by
  unfold recoveryExpires
  rw [if_pos (isRunning_running k)]
  dsimp only
  rw [h]
  exact if_pos rfl

/-- A held report's frequency of at least f_ok, the mark set, completes the step (R79). -/
theorem judgeSettle_recovered {p : Part} {w : Window} (h : p.sup.fresh = true) (k : p.adm.reportMark = true)
    (r : p.recovered = true) : judgeSettle w p = completeStep w.car p := by
  unfold judgeSettle
  rw [if_pos h]
  exact if_pos (by rw [k, r]; rfl)

theorem judgeSettle_waits {p : Part} {w : Window} (h : p.sup.fresh = true) (k : p.adm.reportMark = false ∨ p.recovered = false) :
    judgeSettle w p = { p with adm := { p.adm with
      window := some { w with phase := .waiting }
      recovery := .running (p.active.plant.recoveryLimit * 100) } } := by
  unfold judgeSettle
  rw [if_pos h]
  refine if_neg ?_
  obtain hMark | hLow := k
  · rw [hMark, Bool.false_and]
    decide
  · rw [hLow, Bool.and_false]
    decide

theorem judgeSettle_blind {p : Part} {w : Window} (h : p.sup.fresh = false) :
    judgeSettle w p = raiseEvent .blindSettle { p with adm := { p.adm with
      window := some { w with phase := .blind }
      settle := .running p.adm.settleDuration } } := if_neg (by rw [h]; decide)

/-- A report that is not high enough, or absent, has not recovered. -/
theorem notRecovered {p : Part} (h : ∀ r, p.sup.report = some r → r.freq.toNat < p.active.plant.fOk) : p.recovered = false := by
  unfold Part.recovered
  cases hReport : p.sup.report with
  | none => rfl
  | some r => exact decide_eq_false (Nat.not_le.mpr (h r hReport))

/-- Settles O30: the expiry in SETTLING, by the freshness, the mark and the frequency of the held report. -/
theorem settleExpiryJudgesTheReport : Obligations.SettleExpiryJudgesTheReport := by
  intro s i n hWindow hTimer
  let expired : Part := { s.part with adm := { s.part.adm with settle := .expired } }
  have hExec : exec .settleExpiry s = .next { s with part := judgeSettle ⟨.settling, i⟩ expired } :=
    completes_eq (f := settleExpires) (settleExpires_settling hWindow hTimer)
  rw [hExec]
  refine ⟨fun r f hFresh hMark hReport hHigh hSnapshot => ?completes, fun hFresh hNot => ?waits, fun hStale => ?blind⟩
  case completes =>
    rw [judgeSettle_recovered (p := expired) hFresh hMark ((recovered_iff (p := expired) hReport).mpr hHigh),
      completeStep_eq (p := expired) hSnapshot]
    rfl
  case waits => rw [judgeSettle_waits (p := expired) hFresh (hNot.imp id fun h => notRecovered (p := expired) h)]
  case blind =>
    rw [judgeSettle_blind (p := expired) hStale]

/-- Settles O31: the three other timers of the window end it, or judge the gap. -/
theorem windowTimersComplete : Obligations.WindowTimersComplete := by
  refine ⟨fun s i n f hSnapshot hWindow hTimer => ?blind, fun s i n f hSnapshot hWindow hTimer => ?recovery,
    fun s n hTimer => ?holdOff⟩
  case blind =>
    refine completes_eq (f := settleExpires) ((settleExpires_blind hWindow hTimer).trans ?_)
    exact completeStep_eq (p := { s.part with adm := { s.part.adm with settle := .expired } }) hSnapshot
  case recovery =>
    refine completes_eq (f := recoveryExpires) ((recoveryExpires_waiting hWindow hTimer).trans ?_)
    exact completeStep_eq
      (p := startHoldOff (raiseEvent .stepFault { s.part with adm := { s.part.adm with recovery := .expired } })) hSnapshot
  case holdOff => exact completes_eq (f := holdOffExpires) (if_pos (isRunning_running hTimer))

/-! ### The order of the queue (R62, R65) -/

theorem mem_queue (p : Part) (i : CarIdx) : i ∈ p.queue ↔ (p.car i).run = .queued := by
  unfold Part.queue Part.queuedCars
  rw [mem_sortCars, List.mem_filter, beq_iff_eq]
  exact and_iff_right (mem_allCars i)

theorem queue_nodup (p : Part) : p.queue.Nodup := nodup_sortCars p.ahead _ (nodup_allCars.filter _)

theorem ahead_false_iff (p : Part) (i j : CarIdx) : p.ahead j i = false ↔
    (p.queueKey i).1 < (p.queueKey j).1
      ∨ (p.queueKey i).1 = (p.queueKey j).1 ∧ (p.queueKey i).2 ≤ (p.queueKey j).2 := by
  rw [Bool.eq_false_iff, ne_eq, ahead_iff]
  omega

theorem queue_pairwise (p : Part) : p.queue.Pairwise fun i j => p.ahead j i = false := by
  refine pairwise_sortCars p.ahead (fun i j h => ?_) (fun i j k h1 h2 => ?_) _
  · rw [ahead_iff] at h
    rw [ahead_false_iff]
    omega
  · rw [ahead_false_iff] at h1 h2 ⊢
    omega

/-- The place of a QUEUED car in its class, by the class (R65). -/
def Part.placeIn (p : Part) (i : CarIdx) : Priority → Nat × Nat
  | .trapped => (0, p.recallRank i)
  | .recall => (1, p.recallRank i)
  | .service => (2, ((p.car i).joinSeq).getD 0)

theorem queueKey_eq {p : Part} {i : CarIdx} {a : Priority} (h : (p.car i).priority = some a) : p.queueKey i = p.placeIn i a := by
  unfold Part.queueKey Part.placeIn
  rw [h]
  cases a with
  | _ => rfl

theorem ahead_of_class {p : Part} {i j : CarIdx} (h : (p.queueKey i).1 < (p.queueKey j).1) :
    p.ahead i j = true ∧ p.ahead j i = false :=
  ⟨(ahead_iff p i j).mpr (.inl h), (ahead_false_iff p i j).mpr (.inl h)⟩

theorem ahead_in_class {p : Part} {i j : CarIdx} (h : (p.queueKey i).1 = (p.queueKey j).1) :
    p.ahead i j = true ↔ (p.queueKey i).2 < (p.queueKey j).2 := by
  rw [ahead_iff]
  omega

theorem recallRank_absent {p : Part} {i : CarIdx} (h : i ∉ p.active.recallOrder) : p.recallRank i = 48 + i.val := by
  unfold Part.recallRank
  rw [position_none i _ h]

theorem recallRank_listed {p : Part} {i : CarIdx} (h : i ∈ p.active.recallOrder) :
    p.recallRank i < p.active.recallOrder.length := by
  obtain ⟨k, hPosition, hBound⟩ := position_some i _ h
  unfold Part.recallRank
  rw [hPosition]
  exact hBound

/-- Settles O32: the queue sorts the QUEUED cars by their keys, and the recall rank is a position or the index behind the list. -/
theorem queueOrder : Obligations.QueueOrder := by
  intro p
  refine ⟨mem_queue p, queue_nodup p, queue_pairwise p, fun i j a b hi hj => ⟨fun hClasses => ?classes, fun hSame hRanked => ?ranked,
    fun hi2 hj2 m n hm hn => ?sequenced⟩, fun i earlier later hList hNot => ?listed, fun i j hAbsent hFits =>
    ⟨fun hListed => ?before, fun hBoth => ?byIndex⟩⟩
  case classes =>
    refine ahead_of_class ?_
    rw [queueKey_eq hi, queueKey_eq hj]
    obtain ⟨rfl, hOther⟩ | ⟨rfl, rfl⟩ := hClasses
    · cases b with
      | trapped => exact absurd rfl hOther
      | service => exact Nat.zero_lt_two
      | _ => exact Nat.zero_lt_one
    · exact Nat.one_lt_two
  case ranked =>
    subst hSame
    rw [ahead_in_class (by rw [queueKey_eq hi, queueKey_eq hj]; cases a <;> rfl), queueKey_eq hi, queueKey_eq hj]
    cases a with
    | service => exact absurd rfl hRanked
    | _ => rfl
  case sequenced =>
    subst hi2 hj2
    rw [ahead_in_class (by rw [queueKey_eq hi, queueKey_eq hj]; rfl), queueKey_eq hi, queueKey_eq hj]
    unfold Part.placeIn
    rw [hm, hn]
    rfl
  case listed =>
    unfold Part.recallRank
    rw [hList, position_append i later earlier hNot]
  case before =>
    have hi := recallRank_listed hListed
    rw [recallRank_absent hAbsent]
    omega
  case byIndex =>
    rw [recallRank_absent hAbsent, recallRank_absent hBoth, Fin.lt_def]
    omega

end Sys2Proof.Machine
end

section
/-! The admission attempt (R70 to R77, R103): the checks of a grant, what a grant and the marking UNFIT change, and the walk. -/

namespace Sys2Proof.Machine

/-! ### The join counter where the queue may have become empty (R64) -/

/-- The join counter stays while a car is QUEUED, and is 0 otherwise. -/
theorem settleJoinCounter_eq (p : Part) : settleJoinCounter p = { p with
    adm := { p.adm with joinCounter := if (∃ j, (p.car j).run = .queued) then p.adm.joinCounter else 0 } } := by
  by_cases h : ∃ j, (p.car j).run = .queued
  · rw [settleJoinCounter_queued h, if_pos h]
  · rw [settleJoinCounter_empty h, if_neg h]

/-- A record whose run stays may be stored before or after the join counter is settled. -/
theorem settleJoinCounter_setCar {p : Part} {i : CarIdx} {c : Car} (h : c.run = (p.car i).run) :
    (settleJoinCounter p).setCar i c = settleJoinCounter (p.setCar i c) := by
  have hRuns : (∃ j, ((p.setCar i c).car j).run = .queued) ↔ ∃ j, (p.car j).run = .queued := by
    refine exists_congr fun j => ?_
    rw [car_setCar]
    by_cases hij : i = j
    · rw [if_pos hij, h, hij]
    · rw [if_neg hij]
  by_cases hQueued : ∃ j, (p.car j).run = .queued
  · rw [settleJoinCounter_queued hQueued, settleJoinCounter_queued (hRuns.mpr hQueued)]
  · rw [settleJoinCounter_empty hQueued, settleJoinCounter_empty fun h => hQueued (hRuns.mp h)]
    rfl

/-! ### The checks of a grant (R72, R73) -/

theorem movingCount_eq (p : Part) :
    p.movingCount = (allCars.filter fun i => (p.car i).run = .starting ∨ (p.car i).run = .running).length := by
  unfold Part.movingCount Car.holdsRun
  congr 1
  refine List.filter_congr fun i _ => ?_
  rw [Bool.decide_or]
  rfl

theorem groupChecks_iff (p : Part) (i : CarIdx) (f : Figures) : p.groupChecks i f = true ↔
    p.groupCount (p.group i) < (p.groupRec (p.group i)).maxRunning ∧ hasGroup p.alarms.halted (p.group i) = false
      ∧ (f.rRun = 0 ∨ hasGroup p.alarms.regenShed (p.group i) = false) := by
  unfold Part.groupChecks
  rw [Bool.and_eq_true, Bool.and_eq_true, decide_eq_true_iff, Bool.not_eq_true', Bool.or_eq_true, beq_iff_eq, Bool.not_eq_true',
    and_assoc]

theorem measuredCheck_iff (p : Part) (start : Nat) : p.measuredCheck start = true ↔
    (p.sup.fresh = true → 100 * p.measured + start ≤ p.active.plant.g * p.active.plant.usePct) := by
  unfold Part.measuredCheck
  rw [Bool.or_eq_true, Bool.not_eq_true', decide_eq_true_iff]
  cases p.sup.fresh with
  | true => exact ⟨fun h _ => h.resolve_left Bool.noConfusion, fun h => .inr (h rfl)⟩
  | false => exact ⟨fun _ h => Bool.noConfusion h, fun _ => .inl rfl⟩

theorem grantChecks_iff (p : Part) (i : CarIdx) (f : Figures) : p.grantChecks i f = true ↔
    p.adm.sumM + f.start ≤ p.capEff ∧ p.adm.sumR + f.rRun ≤ p.regenMax
      ∧ (p.sup.fresh = true → 100 * p.measured + f.start ≤ p.active.plant.g * p.active.plant.usePct)
      ∧ (allCars.filter fun i => (p.car i).run = .starting ∨ (p.car i).run = .running).length < p.active.plant.maxMoving
      ∧ p.groupCount (p.group i) < (p.groupRec (p.group i)).maxRunning ∧ hasGroup p.alarms.halted (p.group i) = false
      ∧ (f.rRun = 0 ∨ hasGroup p.alarms.regenShed (p.group i) = false) := by
  unfold Part.grantChecks
  rw [Bool.and_eq_true, Bool.and_eq_true, Bool.and_eq_true, Bool.and_eq_true, decide_eq_true_iff, decide_eq_true_iff,
    decide_eq_true_iff, measuredCheck_iff, groupChecks_iff, movingCount_eq, and_assoc, and_assoc, and_assoc]

/-! ### A grant (R76, R33, R103) -/

/-- The record of a granted car, with its commitments. -/
def Part.grantedRecord (p : Part) (i : CarIdx) : Car :=
  { grantedCar p.now (p.classOf i) (p.figures i) (p.car i) with m := (p.figures i).start, r := (p.figures i).rRun }

/-- The part when a grant has been made and the settle window opened. -/
def Part.openedFor (p : Part) (i : CarIdx) (duration : Nat) : Part :=
  let run : Part := p.setCar i (p.grantedRecord i)
  { run with adm := { run.adm with
    joinCounter := if (∃ j, (run.car j).run = .queued) then run.adm.joinCounter else 0
    sumM := p.adm.sumM + (p.figures i).start - (p.car i).m
    sumR := p.adm.sumR + (p.figures i).rRun - (p.car i).r
    window := some ⟨.settling, i⟩
    reportMark := false
    settleDuration := duration
    settle := .running duration } }

theorem car_openedFor (p : Part) (i j : CarIdx) (duration : Nat) :
    (p.openedFor i duration).car j = if i = j then p.grantedRecord i else p.car j := car_setCar p i j _

theorem openWindow_opened (p : Part) (i : CarIdx) (duration : Nat) :
    openWindow i duration (settleJoinCounter (setCommit i (p.figures i).start (p.figures i).rRun
      (p.modCar i (grantedCar p.now (p.classOf i) (p.figures i))))) = p.openedFor i duration := by
  have hCommit : setCommit i (p.figures i).start (p.figures i).rRun (p.modCar i (grantedCar p.now (p.classOf i) (p.figures i)))
      = { p.setCar i (p.grantedRecord i) with adm := { p.adm with
        sumM := p.adm.sumM + (p.figures i).start - (p.car i).m
        sumR := p.adm.sumR + (p.figures i).rRun - (p.car i).r } } := by
    unfold setCommit
    dsimp only
    rw [car_modCar_self]
    unfold Part.modCar
    rw [setCar_setCar]
    rfl
  rw [hCommit, settleJoinCounter_eq]
  rfl

/-- A shed of a car that holds a run. -/
theorem shedCar_holdsRun {p : Part} {i : CarIdx} (h : (p.car i).holdsRun = true) : shedCar i p =
    if (p.car i).shed = false then raiseEvent .shed (p.setCar i { p.car i with shed := true }) else p := by
  unfold shedCar
  rw [h, Bool.true_and]
  cases (p.car i).shed with
  | true => rfl
  | false => rfl

theorem grant_eq (p : Part) (i : CarIdx) (duration : Nat) : grant i (p.figures i) duration p =
    if p.master.mode ≠ .relay ∧ (p.grantedRecord i).duty = .service ∧ (p.grantedRecord i).shed = false then
      raiseEvent .shed ((p.openedFor i duration).setCar i { p.grantedRecord i with shed := true })
    else p.openedFor i duration := by
  have hCar : (p.openedFor i duration).car i = p.grantedRecord i := by rw [car_openedFor, if_pos rfl]
  unfold grant
  dsimp only
  rw [openWindow_opened]
  unfold shedIfMaster
  rw [shedCar_holdsRun (by rw [hCar]; rfl), hCar]
  change (if p.master.mode ≠ .relay ∧ (p.grantedRecord i).duty = .service then _ else _) = _
  by_cases hMaster : p.master.mode ≠ .relay ∧ (p.grantedRecord i).duty = .service
  · by_cases hMark : (p.grantedRecord i).shed = false
    · rw [if_pos hMaster, if_pos hMark, if_pos ⟨hMaster.1, hMaster.2, hMark⟩]
    · rw [if_pos hMaster, if_neg hMark, if_neg fun h => hMark h.2.2]
  · rw [if_neg hMaster, if_neg fun h => hMaster ⟨h.1, h.2.1⟩]

/-! ### Marking UNFIT and skipping (R71, R75) -/

/-- The record of a car that is marked UNFIT and leaves the queue. -/
def unfitCar (c : Car) : Car :=
  { c with
    run := .idle
    priority := none
    joinSeq := none
    unfit := some ⟨match c.live with | some l => l.load | none => none⟩ }

theorem car_settleJoinCounter (p : Part) (j : CarIdx) : (settleJoinCounter p).car j = p.car j := by
  unfold settleJoinCounter
  split
  · rfl
  · rfl

theorem markUnfit_eq (i : CarIdx) (p : Part) :
    markUnfit i p = evaluateCompletion (raiseEvent .unfit (settleJoinCounter (p.setCar i (unfitCar (p.car i))))) := by
  have hLeft : ∀ mark : UnfitMark, (leaveQueue i p).modCar i (fun c => { c with unfit := some mark }) = settleJoinCounter
      (p.setCar i { p.car i with run := .idle, priority := none, joinSeq := none, unfit := some mark }) := fun mark => by
    unfold leaveQueue Part.modCar
    rw [car_settleJoinCounter, car_setCar_self, settleJoinCounter_setCar (by rw [car_setCar_self]), setCar_setCar]
  unfold markUnfit
  dsimp only
  rw [hLeft]
  rfl

/-! ### The walk (R70, R75, R77) -/

theorem attempt_rated {p : Part} (h : p.gapOpen = true) (k : p.active.plant.g ≠ 0) : attempt p = walkRated p.queue p := by
  unfold attempt
  rw [if_pos h, if_neg k]

theorem attempt_single {p : Part} (h : p.gapOpen = true) (k : p.active.plant.g = 0) :
    attempt p = if p.movingCount = 0 then walkSingle p.queue p else p := by
  unfold attempt
  rw [if_pos h, if_pos k]

theorem walkRated_gone {p : Part} {i : CarIdx} (rest : List CarIdx) (h : (p.car i).run ≠ .queued) :
    walkRated (i :: rest) p = walkRated rest p := by
  rw [walkRated, if_pos h]

theorem walkRated_unfit {p : Part} {i : CarIdx} (rest : List CarIdx) (h : (p.car i).run = .queued)
    (k : p.stepMax < (p.figures i).start) : walkRated (i :: rest) p = walkRated rest (markUnfit i p) := by
  rw [walkRated, if_neg (fun hNot => hNot h), if_pos k]

theorem walkRated_granted {p : Part} {i : CarIdx} (rest : List CarIdx) (h : (p.car i).run = .queued)
    (k : (p.figures i).start ≤ p.stepMax) (c : p.grantChecks i (p.figures i) = true) :
    walkRated (i :: rest) p = grant i (p.figures i) ((p.active.plant.settleCode + 1) * 20) p := by
  rw [walkRated, if_neg (fun hNot => hNot h), if_neg (Nat.not_lt.mpr k), if_pos c]

theorem walkRated_failed {p : Part} {i : CarIdx} (rest : List CarIdx) (h : (p.car i).run = .queued)
    (k : (p.figures i).start ≤ p.stepMax) (c : ¬ p.grantChecks i (p.figures i) = true) :
    walkRated (i :: rest) p = if p.active.plant.skipLimit ≤ satInc 15 (p.car i).skipCount then skipCar i p
      else walkRated rest (skipCar i p) := by
  rw [walkRated, if_neg (fun hNot => hNot h), if_neg (Nat.not_lt.mpr k), if_neg c]
  unfold skipCar
  rw [car_modCar_self]

/-- In single-car mode the first car that passes is granted (R77). -/
theorem walkSingle_first {p : Part} {i : CarIdx} (rest : List CarIdx) (h : p.groupChecks i (p.figures i) = true) :
    ∀ passed : List CarIdx, (∀ k, k ∈ passed → ¬ p.groupChecks k (p.figures k) = true) →
      walkSingle (passed ++ i :: rest) p = grant i (p.figures i) 5120 p
  | [], _ => by rw [List.nil_append, walkSingle, if_pos h]
  | k :: passed, hNot => by
    rw [List.cons_append, walkSingle, if_neg (hNot k List.mem_cons_self)]
    exact walkSingle_first rest h passed fun j hj => hNot j (List.mem_cons_of_mem k hj)

theorem walkSingle_none {p : Part} :
    ∀ l : List CarIdx, (∀ k, k ∈ l → ¬ p.groupChecks k (p.figures k) = true) → walkSingle l p = p
  | [], _ => rfl
  | k :: l, hNot => by
    rw [walkSingle, if_neg (hNot k List.mem_cons_self)]
    exact walkSingle_none l fun j hj => hNot j (List.mem_cons_of_mem k hj)

/-- Settles O33: the walk is the model's own, row by row, and a head of the queue that passes is its first grant. -/
theorem headOfQueueIsGranted : Obligations.HeadOfQueueIsGranted := by
  refine ⟨?head, ?walk⟩
  case head =>
    intro p i rest f g hOpen hRated hQueue hRelay hStep hMotoring hRegen hMeasured hGroup hMoving hHalted hShed q
    have hQueued : (p.car i).run = .queued := (mem_queue p i).mp (hQueue ▸ List.mem_cons_self)
    have hChecks : p.grantChecks i f = true := (grantChecks_iff p i f).mpr
      ⟨hMotoring, hRegen, hMeasured, by rw [← movingCount_eq]; exact hMoving, hGroup, hHalted, hShed⟩
    have hGranted : q = p.openedFor i ((p.active.plant.settleCode + 1) * 20) := by
      have hNoShed : ¬ (p.master.mode ≠ .relay ∧ (p.grantedRecord i).duty = .service ∧ (p.grantedRecord i).shed = false) :=
        fun h => hRelay.elim h.1 fun hDuty => hDuty h.2.1
      change attempt p = _
      rw [attempt_rated hOpen hRated, hQueue, walkRated_granted rest hQueued hStep hChecks, grant_eq, if_neg hNoShed]
    have hCar : q.car i = p.grantedRecord i := by rw [hGranted, car_openedFor, if_pos rfl]
    have hClosed : q.gapOpen = false := by
      refine Bool.eq_false_iff.mpr fun h => ((gapOpen_iff q).mp h).1 i ?_
      rw [hCar]
      rfl
    refine ⟨hCar, fun j hj => ?_, ?_⟩
    · rw [hGranted, car_openedFor, if_neg (Ne.symm hj)]
    · rw [hGranted] at hClosed ⊢
      exact ⟨rfl, rfl, rfl, rfl, rfl, rfl, rfl, rfl, hClosed, rfl, rfl, rfl, rfl, rfl, rfl, rfl, rfl, rfl⟩
  case walk =>
    intro up moving settled groupPasses passes unfit skipped granted
    have hGranted : ∀ p i duration, grant i (p.figures i) duration p = granted p i duration := fun p i duration =>
      grant_eq p i duration
    have hUnfit : ∀ p i, markUnfit i p = unfit p i := fun p i => by
      rw [markUnfit_eq, settleJoinCounter_eq]
      rfl
    have hGroup : ∀ p i, p.groupChecks i (p.figures i) = true ↔ groupPasses p i := fun p i => groupChecks_iff p i _
    have hPasses : ∀ p i, p.grantChecks i (p.figures i) = true ↔ passes p i := fun p i => grantChecks_iff p i _
    refine ⟨⟨walkRated, fun p => attempt_rated, fun p => rfl, fun p i rest => ⟨walkRated_gone rest, fun hQueued =>
      ⟨fun hOver => ?unfit, fun hFits => ⟨fun hPass => ?granted, fun hFail hSkips => ?skipped, fun hFail hLimit => ?limit⟩⟩⟩⟩,
      fun p hOpen hSingle => ?single⟩
    case unfit => rw [walkRated_unfit rest hQueued hOver, hUnfit]
    case granted => rw [walkRated_granted rest hQueued hFits ((hPasses p i).mpr hPass), hGranted]
    case skipped =>
      rw [walkRated_failed rest hQueued hFits fun h => hFail ((hPasses p i).mp h)]
      exact if_neg (Nat.not_le.mpr hSkips)
    case limit =>
      rw [walkRated_failed rest hQueued hFits fun h => hFail ((hPasses p i).mp h)]
      exact if_pos hLimit
    case single =>
      have hMoving : p.movingCount = moving p := movingCount_eq p
      rw [attempt_single hOpen hSingle, hMoving]
      refine ⟨fun hRuns => if_neg hRuns, fun hNone => ⟨fun passed i rest hQueue hFailed hPass => ?first, fun hFailed => ?nobody⟩⟩
      case first =>
        rw [if_pos hNone, hQueue, walkSingle_first rest ((hGroup p i).mpr hPass) passed fun k hk h => hFailed k hk ((hGroup p k).mp h),
          hGranted]
      case nobody =>
        rw [if_pos hNone, walkSingle_none _ fun k hk h => hFailed k hk ((hGroup p k).mp h)]

end Sys2Proof.Machine
end

section
/-! Alarms (R106 to R112, R116): a sample of the four lines, and the actions derived afresh. -/

namespace Sys2Proof.Machine

/-! ### A sample of the four lines (R1, R2, R106) -/

/-- The filter of an alarm line after a sample, the level read from the four sampled levels. -/
def Part.filteredLine (p : Part) (a1 a2 a3 a4 : AlarmLevel) (k : Fin 4) : LineFilter AlarmLevel :=
  filterSample (p.tripEntry k).depth ([a1, a2, a3, a4].getD k.val a1) (p.alarmFilter k)

/-- The part when the four lines have been driven and filtered, no action yet derived. -/
def alarmsFiltered (a1 a2 a3 a4 : AlarmLevel) (p : Part) : Part :=
  { p with
    pins := { p.pins with
      a1 := a1
      a2 := a2
      a3 := a3
      a4 := a4
      alarmSampled := true }
    alarms := { p.alarms with
      filters := #v[p.filteredLine a1 a2 a3 a4 0, p.filteredLine a1 a2 a3 a4 1, p.filteredLine a1 a2 a3 a4 2,
        p.filteredLine a1 a2 a3 a4 3] } }

theorem forall_line {P : Fin 4 → Prop} (h0 : P 0) (h1 : P 1) (h2 : P 2) (h3 : P 3) : ∀ k, P k
  | 0 => h0
  | 1 => h1
  | 2 => h2
  | 3 => h3

theorem alarmFilter_alarmsFiltered (a1 a2 a3 a4 : AlarmLevel) (p : Part) :
    ∀ k, (alarmsFiltered a1 a2 a3 a4 p).alarmFilter k = p.filteredLine a1 a2 a3 a4 k :=
  forall_line rfl rfl rfl rfl

theorem all_lines_iff (f : Fin 4 → Bool) : allLines.all f = true ↔ ∀ k, f k = true := by
  rw [List.all_eq_true]
  exact ⟨fun h k => h k (List.mem_finRange k), fun h k _ => h k⟩

theorem driveAlarms_eq (a1 a2 a3 a4 : AlarmLevel) (p : Part) : driveAlarms a1 a2 a3 a4 p =
    if ∀ k, (p.filteredLine a1 a2 a3 a4 k).level = (p.alarmFilter k).level then alarmsFiltered a1 a2 a3 a4 p
    else if actionEnded (alarmsFiltered a1 a2 a3 a4 p) (rederiveActions (alarmsFiltered a1 a2 a3 a4 p)) = true then
      attempt (rederiveActions (alarmsFiltered a1 a2 a3 a4 p))
    else rederiveActions (alarmsFiltered a1 a2 a3 a4 p) := by
  have hAll : (allLines.all fun k => ((alarmsFiltered a1 a2 a3 a4 p).alarmFilter k).level == (p.alarmFilter k).level) = true
      ↔ ∀ k, (p.filteredLine a1 a2 a3 a4 k).level = (p.alarmFilter k).level := by
    rw [all_lines_iff]
    exact forall_congr' fun k => by rw [beq_iff_eq, alarmFilter_alarmsFiltered]
  change (if (allLines.all fun k => ((alarmsFiltered a1 a2 a3 a4 p).alarmFilter k).level == (p.alarmFilter k).level) = true then
    _ else _) = _
  by_cases hSame : ∀ k, (p.filteredLine a1 a2 a3 a4 k).level = (p.alarmFilter k).level
  · rw [if_pos (hAll.mpr hSame), if_pos hSame]
    rfl
  · rw [if_neg fun h => hSame (hAll.mp h), if_neg hSame]
    rfl

theorem exec_alarmLineFiltered (a1 a2 a3 a4 : AlarmLevel) (s : State) :
    exec (.alarmLineFiltered a1 a2 a3 a4) s = .next { s with part := driveAlarms a1 a2 a3 a4 s.part } :=
  completes_eq (f := driveAlarms a1 a2 a3 a4) rfl

/-- Settles O34: below its depth a line's filter keeps its level, so no action is derived. -/
theorem alarmSampleBelowDepth : Obligations.AlarmSampleBelowDepth := by
  intro s a1 a2 a3 a4 level x hLevel hBelow next
  have hNext : ∀ k, s.part.filteredLine a1 a2 a3 a4 k = next k := fun k => filterSample_below (hLevel k) (hBelow k)
  have hSame : ∀ k, (s.part.filteredLine a1 a2 a3 a4 k).level = (s.part.alarmFilter k).level := fun k => by rw [hNext]
  rw [exec_alarmLineFiltered, driveAlarms_eq, if_pos hSame]
  unfold alarmsFiltered
  rw [hNext 0, hNext 1, hNext 2, hNext 3]

/-! ### Statuses (R107) -/

theorem deriveLine_changeTime (p : Part) (k : Fin 4) :
    (deriveLine p k).changeTime = if p.lineAsserted k = (p.alarmStatus k).asserted
        ∧ p.lineInEffect k = (p.alarmStatus k).inEffect then (p.alarmStatus k).changeTime else p.now := by
  unfold deriveLine
  dsimp only
  by_cases hSame : (p.alarmStatus k).asserted = p.lineAsserted k ∧ (p.alarmStatus k).inEffect = p.lineInEffect k
  · rw [if_pos hSame, if_pos ⟨hSame.1.symm, hSame.2.symm⟩]
  · rw [if_neg hSame, if_neg fun h => hSame ⟨h.1.symm, h.2.symm⟩]

theorem alarmStatus_deriveActions (p : Part) (k : Fin 4) : (deriveActions p).alarmStatus k = deriveLine p k := by
  have hSwept := (shedSweep_shedOnly (deriveCoverage (deriveStatus p))).same
  have hAlarms : (shedSweep (deriveCoverage (deriveStatus p))).alarms = (deriveCoverage (deriveStatus p)).alarms := by rw [hSwept]
  change (shedSweep (deriveCoverage (deriveStatus p))).alarms.status[k.val] = _
  rw [hAlarms]
  exact alarmStatus_deriveStatus p k

theorem lineAsserted_iff (p : Part) (k : Fin 4) :
    p.lineAsserted k = true ↔ (p.alarmFilter k).level = some (p.tripEntry k).level := by
  unfold Part.lineAsserted
  exact beq_iff_eq

theorem lineInEffect_iff (p : Part) (k : Fin 4) : p.lineInEffect k = true ↔
    p.lineAsserted k = true ∧ (p.tripEntry k).enabled = true ∧ p.sup.state.onGenerator = true := by
  unfold Part.lineInEffect
  rw [Bool.and_eq_true, Bool.and_eq_true, and_assoc]

/-! ### Coverage (R110) -/

/-- A group is covered by a union of masks exactly when one of the masks joined names it. -/
theorem hasGroup_union (g : GroupIdx) (on : Fin 4 → Bool) (mask : Fin 4 → BitVec 8) : ∀ (l : List (Fin 4)) (acc : BitVec 8),
    hasGroup (l.foldl (fun acc k => if on k = true then acc ||| mask k else acc) acc) g = true
      ↔ hasGroup acc g = true ∨ ∃ k, k ∈ l ∧ on k = true ∧ hasGroup (mask k) g = true
  | [], acc => by simp
  | k :: l, acc => by
    rw [List.foldl_cons, hasGroup_union g on mask l]
    by_cases hOn : on k = true
    · rw [if_pos hOn]
      simp [hasGroup, hOn, or_assoc]
    · rw [if_neg hOn]
      simp [hOn]

theorem covered_iff (p : Part) (a : Action) (g : GroupIdx) :
    hasGroup (p.covered a) g = true ↔ ∃ k, p.actionOn a k = true ∧ hasGroup (p.tripEntry k).groups g = true := by
  unfold Part.covered
  rw [hasGroup_union]
  have hZero : hasGroup 0 g = false := BitVec.getLsbD_zero
  rw [hZero]
  simp [allLines]

theorem actionOn_iff (p : Part) (a : Action) (k : Fin 4) :
    p.actionOn a k = true ↔ (p.alarmStatus k).inEffect = true ∧ (p.tripEntry k).action = a := by
  unfold Part.actionOn
  rw [Bool.and_eq_true, beq_iff_eq]

/-! ### The sweep (R112) -/

/-- The record of a car after a sweep, by whether its group is covered. -/
def sweptCar (all regen : BitVec 8) (p : Part) (i : CarIdx) : Car :=
  if (hasGroup all (p.group i) || (hasGroup regen (p.group i) && decide (0 < (p.car i).r))) = true then
    { p.car i with shed := (p.car i).shed || (p.car i).holdsRun }
  else p.car i

theorem car_shedSweep (p : Part) (i : CarIdx) :
    (shedSweep p).car i = sweptCar (p.covered .shedAll) (p.covered .shedRegen) p i := by
  unfold shedSweep
  have hFold := foldl_ownCar (fun q j => if (hasGroup (p.covered .shedAll) (q.group j)
      || (hasGroup (p.covered .shedRegen) (q.group j) && decide (0 < (q.car j).r))) = true then shedCar j q else q)
    (sweptCar (p.covered .shedAll) (p.covered .shedRegen)) (fun q j k => ?_) (fun q r j hActive hCar => ?_) (fun q j => ?_)
    allCars p nodup_allCars i
  · rw [if_pos (mem_allCars i)] at hFold
    exact hFold
  · unfold sweptCar
    split
    · exact car_shedCar j k q
    · by_cases hjk : j = k
      · rw [if_pos hjk, hjk]
      · rw [if_neg hjk]
  · unfold sweptCar
    rw [group_congr hActive.symm, hCar]
  · split
    · rw [(shedCar_shedOnly j q).same]
    · rfl

/-- A car is hit by the sweep where it holds a run in a covered group (R112). -/
theorem sweptCar_eq (all regen : BitVec 8) (p : Part) (i : CarIdx) :
    let hit : Prop := (p.car i).holdsRun = true
      ∧ (hasGroup all (p.group i) = true ∨ (hasGroup regen (p.group i) = true ∧ 0 < (p.car i).r))
    (hit → sweptCar all regen p i = { p.car i with shed := true }) ∧ (¬ hit → sweptCar all regen p i = p.car i) := by
  have hCovered : (hasGroup all (p.group i) || (hasGroup regen (p.group i) && decide (0 < (p.car i).r))) = true
      ↔ hasGroup all (p.group i) = true ∨ (hasGroup regen (p.group i) = true ∧ 0 < (p.car i).r) := by
    rw [Bool.or_eq_true, Bool.and_eq_true, decide_eq_true_iff]
  refine ⟨fun ⟨hRun, hIn⟩ => ?_, fun hNot => ?_⟩
  · unfold sweptCar
    rw [if_pos (hCovered.mpr hIn), hRun, Bool.or_true]
  · unfold sweptCar
    by_cases hIn : hasGroup all (p.group i) = true ∨ (hasGroup regen (p.group i) = true ∧ 0 < (p.car i).r)
    · have hIdle : (p.car i).holdsRun = false := Bool.eq_false_iff.mpr fun hRun => hNot ⟨hRun, hIn⟩
      rw [if_pos (hCovered.mpr hIn), hIdle, Bool.or_false]
    · rw [if_neg fun h => hIn (hCovered.mp h)]

/-! ### The actions derived afresh (R107, R110, R112) -/

/-- The part that the sweep of a derivation starts from. -/
def actionsCovered (p : Part) : Part := deriveCoverage (deriveStatus p)

theorem deriveActions_eq (p : Part) : deriveActions p = { shedSweep (actionsCovered p) with
    alarms := { (shedSweep (actionsCovered p)).alarms with q := (shedSweep (actionsCovered p)).derateTotal } } := rfl

theorem actionOn_actionsCovered (p : Part) (a : Action) (k : Fin 4) :
    (actionsCovered p).actionOn a k = true ↔ ((deriveActions p).alarmStatus k).inEffect = true ∧ (p.tripEntry k).action = a := by
  rw [actionOn_iff, alarmStatus_deriveActions, ← alarmStatus_deriveStatus]
  rfl

theorem covered_actionsCovered (p : Part) (a : Action) (g : GroupIdx) : hasGroup ((actionsCovered p).covered a) g = true ↔
    ∃ k, (((deriveActions p).alarmStatus k).inEffect = true ∧ (p.tripEntry k).action = a)
      ∧ hasGroup (p.tripEntry k).groups g = true := by
  rw [covered_iff]
  exact exists_congr fun k => and_congr_left fun _ => actionOn_actionsCovered p a k

theorem alarms_shedSweep (p : Part) : (shedSweep p).alarms = p.alarms := by rw [(shedSweep_shedOnly p).same]

theorem hasGroup_or (a b : BitVec 8) (g : GroupIdx) : hasGroup (a ||| b) g = true ↔ hasGroup a g = true ∨ hasGroup b g = true := by
  unfold hasGroup
  rw [BitVec.getLsbD_or, Bool.or_eq_true]

theorem halted_deriveActions (p : Part) (g : GroupIdx) : hasGroup (deriveActions p).alarms.halted g = true ↔
    hasGroup ((actionsCovered p).covered .halt) g = true ∨ hasGroup ((actionsCovered p).covered .shedAll) g = true := by
  rw [← hasGroup_or, deriveActions_eq]
  dsimp only
  rw [alarms_shedSweep]
  rfl

theorem regenShed_deriveActions (p : Part) :
    (deriveActions p).alarms.regenShed = (actionsCovered p).covered .shedRegen := by
  rw [deriveActions_eq]
  dsimp only
  rw [alarms_shedSweep]
  rfl

theorem derateTotal_deriveActions (p : Part) : (deriveActions p).alarms.q = min 100 ((List.finRange 4).map fun k =>
    if ((deriveActions p).alarmStatus k).inEffect ∧ (p.tripEntry k).action = .derate then (p.tripEntry k).percent else 0).sum := by
  have hActive : (shedSweep (actionsCovered p)).active = p.active := by
    rw [(shedSweep_shedOnly (actionsCovered p)).same]
    rfl
  have hEntry : ∀ k, (shedSweep (actionsCovered p)).tripEntry k = p.tripEntry k := fun k => by
    unfold Part.tripEntry
    rw [hActive]
  have hOn : ∀ k, (shedSweep (actionsCovered p)).actionOn .derate k = true
      ↔ ((deriveActions p).alarmStatus k).inEffect = true ∧ (p.tripEntry k).action = .derate := fun k => by
    rw [actionOn_iff, hEntry]
    rfl
  change min 100 ((List.finRange 4).map fun k => if (shedSweep (actionsCovered p)).actionOn .derate k = true then
    ((shedSweep (actionsCovered p)).tripEntry k).percent else 0).sum = _
  congr 3
  funext k
  rw [hEntry]
  exact ite_congr (propext (hOn k)) (fun _ => rfl) fun _ => rfl

theorem car_deriveActions (p : Part) (i : CarIdx) : (deriveActions p).car i
    = sweptCar ((actionsCovered p).covered .shedAll) ((actionsCovered p).covered .shedRegen) (actionsCovered p) i :=
  car_shedSweep (actionsCovered p) i

/-! ### When they are derived (R109, R110, R116) -/

theorem recomputeLimits_alarms (p : Part) : (recomputeLimits p).alarms = p.alarms := by
  obtain ⟨q, hShed, hSame⟩ := recomputeLimits_shape p
  rw [hSame]
  change q.alarms = _
  rw [hShed.same]

theorem alarmStatus_rederiveActions (p : Part) (k : Fin 4) :
    (rederiveActions p).alarmStatus k = (deriveActions p).alarmStatus k := by
  by_cases hSame : (deriveActions p).alarms.q = p.alarms.q
  · have hStays : rederiveActions p = deriveActions p := if_pos hSame
    rw [hStays]
  · have hHanded : rederiveActions p = recomputeLimits (deriveActions p) := if_neg hSame
    have hAlarms := recomputeLimits_alarms (deriveActions p)
    rw [hHanded]
    generalize recomputeLimits (deriveActions p) = x at hAlarms
    unfold Part.alarmStatus
    rw [hAlarms]

theorem actionEnded_iff (p q : Part) : actionEnded p q = true ↔
    ∃ k, (p.alarmStatus k).inEffect = true ∧ (q.alarmStatus k).inEffect = false := by
  unfold actionEnded
  rw [List.any_eq_true]
  refine exists_congr fun k => ?_
  rw [Bool.and_eq_true, Bool.not_eq_true']
  exact and_iff_right (List.mem_finRange k)

/-- Settles O35: each line's status, the coverage, the total and the sweep in turn, and the samples that derive them. -/
theorem actionsInEffect : Obligations.ActionsInEffect := by
  refine ⟨?derived, ?sampled⟩
  case derived =>
    intro p q on
    have hStatus : ∀ k, q.alarmStatus k = deriveLine p k := alarmStatus_deriveActions p
    have hShed : ShedOnly (actionsCovered p) (shedSweep (actionsCovered p)) := shedSweep_shedOnly _
    have hHalt := fun g => covered_actionsCovered p .halt g
    have hAll := fun g => covered_actionsCovered p .shedAll g
    have hRegen := fun g => covered_actionsCovered p .shedRegen g
    refine ⟨fun k => ?statuses, fun g => ⟨?halted, ?regen⟩, derateTotal_deriveActions p, fun i => ?cars, ?same⟩
    case statuses =>
      obtain ⟨hAsserted, hInEffect⟩ := inEffect_deriveLine p k
      rw [hStatus k, hAsserted, hInEffect]
      exact ⟨lineAsserted_iff p k, lineInEffect_iff p k, deriveLine_changeTime p k⟩
    case halted =>
      refine (halted_deriveActions p g).trans ?_
      rw [hHalt, hAll, ← exists_or]
      exact exists_congr fun k => or_and_right.symm
    case regen =>
      change hasGroup (deriveActions p).alarms.regenShed g = true ↔ _
      rw [regenShed_deriveActions, hRegen]
    case cars =>
      intro hit
      have hHit : hit ↔ ((actionsCovered p).car i).holdsRun = true
          ∧ (hasGroup ((actionsCovered p).covered .shedAll) ((actionsCovered p).group i) = true
            ∨ hasGroup ((actionsCovered p).covered .shedRegen) ((actionsCovered p).group i) = true
              ∧ 0 < ((actionsCovered p).car i).r) := by
        refine and_congr_right fun _ => ?_
        rw [hAll, hRegen]
        constructor
        · rintro ⟨k, hGroup, hOn | ⟨hOn, hReturns⟩⟩
          · exact .inl ⟨k, hOn, hGroup⟩
          · exact .inr ⟨⟨k, hOn, hGroup⟩, hReturns⟩
        · rintro (⟨k, hOn, hGroup⟩ | ⟨⟨k, hOn, hGroup⟩, hReturns⟩)
          · exact ⟨k, hGroup, .inl hOn⟩
          · exact ⟨k, hGroup, .inr ⟨hOn, hReturns⟩⟩
      obtain ⟨hMarked, hKept⟩ := sweptCar_eq ((actionsCovered p).covered .shedAll) ((actionsCovered p).covered .shedRegen)
        (actionsCovered p) i
      have hCar : q.car i = _ := car_deriveActions p i
      have hShedCar : hit → q.car i = { p.car i with shed := true } := fun h => hCar.trans (hMarked (hHit.mp h))
      refine ⟨hShedCar, fun h => hCar.trans (hKept fun h' => h (hHit.mpr h')), fun h hMark => ?_⟩
      obtain hSame | ⟨-, -, hFlag⟩ := hShed.car i
      · have hStays : q.car i = p.car i := hSame
        rw [hShedCar h] at hStays
        rw [← hStays] at hMark
        exact absurd hMark Bool.true_eq_false.mp
      · exact hFlag
    case same =>
      have hOnly := hShed.same
      have hQ : q = _ := deriveActions_eq p
      rw [hQ, hOnly]
      exact ⟨rfl, rfl, rfl, rfl, rfl, rfl⟩
  case sampled =>
    intro s a1 a2 a3 a4 x next sampled derived handed accepted ended
    have hNext : ∀ k, s.part.filteredLine a1 a2 a3 a4 k = next k := fun k => by
      dsimp only [next]
      unfold Part.filteredLine filterSample
      cases (s.part.alarmFilter k).level with
      | none => rfl
      | some level => rfl
    have hSampled : alarmsFiltered a1 a2 a3 a4 s.part = sampled := by
      unfold alarmsFiltered
      rw [hNext 0, hNext 1, hNext 2, hNext 3]
    have hHanded : rederiveActions sampled = handed := rfl
    have hEnded : actionEnded sampled handed = true ↔ ended := (actionEnded_iff sampled handed).trans
      (exists_congr fun k => and_congr_right fun _ => by rw [← hHanded, alarmStatus_rederiveActions])
    have hSame : (∀ k, (s.part.filteredLine a1 a2 a3 a4 k).level = (s.part.alarmFilter k).level) ↔ ¬ accepted := by
      rw [not_exists]
      exact forall_congr' fun k => by rw [hNext, Decidable.not_not]
    have hExec : exec (.alarmLineFiltered a1 a2 a3 a4) s = .next { s with
        part := if ¬ accepted then sampled else if ended then attempt handed else handed } := by
      rw [exec_alarmLineFiltered, driveAlarms_eq, hSampled, hHanded]
      simp only [hSame, hEnded]
    rw [hExec]
    refine ⟨fun hNone => ?_, fun hAccepted hEnd => ?_, fun hAccepted hNoEnd => ?_⟩
    · rw [if_pos hNone]
    · rw [if_neg (not_not_intro hAccepted), if_pos hEnd]
    · rw [if_neg (not_not_intro hAccepted), if_neg hNoEnd]

end Sys2Proof.Machine
end

section
/-! The link ports (R121 to R124, R129, R146, R148): the receiver's events, complete frames, and the transmitter. -/

namespace Sys2Proof.Machine

/-! ### Ports -/

/-- Two changes of one port are their composition. -/
theorem modPort_modPort (p : Part) (port : Port) (f g : PortState → PortState) :
    (p.modPort port f).modPort port g = p.modPort port fun x => g (f x) := by
  cases port with
  | dispatch => rfl
  | carA => rfl
  | carB => rfl

theorem countMalformed_modPort (p : Part) (port : Port) (f : PortState → PortState) :
    countMalformed (p.modPort port f) = (countMalformed p).modPort port f := by
  cases port with
  | dispatch => rfl
  | carA => rfl
  | carB => rfl

theorem listens_iff (p : Part) (port : Port) : p.listens port = true ↔ (p.link.port port).sending = false := by
  unfold Part.listens
  rw [Bool.not_eq_true']

/-! ### Characters (R122) -/

theorem characterArrives_first {p : Part} {port : Port} (c : Byte) (h : (p.link.port port).sending = false)
    (k : (p.link.port port).receiver = .betweenFrames) :
    characterArrives port c p = setReceiver port (.inFrame [c]) (lineReceiving port p) := by
  unfold characterArrives
  rw [if_pos ((listens_iff p port).mpr h), k]

theorem characterArrives_next {p : Part} {port : Port} {chars : List Byte} (c : Byte) (h : (p.link.port port).sending = false)
    (k : (p.link.port port).receiver = .inFrame chars) :
    characterArrives port c p = addCharacter port (chars ++ [c]) p := by
  unfold characterArrives
  rw [if_pos ((listens_iff p port).mpr h), k]

theorem characterArrives_discarding {p : Part} {port : Port} (c : Byte) (k : (p.link.port port).receiver = .discarding) :
    characterArrives port c p = p := by
  unfold characterArrives
  rw [k, ite_self]

theorem characterArrives_sending {p : Part} {port : Port} (c : Byte) (h : (p.link.port port).sending = true) :
    characterArrives port c p = p := if_neg (by rw [listens_iff, h]; decide)

theorem characterFault_between {p : Part} {port : Port} (h : (p.link.port port).sending = false)
    (k : (p.link.port port).receiver = .betweenFrames) : characterFault port p = setReceiver port .discarding p := by
  unfold characterFault
  rw [if_pos ((listens_iff p port).mpr h), k]

theorem characterFault_inFrame {p : Part} {port : Port} {chars : List Byte} (h : (p.link.port port).sending = false)
    (k : (p.link.port port).receiver = .inFrame chars) : characterFault port p = abandonFrame port p := by
  unfold characterFault
  rw [if_pos ((listens_iff p port).mpr h), k]

theorem characterFault_discarding {p : Part} {port : Port} (k : (p.link.port port).receiver = .discarding) :
    characterFault port p = p := by
  unfold characterFault
  rw [k, ite_self]

theorem characterFault_sending {p : Part} {port : Port} (h : (p.link.port port).sending = true) :
    characterFault port p = p := if_neg (by rw [listens_iff, h]; decide)

theorem lineIdle_between {p : Part} {port : Port} (k : (p.link.port port).receiver = .betweenFrames) : lineIdle port p = p := by
  unfold lineIdle
  rw [k]

theorem lineIdle_discarding {p : Part} {port : Port} (k : (p.link.port port).receiver = .discarding) :
    lineIdle port p = setReceiver port .betweenFrames p := by
  unfold lineIdle
  rw [k]

theorem lineStaysIdle_inFrame {p : Part} {port : Port} {chars : List Byte} (k : (p.link.port port).receiver = .inFrame chars) :
    lineStaysIdle port p = discardMalformed port (setReceiver port .betweenFrames p) := by
  unfold lineStaysIdle
  rw [k]

/-- A frame abandoned: the check error and DISCARDING in one change of the port. -/
theorem abandonFrame_eq (port : Port) (p : Part) : abandonFrame port p = frameEnds port (p.modPort port fun y =>
    { y with receiver := .discarding, checkErrors := satInc 65535 y.checkErrors }) := by
  unfold abandonFrame setReceiver countCheckError
  rw [modPort_modPort]

/-- No line is expected on a port whatever happens to the ports. -/
theorem frameEnds_modPort {p : Part} {port : Port} (h : p.lineUnexpected port) (f : PortState → PortState) :
    frameEnds port (p.modPort port f) = p.modPort port f := frameEnds_lineUnexpected port _ h

theorem lineReceiving_lineUnexpected {p : Part} {port : Port} (h : p.lineUnexpected port) : lineReceiving port p = p :=
  modLine_lineUnexpected port _ p h

/-- Settles O37: the rows of the receiver, each on a port whose frame ends concern no slot. -/
theorem receiverEvents : Obligations.ReceiverEvents := by
  intro s port c hUnexpected x becomes
  refine ⟨fun hIdle hBetween => ⟨?first, ?fault, ?resync⟩, fun chars hIdle hIn => ⟨?abandoned, ?truncated⟩,
    fun hDiscarding => ⟨?idle, ?ignored, ?silent⟩, fun hSending => ⟨?deaf, ?faultless⟩⟩
  case first =>
    refine completes_eq (f := characterArrives port c) ?_
    rw [characterArrives_first c hIdle hBetween, lineReceiving_lineUnexpected hUnexpected]
    rfl
  case fault => exact completes_eq (f := characterFault port) (characterFault_between hIdle hBetween)
  case resync => exact completes_eq (f := lineIdle port) (lineIdle_between hBetween)
  case abandoned =>
    refine completes_eq (f := characterFault port) ?_
    rw [characterFault_inFrame hIdle hIn, abandonFrame_eq, frameEnds_modPort hUnexpected, modPort_modPort]
    rfl
  case truncated =>
    refine completes_eq (f := lineStaysIdle port) ?_
    rw [lineStaysIdle_inFrame hIn]
    unfold discardMalformed setReceiver
    rw [countMalformed_modPort, frameEnds_modPort (p := countMalformed s.part) hUnexpected]
    rfl
  case idle => exact completes_eq (f := lineIdle port) (lineIdle_discarding hDiscarding)
  case ignored => exact completes_eq (f := characterArrives port c) (characterArrives_discarding c hDiscarding)
  case silent => exact completes_eq (f := characterFault port) (characterFault_discarding hDiscarding)
  case deaf => exact completes_eq (f := characterArrives port c) (characterArrives_sending c hSending)
  case faultless => exact completes_eq (f := characterFault port) (characterFault_sending hSending)

/-! ### Complete frames (R124) -/

theorem completeFrame_takes {p : Part} {port : Port} (judge : Part → Part) (h : p.takesFrame port) :
    completeFrame port judge p = judge (p.received port) := by
  unfold completeFrame
  exact if_pos ⟨(listens_iff p port).mpr h.1, h.2⟩

/-- A frame in progress is received without a first character to note. -/
theorem received_inFrame {p : Part} {port : Port} {chars : List Byte} (h : (p.link.port port).receiver = .inFrame chars) :
    p.received port = p.modPort port fun y => { y with receiver := .betweenFrames } := by
  unfold Part.received noteFirst
  rw [h]
  rfl

theorem received_lineUnexpected {p : Part} {port : Port} (h : p.lineUnexpected port) :
    p.received port = p.modPort port fun y => { y with receiver := .betweenFrames } := by
  unfold Part.received
  rw [noteFirst_lineUnexpected port p h]
  rfl

theorem splitFrame_fits {chars : List Byte} {kind address : Byte} {payload check : List Byte}
    (h : splitFrame chars = some (kind, address, payload, check)) : payload.length ≤ 32 := by
  unfold splitFrame at h
  split at h
  case h_1 k a n rest =>
    split at h
    · rename_i hFits
      obtain ⟨hLong, hLength⟩ := hFits
      injection h with h
      injection h with _ h
      injection h with _ h
      injection h with h _
      rw [← h, List.length_take]
      omega
    · exact Option.noConfusion rfl (heq_of_eq h)
  case h_2 => exact Option.noConfusion rfl (heq_of_eq h)

/-- The frame's check: its kind, address, length and payload (R123). -/
def checkOf (kind address : Byte) (payload : List Byte) : List Byte :=
  be16 (crc (kind :: address :: BitVec.ofNat 8 payload.length :: payload))

theorem judgeChars_check {chars : List Byte} {kind address : Byte} {payload check : List Byte} (port : Port) (p : Part)
    (h : splitFrame chars = some (kind, address, payload, check)) (k : check ≠ checkOf kind address payload) :
    judgeChars port chars p = frameEnds port (countCheckError port p) := by
  unfold judgeChars
  rw [h]
  exact if_pos k

/-- A frame whose check agrees, but that is none its port takes, is malformed. -/
theorem judgeChars_malformed {chars : List Byte} {kind address : Byte} {payload check : List Byte} {port : Port} (p : Part)
    (h : splitFrame chars = some (kind, address, payload, check)) (k : check = checkOf kind address payload)
    (v : ∀ f, parseFrame kind address payload = some f → frameValid port f = false) :
    judgeChars port chars p = frameEnds port (countMalformed p) := by
  have hSplit : judgeChars port chars p = match parseFrame kind address payload with
      | none => discardMalformed port p
      | some f => judgeFrame port f p := by
    unfold judgeChars
    rw [h]
    exact if_neg (not_not_intro k)
  rw [hSplit]
  cases hParse : parseFrame kind address payload with
  | none => rfl
  | some f =>
    have hFits : ¬ 32 < (framePayload f).length := by
      rw [framePayload_parse kind address payload f hParse]
      exact Nat.not_lt.mpr (splitFrame_fits h)
    change judgeFrame port f p = _
    unfold judgeFrame
    rw [if_neg hFits, if_neg (by rw [v f hParse]; decide)]
    rfl

theorem exec_frameDiscarded (port : Port) (chars : List Byte) (s : State) (h : s.part.takesFrame port) :
    exec (.frameDiscarded port chars) s = .next { s with part := judgeChars port chars (s.part.received port) } :=
  completes_eq (f := completeFrame port (judgeChars port chars)) (completeFrame_takes _ h)

/-- Settles O40: without an expected line the two judgements count, and nothing else. -/
theorem discardedFramesAreCounted : Obligations.DiscardedFramesAreCounted := by
  intro s port chars kind address payload check hTakes hUnexpected hSplit ended sum
  have hReceived : s.part.received port = ended := received_lineUnexpected hUnexpected
  rw [exec_frameDiscarded port chars s hTakes, hReceived]
  refine ⟨fun hCheck => ?_, fun hCheck hInvalid => ?_⟩
  · rw [judgeChars_check port ended hSplit hCheck, frameEnds_lineUnexpected port (countCheckError port ended) hUnexpected]
    rfl
  · rw [judgeChars_malformed ended hSplit hCheck hInvalid, frameEnds_lineUnexpected port (countMalformed ended) hUnexpected]
    rfl

/-- Settles O38: the first character moves a WAITING line, and every frame end but an answer's is the end of that line's frame. -/
theorem firstCharacterMovesTheLine : Obligations.FirstCharacterMovesTheLine := by
  intro s port c sl hSlot hIdle up ended malformed
  refine ⟨fun n hBetween hLine => ?first, fun chars hIn => ⟨⟨_, ?truncated, frameEnds_endsOn port malformed sl hSlot⟩,
    ⟨_, ?abandoned, frameEnds_endsOn port _ sl hSlot⟩, fun whole kind address payload check hSplit => ?discarded⟩⟩
  case first =>
    refine completes_eq (f := characterArrives port c) ?_
    have hMoved : lineReceiving port s.part = s.part.setSlotNow (some (setSlotLine sl port ⟨.receiving, .running n⟩)) :=
      modLine_some port _ s.part sl _ hSlot hLine
    rw [characterArrives_first c hIdle hBetween, hMoved]
    rfl
  case truncated => exact completes_eq (f := lineStaysIdle port) (lineStaysIdle_inFrame hIn)
  case abandoned =>
    exact completes_eq (f := characterFault port) ((characterFault_inFrame hIdle hIn).trans (abandonFrame_eq port s.part))
  case discarded =>
    have hTakes : s.part.takesFrame port := ⟨hIdle, fun h => Receiver.noConfusion (hIn.symm.trans h)⟩
    have hReceived : s.part.received port = ended := received_inFrame hIn
    refine ⟨judgeChars port whole ended, hReceived ▸ exec_frameDiscarded port whole s hTakes, fun hCheck => ?_,
      fun hCheck hInvalid => ?_⟩
    · rw [judgeChars_check port ended hSplit hCheck]
      exact frameEnds_endsOn port _ sl hSlot
    · rw [judgeChars_malformed ended hSplit hCheck hInvalid]
      exact frameEnds_endsOn port malformed sl hSlot

/-- Settles O41: the check of the worked frame, evaluated. -/
theorem workedCheck : Obligations.WorkedCheck := by
  refine ⟨?first, ?second, ?third, ?register, ?characters⟩
  all_goals decide +kernel

/-! ### The transmitter (R121, R129, R146) -/

theorem transmitStarts_begins {p : Part} {port : Port} (h : (p.link.port port).sending = false)
    (q : (p.link.port port).queue ≠ []) (r : (p.link.port port).receiver = .betweenFrames) :
    transmitStarts port p = p.modPort port fun x => { x with sending := true } := by
  refine if_pos ?_
  rw [h, r, Bool.and_eq_true, Bool.and_eq_true, Bool.not_eq_true', Bool.not_eq_true', List.isEmpty_eq_false_iff]
  exact ⟨⟨rfl, q⟩, rfl⟩

theorem transmitStarts_stays {p : Part} {port : Port} (h : (p.link.port port).sending = true
    ∨ (p.link.port port).queue = [] ∨ (p.link.port port).receiver ≠ .betweenFrames) : transmitStarts port p = p := by
  refine if_neg ?_
  rw [Bool.and_eq_true, Bool.and_eq_true, Bool.not_eq_true', Bool.not_eq_true', List.isEmpty_eq_false_iff, beq_iff_eq]
  rintro ⟨⟨hIdle, hQueue⟩, hBetween⟩
  obtain hSending | hEmpty | hIn := h
  · exact Bool.false_ne_true (hIdle.symm.trans hSending)
  · exact hQueue hEmpty
  · exact hIn hBetween

/-- The frame sent leaves the queue; the slot's own frame moves its line (R146). -/
theorem transmitEnds_sending {p : Part} {port : Port} {f : TxFrame} {rest : List TxFrame}
    (h : (p.link.port port).sending = true) (q : (p.link.port port).queue = f :: rest) :
    transmitEnds port p = if f.forSlot = true then
        lineSent port (p.modPort port fun x => { x with sending := false, queue := x.queue.tail })
      else p.modPort port fun x => { x with sending := false, queue := x.queue.tail } := by
  unfold transmitEnds
  dsimp only
  rw [if_pos h, q]
  rfl

theorem transmitEnds_idle {p : Part} {port : Port} (h : (p.link.port port).sending = false) : transmitEnds port p = p :=
  if_neg (by rw [h]; decide)

theorem lineSent_sending {p : Part} {port : Port} {sl : Slot} {t : Timer} (h : p.slotNow = some sl)
    (k : slotLine sl port = some ⟨.sending, t⟩) :
    lineSent port p = p.setSlotNow (some (setSlotLine sl port ⟨.waiting, .running sl.replyLimit⟩)) := by
  unfold lineSent
  rw [h]
  exact modLine_some port _ p sl _ h k

/-- Settles O42: the three conditions of a start, and what a frame sent leaves behind. -/
theorem transmitterEvents : Obligations.TransmitterEvents := by
  intro s port x sent
  refine ⟨fun hIdle hQueue hBetween => ?starts, fun hNot => ?waits, fun f rest hSending hQueue hOther => ?sent,
    fun f rest sl t hSending hQueue hSlot hNow hLine => ?slot, fun hIdle => ?idle⟩
  case starts => exact completes_eq (f := transmitStarts port) (transmitStarts_begins hIdle hQueue hBetween)
  case waits => exact completes_eq (f := transmitStarts port) (transmitStarts_stays hNot)
  case sent =>
    refine completes_eq (f := transmitEnds port) ?_
    rw [transmitEnds_sending hSending hQueue, if_neg (by rw [hOther]; decide)]
  case slot =>
    refine completes_eq (f := transmitEnds port) ?_
    rw [transmitEnds_sending hSending hQueue, if_pos hSlot]
    exact lineSent_sending (p := sent) hNow hLine
  case idle => exact completes_eq (f := transmitEnds port) (transmitEnds_idle hIdle)

/-! ### Dispatch frames that close the slot (R138, R148) -/

/-- Settles O43: both frames reach the forwarding unit, which closes its slot record for them. -/
theorem dispatchFramesCloseTheSlot : Obligations.DispatchFramesCloseTheSlot := by
  intro s address payload hTakes hNode
  obtain ⟨hMode, hPort⟩ := hTakes
  refine ⟨?poll, fun hOther hSome hFits => ?request⟩
  case poll =>
    refine completes_eq (f := frameArrives .dispatch (.plantPoll address)) ?_
    exact frameArrives_relay .dispatch _ _ hMode hPort (by simp [frameValid, frameAccepted, addressSuits, fieldsValid, hNode])
  case request =>
    refine completes_eq (f := frameArrives .dispatch (.manageRequest address payload)) ?_
    rw [frameArrives_relay .dispatch _ _ hMode hPort
      (by simp [frameValid, frameAccepted, addressSuits, fieldsValid, hNode, hSome, hFits])]
    exact if_neg (by rw [received_settings]; exact hOther)

end Sys2Proof.Machine
end

section
/-! A frame is its characters (R122 to R134): the receiver collects them one by one, and the last one judges the whole frame. -/

namespace Sys2Proof.Machine

/-- The part when the first characters of a frame stand in the receiver, its first one noted. -/
def collected (port : Port) (chars : List Byte) (p : Part) : Part :=
  setReceiver port (.inFrame chars) (lineReceiving port p)

theorem collected_port (port : Port) (chars : List Byte) (p : Part) :
    (collected port chars p).link.port port = { p.link.port port with receiver := .inFrame chars } := by
  unfold collected setReceiver
  rw [modPort_link, port_setPort, if_pos rfl, lineReceiving_link]

theorem feedCharacter_eq (port : Port) (s : State) (c : Byte) :
    feedCharacter port s c = { s with part := characterArrives port c s.part } := by
  have hExec : exec (.frameFirstCharacter port c) s = .next { s with part := characterArrives port c s.part } :=
    completes_eq (f := characterArrives port c) rfl
  unfold feedCharacter
  rw [hExec]

theorem setReceiver_setReceiver (port : Port) (x y : Receiver) (p : Part) :
    setReceiver port y (setReceiver port x p) = setReceiver port y p := by
  unfold setReceiver
  rw [modPort_modPort]

/-- A character that neither completes the frame nor makes it over-long is collected. -/
theorem collected_next {port : Port} {chars : List Byte} {p : Part} (c : Byte) (h : (p.link.port port).sending = false)
    (hLong : overLong (chars ++ [c]) = false) (hSplit : splitFrame (chars ++ [c]) = none) :
    characterArrives port c (collected port chars p) = collected port (chars ++ [c]) p := by
  rw [characterArrives_next c (by rw [collected_port]; exact h) (by rw [collected_port])]
  unfold addCharacter
  rw [if_neg (by rw [hLong]; decide), hSplit]
  exact setReceiver_setReceiver port _ _ _

/-- The characters of a frame but the last one leave the receiver with all of them. -/
theorem feed_collects {port : Port} {f : Frame} {s : State} (h : (framePayload f).length ≤ 32) (hFree : s.part.lineFree port) :
    ∀ n, n + 1 < (wireChars f).length →
      feedCharacters port ((wireChars f).take (n + 1)) s = { s with part := collected port ((wireChars f).take (n + 1)) s.part }
  | 0, _ => by
    rw [wireChars_shape]
    change feedCharacter port s (frameKind f) = _
    rw [feedCharacter_eq, characterArrives_first _ hFree.1 hFree.2]
    rfl
  | n + 1, hn => by
    have hTake : (wireChars f).take (n + 2) = (wireChars f).take (n + 1) ++ [(wireChars f)[n + 1]] :=
      (List.take_append_getElem (Nat.lt_of_succ_lt hn)).symm
    have hLong := overLong_prefix f h (n + 2)
    have hSplit := split_prefix f h (n + 2) hn
    rw [hTake] at hLong hSplit ⊢
    unfold feedCharacters
    rw [List.foldl_append]
    change feedCharacter port (feedCharacters port ((wireChars f).take (n + 1)) s) _ = _
    rw [feed_collects h hFree n (Nat.lt_of_succ_lt hn), feedCharacter_eq, collected_next _ hFree.1 hLong hSplit]

/-- The last character of a valid frame hands the whole frame to its judgement. -/
theorem collected_last {port : Port} {f : Frame} {chars : List Byte} {c : Byte} {p : Part} (h : (framePayload f).length ≤ 32)
    (hSending : (p.link.port port).sending = false) (hWhole : chars ++ [c] = wireChars f) :
    characterArrives port c (collected port chars p) = judgeFrame port f (setReceiver port .betweenFrames (lineReceiving port p)) := by
  have hLong : overLong (wireChars f) = false := by
    have hAll := overLong_prefix f h (wireChars f).length
    rwa [List.take_length] at hAll
  rw [characterArrives_next c (by rw [collected_port]; exact hSending) (by rw [collected_port]), hWhole]
  unfold addCharacter
  rw [if_neg (by rw [hLong]; decide), split_wire f h]
  change judgeSplit port _ _ _ _ (setReceiver port .betweenFrames (setReceiver port (.inFrame chars) (lineReceiving port p))) = _
  rw [setReceiver_setReceiver]
  unfold judgeSplit
  rw [if_neg (not_not_intro rfl), parse_frame]

/-- Settles O39: all but the last character are collected, and the last one judges what a whole frame's arrival judges. -/
theorem framesAreTheirCharacters : Obligations.FramesAreTheirCharacters := by
  intro s port f hValid hFree
  have hFits := payload_fits port f hValid
  have hLength := wireChars_length f
  have hLast : (wireChars f).length - 1 < (wireChars f).length := by omega
  have hWhole : (wireChars f).take ((wireChars f).length - 1) ++ [(wireChars f)[(wireChars f).length - 1]] = wireChars f := by
    rw [List.take_append_getElem hLast, Nat.sub_add_cancel (by omega), List.take_length]
  have hCollects := feed_collects hFits hFree ((wireChars f).length - 2) (by omega)
  rw [show (wireChars f).length - 2 + 1 = (wireChars f).length - 1 by omega] at hCollects
  have hArrives : frameArrives port f s.part = judgeFrame port f (setReceiver port .betweenFrames (lineReceiving port s.part)) := by
    refine (completeFrame_takes _ ⟨hFree.1, fun h => Receiver.noConfusion (hFree.2.symm.trans h)⟩).trans ?_
    unfold Part.received noteFirst
    rw [hFree.2]
  calc feedCharacters port (wireChars f) s
      = feedCharacter port (feedCharacters port ((wireChars f).take ((wireChars f).length - 1)) s)
          (wireChars f)[(wireChars f).length - 1] := by
        conv => lhs; rw [← hWhole]
        exact List.foldl_append
    _ = { s with part := frameArrives port f s.part } := by
        rw [hCollects, feedCharacter_eq, collected_last hFits hFree.1 hWhole, hArrives]

end Sys2Proof.Machine
end

section
/-! The forwarding unit (R136, R139, R140, R148 to R151, R154): closing a slot, and the two dispatch frames it relays. -/

namespace Sys2Proof.Machine

/-! ### Closing a slot (R148, R149, R151) -/

theorem closeSlot_settles {p : Part} {sl : Slot} (h : p.slot = some sl) :
    closeSlot p = settleSlot sl (unmarkQueues { p with slot := none }) := by
  unfold closeSlot
  rw [h]

theorem settleSlot_plant {sl : Slot} (p : Part) (h : sl.kind = .plant) : settleSlot sl p = p := if_pos h

theorem settleSlot_nobody {sl : Slot} {p : Part} (h : sl.kind = .car) (k : p.findEnabled sl.address = none) :
    settleSlot sl p = p := by
  unfold settleSlot
  rw [if_neg (by rw [h]; decide), k]

theorem settleSlot_car {sl : Slot} {p : Part} {i : CarIdx} (h : sl.kind = .car) (k : p.findEnabled sl.address = some i) :
    settleSlot sl p = if anyAnswered sl = true then judgeLines i sl p else countMiss i p := by
  unfold settleSlot
  rw [if_neg (by rw [h]; decide), k]

theorem lineAnswered_iff (x : SlotLine) : lineAnswered x = true ↔ x.status = .answered := beq_iff_eq

theorem anyAnswered_iff (sl : Slot) :
    anyAnswered sl = true ↔ ∃ port y, slotLine sl port = some y ∧ y.status = .answered := by
  unfold anyAnswered expectedLines
  simp only [List.any_eq_true, List.mem_append, Option.mem_toList, beq_iff_eq]
  constructor
  · rintro ⟨y, (hLine | hLine) | hLine, hStatus⟩
    · exact ⟨.dispatch, y, hLine, hStatus⟩
    · exact ⟨.carA, y, hLine, hStatus⟩
    · exact ⟨.carB, y, hLine, hStatus⟩
  · rintro ⟨port, y, hLine, hStatus⟩
    cases port with
    | dispatch => exact ⟨y, .inl (.inl hLine), hStatus⟩
    | carA => exact ⟨y, .inl (.inr hLine), hStatus⟩
    | carB => exact ⟨y, .inr hLine, hStatus⟩

/-- LINE FAULT where a mark newly becomes FAULTY (R151). -/
def faultIfNew (limit : Nat) (h : LineHealth) (p : Part) : Part :=
  if (silentLine limit h).faulty = true ∧ h.faulty = false then raiseEvent .lineFault p else p

theorem faultIfNew_eq (limit : Nat) (h : LineHealth) (p : Part) :
    (if ((silentLine limit h).faulty && !h.faulty) = true then raiseEvent .lineFault p else p) = faultIfNew limit h p := by
  unfold faultIfNew
  exact ite_congr (by rw [Bool.and_eq_true, Bool.not_eq_true']) (fun _ => rfl) fun _ => rfl

theorem countSilentA_setCar (i : CarIdx) (c : Car) (p : Part) : countSilentA i (p.setCar i c)
    = faultIfNew p.link.settings.lineLimit c.lineA
      (p.setCar i { c with lineA := silentLine p.link.settings.lineLimit c.lineA }) := by
  unfold countSilentA
  dsimp only
  rw [modCar_setCar, car_setCar_self]
  exact faultIfNew_eq _ _ _

theorem countSilentB_setCar (i : CarIdx) (c : Car) (p : Part) : countSilentB i (p.setCar i c)
    = faultIfNew p.link.settings.lineLimit c.lineB
      (p.setCar i { c with lineB := silentLine p.link.settings.lineLimit c.lineB }) := by
  unfold countSilentB
  dsimp only
  rw [modCar_setCar, car_setCar_self]
  exact faultIfNew_eq _ _ _

/-- Both lines expected (R151). -/
theorem judgeLines_both {i : CarIdx} {sl : Slot} {p : Part} {a b : SlotLine} (ha : sl.carA = some a) (hb : sl.carB = some b) :
    (a.status = .answered → b.status = .answered →
      judgeLines i sl p = p.setCar i { p.car i with lineA := soundLine, lineB := soundLine })
    ∧ (a.status = .answered → b.status ≠ .answered → judgeLines i sl p
        = faultIfNew p.link.settings.lineLimit (p.car i).lineB (p.setCar i { p.car i with
          lineA := soundLine, lineB := silentLine p.link.settings.lineLimit (p.car i).lineB }))
    ∧ (a.status ≠ .answered → b.status = .answered → judgeLines i sl p
        = faultIfNew p.link.settings.lineLimit (p.car i).lineA (p.setCar i { p.car i with
          lineA := silentLine p.link.settings.lineLimit (p.car i).lineA, lineB := soundLine })) := by
  have hJudge : judgeLines i sl p = if lineAnswered a = true then
        if lineAnswered b = true then (p.modCar i fun c => { c with lineA := soundLine }).modCar i fun c => { c with lineB := soundLine }
        else countSilentB i (p.modCar i fun c => { c with lineA := soundLine })
      else if lineAnswered b = true then countSilentA i (p.modCar i fun c => { c with lineB := soundLine }) else p := by
    unfold judgeLines
    rw [ha, hb]
  rw [hJudge]
  refine ⟨fun hA hB => ?_, fun hA hB => ?_, fun hA hB => ?_⟩
  · rw [if_pos ((lineAnswered_iff a).mpr hA), if_pos ((lineAnswered_iff b).mpr hB), modCar_modCar]
    rfl
  · rw [if_pos ((lineAnswered_iff a).mpr hA), if_neg fun h => hB ((lineAnswered_iff b).mp h)]
    exact countSilentB_setCar i _ p
  · rw [if_neg fun h => hA ((lineAnswered_iff a).mp h), if_pos ((lineAnswered_iff b).mpr hB)]
    exact countSilentA_setCar i _ p

/-- One line expected, and it answered (R151). -/
theorem judgeLines_one {i : CarIdx} {sl : Slot} {p : Part} {x : SlotLine} (h : x.status = .answered) :
    (sl.carA = some x → sl.carB = none → judgeLines i sl p = p.setCar i { p.car i with lineA := soundLine })
    ∧ (sl.carA = none → sl.carB = some x → judgeLines i sl p = p.setCar i { p.car i with lineB := soundLine }) := by
  refine ⟨fun hA hB => ?_, fun hA hB => ?_⟩
  · unfold judgeLines
    rw [hA, hB]
    exact if_pos ((lineAnswered_iff x).mpr h)
  · unfold judgeLines
    rw [hA, hB]
    exact if_pos ((lineAnswered_iff x).mpr h)

/-- Settles O44: by the slot's kind, the record that holds its address, and which of its car lines answered. -/
theorem closedSlotSettlesThePoll : Obligations.ClosedSlotSettlesThePoll := by
  intro p sl hSlot unmarked closed up worse answered silent fault
  have hClose : closeSlot p = settleSlot sl closed := closeSlot_settles hSlot
  have hFault : ∀ h q, faultIfNew p.link.settings.lineLimit h q = fault h q := fun h q => rfl
  rw [hClose]
  refine ⟨fun hPlant => settleSlot_plant closed hPlant, fun hCar hNobody => settleSlot_nobody hCar hNobody,
    fun i hCar hFound hNoDispatch => ?_⟩
  intro c
  have hCase : settleSlot sl closed = if anyAnswered sl = true then judgeLines i sl closed else countMiss i closed :=
    settleSlot_car hCar hFound
  have hJudged : answered sl.carA ∨ answered sl.carB → settleSlot sl closed = judgeLines i sl closed := fun h => by
    refine hCase.trans (if_pos ((anyAnswered_iff sl).mpr ?_))
    obtain ⟨y, hLine, hStatus⟩ | ⟨y, hLine, hStatus⟩ := h
    · exact ⟨.carA, y, hLine, hStatus⟩
    · exact ⟨.carB, y, hLine, hStatus⟩
  refine ⟨fun hNone => ?missed, fun hA hB => ?both, fun hA hB => ?onlyA, fun hA hB => ?onlyB, fun hA hB => ?oneA, fun hA hB => ?oneB⟩
  case missed =>
    refine hCase.trans (if_neg fun h => ?_)
    obtain ⟨port, y, hLine, hStatus⟩ := (anyAnswered_iff sl).mp h
    cases port with
    | dispatch => exact Option.noConfusion rfl (heq_of_eq (hNoDispatch.symm.trans hLine))
    | carA => exact hNone.1 ⟨y, hLine, hStatus⟩
    | carB => exact hNone.2 ⟨y, hLine, hStatus⟩
  case both =>
    rw [hJudged (.inl hA)]
    obtain ⟨a, hLineA, hStatusA⟩ := hA
    obtain ⟨b, hLineB, hStatusB⟩ := hB
    exact (judgeLines_both hLineA hLineB).1 hStatusA hStatusB
  case onlyA =>
    rw [hJudged (.inl hA)]
    obtain ⟨a, hLineA, hStatusA⟩ := hA
    obtain ⟨b, hLineB, hStatusB⟩ := hB
    exact (judgeLines_both hLineA hLineB).2.1 hStatusA hStatusB
  case onlyB =>
    rw [hJudged (.inr hB)]
    obtain ⟨a, hLineA, hStatusA⟩ := hA
    obtain ⟨b, hLineB, hStatusB⟩ := hB
    exact (judgeLines_both hLineA hLineB).2.2 hStatusA hStatusB
  case oneA =>
    rw [hJudged (.inl hA)]
    obtain ⟨a, hLineA, hStatusA⟩ := hA
    exact (judgeLines_one hStatusA).1 hLineA hB
  case oneB =>
    rw [hJudged (.inr hB)]
    obtain ⟨b, hLineB, hStatusB⟩ := hB
    exact (judgeLines_one hStatusB).2 hA hLineB

/-! ### A mark relayed (R139, R136, R154) -/

theorem exec_cycleMark {s : State} {number : Byte} (h : s.part.takesRequest) (k : number.toNat ≤ 63) :
    exec (.cycleMark number) s = .next { s with part := restartSilence (takePendingSettings
      (handAll [.carA, .carB] ⟨wireChars (.cycleMark number), false⟩ s.part.slotClosed)) } :=
  completes_eq (f := frameArrives .dispatch (.cycleMark number))
    (frameArrives_relay .dispatch _ _ h.1 h.2 (by simp [frameValid, frameAccepted, addressSuits, fieldsValid, k]))

theorem port_settings (l : Link) (settings : LinkSettings) (pending : Option LinkSettings) (port : Port) :
    ({ l with settings := settings, pending := pending } : Link).port port = l.port port := by
  cases port with
  | dispatch => rfl
  | carA => rfl
  | carB => rfl

theorem mem_carPorts (port : Port) : port ∈ [Port.carA, Port.carB] ↔ ¬ port = .dispatch := by
  cases port <;> decide

/-- Settles O45: the mark is handed to both car ports behind the slot's close, and the settings and the silence follow. -/
theorem cycleMarkRelayed : Obligations.CycleMarkRelayed := by
  intro s number hTakes hRange q mark
  let sent : Part := handAll [.carA, .carB] mark q
  have hSent : sent = { q with link := sent.link } := handAll_only _ mark q
  have hSettled : sent.link.settings = q.link.settings ∧ sent.link.pending = q.link.pending := handAll_settings _ mark q
  have hPorts : sent.link = { q.link with dispatch := sent.link.dispatch, carA := sent.link.carA, carB := sent.link.carB } :=
    handAll_ports _ mark q
  have hPort : ∀ port, sent.link.port port = if port ∈ [Port.carA, Port.carB] then (q.link.port port).handed mark
      else q.link.port port := handAll_port _ mark (by decide) q
  have hSlot : q.slot = none := closeSlot_slot _
  have hRestarted : restartSilence (takePendingSettings sent) = { q with
      link := { sent.link with settings := q.link.pending.getD q.link.settings, pending := none }
      master := { q.master with
        silence := .running (q.link.pending.getD q.link.settings).silenceLimit
        silent := false } } := by
    rw [takePendingSettings_eq, hSettled.1, hSettled.2]
    clear_value sent
    rw [hSent]
    rfl
  refine ⟨{ s with part := restartSilence (takePendingSettings sent) }, exec_cycleMark hTakes hRange, fun port => ?_, ?_⟩
  · rw [hRestarted]
    change Link.port { sent.link with settings := _, pending := _ } port = _
    rw [port_settings, hPort]
    by_cases hDispatch : port = .dispatch
    · rw [if_pos hDispatch, if_neg ((not_congr (mem_carPorts port)).mpr (not_not_intro hDispatch))]
    · rw [if_neg hDispatch, if_pos ((mem_carPorts port).mpr hDispatch)]
      rfl
  · rw [hRestarted]
    exact ⟨rfl, rfl, rfl, hSlot, rfl, rfl, rfl, rfl, rfl, rfl, rfl, by rw [hPorts], by rw [hPorts]⟩

end Sys2Proof.Machine
end

section
/-! Orders (R140, R142 to R146): the CAR ORDER that the forwarding unit relays, and the issued order row by row. -/

namespace Sys2Proof.Machine

/-! ### An order relayed (R140, R146) -/

theorem exec_carOrder {s : State} {address : Byte} {o : OrderPayload} (h : s.part.takesRequest)
    (k : isCarAddress address = true) (v : orderValid o = true) :
    exec (.carOrder address o) s = .next { s with part := issueOrder address o (storeOrder address o s.part.slotClosed) } :=
  completes_eq (f := frameArrives .dispatch (.carOrder address o))
    (frameArrives_relay .dispatch _ _ h.1 h.2 (by simp [frameValid, frameAccepted, addressSuits, fieldsValid, k, v]))

/-- The record that holds an address is found by addresses and duties alone. -/
theorem findEnabled_congr {p q : Part} (h : ∀ i, (q.car i).address = (p.car i).address ∧ (q.car i).duty = (p.car i).duty)
    (address : Byte) : q.findEnabled address = p.findEnabled address := by
  unfold Part.findEnabled Car.enabled
  congr 1
  funext i
  obtain ⟨hAddress, hDuty⟩ := h i
  rw [hAddress, hDuty]

/-- A stored order leaves the lines that the issued order goes out on. -/
theorem orderPorts_storeOrder (address : Byte) (o : OrderPayload) (p : Part) :
    (storeOrder address o p).orderPorts address = p.orderPorts address := by
  unfold storeOrder
  cases hFound : p.findEnabled address with
  | none => rfl
  | some i =>
    have hSame : ∀ j, ((p.modCar i fun c => { c with order := some o }).car j).address = (p.car j).address
        ∧ ((p.modCar i fun c => { c with order := some o }).car j).duty = (p.car j).duty := fun j => by
      rw [car_modCar]
      by_cases hij : i = j
      · rw [if_pos hij, hij]
        exact ⟨rfl, rfl⟩
      · rw [if_neg hij]
        exact ⟨rfl, rfl⟩
    unfold Part.orderPorts
    dsimp only
    rw [findEnabled_congr hSame, hFound]
    dsimp only
    rw [car_modCar_self]

theorem orderPorts_carPorts (address : Byte) (p : Part) :
    (p.orderPorts address).Nodup ∧ Port.dispatch ∉ p.orderPorts address := by
  unfold Part.orderPorts
  cases p.findEnabled address with
  | none =>
    dsimp only
    decide
  | some i =>
    dsimp only
    cases (p.car i).lines <;> decide

theorem storeOrder_link (address : Byte) (o : OrderPayload) (p : Part) : (storeOrder address o p).link = p.link := by
  unfold storeOrder
  split
  · rfl
  · rfl

/-- A frame handed to car ports alone, and the slot that opens over them. -/
theorem issueOrder_eq (address : Byte) (o : OrderPayload) (p : Part) : issueOrder address o p
    = { handAll (p.orderPorts address) ⟨wireChars (.carOrder address (p.issuedOrder address (some o)).1), true⟩ p with
      slot := some (p.newSlot .car address (p.orderPorts address) (p.issuedOrder address (some o)).2 .stopped) } := rfl

/-- The slot record that opens over car ports (R146). -/
theorem newSlot_car {p : Part} {ports : List Port} (h : Port.dispatch ∉ ports) (address : Byte) (held : Bool) (bound : Timer) :
    p.newSlot .car address ports held bound = ⟨.car, false, address, none, openedLine p p.link.settings.replyLimit ports .carA,
      openedLine p p.link.settings.replyLimit ports .carB, p.link.settings.replyLimit, held, bound⟩ := by
  have hNone : openedLine p p.link.settings.replyLimit ports .dispatch = none := if_neg h
  unfold Part.newSlot
  rw [hNone]

theorem openedLine_eq {p q : Part} (h : q.link = p.link) (limit : Nat) (ports : List Port) (port : Port) :
    openedLine q limit ports port = if port ∈ ports then
      some (if (p.link.port port).queue.length < 4 then ⟨.sending, .stopped⟩ else ⟨.waiting, .running limit⟩) else none := by
  unfold openedLine Part.hasRoom
  rw [h]
  simp only [decide_eq_true_eq]

/-- Settles O46: the order is stored in the record, and its issued order goes out with a slot over the record's lines. -/
theorem carOrderRelayed : Obligations.CarOrderRelayed := by
  intro s address o hTakes hAddress hValid q r ports issued frame line
  have hStored : storeOrder address o q = r := rfl
  have hLink : r.link = q.link := hStored ▸ storeOrder_link address o q
  have hPorts : q.orderPorts address = ports := by
    dsimp only [ports]
    unfold Part.orderPorts
    cases q.findEnabled address with
    | none => rfl
    | some i =>
      dsimp only
      cases (q.car i).lines <;> rfl
  have hOrderPorts : r.orderPorts address = ports := hPorts ▸ hStored ▸ orderPorts_storeOrder address o q
  obtain ⟨hNodup, hCarOnly⟩ := hPorts ▸ orderPorts_carPorts address q
  have hSame : r = { q with cars := r.cars } := by
    dsimp only [r]
    split
    · rfl
    · rfl
  have hIssued : issueOrder address o r = { handAll ports frame r with
      slot := some ⟨.car, false, address, none, line .carA, line .carB, q.link.settings.replyLimit, issued.2, .stopped⟩ } := by
    rw [issueOrder_eq, hOrderPorts, newSlot_car hCarOnly, openedLine_eq hLink, openedLine_eq hLink, hLink]
  have hOnly := handAll_only ports frame r
  have hPort := handAll_port ports frame hNodup r
  have hKept := handAll_settings ports frame r
  rw [hLink] at hPort hKept
  refine ⟨{ s with part := issueOrder address o r }, hStored ▸ exec_carOrder hTakes hAddress hValid, ?_⟩
  rw [hIssued]
  generalize handAll ports frame r = sent at hOnly hPort hKept
  clear_value r
  refine ⟨by rw [hOnly], hPort, ⟨.stopped, rfl⟩, hKept.1, hKept.2, ?_⟩
  rw [hOnly, hSame]
  exact ⟨rfl, rfl, rfl, rfl, rfl, rfl, rfl⟩

/-! ### The issued order (R142 to R145) -/

theorem issuedOrder_normal {p : Part} {address : Byte} {o : OrderPayload} (h : p.sup.state = .normal) :
    p.issuedOrder address (some o) = (o, false) := if_pos h

theorem issuedOrder_stored {p : Part} {address : Byte} {i : CarIdx} {o : OrderPayload} (h : p.sup.state = .normal)
    (k : p.findEnabled address = some i) (ho : (p.car i).order = some o) : p.issuedOrder address none = (o, false) := by
  refine (if_pos h).trans ?_
  rw [k]
  dsimp only
  rw [ho]

theorem issuedOrder_absent {p : Part} {address : Byte} (h : p.sup.state = .normal)
    (k : ∀ i, p.findEnabled address = some i → (p.car i).order = none) : p.issuedOrder address none = (ownHalt none, true) := by
  refine (if_pos h).trans ?_
  cases hFound : p.findEnabled address with
  | none => rfl
  | some i =>
    dsimp only
    rw [k i hFound]

theorem issuedOrder_record {p : Part} {address : Byte} {received : Option OrderPayload} {i : CarIdx} (h : p.sup.state ≠ .normal)
    (k : p.findEnabled address = some i) : p.issuedOrder address received = p.recordOrder i := by
  unfold Part.issuedOrder
  rw [if_neg h, k]

/-- The order for an address that no record holds, outside NORMAL: the one received with the permit WITHHELD, or HALT. -/
def unheldOrder : Option OrderPayload → OrderPayload × Bool
  | some o => ({ o with permit := permitCode false }, true)
  | none => (ownHalt none, true)

theorem issuedOrder_nobody {p : Part} {address : Byte} {received : Option OrderPayload} (h : p.sup.state ≠ .normal)
    (k : p.findEnabled address = none) : p.issuedOrder address received = unheldOrder received := by
  refine (if_neg h).trans ?_
  rw [k]
  cases received with
  | none => rfl
  | some o => rfl

theorem permitCode_holdsRun (c : Car) : permitCode c.holdsRun = if c.run = .starting ∨ c.run = .running then 1 else 0 := by
  unfold permitCode Car.holdsRun
  exact ite_congr (by rw [Bool.or_eq_true, beq_iff_eq, beq_iff_eq]) (fun _ => rfl) fun _ => rfl

theorem effectiveDuty_eq {c : Car} {d : Duty} (h : c.duty ≠ .lost ∧ c.duty = d ∨ c.duty = .lost ∧ c.prior = some d) :
    effectiveDuty c = d := by
  unfold effectiveDuty
  obtain ⟨hHeard, hDuty⟩ | ⟨hLost, hPrior⟩ := h
  · rw [if_neg hHeard, hDuty]
  · rw [if_pos hLost, hPrior]
    rfl

theorem recordOrder_stops {p : Part} {i : CarIdx} (h : (p.car i).stopAtLanding = true) :
    p.recordOrder i = (ownOrder (some (p.car i)) .stopAtLanding none .none true, true) := if_pos h

/-- The order of a record by its effective duty, where no stop at the next landing is due (R143, R145). -/
def Part.orderFor (p : Part) (i : CarIdx) : Duty → OrderPayload × Bool
  | .service =>
    if p.master.mode = .relay then
      match (p.car i).order with
      | some o => ({ o with permit := permitCode (p.car i).holdsRun }, false)
      | none => (ownOrder (some (p.car i)) .halt none .none (p.car i).holdsRun, true)
    else (ownOrder (some (p.car i)) .halt none (if inZone (p.car i) then .opening else .none) (p.car i).holdsRun, true)
  | .recall => (ownOrder (some (p.car i)) .recall (some (p.recallFloor i)) .closing (p.car i).holdsRun, true)
  | .parked => (ownOrder (some (p.car i)) .park (some (p.recallFloor i)) .opening false, true)
  | _ => (ownOrder (some (p.car i)) .halt none .none false, true)

theorem recordOrder_duty {p : Part} {i : CarIdx} (h : (p.car i).stopAtLanding = false) :
    p.recordOrder i = p.orderFor i (effectiveDuty (p.car i)) := by
  unfold Part.recordOrder
  dsimp only
  rw [if_neg (by rw [h]; decide)]
  cases effectiveDuty (p.car i) <;> rfl

theorem orderFor_relayed {p : Part} {i : CarIdx} (h : p.master.mode = .relay) :
    (∀ o, (p.car i).order = some o → p.orderFor i .service = ({ o with permit := permitCode (p.car i).holdsRun }, false))
    ∧ ((p.car i).order = none →
      p.orderFor i .service = (ownOrder (some (p.car i)) .halt none .none (p.car i).holdsRun, true)) := by
  refine ⟨fun o ho => (if_pos h).trans ?_, fun ho => (if_pos h).trans ?_⟩
  · rw [ho]
  · rw [ho]

theorem orderFor_mastered {p : Part} {i : CarIdx} (h : p.master.mode ≠ .relay) : p.orderFor i .service
    = (ownOrder (some (p.car i)) .halt none (if inZone (p.car i) then .opening else .none) (p.car i).holdsRun, true) := if_neg h

/-- Without a run no order grants one. -/
theorem orderFor_withheld {p : Part} {i : CarIdx} (h : (p.car i).holdsRun = false) (d : Duty) :
    (p.orderFor i d).1.permit = permitCode false := by
  unfold Part.orderFor
  rw [h]
  repeat' split
  all_goals rfl

/-- A GRANTED permit goes to a car with a run alone (R144). -/
theorem recordOrder_permit {p : Part} {i : CarIdx} (h : (p.recordOrder i).1.permit = 1) : (p.car i).holdsRun = true := by
  by_cases hRun : (p.car i).holdsRun = true
  · exact hRun
  · exfalso
    have hNone : (p.car i).holdsRun = false := Bool.eq_false_iff.mpr hRun
    have hNoStop : (p.car i).stopAtLanding = false := by
      unfold Car.stopAtLanding
      rw [hNone, Bool.false_and]
    rw [recordOrder_duty hNoStop, orderFor_withheld hNone] at h
    exact absurd h (by decide)

/-- Settles O47: in NORMAL the dispatch order passes; outside it the record's order is that of its effective duty. -/
theorem issuedOrderTable : Obligations.IssuedOrderTable := by
  intro p address received halt
  refine ⟨fun o hNormal hReceived => ?passes, fun i o hNormal hNone hFound hOrder => ?stored, fun hNormal hNone hNoOrder => ?absent,
    fun hOff hNobody => ⟨fun o hReceived => ?unknown, fun hNone => ?nobody⟩, fun i d hOff hFound hDuty => ?record,
    fun hOff hPermit => ?granted⟩
  case passes => rw [hReceived, issuedOrder_normal hNormal]
  case stored => rw [hNone, issuedOrder_stored hNormal hFound hOrder]
  case absent =>
    rw [hNone, issuedOrder_absent hNormal hNoOrder]
    rfl
  case unknown =>
    rw [hReceived, issuedOrder_nobody hOff hNobody]
    rfl
  case nobody =>
    rw [hNone, issuedOrder_nobody hOff hNobody]
    rfl
  case record =>
    intro c own permit floor issued
    have hIssued : issued = p.recordOrder i := issuedOrder_record hOff hFound
    have hEffective : effectiveDuty c = d := effectiveDuty_eq hDuty
    have hPermit : permitCode c.holdsRun = permit := permitCode_holdsRun c
    rw [hIssued]
    refine ⟨fun hStop => recordOrder_stops hStop, fun hGoes => ?_⟩
    rw [recordOrder_duty hGoes, hEffective]
    refine ⟨fun hService hRelay => ⟨fun o hOrder => ?dispatch, fun hNoOrder => ?noOrder⟩,
      fun hService hMaster => ⟨fun l hLive hZone => ?inside, fun hOut => ?outside⟩, fun hRecall => ?recalled, fun hParked => ?parks,
      fun hHalt => ?halts⟩
    case dispatch =>
      subst hService
      rw [(orderFor_relayed hRelay).1 o hOrder, hPermit]
    case noOrder =>
      subst hService
      have hOwn : storedPrivate (some c) = [] := by
        unfold storedPrivate
        dsimp only
        rw [hNoOrder]
      rw [(orderFor_relayed hRelay).2 hNoOrder]
      unfold ownOrder
      rw [hOwn, ← hPermit]
      rfl
    case inside =>
      have hIn : inZone c = true := by
        unfold inZone
        rw [hLive]
        exact beq_iff_eq.mpr hZone
      subst hService
      rw [orderFor_mastered hMaster, if_pos hIn, ← hPermit]
      rfl
    case outside =>
      have hIn : inZone c = false := by
        unfold inZone
        cases hLive : c.live with
        | none => rfl
        | some l =>
          exact beq_eq_false_iff_ne.mpr (by rw [hOut l hLive]; decide)
      subst hService
      rw [orderFor_mastered hMaster, if_neg (by rw [hIn]; decide), ← hPermit]
      rfl
    case recalled =>
      subst hRecall
      rw [← hPermit]
      rfl
    case parks =>
      subst hParked
      rfl
    case halts =>
      obtain hStopped | hIsolated := hHalt
      · subst hStopped
        rfl
      · subst hIsolated
        rfl
  case granted =>
    cases hFound : p.findEnabled address with
    | some i =>
      rw [issuedOrder_record hOff hFound] at hPermit
      exact ⟨i, rfl, recordOrder_permit hPermit⟩
    | none =>
      rw [issuedOrder_nobody hOff hFound] at hPermit
      cases received with
      | none => exact absurd hPermit (by decide)
      | some o => exact absurd hPermit (by change ¬ permitCode false = 1; decide)

end Sys2Proof.Machine
end

section
/-! The slot in progress (R146 to R150, R154, R155, R158, R159): reports classed against it in RELAY, and its timers and those of the
cycle. -/

namespace Sys2Proof.Machine

/-! ### A slot that goes on in RELAY (R148) -/

theorem setSlotNow_relay {p : Part} (h : p.master.mode = .relay) (sl : Slot) :
    p.setSlotNow (some sl) = { p with slot := some sl } := if_pos h

theorem slotNow_relay {p : Part} (h : p.master.mode = .relay) : p.slotNow = p.slot := if_pos h

theorem goesOn_relay {p t : Part} {sl : Slot} (h : p.slotGoesOn t sl) (m : p.master.mode = .relay) :
    ((∃ port, sl.awaits port) → t = { p with slot := some sl })
    ∧ ((∀ port, ¬ sl.awaits port) → t = closeSlot { p with slot := some sl }) := by
  obtain ⟨hStays, hCloses⟩ := h
  exact ⟨fun hAwaited => (hStays hAwaited).trans (setSlotNow_relay m sl), fun hNone => (hCloses hNone).1 m⟩

/-- A line that is ANSWERED or SILENT is not awaited: the other lines decide. -/
theorem awaits_settled {sl next : Slot} {port : Port} {x : SlotLine} (h : x.status = .answered ∨ x.status = .silent)
    (hPort : slotLine next port = some x) (hOther : ∀ other, other ≠ port → slotLine next other = slotLine sl other) :
    (∃ other, next.awaits other) ↔ ∃ other, other ≠ port ∧ sl.awaits other := by
  have hSettled : ¬ next.awaits port := by
    rintro ⟨y, hLine, hNotAnswered, hNotSilent⟩
    rw [hPort] at hLine
    injection hLine with hLine
    rw [← hLine] at hNotAnswered hNotSilent
    exact h.elim hNotAnswered hNotSilent
  constructor
  · rintro ⟨other, hAwaits⟩
    have hNe : other ≠ port := fun hIs => hSettled (hIs ▸ hAwaits)
    unfold Slot.awaits at hAwaits ⊢
    exact ⟨other, hNe, hOther other hNe ▸ hAwaits⟩
  · rintro ⟨other, hNe, hAwaits⟩
    unfold Slot.awaits at hAwaits ⊢
    exact ⟨other, (hOther other hNe).symm ▸ hAwaits⟩

/-- A slot whose line is settled stays while another one is awaited, and otherwise closes. -/
theorem goesOn_settled {p t : Part} {sl next : Slot} {port : Port} {x : SlotLine} (h : p.slotGoesOn t next)
    (m : p.master.mode = .relay) (hx : x.status = .answered ∨ x.status = .silent) (hPort : slotLine next port = some x)
    (hOther : ∀ other, other ≠ port → slotLine next other = slotLine sl other) :
    ((∃ other, other ≠ port ∧ sl.awaits other) → t = { p with slot := some next })
    ∧ ((∀ other, other ≠ port → ¬ sl.awaits other) → t = closeSlot { p with slot := some next }) := by
  obtain ⟨hStays, hCloses⟩ := goesOn_relay h m
  have hAwaits := awaits_settled hx hPort hOther
  exact ⟨fun hAwaited => hStays (hAwaits.mpr hAwaited), fun hNone => hCloses (not_exists.mp fun hAwaited => by
    obtain ⟨other, hNe, hIs⟩ := hAwaits.mp hAwaited
    exact hNone other hNe hIs)⟩

/-- As before, where the part has the slot already. -/
theorem goesOn_answered {p t : Part} {sl next : Slot} {port : Port} {x : SlotLine} (h : p.slotGoesOn t next) (k : p.slot = some next)
    (m : p.master.mode = .relay) (hx : x.status = .answered ∨ x.status = .silent) (hPort : slotLine next port = some x)
    (hOther : ∀ other, other ≠ port → slotLine next other = slotLine sl other) :
    ((∃ other, other ≠ port ∧ sl.awaits other) → t = p)
      ∧ ((∀ other, other ≠ port → ¬ sl.awaits other) → t = closeSlot p) := by
  have hSettled := goesOn_settled h m hx hPort hOther
  rw [← k] at hSettled
  exact hSettled

/-! ### The class of a report (R147) -/

theorem lineIsReceiving_iff (sl : Slot) (port : Port) :
    lineIsReceiving sl port = true ↔ ∃ x, slotLine sl port = some x ∧ x.status = .receiving := by
  unfold lineIsReceiving
  cases slotLine sl port with
  | none => exact ⟨fun h => absurd h (by decide), fun ⟨_, h, _⟩ => Option.noConfusion rfl (heq_of_eq h)⟩
  | some x => exact ⟨fun h => ⟨x, rfl, beq_iff_eq.mp h⟩, fun ⟨y, h, k⟩ => beq_iff_eq.mpr (Option.some.inj h ▸ k)⟩

theorem classify_expected {sl : Slot} {port : Port} {address : Byte} (h : sl.kind = .car) (k : sl.address = address)
    (l : lineIsReceiving sl port = true) :
    classifyReport (some sl) port address = if sl.answered = true then .duplicate else .answer := if_pos ⟨h, k, l⟩

theorem classify_stray {sl : Slot} {port : Port} {address : Byte}
    (h : ¬ (sl.kind = .car ∧ sl.address = address ∧ lineIsReceiving sl port = true)) :
    classifyReport (some sl) port address = .stray := if_neg h

/-- The slot when the line x of it has been answered (R147). -/
def answeredSlot (sl : Slot) (port : Port) (x : SlotLine) : Slot :=
  { setSlotLine sl port { x with status := .answered } with answered := true }

theorem slotLine_answeredSlot (sl : Slot) (a b : Port) (x : SlotLine) :
    slotLine (answeredSlot sl a x) b = if a = b then some { x with status := .answered } else slotLine sl b := by
  rw [← slotLine_setSlotLine]
  cases a <;> cases b <;> rfl

theorem answerLine_expected {p : Part} {sl : Slot} {port : Port} {x : SlotLine} (h : p.slotNow = some sl)
    (k : slotLine sl port = some x) : answerLine port p = p.setSlotNow (some (answeredSlot sl port x)) := by
  unfold answerLine
  rw [h]
  dsimp only
  rw [k]
  rfl

/-- A report by its class (R147, R159). -/
theorem takeCarReport_stray {p : Part} {port : Port} {address : Byte} (r : ReportPayload)
    (h : classifyReport p.slotNow port address = .stray) : takeCarReport port address r p = frameEnds port (countStray p) := by
  unfold takeCarReport
  rw [h]

theorem takeCarReport_duplicate {p : Part} {port : Port} {address : Byte} (r : ReportPayload)
    (h : classifyReport p.slotNow port address = .duplicate) : takeCarReport port address r p = checkSlot (answerLine port p) := by
  unfold takeCarReport
  rw [h]

theorem takeCarReport_answer {p : Part} {port : Port} {address : Byte} (r : ReportPayload)
    (h : classifyReport p.slotNow port address = .answer) :
    takeCarReport port address r p
      = if p.master.mode = .relay then relayAnswer port address r p else masterAnswer port address r p := by
  unfold takeCarReport
  rw [h]

/-! ### A report in RELAY (R147, R150) -/

theorem exec_carReport {s : State} {port : Port} {address : Byte} {r : ReportPayload} (h : s.part.master.mode = .relay)
    (k : s.part.takesFrame port) (hCar : port ≠ .dispatch) (a : isCarAddress address = true) (v : reportValid r = true) :
    exec (.carReport port address r) s = .next { s with part := takeCarReport port address r (s.part.received port) } := by
  have hAccepted : frameAccepted port (.carReport address r) = true := by
    cases port with
    | dispatch => exact absurd rfl hCar
    | carA => rfl
    | carB => rfl
  exact completes_eq (f := frameArrives port (.carReport address r))
    (frameArrives_relay port _ _ h k (by simp [frameValid, hAccepted, addressSuits, fieldsValid, a, v]))

/-- The tracker leaves the slot record and the link master unit. -/
theorem takeReport_leaves (a : Byte) (l : Live) (p : Part) :
    (takeReport a l p).slot = p.slot ∧ (takeReport a l p).master = p.master :=
  ⟨(takeReport_carSide a l p).leaves.slot, (takeReport_carSide a l p).leaves.master⟩

theorem heldMarker_iff {p : Part} {sl : Slot} {address : Byte} (h : p.slot = some sl) : p.heldMarker address = true ↔
    sl.held = true ∨ (p.sup.state ≠ .normal ∧ p.findEnabled address = none) := by
  unfold Part.heldMarker
  rw [h, Bool.or_eq_true, Bool.and_eq_true, bne_iff_ne, Option.isNone_iff_eq_none]

/-- The answer's characters as forwarded (R150). -/
theorem forwardedReport_eq {held : Bool} {marker : Byte} (address : Byte) (r : ReportPayload) (h : held = true → marker = 2)
    (k : ¬ held = true → marker = 0) : forwardedReport held address r
      = wireChars (.carReport address { r with status := (r.status &&& 0xFD) ||| marker }) := by
  cases held with
  | true =>
    rw [h rfl]
    rfl
  | false =>
    rw [k Bool.false_ne_true]
    rfl

theorem relayAnswer_goesOn {p : Part} {sl : Slot} {port : Port} {x : SlotLine} (address : Byte) (r : ReportPayload)
    (m : p.master.mode = .relay) (h : p.slot = some sl) (k : slotLine sl port = some x) :
    let taken := takeReport address (reportLive r) (handFrame .dispatch ⟨forwardedReport (p.heldMarker address) address r, false⟩
      { p with slot := some (answeredSlot sl port x) })
    taken.slotGoesOn (relayAnswer port address r p) (answeredSlot sl port x) ∧ taken.slot = some (answeredSlot sl port x)
      ∧ taken.master = p.master := by
  intro taken
  have hNow : p.slotNow = some sl := (slotNow_relay m).trans h
  obtain ⟨hSlot, hMaster⟩ := takeReport_leaves address (reportLive r)
    (handFrame .dispatch ⟨forwardedReport (p.heldMarker address) address r, false⟩ { p with slot := some (answeredSlot sl port x) })
  have hTakenNow : taken.slotNow = some (answeredSlot sl port x) :=
    (slotNow_relay ((congrArg Master.mode hMaster).trans m)).trans hSlot
  refine ⟨?_, hSlot, hMaster⟩
  have hAnswer : relayAnswer port address r p = checkSlot taken := by
    unfold relayAnswer
    rw [answerLine_expected hNow k, setSlotNow_relay m]
  rw [hAnswer]
  exact checkSlot_slotNow taken _ hTakenNow

/-- Settles O48: an expected report answers or repeats, every other one is a stray, and the slot goes on without its line. -/
theorem carReportClassed : Obligations.CarReportClassed := by
  intro s port address r hMode hTakes hCar hAddress hValid q becomes strayed awaited becomesOrCloses
  have hModeQ : q.master.mode = .relay := (received_mode s.part port).trans hMode
  have hBecomes : ∀ t, takeCarReport port address r q = t → becomes t := fun t ht =>
    ht ▸ exec_carReport hMode hTakes hCar hAddress hValid
  have hNow : q.slotNow = q.slot := slotNow_relay hModeQ
  have hStray : ∀ sl, q.slot = some sl → ¬ (sl.kind = .car ∧ sl.address = address ∧ lineIsReceiving sl port = true) →
      takeCarReport port address r q = frameEnds port strayed ∧ strayed.frameEndsOn (frameEnds port strayed) port sl :=
    fun sl hSlot hNot => ⟨takeCarReport_stray r (by rw [hNow, hSlot]; exact classify_stray hNot),
      frameEnds_endsOn port strayed sl (hNow.trans hSlot)⟩
  refine ⟨fun sl x hSlot hLine hReceiving => ⟨fun hKind hHis => ?expected,
      fun hOther => ⟨fun n hTimer => ?waits, fun hTimer => ?silent⟩⟩,
    fun sl hSlot hAwaited hNot => ?elsewhere, fun hNone => ?idle⟩
  case expected =>
    intro next held marker hMarked hUnmarked forwarded
    have hClass : classifyReport q.slotNow port address = if sl.answered = true then .duplicate else .answer := by
      rw [hNow, hSlot]
      exact classify_expected hKind hHis ((lineIsReceiving_iff sl port).mpr ⟨x, hLine, hReceiving⟩)
    have hNextPort : slotLine next port = some { x with status := .answered } :=
      (slotLine_answeredSlot sl port port x).trans (if_pos rfl)
    have hNextOther : ∀ other, other ≠ port → slotLine next other = slotLine sl other := fun other hNe =>
      (slotLine_answeredSlot sl port other x).trans (if_neg (Ne.symm hNe))
    refine ⟨fun hFirst => ?answer, fun hAgain => ?duplicate⟩
    case answer =>
      have hForwarded : forwardedReport (q.heldMarker address) address r
          = wireChars (.carReport address { r with status := (r.status &&& 0xFD) ||| marker }) :=
        forwardedReport_eq address r (fun h => hMarked ((heldMarker_iff hSlot).mp h)) fun h => hUnmarked fun hIs =>
          h ((heldMarker_iff hSlot).mpr hIs)
      obtain ⟨hGoes, hTakenSlot, hTakenMaster⟩ := relayAnswer_goesOn address r hModeQ hSlot hLine
      rw [hForwarded] at hGoes hTakenSlot hTakenMaster
      have hAnswer : takeCarReport port address r q = relayAnswer port address r q := by
        rw [takeCarReport_answer r (by rw [hClass, hFirst]; rfl), if_pos hModeQ]
      obtain ⟨hStays, hCloses⟩ := goesOn_answered hGoes hTakenSlot ((congrArg Master.mode hTakenMaster).trans hModeQ) (.inl rfl)
        hNextPort hNextOther
      exact ⟨fun hOthers => hBecomes _ (hAnswer.trans (hStays hOthers)), fun hNone => hBecomes _ (hAnswer.trans (hCloses hNone))⟩
    case duplicate =>
      have hRepeats : takeCarReport port address r q = checkSlot (q.setSlotNow (some next)) := by
        rw [takeCarReport_duplicate r (by rw [hClass, hAgain]; rfl), answerLine_expected (hNow.trans hSlot) hLine]
        rfl
      obtain ⟨hStays, hCloses⟩ := goesOn_settled (checkSlot_goesOn q next) hModeQ (.inl rfl) hNextPort hNextOther
      exact ⟨fun hOthers => hBecomes _ (hRepeats.trans (hStays hOthers)), fun hNone => hBecomes _ (hRepeats.trans (hCloses hNone))⟩
  case waits =>
    obtain ⟨hTaken, hEnds⟩ := hStray sl hSlot fun h => hOther.elim (fun k => k h.1) fun k => k h.2.1
    obtain ⟨hStays, -⟩ := goesOn_relay ((hEnds.1 x hLine hReceiving).1 n hTimer) hModeQ
    refine hBecomes _ (hTaken.trans (hStays ⟨port, { x with status := .waiting }, ?_, LineStatus.noConfusion, LineStatus.noConfusion⟩))
    rw [slotLine_setSlotLine, if_pos rfl]
  case silent =>
    obtain ⟨hTaken, hEnds⟩ := hStray sl hSlot fun h => hOther.elim (fun k => k h.1) fun k => k h.2.1
    obtain ⟨hStays, hCloses⟩ := goesOn_settled (x := { x with status := .silent }) (sl := sl)
      ((hEnds.1 x hLine hReceiving).2 hTimer) hModeQ (.inr rfl) (by rw [slotLine_setSlotLine, if_pos rfl])
      fun other hNe => by rw [slotLine_setSlotLine, if_neg (Ne.symm hNe)]
    exact ⟨fun hOthers => hBecomes _ (hTaken.trans (hStays hOthers)), fun hNone => hBecomes _ (hTaken.trans (hCloses hNone))⟩
  case elsewhere =>
    obtain ⟨hTaken, hEnds⟩ := hStray sl hSlot fun h => by
      obtain ⟨x, hLine, hReceiving⟩ := (lineIsReceiving_iff sl port).mp h.2.2
      exact hNot x hLine hReceiving
    obtain ⟨hStays, -⟩ := goesOn_relay (hEnds.2 hNot) hModeQ
    refine hBecomes _ (hTaken.trans ((hStays hAwaited).trans ?_))
    rw [← hSlot]
  case idle =>
    refine hBecomes _ ?_
    rw [takeCarReport_stray r (by rw [hNow, hNone]; rfl)]
    exact frameEnds_none port strayed (hNow.trans hNone)

end Sys2Proof.Machine
end

section
/-! The timers of the slot and of the cycle (R146, R154, R155, R157 to R159), and the frames that reach the link master unit (R159 to
R164). -/

namespace Sys2Proof.Machine

/-! ### The timers of a line (R146, R159) -/

/-- The line after its reply timer has expired. -/
theorem replyTimerExpires_running {p : Part} {sl : Slot} {port : Port} {status : LineStatus} {n : Nat} (h : p.slotNow = some sl)
    (k : slotLine sl port = some ⟨status, .running n⟩) : replyTimerExpires port p = checkSlot (p.setSlotNow
      (some (setSlotLine sl port ⟨if status = .waiting then .silent else status, .expired⟩))) := by
  unfold replyTimerExpires
  rw [modLine_some port _ p sl _ h k]

theorem sendingLineExpires_sending {p : Part} {sl : Slot} {port : Port} {timer : Timer} (m : p.master.mode ≠ .relay)
    (h : p.slotNow = some sl) (k : slotLine sl port = some ⟨.sending, timer⟩) :
    sendingLineExpires port p = checkSlot (p.setSlotNow (some (setSlotLine sl port ⟨.silent, timer⟩))) := by
  unfold sendingLineExpires
  rw [if_neg m, modLine_some port _ p sl _ h k, if_pos rfl]

theorem exec_replyTimerExpiry (port : Port) (s : State) :
    exec (.replyTimerExpiry port) s = .next { s with part := replyTimerExpires port s.part } :=
  completes_eq (f := replyTimerExpires port) rfl

theorem exec_sendingLineTimeout (port : Port) (s : State) :
    exec (.sendingLineTimeout port) s = .next { s with part := sendingLineExpires port s.part } :=
  completes_eq (f := sendingLineExpires port) rfl

/-- Settles O50: each timer moves its line and lets the slot go on; with no slot there is no line to move. -/
theorem lineTimersSilence : Obligations.LineTimersSilence := by
  intro s port
  rw [exec_replyTimerExpiry, exec_sendingLineTimeout]
  refine ⟨fun hNone => ⟨?noReply, ?noSending⟩, fun sl hNow => ⟨fun n hLine => ⟨_, rfl, ?waiting⟩, fun n hLine => ?receiving,
    fun timer hMaster hLine => ⟨_, rfl, ?sending⟩, fun hRelay => ?relayed⟩⟩
  case noReply =>
    have hStays : replyTimerExpires port s.part = s.part := by
      unfold replyTimerExpires
      rw [modLine_none port _ s.part hNone, checkSlot_none s.part hNone]
    rw [hStays]
  case noSending =>
    have hStays : sendingLineExpires port s.part = s.part := by
      unfold sendingLineExpires
      rw [modLine_none port _ s.part hNone, checkSlot_none s.part hNone, ite_self]
    rw [hStays]
  case waiting =>
    rw [replyTimerExpires_running hNow hLine]
    exact checkSlot_goesOn s.part _
  case receiving =>
    have hAwaits : (setSlotLine sl port ⟨.receiving, .expired⟩).awaits port :=
      ⟨_, (slotLine_setSlotLine sl port port _).trans (if_pos rfl), LineStatus.noConfusion, LineStatus.noConfusion⟩
    have hStays : replyTimerExpires port s.part = s.part.setSlotNow (some (setSlotLine sl port ⟨.receiving, .expired⟩)) := by
      rw [replyTimerExpires_running hNow hLine]
      exact (checkSlot_goesOn s.part _).1 ⟨port, hAwaits⟩
    rw [hStays]
  case sending =>
    rw [sendingLineExpires_sending hMaster hNow hLine]
    exact checkSlot_goesOn s.part _
  case relayed =>
    have hStays : sendingLineExpires port s.part = s.part := if_pos hRelay
    rw [hStays]

/-! ### Silence and the cycle period (R154, R155, R158) -/

theorem silenceExpires_relay {p : Part} {n : Nat} (h : p.master.silence = .running n) (m : p.master.mode = .relay) :
    silenceExpires p = takeOverIfSilent (raiseEvent .dispatchSilent
      { p with master := { p.master with silence := .expired, silent := true } }) := by
  unfold silenceExpires
  rw [if_pos (isRunning_running h)]
  exact if_pos m

theorem periodExpires_running {p : Part} {n : Nat} (h : p.master.period = .running n) :
    periodExpires p = if p.master.phase = .wait ∧ p.master.mode = .master then
        startCycle { p with master := { p.master with period := .expired } }
      else { p with master := { p.master with period := .expired } } := by
  unfold periodExpires
  exact if_pos (isRunning_running h)

/-- Settles O51: outside NORMAL a silent dispatch is taken over from, and a waiting master begins its next cycle. -/
theorem silenceAndPeriodExpiry : Obligations.SilenceAndPeriodExpiry := by
  intro s n
  refine ⟨fun hTimer hMode => ?silence, fun hTimer => ?period⟩
  case silence =>
    intro silent
    have hExpires : silenceExpires s.part = takeOverIfSilent silent := silenceExpires_relay hTimer hMode
    refine ⟨fun hNormal => completes_eq (f := silenceExpires) ?_, fun hOff => ⟨takeOver silent, completes_eq (f := silenceExpires) ?_,
      takeOver_takesOver silent⟩⟩
    · rw [hExpires]
      exact takeOverIfSilent_else (p := silent) (.inl hNormal)
    · rw [hExpires]
      exact takeOverIfSilent_holds (p := silent) hMode rfl hOff
  case period =>
    intro expired
    refine ⟨fun hMaster hWait => ⟨startCycle expired, completes_eq (f := periodExpires) ?_, startCycle_begins expired⟩,
      fun hNot => completes_eq (f := periodExpires) ?_⟩
    · rw [periodExpires_running hTimer, if_pos ⟨hWait, hMaster⟩]
    · rw [periodExpires_running hTimer, if_neg fun h => hNot.elim (fun k => k h.2) fun k => k h.1]

/-! ### Reports to the link master unit (R159, R160, R163) -/

theorem setSlotNow_master {p : Part} (h : p.master.mode ≠ .relay) (sl : Slot) :
    p.setSlotNow (some sl) = { p with master := { p.master with slot := some sl } } := if_neg h

theorem slotNow_master {p : Part} (h : p.master.mode ≠ .relay) : p.slotNow = p.master.slot := if_neg h

theorem exec_masterCarReport {s : State} {port : Port} {address : Byte} {r : ReportPayload} (h : s.part.master.mode ≠ .relay)
    (k : s.part.takesFrame port) (hCar : port ≠ .dispatch) (a : isCarAddress address = true) (v : reportValid r = true) :
    exec (.masterCarReport port address r) s = .next { s with part := takeCarReport port address r (s.part.received port) } := by
  have hAccepted : frameAccepted port (.carReport address r) = true := by
    cases port with
    | dispatch => exact absurd rfl hCar
    | carA => rfl
    | carB => rfl
  exact completes_eq (f := frameArrives port (.carReport address r))
    (frameArrives_master port _ _ h k (by simp [frameValid, hAccepted, addressSuits, fieldsValid, a, v]))

theorem exec_masterPlantReport {s : State} {address : Byte} {power freq : Word16} {flags : Byte}
    (h : s.part.master.mode ≠ .relay) (k : s.part.takesFrame .dispatch) (a : isNodeAddress address = true) :
    exec (.masterPlantReport address power freq flags) s
      = .next { s with part := masterPlant address power freq flags (s.part.received .dispatch) } :=
  completes_eq (f := frameArrives .dispatch (.plantReport address power freq flags))
    (frameArrives_master .dispatch _ _ h k (by simp [frameValid, frameAccepted, addressSuits, fieldsValid, a]))

/-- An answer in MASTER and HANDBACK goes to the tracker, and then the slot goes on (R159). -/
theorem masterAnswer_goesOn {p : Part} {sl : Slot} {port : Port} {x : SlotLine} (address : Byte) (r : ReportPayload)
    (m : p.master.mode ≠ .relay) (h : p.master.slot = some sl) (k : slotLine sl port = some x) :
    (takeReport address (reportLive r) { p with master := { p.master with slot := some (answeredSlot sl port x) } }).slotGoesOn
      (masterAnswer port address r p) (answeredSlot sl port x) := by
  have hNow : p.slotNow = some sl := (slotNow_master m).trans h
  obtain ⟨-, hMaster⟩ := takeReport_leaves address (reportLive r)
    { p with master := { p.master with slot := some (answeredSlot sl port x) } }
  have hAnswer : masterAnswer port address r p = checkSlot (takeReport address (reportLive r)
      { p with master := { p.master with slot := some (answeredSlot sl port x) } }) := by
    unfold masterAnswer
    rw [answerLine_expected hNow k, setSlotNow_master m]
  rw [hAnswer]
  generalize takeReport address (reportLive r) { p with master := { p.master with slot := some (answeredSlot sl port x) } } = taken
    at hMaster
  refine checkSlot_slotNow taken _ ((slotNow_master ?_).trans ?_)
  · rw [hMaster]
    exact m
  · rw [hMaster]

theorem answersPlantSlot_iff {p : Part} {sl : Slot} {address : Byte} (h : p.master.slot = some sl) :
    p.answersPlantSlot address = true
      ↔ sl.kind = .plant ∧ sl.address = address ∧ ∃ x, sl.dispatch = some x ∧ x.status = .receiving := by
  unfold Part.answersPlantSlot
  rw [h, Bool.and_eq_true, Bool.and_eq_true, beq_iff_eq, beq_iff_eq, lineIsReceiving_iff, and_assoc]
  rfl

/-- The answer of the plant slot is taken, and then the slot goes on (R160). -/
theorem masterPlant_goesOn {p : Part} {sl : Slot} {x : SlotLine} {address : Byte} (power freq : Word16) (flags : Byte)
    (m : p.master.mode ≠ .relay) (h : p.master.slot = some sl) (hKind : sl.kind = .plant) (hAddress : sl.address = address)
    (k : sl.dispatch = some x) (hReceiving : x.status = .receiving) :
    (takePlantReport power freq (flags.getLsbD 0)
      { p with master := { p.master with slot := some (answeredSlot sl .dispatch x) } }).slotGoesOn
      (masterPlant address power freq flags p) (answeredSlot sl .dispatch x) := by
  have hNow : p.slotNow = some sl := (slotNow_master m).trans h
  have hMaster : (takePlantReport power freq (flags.getLsbD 0)
      { p with master := { p.master with slot := some (answeredSlot sl .dispatch x) } }).master
        = { p.master with slot := some (answeredSlot sl .dispatch x) } :=
    (takePlantReport_carSide power freq (flags.getLsbD 0) _).leaves.master
  have hAnswer : masterPlant address power freq flags p = checkSlot (takePlantReport power freq (flags.getLsbD 0)
      { p with master := { p.master with slot := some (answeredSlot sl .dispatch x) } }) := by
    unfold masterPlant
    rw [if_pos ((answersPlantSlot_iff h).mpr ⟨hKind, hAddress, x, k, hReceiving⟩),
      answerLine_expected (port := .dispatch) hNow k, setSlotNow_master m]
  rw [hAnswer]
  generalize takePlantReport power freq (flags.getLsbD 0)
    { p with master := { p.master with slot := some (answeredSlot sl .dispatch x) } } = taken at hMaster
  refine checkSlot_slotNow taken _ ((slotNow_master ?_).trans ?_)
  · rw [hMaster]
    exact m
  · rw [hMaster]

/-- A dispatch frame passed by, counted in HANDBACK (R161, R163). -/
def passedBy (p : Part) : Part := if p.master.mode = .handback then countDropped p else p

theorem passedBy_slotNow (p : Part) : (passedBy p).slotNow = p.slotNow := by
  unfold passedBy
  split
  · rfl
  · rfl

theorem passDispatchFrame_eq (p : Part) : passDispatchFrame p = frameEnds .dispatch (passedBy p) := rfl

theorem masterPlant_passes {p : Part} {address : Byte} (power freq : Word16) (flags : Byte)
    (h : ¬ p.answersPlantSlot address = true) : masterPlant address power freq flags p = frameEnds .dispatch (passedBy p) := if_neg h

theorem answersPlantSlot_none {p : Part} (h : p.master.slot = none) (address : Byte) : ¬ p.answersPlantSlot address = true := by
  unfold Part.answersPlantSlot
  rw [h]
  exact Bool.false_ne_true

/-- Settles O52: the answers are taken before the slot goes on; every other report passes by, counted. -/
theorem masterReports : Obligations.MasterReports := by
  intro s port address r power freq flags
  refine ⟨fun hMode hTakes hCar hAddress hValid => ?car, fun hMode hTakes hAddress => ?plant⟩
  case car =>
    intro q becomes strayed
    have hBecomes : becomes (takeCarReport port address r q) := exec_masterCarReport hMode hTakes hCar hAddress hValid
    have hModeQ : q.master.mode ≠ .relay := fun h => hMode ((received_mode s.part port).symm.trans h)
    have hNow : q.slotNow = q.master.slot := slotNow_master hModeQ
    refine ⟨fun sl x hSlot hKind hHis hLine hReceiving => ?expected, fun sl hSlot hNot => ?stray, fun hNone => ?none⟩
    case expected =>
      intro next
      have hClass : classifyReport q.slotNow port address = if sl.answered = true then .duplicate else .answer := by
        rw [hNow, hSlot]
        exact classify_expected hKind hHis ((lineIsReceiving_iff sl port).mpr ⟨x, hLine, hReceiving⟩)
      refine ⟨_, hBecomes, fun hFirst => ?_, fun hAgain => ?_⟩
      · rw [takeCarReport_answer r (by rw [hClass, hFirst]; rfl), if_neg hModeQ]
        exact masterAnswer_goesOn address r hModeQ hSlot hLine
      · rw [takeCarReport_duplicate r (by rw [hClass, hAgain]; rfl), answerLine_expected (hNow.trans hSlot) hLine]
        exact checkSlot_goesOn q next
    case stray =>
      refine ⟨_, hBecomes, ?_⟩
      have hNotExpected : ¬ (sl.kind = .car ∧ sl.address = address ∧ lineIsReceiving sl port = true) := by
        rintro ⟨hKind, hHis, hReceiving⟩
        obtain ⟨x, hLine, hStatus⟩ := (lineIsReceiving_iff sl port).mp hReceiving
        obtain hNotCar | hNotHis | hNotReceiving := hNot
        · exact hNotCar hKind
        · exact hNotHis hHis
        · exact hNotReceiving x hLine hStatus
      rw [takeCarReport_stray r (by rw [hNow, hSlot]; exact classify_stray hNotExpected)]
      exact frameEnds_endsOn port strayed sl (hNow.trans hSlot)
    case none =>
      have hStray : takeCarReport port address r q = strayed := by
        rw [takeCarReport_stray r (by rw [hNow, hNone]; rfl)]
        exact frameEnds_none port strayed (hNow.trans hNone)
      exact hStray ▸ hBecomes
  case plant =>
    intro q becomes passed
    have hBecomes : becomes (masterPlant address power freq flags q) := exec_masterPlantReport hMode hTakes hAddress
    have hModeQ : q.master.mode ≠ .relay := fun h => hMode ((received_mode s.part .dispatch).symm.trans h)
    have hPassed : passedBy q = passed := by
      unfold passedBy
      rw [received_mode]
      rfl
    have hNow : passed.slotNow = q.master.slot := hPassed ▸ (passedBy_slotNow q).trans (slotNow_master hModeQ)
    refine ⟨fun sl x hSlot hKind hHis hLine hReceiving => ⟨_, hBecomes, ?_⟩,
      fun sl hSlot hNot => ⟨_, hBecomes, ?_⟩, fun hNone => ?_⟩
    · exact masterPlant_goesOn power freq flags hModeQ hSlot hKind hHis hLine hReceiving
    · rw [masterPlant_passes power freq flags, hPassed]
      · exact frameEnds_endsOn .dispatch passed sl (hNow.trans hSlot)
      · rw [answersPlantSlot_iff hSlot]
        rintro ⟨hKind, hHis, x, hLine, hStatus⟩
        obtain hNotPlant | hNotHis | hNotReceiving := hNot
        · exact hNotPlant hKind
        · exact hNotHis hHis
        · exact hNotReceiving x hLine hStatus
    · have hPasses : masterPlant address power freq flags q = passed := by
        rw [masterPlant_passes power freq flags (answersPlantSlot_none hNone address), hPassed]
        exact frameEnds_none .dispatch passed (hNow.trans hNone)
      exact hPasses ▸ hBecomes

/-! ### Dispatch frames to the link master unit (R161 to R164) -/

theorem received_phase {p : Part} (port : Port) (h : p.master.mode ≠ .relay) : (p.received port).master.phase = p.master.phase := by
  rw [received_master p port h]

theorem masterMark_begins {p : Part} (h : p.master.mode = .master) : masterMark p
    = if p.master.phase = .slots then frameEnds .dispatch { p with master := { p.master with mode := .handback } }
      else p.handedBack := if_pos h

theorem masterMark_passes {p : Part} (h : p.master.mode ≠ .master) : masterMark p = frameEnds .dispatch (passedBy p) := if_neg h

/-- A valid dispatch frame that is neither a mark nor the answer of the plant slot passes by. -/
theorem masterFrame_passes {p : Part} {f : Frame} (h : frameValid .dispatch f = true)
    (hMark : ∀ n, f = .cycleMark n → p.master.mode ≠ .master)
    (hAnswer : ∀ address power freq flags, f = .plantReport address power freq flags → ¬ p.answersPlantSlot address = true) :
    masterFrame .dispatch f p = frameEnds .dispatch (passedBy p) := by
  cases f with
  | cycleMark n => exact masterMark_passes (hMark n rfl)
  | carOrder address o => exact passDispatchFrame_eq p
  | carReport address r => exact absurd h Bool.false_ne_true
  | plantPoll address => exact passDispatchFrame_eq p
  | plantReport address power freq flags => exact masterPlant_passes power freq flags (hAnswer address power freq flags rfl)
  | manageRequest address payload => exact passDispatchFrame_eq p

/-- A frame that passes by ends on the dispatch port, with or without a slot open. -/
theorem frameEnds_passes {p : Part} (h : p.master.mode ≠ .relay) :
    (p.master.slot = none → frameEnds .dispatch p = p)
    ∧ ∀ sl, p.master.slot = some sl → p.frameEndsOn (frameEnds .dispatch p) .dispatch sl :=
  ⟨fun hNone => frameEnds_none .dispatch p ((slotNow_master h).trans hNone),
    fun sl hSlot => frameEnds_endsOn .dispatch p sl ((slotNow_master h).trans hSlot)⟩

/-- Settles O53: a mark turns the mode, or completes the handback; every other frame that is no answer ends on the port alone. -/
theorem masterDispatchFrames : Obligations.MasterDispatchFrames := by
  intro s number f hTakes q passes answers
  have hModeQ : q.master.mode = s.part.master.mode := received_mode s.part .dispatch
  have hPasses : ∀ (c : Instr) (p : Part), p.master.mode ≠ .relay → p.master.slot = q.master.slot →
      exec c s = .next { s with part := frameEnds .dispatch p } → passes c p := fun c p hMode hSlot hExec => by
    obtain ⟨hNoSlot, hSome⟩ := frameEnds_passes hMode
    refine ⟨fun hNone => ?_, fun sl hIs => ⟨_, hExec, hSome sl (hSlot.trans hIs)⟩⟩
    rw [hExec, hNoSlot (hSlot.trans hNone)]
  have hNoAnswer : ¬ answers → ∀ address power freq flags, f = .plantReport address power freq flags →
      ¬ q.answersPlantSlot address = true := fun hNot address power freq flags hIs hAnswers => by
    cases hSlot : q.master.slot with
    | none => exact answersPlantSlot_none hSlot address hAnswers
    | some sl =>
      obtain ⟨hKind, hHis, x, hLine, hReceiving⟩ := (answersPlantSlot_iff hSlot).mp hAnswers
      exact hNot ⟨address, power, freq, flags, sl, x, hIs, hSlot, hKind, hHis, hLine, hReceiving⟩
  refine ⟨fun hMaster hRange => ?mark, fun hMaster hValid hNoMark hNot => ?ignored, fun hHandback hValid hNot => ?dropped⟩
  case mark =>
    have hNotRelay : s.part.master.mode ≠ .relay := fun h => LinkMode.noConfusion (hMaster.symm.trans h)
    have hExec : exec (.masterCycleMark number) s = .next { s with part := masterMark q } :=
      completes_eq (f := frameArrives .dispatch (.cycleMark number)) (frameArrives_master .dispatch _ _ hNotRelay hTakes
        (by simp [frameValid, frameAccepted, addressSuits, fieldsValid, hRange]))
    rw [masterMark_begins (hModeQ.trans hMaster), received_phase .dispatch hNotRelay] at hExec
    refine ⟨fun hWaits => ?_, fun hSlots => ?_⟩
    · rw [hExec, if_neg hWaits]
    · rw [if_pos hSlots] at hExec
      exact hPasses _ { q with master := { q.master with mode := .handback } } LinkMode.noConfusion rfl hExec
  case ignored =>
    have hNotRelay : s.part.master.mode ≠ .relay := fun h => LinkMode.noConfusion (hMaster.symm.trans h)
    have hPassed : passedBy q = q := if_neg fun h => LinkMode.noConfusion ((hModeQ.trans hMaster).symm.trans h)
    have hFrame : masterFrame .dispatch f q = frameEnds .dispatch q :=
      (masterFrame_passes hValid (fun n h => absurd h (hNoMark n)) (hNoAnswer hNot)).trans (by rw [hPassed])
    refine hPasses _ q (fun h => hNotRelay (hModeQ.symm.trans h)) rfl ?_
    exact completes_eq (f := frameArrives .dispatch f) ((frameArrives_master .dispatch f _ hNotRelay hTakes hValid).trans hFrame)
  case dropped =>
    have hNotRelay : s.part.master.mode ≠ .relay := fun h => LinkMode.noConfusion (hHandback.symm.trans h)
    have hPassed : passedBy q = countDropped q := if_pos (hModeQ.trans hHandback)
    have hFrame : masterFrame .dispatch f q = frameEnds .dispatch (countDropped q) :=
      (masterFrame_passes hValid (fun n _ h => LinkMode.noConfusion ((hModeQ.trans hHandback).symm.trans h)) (hNoAnswer hNot)).trans
        (by rw [hPassed])
    refine hPasses _ (countDropped q) (fun h => hNotRelay (hModeQ.symm.trans h)) rfl ?_
    exact completes_eq (f := frameArrives .dispatch f) ((frameArrives_master .dispatch f _ hNotRelay hTakes hValid).trans hFrame)

end Sys2Proof.Machine
end

section
/-! Requests of the part (R166 to R168, R176): from serving to the reply, and what a READ answers or refuses. -/

namespace Sys2Proof.Machine

/-! ### From serving to the reply (R167) -/

/-- A command that stands for a request ends with the reply to what serving it gives. -/
theorem exec_served {s : State} {c : Instr} {payload : List Byte} {code : Result} {data : List Byte} {t : Part}
    (hc : exec c s = completes (requestArrives payload) s) (h : s.part.servesRequest)
    (hFits : 1 ≤ payload.length ∧ payload.length ≤ 32) (hs : serveRequest payload s.part.slotClosed = (⟨code, data⟩, t)) :
    exec c s = .next { s with part := t.replied (resultCode code) data } :=
  hc.trans (request_answers s payload ⟨code, data⟩ t h hFits.1 hFits.2 hs)

/-! ### READ (R168) -/

theorem map_indexOf {n : Nat} (h : n ≤ 256) (f : Fin n → List Byte) (i : Fin n) :
    (indexOf n (BitVec.ofNat 8 i.val)).map f = some (f i) := by
  rw [indexOf_index n h i]
  rfl

theorem map_indexOf_none {n : Nat} {b : Byte} (h : n ≤ b.toNat) (f : Fin n → List Byte) : (indexOf n b).map f = none := by
  rw [indexOf_none n b h]
  rfl

theorem onlyEntry_none {b : Byte} (h : 1 ≤ b.toNat) (data : List Byte) : onlyEntry b data = none := by
  refine if_neg fun hZero => ?_
  rw [hZero] at h
  exact absurd h (by decide)

theorem serveRead_noTable {code : Byte} (rest : List Byte) (p : Part) (h : tableOf code = none) :
    serveRead (code :: rest) p = answer .badTable p := by
  simp only [serveRead, h]

theorem serveRead_noSelector {code selector : Byte} {t : Table} (rest : List Byte) (p : Part) (h : tableOf code = some t)
    (k : selectorAllowed t selector.toNat = false) : serveRead (code :: selector :: rest) p = answer .badTable p := by
  simp only [serveRead, h, k, Bool.false_eq_true, if_false]

theorem serveRead_noEntry {code selector index : Byte} {t : Table} {p : Part} (h : tableOf code = some t)
    (k : selectorAllowed t selector.toNat = true) (e : tableEntry p t selector.toNat index = none) :
    serveRead [code, selector, index] p = answer .badIndex p := by
  simp only [serveRead, h, k, e, if_true]

theorem tableOf_none {code : Byte} (h : code = 0 ∨ 13 < code.toNat) : tableOf code = none := by
  obtain hZero | hHigh := h
  · rw [hZero]
    rfl
  · unfold tableOf
    split
    case h_14 => rfl
    all_goals omega

/-- The car status table is table 3 alone. -/
theorem tableOf_carStatus {code : Byte} (h : tableOf code = some .carStatus) : code = 3 := by
  unfold tableOf at h
  split at h
  case h_3 hThree => exact BitVec.eq_of_toNat_eq hThree
  all_goals exact absurd h (by decide)

/-- Beside the car status table, no table allows a selector above 1. -/
theorem selectorAllowed_high {t : Table} {n : Nat} (h : t ≠ .carStatus) (k : 1 < n) : selectorAllowed t n = false := by
  cases t <;> simp [selectorAllowed] at h ⊢ <;> omega

theorem tableOf_eq {code : Byte} {n : Nat} (h : code.toNat = n) (k : n < 256) : tableOf code = tableOf (BitVec.ofNat 8 n) := by
  congr 1
  refine BitVec.eq_of_toNat_eq ?_
  rw [h, BitVec.toNat_ofNat, Nat.mod_eq_of_lt k]

/-- The number of entries of a table (R166). -/
def Table.entries : Table → Nat
  | .carIdentity | .carConfiguration | .carStatus => 48
  | .classes => 16
  | .group => 8
  | .recallOrder => 49
  | .tripMap | .alarmStatus => 4
  | .schedule => 64
  | .plant | .linkSettings | .linkCounters | .transferRecord => 1

theorem tableEntry_none {t : Table} {index : Byte} (p : Part) (selector : Nat) (h : t.entries ≤ index.toNat) :
    tableEntry p t selector index = none := by
  cases t with
  | plant | linkSettings | linkCounters | transferRecord => exact onlyEntry_none h _
  | carIdentity | carConfiguration | carStatus | classes | group | recallOrder | tripMap | schedule | alarmStatus =>
    exact map_indexOf_none h _

theorem selectorAllowed_zero (t : Table) : selectorAllowed t 0 = true := by
  cases t <;> rfl

/-- The tables by their codes, with the number of their entries. -/
theorem tableOf_entries {code : Byte} {entries : Nat} (h : (code.toNat, entries) ∈ [(1, 48), (2, 48), (3, 48), (4, 16), (5, 1),
    (6, 8), (7, 49), (8, 4), (9, 64), (10, 1), (11, 4), (12, 1), (13, 1)]) : ∃ t, tableOf code = some t ∧ t.entries = entries := by
  simp only [List.mem_cons, Prod.mk.injEq, List.not_mem_nil, or_false] at h
  obtain h | h | h | h | h | h | h | h | h | h | h | h | h := h
  all_goals
    obtain ⟨hCode, rfl⟩ := h
    exact ⟨_, tableOf_eq hCode (by decide), rfl⟩

/-- Settles O54: each table's entry in turn, and the three tests that a READ can fail, in their order. -/
theorem readsAreAnswered : Obligations.ReadsAreAnswered := by
  intro s hServes q reads refused copies
  have hRead : ∀ {code selector index : Byte} {t : Table} {data : List Byte}, tableOf code = some t →
      selectorAllowed t selector.toNat = true → tableEntry q t selector.toNat index = some data →
      reads [code, selector, index] data := fun {code selector index t data} ht hs he =>
    exec_served (payload := [1, code, selector, index]) rfl hServes ⟨Nat.le_add_left 1 _, Nat.le_of_ble_eq_true rfl⟩
      (serveRead_entry q code selector index t data ht hs he)
  have hRefused : ∀ {table selector index : Byte} {code : Result}, serveRead [table, selector, index] q = answer code q →
      refused [table, selector, index] (resultCode code) := fun {table selector index code} h =>
    exec_served (payload := [1, table, selector, index]) rfl hServes ⟨Nat.le_add_left 1 _, Nat.le_of_ble_eq_true rfl⟩ h
  have hCopies : ∀ (x : Tables) (sel : Byte), (if sel.toNat = 0 then q.active else q.shadow) = x → sel.toNat ≤ 1 →
      copies x sel := by
    intro x sel hCopy hSel
    subst hCopy
    have hAllowed : decide (sel.toNat ≤ 1) = true := decide_eq_true hSel
    exact ⟨fun i => hRead rfl hAllowed (map_indexOf (by decide) _ i), fun i => hRead rfl hAllowed (map_indexOf (by decide) _ i),
      hRead rfl hAllowed rfl, fun i => hRead rfl hAllowed (map_indexOf (by decide) _ i),
      fun i => hRead rfl hAllowed (map_indexOf (by decide) _ i), fun i => hRead rfl hAllowed (map_indexOf (by decide) _ i),
      fun i => hRead rfl hAllowed (map_indexOf (by decide) _ i)⟩
  refine ⟨hCopies q.active 0 rfl (by decide), hCopies q.shadow 1 rfl (by decide),
    fun i => ⟨hRead rfl rfl (map_indexOf (by decide) _ i),
    hRead rfl rfl (map_indexOf (by decide) _ i), hRead rfl rfl (map_indexOf (by decide) _ i),
    hRead rfl rfl (map_indexOf (by decide) _ i), hRead rfl rfl (map_indexOf (by decide) _ i)⟩, ?settings, fun r hPending => ?pending,
    fun hNone => ?noPending, fun k => hRead rfl rfl (map_indexOf (by decide) _ k), hRead rfl rfl rfl, hRead rfl rfl rfl, ?summary,
    fun table selector index => ⟨fun hTable => ?unknown, fun hStatus hHigh => ?part, fun hOther hHigh => ?copy,
      fun hSingle hSelector => ?single, fun entries hTable hSelector hOutside => ?outside⟩,
    fun kind args hKind hFits => ?kinds⟩
  case settings => exact hRead rfl rfl rfl
  case pending =>
    refine hRead (t := .linkSettings) rfl rfl ?_
    change some (settingsData q.link 1) = _
    unfold settingsData
    rw [hPending]
    rfl
  case noPending =>
    refine hRead (t := .linkSettings) rfl rfl ?_
    change some (settingsData q.link 1) = _
    unfold settingsData
    rw [hNone]
    rfl
  case summary => exact exec_served (payload := [10]) rfl hServes ⟨by decide, by decide⟩ rfl
  case unknown => exact hRefused (serveRead_noTable _ q (tableOf_none hTable))
  case part =>
    subst hStatus
    exact hRefused (serveRead_noSelector (t := .carStatus) _ q rfl (decide_eq_false (Nat.not_le.mpr hHigh)))
  case copy =>
    cases hTable : tableOf table with
    | none => exact hRefused (serveRead_noTable _ q hTable)
    | some t =>
      refine hRefused (serveRead_noSelector _ q hTable (selectorAllowed_high (fun hIs => hOther ?_) hHigh))
      exact tableOf_carStatus (hIs ▸ hTable)
  case single =>
    subst hSelector
    obtain hIs | hIs | hIs | hIs := hSingle
    all_goals
      subst hIs
      exact hRefused (serveRead_noSelector _ q rfl rfl)
  case outside =>
    subst hSelector
    obtain ⟨t, hIs, hEntries⟩ := tableOf_entries hTable
    have hNone : tableEntry q t (0 : Byte).toNat index = none := tableEntry_none q 0 (hEntries ▸ hOutside)
    exact hRefused (serveRead_noEntry (selector := 0) hIs (selectorAllowed_zero t) hNone)
  case kinds =>
    refine exec_served (payload := kind :: args) (code := .badValue) rfl hServes ⟨Nat.le_add_left 1 _, Nat.succ_le_succ hFits⟩ ?_
    obtain hZero | hHigh := hKind
    · rw [hZero]
      rfl
    · simp only [serveRequest]
      split
      case h_13 => rfl
      all_goals omega

end Sys2Proof.Machine
end

section
/-! Staged writes (R20, R48, R89, R90, R156, R169): the records that read back from their fields, and the WRITE of each shadow table. -/

namespace Sys2Proof.Machine

/-! ### Fields that read back (R169) -/

theorem inRange_iff (lo hi n : Nat) : inRange lo hi n = true ↔ lo ≤ n ∧ n ≤ hi := by
  unfold inRange
  rw [Bool.and_eq_true, decide_eq_true_iff, decide_eq_true_iff]

theorem classInRange_iff (x : ClassRec) : classInRange x = true ↔
    x.a ≤ 100 ∧ x.k ≤ 500 ∧ (30 ≤ x.b ∧ x.b ≤ 60) ∧ x.acc ≤ 300
    ∧ (1 ≤ x.minProgress ∧ x.minProgress ≤ 255) ∧ (1 ≤ x.startLimit ∧ x.startLimit ≤ 30)
    ∧ (10 ≤ x.tripLimit ∧ x.tripLimit ≤ 600) := by
  unfold classInRange
  simp only [Bool.and_eq_true, inRange_iff, Nat.zero_le, true_and, and_assoc]

theorem readConfig_absent (c : Fin 16) (g : Fin 8) :
    readConfig [BitVec.ofNat 8 c.val, BitVec.ofNat 8 g.val, 255] = some ⟨c, g, none⟩ := by
  simp only [readConfig, indexOf_index 16 (by decide) c, indexOf_index 8 (by decide) g, if_true]

theorem readConfig_given (c : Fin 16) (g : Fin 8) {f : Nat} (h : f ≤ 127) :
    readConfig [BitVec.ofNat 8 c.val, BitVec.ofNat 8 g.val, BitVec.ofNat 8 f] = some ⟨c, g, some f⟩ := by
  have hByte : (BitVec.ofNat 8 f).toNat = f := byte_toNat f (by omega)
  have hGiven : BitVec.ofNat 8 f ≠ 255 := fun hIs => by
    rw [hIs] at hByte
    change 255 = f at hByte
    omega
  simp only [readConfig, indexOf_index 16 (by decide) c, indexOf_index 8 (by decide) g, if_neg hGiven, hByte, if_pos h]

theorem groupInRange_written {x : GroupRec} (h1 : x.recallFloor ≤ 127) (h2 : x.maxRunning ≤ 16) (h3 : x.serviceCount ≤ 8)
    (h4 : x.serviceList.length ≤ 8) (h5 : x.serviceList.Nodup) : groupInRange x = true := by
  unfold groupInRange
  simp only [Bool.and_eq_true, inRange_iff, distinct_iff, Nat.zero_le, true_and]
  exact ⟨⟨⟨⟨h1, h2⟩, h3⟩, h4⟩, h5⟩

theorem readRecallOrder_written {old run : List CarIdx} {start : Nat} (h : start ≤ old.length) (k : start + run.length ≤ 48)
    (d : (old.take start ++ run).Nodup) :
    readRecallOrder old start (run.map fun i => BitVec.ofNat 8 i.val) = some (old.take start ++ run) := by
  have hLength : (old.take start ++ run).length ≤ 48 := by
    rw [List.length_append, List.length_take]
    omega
  have hDistinct := (distinct_iff _).mpr d
  simp only [readRecallOrder, readIndices_indices, hDistinct, h, hLength, decide_true, Bool.and_true, if_true]

theorem flagOf_written (b : Bool) : flagOf (yes b) = some b := by
  cases b <;> rfl

theorem linesOf_written (l : Lines) : linesOf (linesCode l) = some l := by
  cases l <;> rfl

theorem readSchedule_car (used : Bool) {address : Byte} (lines : Lines) {value mask : Nat} (h : isCarAddress address = true)
    (hv : value ≤ 63) (hm : mask ≤ 63) :
    readSchedule [yes used, 0, address, linesCode lines,
      BitVec.ofNat 8 value, BitVec.ofNat 8 mask] = some ⟨used, .car address lines, value, mask⟩ := by
  have hValue : (BitVec.ofNat 8 value).toNat = value := byte_toNat value (by omega)
  have hMask : (BitVec.ofNat 8 mask).toNat = mask := byte_toNat mask (by omega)
  have hZero : ¬ (0 : Byte) = 1 := by decide
  simp only [readSchedule, flagOf_written, linesOf_written, hValue, hMask, inRange_true 0 63 value (Nat.zero_le _) hv,
    inRange_true 0 63 mask (Nat.zero_le _) hm, Bool.and_self, if_true, if_neg hZero, h, and_self, Option.map_some]

theorem readSchedule_plant (used : Bool) (x y : Byte) {value mask : Nat} (hv : value ≤ 63) (hm : mask ≤ 63) :
    readSchedule [yes used, 1, x, y, BitVec.ofNat 8 value, BitVec.ofNat 8 mask]
      = some ⟨used, .plant, value, mask⟩ := by
  have hValue : (BitVec.ofNat 8 value).toNat = value := byte_toNat value (by omega)
  have hMask : (BitVec.ofNat 8 mask).toNat = mask := byte_toNat mask (by omega)
  simp only [readSchedule, flagOf_written, hValue, hMask, inRange_true 0 63 value (Nat.zero_le _) hv,
    inRange_true 0 63 mask (Nat.zero_le _) hm, Bool.and_self, if_true]

/-! ### Writes of a table's entry (R169) -/

theorem writeEntry_done {α : Type} {n : Nat} (hn : n ≤ 256) {decode : List Byte → Option α} {store : Fin n → α → Part → Part}
    (i : Fin n) {fields : List Byte} {x : α} (p : Part) (h : decode fields = some x) :
    writeEntry n decode store (BitVec.ofNat 8 i.val :: fields) p = answer .done (store i x p) := by
  rw [writeEntry_index n hn decode store i fields p, h]

theorem serveWriteRecallOrder_outside {b : Byte} (fields : List Byte) (p : Part) (h : 49 ≤ b.toNat) :
    serveWriteRecallOrder (b :: fields) p = answer .badIndex p := by
  simp only [serveWriteRecallOrder, indexOf_none 49 b h]

theorem serveWriteRecallOrder_done {start : Fin 49} {fields : List Byte} {p : Part} {l : List CarIdx}
    (h : readRecallOrder p.shadow.recallOrder start.val fields = some l) :
    serveWriteRecallOrder (BitVec.ofNat 8 start.val :: fields) p
      = answer .done { p with shadow := { p.shadow with recallOrder := l } } := by
  simp only [serveWriteRecallOrder, indexOf_index 49 (by decide) start, h]

theorem serveWriteRecallOrder_refused {start : Fin 49} {fields : List Byte} {p : Part}
    (h : readRecallOrder p.shadow.recallOrder start.val fields = none) :
    serveWriteRecallOrder (BitVec.ofNat 8 start.val :: fields) p = answer .badValue p := by
  simp only [serveWriteRecallOrder, indexOf_index 49 (by decide) start, h]

/-- The commands that WRITE a table, by what they carry and what serves it. -/
def tableWrite : Instr → Option (List Byte × (List Byte → Part → Reply × Part))
  | .writeCarConfiguration args => some (args, serveWriteConfig)
  | .writeClass args => some (args, serveWriteClass)
  | .writeGroup args => some (args, serveWriteGroup)
  | .writeRecallOrder args => some (args, serveWriteRecallOrder)
  | .writeSchedule args => some (args, serveWriteSchedule)
  | .writePlant args => some (args, serveWritePlant)
  | .writeTripMap args => some (args, serveWriteTrip)
  | .writeCarIdentity args => some (args, serveWriteIdentity)
  | .writeLinkSettings args => some (args, serveWriteSettings)
  | _ => none

/-- A WRITE ends with the reply to what serving it gives. -/
theorem exec_tableWrite {s : State} {c : Instr} {args : List Byte} {serve : List Byte → Part → Reply × Part} {code : Result}
    {t : Part} (hc : tableWrite c = some (args, serve)) (h : s.part.servesRequest) (hFits : args.length ≤ 30)
    (hs : serve args s.part.slotClosed = answer code t) : exec c s = .next { s with part := t.replied (resultCode code) [] } := by
  cases c <;> simp only [tableWrite, Option.some.injEq, Prod.mk.injEq, reduceCtorEq] at hc
  all_goals
    obtain ⟨rfl, rfl⟩ := hc
    exact exec_served rfl h ⟨Nat.le_add_left 1 _, Nat.succ_le_succ (Nat.succ_le_succ hFits)⟩ hs

end Sys2Proof.Machine
end

section
/-! Staged writes (R169): each shadow table's WRITE, done and refused. -/

namespace Sys2Proof.Machine

/-- Settles O55: what each table's record reads back as, and the fields, lengths and indices that read as nothing. -/
theorem stagedWrites : Obligations.StagedWrites := by
  intro s hServes q done refused index
  have hDone : ∀ {c : Instr} {args : List Byte} {serve : List Byte → Part → Reply × Part} {x : Tables},
      tableWrite c = some (args, serve) → args.length ≤ 30 → serve args q = answer .done { q with shadow := x } → done c x :=
    fun hc hFits h => exec_tableWrite hc hServes hFits h
  have hRefused : ∀ {c : Instr} {args : List Byte} {serve : List Byte → Part → Reply × Part} {code : Result},
      tableWrite c = some (args, serve) → args.length ≤ 30 → serve args q = answer code q → refused c (resultCode code) :=
    fun hc hFits h => exec_tableWrite hc hServes hFits h
  have hIndexed : ∀ {c : Instr} {b : Byte} {fields : List Byte} {serve : List Byte → Part → Reply × Part} {code : Result},
      tableWrite c = some (b :: fields, serve) → fields.length ≤ 29 → serve (b :: fields) q = answer code q →
      refused c (resultCode code) := fun hc hFits h => hRefused hc (Nat.succ_le_succ hFits) h
  refine ⟨fun i c g floor hFloor => ?config, fun i x h1 h2 h3 h4 h5 h6 h7 h8 h9 h10 h11 => ?classes,
    fun i x h1 h2 h3 h4 h5 => ?group, fun start run hStart hRun hEnd hNodup => ?order,
    fun i used address lines value mask hAddress hValue hMask => ?carEntry, fun i used value mask x y hValue hMask => ?plantEntry,
    fun i x h1 h2 h3 h4 h5 h6 h7 hOut => ?badClass,
    fun i fields hFits => ⟨fun h => ?configIndex, fun h => ?classIndex, fun h => ?groupIndex, fun h => ?orderIndex,
      fun h => ?scheduleIndex⟩,
    fun i cls group floor hOut => ?badConfig, fun i floor most count len list hFits hOut => ?badGroup,
    fun start run hFits hOut => ?badOrder, fun i used kind address lines value mask hOut => ?badSchedule,
    fun fields hFits => ⟨fun h i => ?configLength, fun h i => ?classLength, fun h i => ?groupLength, fun h i => ?scheduleLength⟩,
    fun c hc => ?empty⟩
  case config =>
    cases floor with
    | none => exact hDone rfl (Nat.le_of_ble_eq_true rfl) (writeEntry_done (by decide) i q (readConfig_absent c g))
    | some f => exact hDone rfl (Nat.le_of_ble_eq_true rfl) (writeEntry_done (by decide) i q (readConfig_given c g (hFloor f rfl)))
  case classes =>
    have hIn : classInRange x = true := (classInRange_iff x).mpr ⟨h1, h2, ⟨h3, h4⟩, h5, ⟨h6, h7⟩, ⟨h8, h9⟩, h10, h11⟩
    have hRead : readClass (classBytes x) = some x := by
      rw [readClass_bytes x (by omega) (by omega) (by omega) (by omega) (by omega) (by omega) (by omega), if_pos hIn]
    exact hDone rfl (Nat.le_of_ble_eq_true rfl) (writeEntry_done (by decide) i q hRead)
  case group =>
    have hRead : readGroup (groupBytes x) = some x := by
      rw [readGroup_bytes x (by omega) (by omega) (by omega) (by omega), if_pos (groupInRange_written h1 h2 h3 h4 h5)]
    refine hDone rfl ?_ (writeEntry_done (by decide) i q hRead)
    simp only [groupBytes, indexBytes, List.length_cons, List.length_append, List.length_map, List.length_nil]
    omega
  case order =>
    refine hDone rfl ?_ (serveWriteRecallOrder_done (readRecallOrder_written hStart hEnd hNodup))
    rw [List.length_cons, List.length_map]
    omega
  case carEntry =>
    exact hDone rfl (Nat.le_of_ble_eq_true rfl) (writeEntry_done (by decide) i q (readSchedule_car used lines hAddress hValue hMask))
  case plantEntry =>
    exact hDone rfl (Nat.le_of_ble_eq_true rfl) (writeEntry_done (by decide) i q (readSchedule_plant used x y hValue hMask))
  case badClass =>
    have hRead : readClass (classBytes x) = none := by
      rw [readClass_bytes x h1 h2 h3 h4 h5 h6 h7, if_neg fun hIn => ?_]
      have := (classInRange_iff x).mp hIn
      omega
    exact hRefused rfl (Nat.le_of_ble_eq_true rfl) (writeEntry_refused 16 (by decide) _ _ i _ q hRead)
  case configIndex => exact hIndexed rfl hFits (writeEntry_outside 48 _ _ i fields q h)
  case classIndex => exact hIndexed rfl hFits (writeEntry_outside 16 _ _ i fields q h)
  case groupIndex => exact hIndexed rfl hFits (writeEntry_outside 8 _ _ i fields q h)
  case orderIndex => exact hIndexed rfl hFits (serveWriteRecallOrder_outside fields q h)
  case scheduleIndex => exact hIndexed rfl hFits (writeEntry_outside 64 _ _ i fields q h)
  case badConfig =>
    exact hRefused rfl (Nat.le_of_ble_eq_true rfl) (writeEntry_refused 48 (by decide) _ _ i _ q (readConfig_none cls group floor hOut))
  case badGroup =>
    refine hRefused rfl ?_ (writeEntry_refused 8 (by decide) _ _ i _ q (readGroup_none floor most count len list hOut))
    simp only [List.length_cons]
    omega
  case badOrder => exact hIndexed rfl hFits (serveWriteRecallOrder_refused (readRecallOrder_none _ _ _ hOut))
  case badSchedule =>
    exact hRefused rfl (Nat.le_of_ble_eq_true rfl)
      (writeEntry_refused 64 (by decide) _ _ i _ q (readSchedule_none used kind address lines value mask hOut))
  case configLength =>
    exact hIndexed rfl hFits (writeEntry_refused 48 (by decide) _ _ i _ q (readConfig_length fields h))
  case classLength =>
    exact hIndexed rfl hFits (writeEntry_refused 16 (by decide) _ _ i _ q (readClass_length fields h))
  case groupLength =>
    exact hIndexed rfl hFits (writeEntry_refused 8 (by decide) _ _ i _ q (readGroup_length fields h))
  case scheduleLength =>
    exact hIndexed rfl hFits (writeEntry_refused 64 (by decide) _ _ i _ q (readSchedule_length fields h))
  case empty =>
    simp only [List.mem_cons, List.not_mem_nil, or_false] at hc
    obtain rfl | rfl | rfl | rfl | rfl := hc
    all_goals
      refine hRefused (args := []) (code := .badValue) rfl (Nat.zero_le _) ?_
      rfl

end Sys2Proof.Machine
end

section
/-! Guarded and direct writes (R19, R49, R108, R135): the records that read back from their fields, the site lock, and the WRITE of
each table that the lock or the record itself guards. -/

namespace Sys2Proof.Machine

/-! ### Fields that read back (R169) -/

theorem plantInRange_iff (x : Plant) : plantInRange x = true ↔
    (x.g = 0 ∨ (20 ≤ x.g ∧ x.g ≤ 4000)) ∧ (50 ≤ x.usePct ∧ x.usePct ≤ 100)
    ∧ x.baseKW ≤ 4000 ∧ (5 ≤ x.stepPct ∧ x.stepPct ≤ 100) ∧ x.revPct ≤ 20 ∧ x.brakeKW ≤ 1000 ∧ x.staleKW ≤ 4000
    ∧ (4000 ≤ x.fOk ∧ x.fOk ≤ 7000) ∧ (1 ≤ x.recoveryLimit ∧ x.recoveryLimit ≤ 255)
    ∧ (1 ≤ x.staleLimit ∧ x.staleLimit ≤ 255)
    ∧ (1 ≤ x.maxMoving ∧ x.maxMoving ≤ 48) ∧ x.skipLimit ≤ 15 ∧ (2 ≤ x.stallLimit ∧ x.stallLimit ≤ 15)
    ∧ (1 ≤ x.utilDepth ∧ x.utilDepth ≤ 15) ∧ (1 ≤ x.genDepth ∧ x.genDepth ≤ 15) := by
  unfold plantInRange
  simp only [Bool.and_eq_true, Bool.or_eq_true, beq_iff_eq, inRange_iff, Nat.zero_le, true_and, and_assoc]

theorem tripInRange_iff (x : TripEntry) : tripInRange x = true ↔ (1 ≤ x.depth ∧ x.depth ≤ 15) ∧ x.percent ≤ 100 := by
  unfold tripInRange
  simp only [Bool.and_eq_true, inRange_iff, Nat.zero_le, true_and]

theorem settingsInRange_iff (x : LinkSettings) : settingsInRange x = true ↔ isNodeAddress x.partAddress = true
    ∧ isNodeAddress x.plantNode = true ∧ x.plantNode ≠ x.partAddress ∧ (100 ≤ x.replyLimit ∧ x.replyLimit ≤ 2000)
    ∧ (20 ≤ x.silenceLimit ∧ x.silenceLimit ≤ 2000) ∧ (10 ≤ x.cyclePeriod ∧ x.cyclePeriod ≤ 1000)
    ∧ (2 ≤ x.lossLimit ∧ x.lossLimit ≤ 64) ∧ (1 ≤ x.lineLimit ∧ x.lineLimit ≤ 255) := by
  unfold settingsInRange
  simp only [Bool.and_eq_true, bne_iff_ne, inRange_iff, and_assoc]

theorem readIdentity_written {address : Byte} (lines : Lines) (h : isCarAddress address = true) :
    readIdentity [address, linesCode lines] = some (address, lines) := by
  simp only [readIdentity, h, if_true, linesOf_written, Option.map_some]

/-! ### The site lock (R49, R108) -/

theorem underLock_locked {n : Nat} (hn : n ≤ 256) (i : Fin n) (fields : List Byte) {p : Part}
    (write : List Byte → Part → Reply × Part)
    (h : p.mgmt.locked = true) : underLock n (BitVec.ofNat 8 i.val :: fields) p write = answer .locked p := by
  simp only [underLock, h, indexOf_index n hn i, Option.isSome_some, Bool.and_self, if_true]

theorem serveWritePlant_clear (args : List Byte) {p : Part} (h : p.mgmt.locked = false) :
    serveWritePlant args p = writeEntry 1 readPlant (fun _ x p => { p with shadow.plant := x }) args p :=
  underLock_clear 1 args p _ h

theorem serveWriteTrip_clear (args : List Byte) {p : Part} (h : p.mgmt.locked = false) :
    serveWriteTrip args p
      = writeEntry 4 readTrip (fun i x p => { p with shadow.tripMap := p.shadow.tripMap.set i.val x }) args p :=
  underLock_clear 4 args p _ h

theorem serveWritePlant_locked (fields : List Byte) {p : Part} (h : p.mgmt.locked = true) :
    serveWritePlant (0 :: fields) p = answer .locked p :=
  underLock_locked (by decide) (0 : Fin 1) fields _ h

theorem serveWriteTrip_locked (k : Fin 4) (fields : List Byte) {p : Part} (h : p.mgmt.locked = true) :
    serveWriteTrip (BitVec.ofNat 8 k.val :: fields) p = answer .locked p :=
  underLock_locked (by decide) k fields _ h

theorem serveWritePlant_outside {b : Byte} (fields : List Byte) (p : Part) (h : 1 ≤ b.toNat) :
    serveWritePlant (b :: fields) p = answer .badIndex p :=
  (underLock_outside 1 b fields p _ h).trans (writeEntry_outside 1 _ _ b fields p h)

theorem serveWriteTrip_outside {b : Byte} (fields : List Byte) (p : Part) (h : 4 ≤ b.toNat) :
    serveWriteTrip (b :: fields) p = answer .badIndex p :=
  (underLock_outside 4 b fields p _ h).trans (writeEntry_outside 4 _ _ b fields p h)

/-! ### WRITE car identity (R19) -/

theorem enabled_iff {c : Car} : c.enabled = true ↔ c.duty ≠ .disabled := by
  unfold Car.enabled
  rw [bne_iff_ne]

theorem not_enabled_of {c : Car} (h : c.duty = .disabled) : c.enabled = false :=
  Bool.eq_false_iff.mpr fun hOn => enabled_iff.mp hOn h

theorem serveWriteIdentity_outside {b : Byte} (fields : List Byte) (p : Part) (h : 48 ≤ b.toNat) :
    serveWriteIdentity (b :: fields) p = answer .badIndex p := by
  simp only [serveWriteIdentity, indexOf_none 48 b h]

theorem serveWriteIdentity_enabled (i : CarIdx) (fields : List Byte) {p : Part} (h : (p.car i).duty ≠ .disabled) :
    serveWriteIdentity (BitVec.ofNat 8 i.val :: fields) p = answer .wrongState p := by
  have hEnabled : (p.car i).enabled = true := enabled_iff.mpr h
  simp only [serveWriteIdentity, indexOf_index 48 (by decide) i, hEnabled, if_true]

theorem serveWriteIdentity_done {i : CarIdx} {fields : List Byte} {p : Part} {address : Byte} {lines : Lines}
    (h : (p.car i).duty = .disabled) (hRead : readIdentity fields = some (address, lines)) :
    serveWriteIdentity (BitVec.ofNat 8 i.val :: fields) p
      = answer .done (p.setCar i { p.car i with address := some address, lines := lines }) := by
  have hDisabled : (p.car i).enabled = false := not_enabled_of h
  simp only [serveWriteIdentity, indexOf_index 48 (by decide) i, hDisabled, hRead, Bool.false_eq_true, if_false]
  rfl

theorem serveWriteIdentity_refused {i : CarIdx} {fields : List Byte} {p : Part} (h : (p.car i).duty = .disabled)
    (hRead : readIdentity fields = none) :
    serveWriteIdentity (BitVec.ofNat 8 i.val :: fields) p = answer .badValue p := by
  have hDisabled : (p.car i).enabled = false := not_enabled_of h
  simp only [serveWriteIdentity, indexOf_index 48 (by decide) i, hDisabled, hRead, Bool.false_eq_true, if_false]

/-- Settles O56: what each record reads back as, the fields, lengths and indices that read as nothing, and the test each WRITE makes
before it reads its fields, of the lock or of the car's record. -/
theorem guardedAndDirectWrites : Obligations.GuardedAndDirectWrites := by
  intro s hServes q becomes refused index
  have hDone : ∀ {c : Instr} {args : List Byte} {serve : List Byte → Part → Reply × Part} {x : Part},
      tableWrite c = some (args, serve) → args.length ≤ 30 → serve args q = answer .done x → becomes c x :=
    fun hc hFits h => exec_tableWrite hc hServes hFits h
  have hRefused : ∀ {c : Instr} {args : List Byte} {serve : List Byte → Part → Reply × Part} {code : Result},
      tableWrite c = some (args, serve) → args.length ≤ 30 → serve args q = answer code q → refused c (resultCode code) :=
    fun hc hFits h => exec_tableWrite hc hServes hFits h
  have hIndexed : ∀ {c : Instr} {b : Byte} {fields : List Byte} {serve : List Byte → Part → Reply × Part} {code : Result},
      tableWrite c = some (b :: fields, serve) → fields.length ≤ 29 → serve (b :: fields) q = answer code q →
      refused c (resultCode code) := fun hc hFits h => hRefused hc (Nat.succ_le_succ hFits) h
  refine ⟨fun hClear => ?clear, fun hLocked fields hFits => ⟨?plantLocked, fun k => ?tripLocked⟩,
    fun i address lines hAddress => ⟨fun hDuty => ?identity, fun hDuty => ?identityEnabled⟩,
    fun i fields hFits => ⟨fun hDuty => ?anyEnabled, fun hDuty hLength => ?identityLength,
      fun hDuty address lines hIs hOut => ?badIdentity⟩,
    fun x h1 h2 h3 h4 h5 h6 h7 h8 h9 h10 h11 h12 => ⟨fun hDiffer => ?settings, fun hEqual => ?sameAddress⟩,
    fun x h1 h2 h3 h4 h5 hOut => ?badSettings, fun fields hFits hLength => ?settingsLength, ?identityEmpty, ?settingsEmpty,
    fun i fields hFits => ⟨fun h => ?identityIndex, fun h => ?plantIndex, fun h => ?tripIndex, fun h => ?settingsIndex⟩⟩
  case clear =>
    refine ⟨fun x h1 h2 h3 h4 h5 h6 h7 h8 h9 h10 h11 h12 h13 h14 h15 h16 h17 h18 h19 h20 h21 h22 h23 h24 h25 h26 h27 h28 h29 => ?plant,
      fun k x h1 h2 h3 => ?trip, fun x h1 h2 h3 h4 h5 h6 h7 h8 h9 h10 h11 h12 h13 h14 h15 h16 h17 h18 h19 hOut => ?badPlant,
      fun k enable level depth action groups percent hOut => ?badTrip,
      fun fields hFits => ⟨fun hLength => ?plantLength, fun hLength k => ?tripLength⟩, ?plantEmpty, ?tripEmpty⟩
    case plant =>
      have hRead : readPlant (plantBytes x) = some x := by
        rw [readPlant_bytes x, if_pos ((plantInRange_iff x).mpr _)]
        all_goals omega
      exact hDone rfl (Nat.le_of_ble_eq_true rfl) ((serveWritePlant_clear _ hClear).trans
        (writeEntry_done (by decide) (0 : Fin 1) q hRead))
    case trip =>
      have hRead : readTrip (tripBytes x) = some x := by
        rw [readTrip_bytes x (by omega) (by omega), if_pos ((tripInRange_iff x).mpr ⟨⟨h1, h2⟩, h3⟩)]
      exact hDone rfl (Nat.le_of_ble_eq_true rfl) ((serveWriteTrip_clear _ hClear).trans (writeEntry_done (by decide) k q hRead))
    case badPlant =>
      have hRead : readPlant (plantBytes x) = none := by
        rw [readPlant_bytes x h1 h2 h3 h4 h5 h6 h7 h8 h9 h10 h11 h12 h13 h14 h15 h16 h17 h18 h19, if_neg fun hIn => ?_]
        have := (plantInRange_iff x).mp hIn
        omega
      exact hRefused rfl (Nat.le_of_ble_eq_true rfl) ((serveWritePlant_clear _ hClear).trans
        (writeEntry_refused 1 (by decide) _ _ 0 _ q hRead))
    case badTrip =>
      exact hRefused rfl (Nat.le_of_ble_eq_true rfl) ((serveWriteTrip_clear _ hClear).trans
        (writeEntry_refused 4 (by decide) _ _ k _ q (readTrip_none enable level depth action groups percent hOut)))
    case plantLength =>
      exact hIndexed rfl hFits ((serveWritePlant_clear _ hClear).trans
        (writeEntry_refused 1 (by decide) _ _ 0 _ q (readPlant_length fields hLength)))
    case tripLength =>
      exact hIndexed rfl hFits ((serveWriteTrip_clear _ hClear).trans
        (writeEntry_refused 4 (by decide) _ _ k _ q (readTrip_length fields hLength)))
    case plantEmpty => exact hRefused (code := .badValue) rfl (Nat.zero_le _) (serveWritePlant_clear [] hClear)
    case tripEmpty => exact hRefused (code := .badValue) rfl (Nat.zero_le _) (serveWriteTrip_clear [] hClear)
  case plantLocked => exact hIndexed rfl hFits (serveWritePlant_locked fields hLocked)
  case tripLocked => exact hIndexed rfl hFits (serveWriteTrip_locked k fields hLocked)
  case identity =>
    exact hDone rfl (Nat.le_of_ble_eq_true rfl) (serveWriteIdentity_done hDuty (readIdentity_written lines hAddress))
  case identityEnabled => exact hRefused rfl (Nat.le_of_ble_eq_true rfl) (serveWriteIdentity_enabled i _ hDuty)
  case anyEnabled => exact hIndexed rfl hFits (serveWriteIdentity_enabled i fields hDuty)
  case identityLength => exact hIndexed rfl hFits (serveWriteIdentity_refused hDuty (readIdentity_length fields hLength))
  case badIdentity =>
    subst hIs
    exact hIndexed rfl hFits (serveWriteIdentity_refused hDuty (readIdentity_none address lines hOut))
  case settings =>
    have hRead : readSettings (settingsBytes x) = some x := by
      rw [readSettings_bytes x (by omega) (by omega) (by omega) (by omega) (by omega),
        if_pos ((settingsInRange_iff x).mpr ⟨h1, h2, hDiffer, ⟨h3, h4⟩, ⟨h5, h6⟩, ⟨h7, h8⟩, ⟨h9, h10⟩, h11, h12⟩)]
    exact hDone rfl (Nat.le_of_ble_eq_true rfl) (writeEntry_done (by decide) (0 : Fin 1) q hRead)
  case sameAddress =>
    have hRead : readSettings (settingsBytes x) = none := by
      rw [readSettings_bytes x (by omega) (by omega) (by omega) (by omega) (by omega), if_neg fun hIn => ?_]
      obtain ⟨_, _, hDiffer, _⟩ := (settingsInRange_iff x).mp hIn
      exact hDiffer hEqual
    exact hRefused rfl (Nat.le_of_ble_eq_true rfl) (writeEntry_refused 1 (by decide) _ _ 0 _ q hRead)
  case badSettings =>
    have hRead : readSettings (settingsBytes x) = none := by
      rw [readSettings_bytes x h1 h2 h3 h4 h5, if_neg fun hIn => ?_]
      obtain ⟨hPart, hPlant, _, hRanges⟩ := (settingsInRange_iff x).mp hIn
      rw [hPart, hPlant] at hOut
      simp only [Bool.true_eq_false, false_or] at hOut
      omega
    exact hRefused rfl (Nat.le_of_ble_eq_true rfl) (writeEntry_refused 1 (by decide) _ _ 0 _ q hRead)
  case settingsLength =>
    exact hIndexed rfl hFits (writeEntry_refused 1 (by decide) _ _ 0 _ q (readSettings_length fields hLength))
  case identityEmpty => exact hRefused (args := []) (code := .badValue) rfl (Nat.zero_le _) (Eq.refl _)
  case settingsEmpty => exact hRefused (args := []) (code := .badValue) rfl (Nat.zero_le _) (Eq.refl _)
  case identityIndex => exact hIndexed rfl hFits (serveWriteIdentity_outside fields q h)
  case plantIndex => exact hIndexed rfl hFits (serveWritePlant_outside fields q h)
  case tripIndex => exact hIndexed rfl hFits (serveWriteTrip_outside fields q h)
  case settingsIndex => exact hIndexed rfl hFits (writeEntry_outside 1 _ _ i fields q h)

end Sys2Proof.Machine
end

section
/-! Tables as a whole, event flags, counters and the lock (R137, R170, R174, R175, R177). -/

namespace Sys2Proof.Machine

theorem flagSet_eq (hi lo : Byte) : flagSet hi lo = (hi ++ lo).extractLsb' 0 12 := by
  unfold flagSet word16
  exact BitVec.setWidth_eq_extractLsb' (by decide)

theorem copyActive_clear {p : Part} (h : p.mgmt.locked = false) : copyActive p = { p with shadow := p.active } := by
  unfold copyActive copyTables
  rw [h]
  rfl

theorem copyActive_locked {p : Part} (h : p.mgmt.locked = true) : copyActive p = { p with shadow := { p.active with
    plant := p.shadow.plant
    tripMap := p.shadow.tripMap } } := by
  unfold copyActive copyTables
  rw [h]
  rfl

/-- Every bit of the event flags belongs to an event. -/
theorem exists_eventBit {n : Nat} (h : n < 12) : ∃ e, eventBit e = n := by
  have hAll : ∀ k : Fin 12, ∃ e ∈ [Event.transfer, .recallDone, .stepFault, .blindSettle, .unfit, .stall, .lost, .shed,
      .plantStale, .dispatchSilent, .lineFault, .applied], eventBit e = k.val := by decide
  obtain ⟨e, _, hBit⟩ := hAll ⟨n, h⟩
  exact ⟨e, hBit⟩

theorem alert_iff (p : Part) : p.alert = true ↔ ∃ e : Event, p.flag e = true ∧ p.mgmt.mask.getLsbD (eventBit e) = true := by
  unfold Part.alert Part.flag
  rw [bne_iff_ne]
  have hNoBit : ∀ n, (0 : BitVec 12).getLsbD n = false := fun n => BitVec.getLsbD_zero
  constructor
  · intro hSome
    refine Classical.byContradiction fun hNone => ?_
    refine hSome (BitVec.eq_of_getLsbD_eq fun n hn => ?_)
    obtain ⟨e, rfl⟩ := exists_eventBit hn
    rw [BitVec.getLsbD_and, hNoBit]
    exact Bool.eq_false_iff.mpr fun hBoth => hNone ⟨e, Bool.and_eq_true_iff.mp hBoth⟩
  · rintro ⟨e, hFlag, hMask⟩ hZero
    have hBit := congrArg (fun x => x.getLsbD (eventBit e)) hZero
    simp only [BitVec.getLsbD_and, hFlag, hMask, hNoBit] at hBit
    exact absurd hBit (by decide)

/-- A command without arguments that carries some is refused with BAD VALUE. -/
theorem plain_extra {args : List Byte} (f : Part → Part) (p : Part) (h : args ≠ []) : plain args f p = answer .badValue p := by
  unfold plain
  rw [List.isEmpty_eq_false_iff.mpr h]
  rfl

theorem serveSummary_extra {args : List Byte} (p : Part) (h : args ≠ []) : serveSummary args p = answer .badValue p := by
  unfold serveSummary
  rw [List.isEmpty_eq_false_iff.mpr h]
  rfl

/-- Settles O57: what serving each of the five requests is, and the bits of the event flags. -/
theorem tablesFlagsCountersAndLock : Obligations.TablesFlagsCountersAndLock := by
  intro s hServes q becomes flags
  have hBecomes : ∀ {c : Instr} {payload : List Byte} {x : Part}, exec c s = completes (requestArrives payload) s →
      1 ≤ payload.length ∧ payload.length ≤ 32 → serveRequest payload q = answer .done x → becomes c x :=
    fun hc hFits h => exec_served hc hServes hFits h
  refine ⟨fun hClear => ?copy, fun hLocked => ?copyLocked, fun hi lo => ⟨?flags, ?mask⟩, ?counters, ?lock,
    fun args hSome hFits c hc => ?extra, alert_iff⟩
  case copy =>
    exact hBecomes (payload := [3]) rfl ⟨by decide, by decide⟩ (congrArg (answer .done) (copyActive_clear hClear))
  case copyLocked =>
    exact hBecomes (payload := [3]) rfl ⟨by decide, by decide⟩ (congrArg (answer .done) (copyActive_locked hLocked))
  case flags =>
    refine hBecomes (payload := [7, hi, lo]) rfl ⟨Nat.le_add_left 1 _, Nat.le_of_ble_eq_true rfl⟩ ?_
    change answer .done { q with mgmt.flags := q.mgmt.flags &&& ~~~flagSet hi lo } = _
    rw [flagSet_eq]
  case mask =>
    refine hBecomes (payload := [8, hi, lo]) rfl ⟨Nat.le_add_left 1 _, Nat.le_of_ble_eq_true rfl⟩ ?_
    change answer .done { q with mgmt.mask := flagSet hi lo } = _
    rw [flagSet_eq]
  case counters => exact hBecomes (payload := [9]) rfl ⟨by decide, by decide⟩ rfl
  case lock => exact hBecomes (payload := [11]) rfl ⟨by decide, by decide⟩ rfl
  case extra =>
    have hLength : ∀ kind : Byte, 1 ≤ (kind :: args).length ∧ (kind :: args).length ≤ 32 :=
      fun _ => ⟨Nat.le_add_left 1 _, Nat.succ_le_succ hFits⟩
    simp only [List.mem_cons, List.not_mem_nil, or_false] at hc
    obtain rfl | rfl | rfl | rfl := hc
    · exact exec_served rfl hServes (hLength 3) (plain_extra copyActive q hSome)
    · exact exec_served rfl hServes (hLength 9) (plain_extra clearAllCounters q hSome)
    · exact exec_served rfl hServes (hLength 11) (plain_extra (fun p => { p with mgmt.locked := true }) q hSome)
    · exact exec_served rfl hServes (hLength 10) (serveSummary_extra q hSome)

end Sys2Proof.Machine
end

section
/-! RESTART (R178): what every block's record is after it. -/

namespace Sys2Proof.Machine

/-- The part as RESTART clears it, before the limits are computed afresh. -/
def restartCleared (p : Part) : Part :=
  { unmarkQueues (clearAllCounters (closeWindow (p.mapCars restartedCar))) with
    sup.remembered := none
    sup.warmUp := .stopped
    sup.recallLimit := .stopped
    adm.joinCounter := 0
    adm.sumM := 0
    adm.sumR := 0
    adm.reportMark := false
    adm.holdOff := .stopped
    slot := none
    master.silent := false
    master.silence := .running p.link.settings.silenceLimit
    master.nextCycle := 0
    mgmt.deferred := none
    mgmt.flags := 0 }

theorem restartPart_eq (p : Part) : restartPart p = recomputeLimits (restartCleared p) := rfl

theorem restartCleared_car (p : Part) (i : CarIdx) : (restartCleared p).car i = restartedCar (p.car i) :=
  Vector.getElem_map ..

theorem restartedCar_disabled {c : Car} (h : c.duty = .disabled) :
    restartedCar c = { ({} : Car) with address := c.address, lines := c.lines } := by
  unfold restartedCar
  rw [not_enabled_of h]
  rfl

theorem restartedCar_enabled {c : Car} (h : c.duty ≠ .disabled) : restartedCar c = { ({} : Car) with
    address := c.address
    lines := c.lines
    duty := .normal
    priority := c.priority
    joinSeq := c.joinSeq } := by
  unfold restartedCar
  rw [enabled_iff.mpr h]
  rfl

theorem restartedCar_run (c : Car) : (restartedCar c).run = .idle := by
  unfold restartedCar
  cases c.enabled <;> rfl

/-- Where no car holds a run, a fall of the limits sheds nothing. -/
theorem recomputeLimits_idle {p : Part} (h : ∀ i, (p.car i).holdsRun = false) :
    recomputeLimits p = { p with standing := p.capEff } := by
  have hNone : allCars.filter p.derateCandidate = [] :=
    List.filter_eq_nil_iff.mpr fun i _ hIs => by
      unfold Part.derateCandidate at hIs
      rw [h i] at hIs
      exact absurd hIs Bool.false_ne_true
  have hShed : derateShed p.capEff p = p := by
    unfold derateShed
    rw [hNone]
    rfl
  unfold recomputeLimits
  rw [hShed, ite_self]

theorem restartPart_cleared (p : Part) : restartPart p = { restartCleared p with standing := (restartCleared p).capEff } := by
  rw [restartPart_eq]
  refine recomputeLimits_idle fun i => ?_
  rw [restartCleared_car]
  unfold Car.holdsRun
  rw [restartedCar_run]
  rfl

theorem restartCleared_queue (p : Part) (port : Port) :
    ((restartCleared p).link.port port).queue.map TxFrame.chars = (p.link.port port).queue.map TxFrame.chars := by
  cases port <;> exact List.map_map

/-- Settles O60: RESTART leaves no car with a run, so that computing the limits afresh changes their standing value alone. -/
theorem restartClears : Obligations.RestartClears := by
  intro s hServes q
  have hRelay : q.master.mode = .relay :=
    (congrArg Master.mode (closeSlot_master _)).trans ((received_mode s.part .dispatch).trans hServes.1.1)
  refine ⟨fun hOther => ?refused, fun hNormal => ?restart⟩
  case refused =>
    refine exec_served (payload := [12]) (code := .wrongState) rfl hServes ⟨by decide, by decide⟩ ?_
    exact if_neg fun hBoth => hOther hBoth.1
  case restart =>
    refine ⟨restartPart q, exec_served (payload := [12]) (code := .done) rfl hServes ⟨by decide, by decide⟩
      (if_pos ⟨hNormal, hRelay⟩), ?_⟩
    clear_value q
    rw [restartPart_cleared]
    refine ⟨rfl, fun i hDuty => ?disabled, fun i hDuty => ?enabled, rfl, rfl, rfl, rfl, rfl, ?alert, rfl, rfl, rfl, rfl, rfl,
      fun port => ?ports, rfl, rfl, rfl, rfl⟩
    case disabled => exact (restartCleared_car q i).trans (restartedCar_disabled hDuty)
    case enabled => exact (restartCleared_car q i).trans (restartedCar_enabled hDuty)
    case alert => exact bne_eq_false_iff_eq.mpr BitVec.zero_and
    case ports =>
      have hQueue := restartCleared_queue q port
      cases port <;> exact ⟨rfl, rfl, rfl, hQueue, rfl⟩

end Sys2Proof.Machine
end

section
/-! CAR CONTROL (R22, R23, R42 to R44, R173): each action on a record, by the record's duty and run. -/

namespace Sys2Proof.Machine

/-! ### The record under its actions -/

/-- The commitments of a record change, and the record after them. -/
theorem setCommit_modCar (i : CarIdx) (m r : Nat) (f : Car → Car) (p : Part) : (setCommit i m r p).modCar i f
    = { p.setCar i (f { p.car i with m := m, r := r }) with
        adm := { p.adm with
          sumM := p.adm.sumM + m - (p.car i).m
          sumR := p.adm.sumR + r - (p.car i).r } } := by
  have hRecord : (p.setCar i { p.car i with m := m, r := r }).modCar i f = p.setCar i (f { p.car i with m := m, r := r }) :=
    modCar_setCar p i _ f
  rw [← hRecord]
  rfl

theorem findEnabled_none_iff (p : Part) (a : Byte) :
    p.findEnabled a = none ↔ ∀ j, (p.car j).duty ≠ .disabled → (p.car j).address ≠ some a := by
  unfold Part.findEnabled
  rw [List.find?_eq_none]
  refine ⟨fun h j hDuty hAddress => ?_, fun h j _ hIs => ?_⟩
  · refine h j (List.mem_finRange j) ?_
    rw [enabled_iff.mpr hDuty, hAddress, beq_self_eq_true]
    rfl
  · obtain ⟨hOn, hAddress⟩ := Bool.and_eq_true_iff.mp hIs
    exact h j (enabled_iff.mp hOn) (beq_iff_eq.mp hAddress)

/-- The duty of a record that is enabled (R22): it has not been heard, so in the states of the generator it is RECALL. -/
def Part.enabledDuty (p : Part) : Duty := match p.sup.state with
  | .normal => .normal
  | .outage => .stopped
  | .standby => .stopped
  | _ => .recall

/-- The duty restored to a record that has not been heard (R21). -/
theorem restoredDuty_unheard {p : Part} {i : CarIdx} (h : (p.car i).live = none) : p.restoredDuty i = p.enabledDuty := by
  have hFails : passesStanding (p.recallFloor i) (p.car i) = false := by
    unfold passesStanding
    rw [h]
  unfold Part.restoredDuty Part.enabledDuty
  rw [hFails]
  cases p.sup.state <;> rfl

/-- An enabled record takes part in no change of duty that the sequencing unit acts on: what it is restored to in RECALL is
duty RECALL without UNFIT, which leaves recall incomplete. -/
theorem handDutyChange_enabled {p : Part} {i : CarIdx} {d : Duty} (hDuty : (p.car i).duty = d) (hFit : (p.car i).unfit = none)
    (hIs : p.sup.state.onGenerator = true → d = .recall) : handDutyChange .disabled d p = p := by
  unfold handDutyChange
  cases hState : p.sup.state with
  | normal | outage | standby | returning => rfl
  | service =>
    rw [hState] at hIs
    rw [hIs rfl]
    rfl
  | _ =>
    rw [hState] at hIs
    exact evaluateCompletion_incomplete (hDuty.trans (hIs rfl)) hFit

theorem changeDuty_differs {i : CarIdx} {d : Duty} {p : Part} (h : (p.car i).duty ≠ d) :
    changeDuty i d p = handDutyChange (p.car i).duty d (setDuty i d p) := if_neg h

/-! ### The control requests (R173) -/

/-- A control command ends with the reply to what its action's test of the index and the record gives. -/
theorem exec_control {s : State} {x : Instr} {index action : Byte} {act : CarIdx → Part → Option (Result × Part)} {code : Result}
    {t : Part} (hx : exec x s = completes (requestArrives [6, index, action]) s)
    (hAct : serveRequest [6, index, action] s.part.slotClosed = control index [] act s.part.slotClosed)
    (hServes : s.part.servesRequest) (hs : control index [] act s.part.slotClosed = answer code t) :
    exec x s = .next { s with part := t.replied (resultCode code) [] } :=
  exec_served hx hServes ⟨Nat.le_add_left 1 _, Nat.le_of_ble_eq_true rfl⟩ (hAct.trans hs)

theorem control_acts (i : CarIdx) {act : CarIdx → Part → Option (Result × Part)} {p t : Part} {code : Result}
    (h : act i p = some (code, t)) : control (BitVec.ofNat 8 i.val) [] act p = answer code t := by
  simp only [control, indexOf_index 48 (by decide) i, h, List.isEmpty_nil, if_true]

theorem control_forbidden (i : CarIdx) {act : CarIdx → Part → Option (Result × Part)} {p : Part} (h : act i p = none) :
    control (BitVec.ofNat 8 i.val) [] act p = answer .wrongState p := by
  simp only [control, indexOf_index 48 (by decide) i, h]

theorem control_outside {b : Byte} (act : CarIdx → Part → Option (Result × Part)) (p : Part) (h : 48 ≤ b.toNat) :
    control b [] act p = answer .badIndex p := by
  simp only [control, indexOf_none 48 b h]

/-! ### Each action by the record (R22, R23, R42 to R44) -/

theorem enableCar_forbidden {i : CarIdx} {p : Part} (h : (p.car i).duty ≠ .disabled ∨ (p.car i).address = none
    ∨ ∃ j, (p.car j).duty ≠ .disabled ∧ (p.car j).address = (p.car i).address) : enableCar i p = none := by
  unfold enableCar
  by_cases hOn : (p.car i).enabled = true
  · exact if_pos hOn
  · rw [if_neg hOn]
    cases hAddress : (p.car i).address with
    | none => rfl
    | some a =>
      refine if_pos (Option.isSome_iff_ne_none.mpr fun hNone => ?_)
      obtain hDuty | hNoAddress | ⟨j, hDuty, hSame⟩ := h
      · exact hOn (enabled_iff.mpr hDuty)
      · exact Option.some_ne_none a (hAddress.symm.trans hNoAddress)
      · exact (findEnabled_none_iff p a).mp hNone j hDuty (hSame.trans hAddress)

theorem enabledDuty_onGenerator {p : Part} (h : p.sup.state.onGenerator = true) : p.enabledDuty = .recall := by
  unfold Part.enabledDuty
  cases hState : p.sup.state with
  | normal | outage | standby =>
    rw [hState] at h
    exact absurd h Bool.false_ne_true
  | _ => rfl

theorem enableCar_free {i : CarIdx} {p : Part} {a : Byte} (h : (p.car i).duty = .disabled) (hAddress : (p.car i).address = some a)
    (hFree : ∀ j, (p.car j).duty ≠ .disabled → (p.car j).address ≠ some a) :
    enableCar i p = some (.done, { p.setCar i { ({} : Car) with
      address := some a
      lines := (p.car i).lines
      duty := p.enabledDuty } with
      adm := { p.adm with
        sumM := p.adm.sumM - (p.car i).m
        sumR := p.adm.sumR - (p.car i).r } }) := by
  have hEnabled : enableCar i p = some (.done, handDutyChange .disabled (((setCommit i 0 0 p).modCar i disabledCar).restoredDuty i)
      (((setCommit i 0 0 p).modCar i disabledCar).modCar i
        (enabledCar (((setCommit i 0 0 p).modCar i disabledCar).restoredDuty i)))) := by
    unfold enableCar
    have hNone := (findEnabled_none_iff p a).mpr hFree
    simp only [not_enabled_of h, hAddress, hNone, Bool.false_eq_true, if_false, Option.isSome_none]
  have hUnheard : (((setCommit i 0 0 p).modCar i disabledCar).car i).live = none := by
    rw [car_modCar_self]
    rfl
  have hDuty : ((setCommit i 0 0 p).modCar i disabledCar).restoredDuty i = p.enabledDuty := restoredDuty_unheard hUnheard
  have hStored := setCommit_modCar i 0 0 (fun c => enabledCar p.enabledDuty (disabledCar c)) p
  rw [hEnabled, hDuty, modCar_modCar, hStored, ← hAddress]
  refine congrArg (fun x => some (Result.done, x)) (handDutyChange_enabled (i := i) ?_ ?_ fun hOn => enabledDuty_onGenerator hOn)
  · exact congrArg Car.duty (car_setCar_self p i _)
  · exact congrArg Car.unfit (car_setCar_self p i _)

theorem disabled_iff {c : Car} : (!c.enabled) = true ↔ c.duty = .disabled := by
  unfold Car.enabled
  rw [Bool.not_eq_true', bne_eq_false_iff_eq]

theorem disableCar_disabled {i : CarIdx} {p : Part} (h : (p.car i).duty = .disabled) : disableCar i p = some (.done, p) :=
  if_pos (disabled_iff.mpr h)

theorem disableCar_run {i : CarIdx} {p : Part} (h : (p.car i).duty ≠ .disabled) (hRun : (p.car i).holdsRun = true) :
    disableCar i p = some (.pending, p.setCar i { p.car i with disablePending := true }) :=
  (if_neg fun hOff => h (disabled_iff.mp hOff)).trans (if_pos hRun)

theorem disableCar_free {i : CarIdx} {p : Part} (h : (p.car i).duty ≠ .disabled) (hRun : (p.car i).holdsRun = false) :
    disableCar i p = some (.done, disableNow i p) :=
  (if_neg fun hOff => h (disabled_iff.mp hOff)).trans (if_neg (Bool.eq_false_iff.mp hRun))

/-- The record that is disabled takes its commitments out of the sums, and leaves the queue if it stands there (R23, R64). -/
theorem disableNow_eq (i : CarIdx) (p : Part) : disableNow i p = handDutyChange (p.car i).duty .disabled (settleJoinCounter
    { p.setCar i { ({} : Car) with
        address := (p.car i).address
        lines := (p.car i).lines } with
      adm := { p.adm with
        sumM := p.adm.sumM - (p.car i).m
        sumR := p.adm.sumR - (p.car i).r } }) := by
  unfold disableNow disableRecord
  rw [setCommit_modCar]
  rfl

/-- The test that ISOLATE, RESTORE and CLEAR UNFIT make first. -/
theorem uncontrolled_iff {c : Car} : (!c.enabled || c.disablePending) = true ↔ c.duty = .disabled ∨ c.disablePending = true := by
  unfold Car.enabled
  rw [Bool.or_eq_true, Bool.not_eq_true', bne_eq_false_iff_eq]

theorem isolateCar_forbidden {i : CarIdx} {p : Part} (h : (p.car i).duty = .disabled ∨ (p.car i).disablePending = true) :
    isolateCar i p = none := if_pos (uncontrolled_iff.mpr h)

theorem restoreCar_forbidden {i : CarIdx} {p : Part} (h : (p.car i).duty = .disabled ∨ (p.car i).disablePending = true) :
    restoreCar i p = none := if_pos (uncontrolled_iff.mpr h)

theorem clearUnfitCar_forbidden {i : CarIdx} {p : Part} (h : (p.car i).duty = .disabled ∨ (p.car i).disablePending = true) :
    clearUnfitCar i p = none := if_pos (uncontrolled_iff.mpr h)

/-- ISOLATE of a record without a run that is neither LOST nor ISOLATED changes its duty, out of the queue. -/
theorem isolateCar_changes {i : CarIdx} {p : Part} (hOn : ¬ (!(p.car i).enabled || (p.car i).disablePending) = true)
    (hRun : (p.car i).holdsRun = false) (hNotLost : (p.car i).duty ≠ .lost) (hNotIsolated : (p.car i).duty ≠ .isolated) :
    isolateCar i p = some (.done, changeDuty i .isolated (if (p.car i).run = .queued then leaveQueue i p else p)) :=
  (if_neg hOn).trans ((if_neg (Bool.eq_false_iff.mp hRun)).trans ((if_neg hNotLost).trans (if_neg hNotIsolated)))

/-- A record that leaves the queue as its duty changes (R64, R66). -/
theorem changeDuty_leaveQueue {i : CarIdx} {d : Duty} {p : Part} (h : (p.car i).duty ≠ d) :
    changeDuty i d (leaveQueue i p) = handDutyChange (p.car i).duty d (settleJoinCounter (p.setCar i { p.car i with
      run := .idle
      priority := none
      joinSeq := none
      duty := d
      pendingRecall := false })) := by
  have hCar : (leaveQueue i p).car i = { p.car i with run := .idle, priority := none, joinSeq := none } := by
    unfold leaveQueue
    rw [car_settleJoinCounter, car_modCar, if_pos rfl]
  have hStored : setDuty i d (leaveQueue i p) = settleJoinCounter (p.setCar i { p.car i with
      run := .idle
      priority := none
      joinSeq := none
      duty := d
      pendingRecall := false }) := by
    have hSet : setDuty i d (leaveQueue i p)
        = (leaveQueue i p).setCar i { (leaveQueue i p).car i with duty := d, pendingRecall := false } := rfl
    rw [hSet, hCar]
    unfold leaveQueue Part.modCar
    rw [settleJoinCounter_setCar, setCar_setCar]
    rw [car_setCar, if_pos rfl]
  have hDuty : ((leaveQueue i p).car i).duty = (p.car i).duty := by rw [hCar]
  rw [changeDuty_differs (hDuty ▸ h), hDuty, hStored]

theorem restoredDuty_ne_isolated (p : Part) (i : CarIdx) : p.restoredDuty i ≠ .isolated := by
  unfold Part.restoredDuty
  split
  case h_4 => split <;> exact Duty.noConfusion
  all_goals exact Duty.noConfusion

/-- RESTORE of an idle ISOLATED record gives it its restored duty (R43). -/
theorem restoreCar_idle {i : CarIdx} {p : Part} (hOn : ¬ (!(p.car i).enabled || (p.car i).disablePending) = true)
    (hPending : (p.car i).isolatePending = false) (hIsolated : (p.car i).duty = .isolated) (hIdle : (p.car i).run = .idle) :
    restoreCar i p = some (.done, handDutyChange .isolated (p.restoredDuty i) (p.setCar i { p.car i with
      stallCount := 0
      duty := p.restoredDuty i
      pendingRecall := false })) := by
  have hActs : restoreCar i p = some (.done, changeDuty i (p.restoredDuty i) (p.modCar i fun c => { c with stallCount := 0 })) :=
    (if_neg hOn).trans ((if_neg (Bool.eq_false_iff.mp hPending)).trans (if_pos ⟨hIsolated, hIdle⟩))
  have hDuty : ((p.modCar i fun c => { c with stallCount := 0 }).car i).duty = .isolated := by
    rw [car_modCar, if_pos rfl]
    exact hIsolated
  rw [hActs, changeDuty_differs (by rw [hDuty]; exact (restoredDuty_ne_isolated p i).symm), hDuty]
  unfold setDuty
  rw [modCar_modCar]
  rfl

/-- Settles O59: each action by the record's duty and run, where the sequencing unit is handed the change of duty. -/
theorem carControl : Obligations.CarControl := by
  intro s i hServes q c at_ becomes without
  have hEnable : ∀ {code : Result} {t : Part}, enableCar i q = some (code, t) → becomes (.enable at_ []) (resultCode code) t :=
    fun h => exec_control rfl rfl hServes (control_acts i h)
  have hDisable : ∀ {code : Result} {t : Part}, disableCar i q = some (code, t) → becomes (.disable at_ []) (resultCode code) t :=
    fun h => exec_control rfl rfl hServes (control_acts i h)
  have hIsolate : ∀ {code : Result} {t : Part}, isolateCar i q = some (code, t) → becomes (.isolate at_ []) (resultCode code) t :=
    fun h => exec_control rfl rfl hServes (control_acts i h)
  have hRestore : ∀ {code : Result} {t : Part}, restoreCar i q = some (code, t) → becomes (.restore at_ []) (resultCode code) t :=
    fun h => exec_control rfl rfl hServes (control_acts i h)
  have hClear : ∀ {code : Result} {t : Part}, clearUnfitCar i q = some (code, t) →
      becomes (.clearUnfit at_ []) (resultCode code) t :=
    fun h => exec_control rfl rfl hServes (control_acts i h)
  have hSettled : ∀ x : Part, settleJoinCounter x = without x := fun x => by
    by_cases h : ∃ j, (x.car j).run = .queued
    · exact (settleJoinCounter_queued h).trans (if_pos h).symm
    · exact (settleJoinCounter_empty h).trans (if_neg h).symm
  refine ⟨fun a hDuty hAddress hFree => hEnable (enableCar_free hDuty hAddress hFree),
    fun h => exec_control rfl rfl hServes (control_forbidden i (enableCar_forbidden h)),
    fun hDuty => hDisable (disableCar_disabled hDuty),
    fun hDuty => ⟨fun hRun => hDisable (disableCar_run hDuty hRun), fun hRun => ?disable⟩,
    fun h => ⟨exec_control rfl rfl hServes (control_forbidden i (isolateCar_forbidden h)),
      exec_control rfl rfl hServes (control_forbidden i (restoreCar_forbidden h)),
      exec_control rfl rfl hServes (control_forbidden i (clearUnfitCar_forbidden h))⟩,
    fun hDuty hKept => ⟨fun hRun => ?isolateRun, fun hRun hLost => ?isolateLost, fun hRun hIsolated => ?isolateAgain,
      fun hIdle hNotLost hNotIsolated => ?isolateIdle, fun hQueued hNotLost hNotIsolated => ?isolateQueued,
      fun hPending => ?restorePending, fun hPending hIsolated hIdle => ?restoreIdle, fun hPending hLost hPrior => ?restoreLost,
      fun hPending hNotIsolated hNotLost => ?restoreRefused, ?clear⟩,
    fun b hOutside => ⟨exec_control rfl rfl hServes (control_outside enableCar q hOutside),
      exec_control rfl rfl hServes (control_outside disableCar q hOutside),
      exec_control rfl rfl hServes (control_outside isolateCar q hOutside),
      exec_control rfl rfl hServes (control_outside restoreCar q hOutside),
      exec_control rfl rfl hServes (control_outside clearUnfitCar q hOutside)⟩⟩
  case disable =>
    have hNow := disableNow_eq i q
    rw [hSettled] at hNow
    exact hNow ▸ hDisable (disableCar_free hDuty hRun)
  all_goals have hOn : ¬ (!c.enabled || c.disablePending) = true := fun hOff =>
    (uncontrolled_iff.mp hOff).elim hDuty fun hPending => Bool.false_ne_true (hKept.symm.trans hPending)
  case isolateRun => exact hIsolate ((if_neg hOn).trans (if_pos hRun))
  case isolateLost => exact hIsolate ((if_neg hOn).trans ((if_neg (Bool.eq_false_iff.mp hRun)).trans (if_pos hLost)))
  case isolateAgain =>
    have hNotLost : c.duty ≠ .lost := fun hLost => Duty.noConfusion (hLost.symm.trans hIsolated)
    exact hIsolate ((if_neg hOn).trans ((if_neg (Bool.eq_false_iff.mp hRun)).trans ((if_neg hNotLost).trans (if_pos hIsolated))))
  case isolateIdle =>
    have hNotQueued : ¬ (q.car i).run = .queued := fun hQueued => Run.noConfusion (hIdle.symm.trans hQueued)
    have hActs := isolateCar_changes hOn (Bool.eq_false_iff.mpr (notHoldsRun_idle hIdle)) hNotLost hNotIsolated
    rw [if_neg hNotQueued, changeDuty_differs hNotIsolated] at hActs
    exact hIsolate hActs
  case isolateQueued =>
    have hActs := isolateCar_changes hOn (Bool.eq_false_iff.mpr fun hRun => notQueued_holdsRun hRun hQueued) hNotLost hNotIsolated
    rw [if_pos hQueued, changeDuty_leaveQueue hNotIsolated, hSettled] at hActs
    exact hIsolate hActs
  case restorePending => exact hRestore ((if_neg hOn).trans (if_pos hPending))
  case restoreIdle =>
    intro d
    exact hRestore (restoreCar_idle hOn hPending hIsolated hIdle)
  case restoreLost =>
    have hNotIsolated : ¬ (c.duty = .isolated ∧ c.run = .idle) := fun h => Duty.noConfusion (hLost.symm.trans h.1)
    exact hRestore ((if_neg hOn).trans ((if_neg (Bool.eq_false_iff.mp hPending)).trans
      ((if_neg hNotIsolated).trans (if_pos ⟨hLost, hPrior⟩))))
  case restoreRefused =>
    have hNone : restoreCar i q = none := (if_neg hOn).trans ((if_neg (Bool.eq_false_iff.mp hPending)).trans
      ((if_neg fun h => hNotIsolated h.1).trans (if_neg hNotLost)))
    exact exec_control rfl rfl hServes (control_forbidden i hNone)
  case clear => exact hClear (if_neg hOn)

end Sys2Proof.Machine
end

section
/-! The deferred slot (R68, R171, R172): APPLY and START SERVICE at once or held, and the request that waits for a move out of the
states of the generator. -/

namespace Sys2Proof.Machine

/-! ### What an APPLY does (R172) -/

theorem sequenceApply_recall {p : Part} (h : p.sup.state = .recall) :
    sequenceApply p = evaluateCompletion (retestParked p) := by
  unfold sequenceApply
  rw [h]

theorem sequenceApply_service {p : Part} (h : p.sup.state = .service) :
    sequenceApply p = serviceSelection (retestParked p) := by
  unfold sequenceApply
  rw [h]

theorem sequenceApply_returning {p : Part} (h : p.sup.state = .returning) : sequenceApply p = retestParked p := by
  unfold sequenceApply
  rw [h]

theorem sequenceApply_off {p : Part} (h : p.sup.state.onGenerator = false) : sequenceApply p = p := by
  unfold sequenceApply
  cases hState : p.sup.state with
  | normal | outage | standby => rfl
  | _ =>
    rw [hState] at h
    exact absurd h Bool.false_ne_true.symm

/-- The part as the sequencing unit finds it at an APPLY: tables, actions, report and limits renewed (R59, R118, R172). -/
def applyLimited (p : Part) : Part := recomputeLimits (ageReport (deriveActions (appliedTables p)))

theorem executeApply_limited (p : Part) : executeApply p = sequenceApply (applyLimited p) := rfl

theorem executeApply_off {p : Part} (h : p.sup.state.onGenerator = false) : executeApply p = applyLimited p :=
  sequenceApply_off ((congrArg TransferState.onGenerator (limited_state p)).trans h)

theorem ageReport_cause (p : Part) : (ageReport p).sup.cause = p.sup.cause := by
  unfold ageReport
  split <;> rfl

theorem applyLimited_cause (p : Part) : (applyLimited p).sup.cause = p.sup.cause := by
  unfold applyLimited
  rw [recomputeLimits_sup, ageReport_cause, deriveActions_sup]
  rfl

/-- An APPLY clears no flag. -/
theorem executeApply_kept {p : Part} {e : Event} (h : p.flag e = true) : (executeApply p).flag e = true :=
  (executeApply_sequenced p).kept e (by rw [flag_appliedTables, h]; rfl)

theorem executeApply_applied (p : Part) : (executeApply p).flag .applied = true :=
  (executeApply_sequenced p).kept .applied (by rw [flag_appliedTables]; exact Bool.or_true _)

/-- The report is too old for the stale limit that the APPLY puts in force (R16). -/
theorem overAge_applied (p : Part) : (deriveActions (appliedTables p)).overAge = true ↔ p.sup.fresh = true
    ∧ ∃ r, p.sup.report = some r ∧ (executeApply p).active.plant.staleLimit * 100 < (p.now - r.arrival).toNat := by
  have hNow : (deriveActions (appliedTables p)).now = p.now := by
    rw [(deriveActions_actions (appliedTables p)).same]
    rfl
  have hActive : (deriveActions (appliedTables p)).active = (executeApply p).active := by
    rw [deriveActions_active, executeApply_active]
    rfl
  rw [overAge_iff, deriveActions_sup, hNow, hActive]
  rfl

theorem ageReport_old {p : Part} (h : p.overAge = true) : ageReport p = becomeStale p := if_pos h

theorem ageReport_young {p : Part} (h : ¬ p.overAge = true) : ageReport p = p := if_neg h

theorem copyTables_eq (locked : Bool) (to_ from_ : Tables) : copyTables locked to_ from_ = { from_ with
    plant := if locked = true then to_.plant else from_.plant
    tripMap := if locked = true then to_.tripMap else from_.tripMap } := by
  cases locked <;> rfl

/-! ### The gap and the states in which a request is executed at once (R171) -/

theorem gapOpen_off {p : Part} (h : p.sup.state.onGenerator = false) : p.gapOpen = false := by
  unfold Part.gapOpen
  cases hState : p.sup.state with
  | normal | outage | standby => exact (congrArg (· && !p.retransferHeld) (Bool.and_false _)).trans (Bool.false_and _)
  | _ =>
    rw [hState] at h
    exact absurd h Bool.false_ne_true.symm

theorem attempt_closed {p : Part} (h : p.gapOpen = false) : attempt p = p := by
  unfold attempt
  rw [h]
  rfl

theorem retransferHeld_gapOpen {p : Part} (h : p.gapOpen = true) : p.retransferHeld = false := by
  unfold Part.gapOpen at h
  obtain ⟨_, hHeld⟩ := Bool.and_eq_true_iff.mp h
  rwa [Bool.not_eq_true'] at hHeld

theorem mayExecute_iff (p : Part) : p.mayExecute = true ↔ p.sup.state = .normal ∨ p.sup.state = .outage ∨ p.sup.state = .standby
    ∨ p.gapOpen = true := by
  unfold Part.mayExecute
  rw [Bool.or_eq_true, Bool.or_eq_true, Bool.or_eq_true, beq_iff_eq, beq_iff_eq, beq_iff_eq, or_assoc, or_assoc]

/-! ### The request that waits for a move (R10, R11, R171) -/

theorem leftFor_unseen (new : TransferState) (cause : Cause) : Unseen (leftFor new cause) := fun p =>
  stopTransferTimers_unseen p.sup.state (moveState new cause p)

theorem outageEffect_unseen (left : TransferState) : Unseen (outageEffect left) := by
  cases left with
  | normal => exact stoppingEffect_unseen
  | outage | standby => exact unseen_id
  | _ => exact rederiveActions_unseen.comp (breakerEffect_unseen.comp bulkRelease_unseen)

theorem normalEffect_unseen (left : TransferState) : Unseen (normalEffect left) := by
  cases left with
  | normal | outage | standby => exact restoringEffect_unseen
  | _ => exact rederiveActions_unseen.comp (restoringEffect_unseen.comp bulkRelease_unseen)

/-- A request that waits is executed after all that the move does with an EMPTY slot. -/
theorem enterOutage_request (cause : Cause) (p : Part) :
    (p.mgmt.deferred = some .apply → enterOutage cause p = executeApply (enterOutage cause p.freed))
    ∧ (p.mgmt.deferred = some .startService → enterOutage cause p = enterOutage cause p.freed) := by
  rw [enterOutage_eq, enterOutage_eq]
  have hLeaves := outageEffect_leaves p.sup.state (leftFor .outage cause p)
  have hAfter := executeDeferred_after (fun x => outageEffect p.sup.state (leftFor .outage cause x))
    ((outageEffect_unseen p.sup.state).comp (leftFor_unseen .outage cause)) p
    (hLeaves.deferred.trans (leftFor_deferred .outage cause p))
  have hState : (outageEffect p.sup.state (leftFor .outage cause p)).sup.state = .outage :=
    ((leftFor_recorded .outage cause p).effect hLeaves).state
  exact ⟨hAfter.1, fun h => hAfter.2 h (by rw [hState]; exact TransferState.noConfusion)⟩

theorem enterNormal_request (p : Part) :
    (p.mgmt.deferred = some .apply → enterNormal p = executeApply (enterNormal p.freed))
    ∧ (p.mgmt.deferred = some .startService → enterNormal p = enterNormal p.freed) := by
  rw [enterNormal_eq, enterNormal_eq]
  have hLeaves := normalEffect_leaves p.sup.state (leftFor .normal .switchUtility p)
  have hAfter := executeDeferred_after (fun x => normalEffect p.sup.state (leftFor .normal .switchUtility x))
    ((normalEffect_unseen p.sup.state).comp (leftFor_unseen .normal .switchUtility)) p
    (hLeaves.deferred.trans (leftFor_deferred .normal .switchUtility p))
  have hState : (normalEffect p.sup.state (leftFor .normal .switchUtility p)).sup.state = .normal :=
    ((leftFor_recorded .normal .switchUtility p).effect hLeaves).state
  exact ⟨hAfter.1, fun h => hAfter.2 h (by rw [hState]; exact TransferState.noConfusion)⟩

/-- A flag that is set stands as it is when its event comes again. -/
theorem raiseEvent_set {p : Part} {e : Event} (h : p.flag e = true) : raiseEvent e p = p := by
  have hFlags : p.mgmt.flags ||| (1#12 <<< eventBit e) = p.mgmt.flags := by
    refine BitVec.eq_of_getLsbD_eq fun n hn => ?_
    obtain ⟨x, rfl⟩ := exists_eventBit hn
    have hRaised : (raiseEvent e p).flag x = (p.flag x || decide (e = x)) := flag_raiseEvent e x p
    refine hRaised.trans ?_
    by_cases hx : e = x
    · subst hx
      rw [h]
      exact (Bool.true_or _).trans h.symm
    · rw [decide_eq_false hx, Bool.or_false]
      rfl
  unfold raiseEvent
  rw [hFlags]

/-- A position that has just become INVALID with the move to OUTAGE is noted already (R3). -/
theorem noteInvalid_noted {p : Part} (hCause : p.sup.cause = .switchInvalid) (hFlag : p.flag .transfer = true) : noteInvalid p = p := by
  have hSame : { p with sup.cause := .switchInvalid } = p := by rw [← hCause]
  unfold noteInvalid
  rw [hSame, raiseEvent_set hFlag]

theorem noteInvalid_enterOutage {p : Part} (h : p.mgmt.deferred = none) :
    noteInvalid (enterOutage .switchInvalid p) = enterOutage .switchInvalid p :=
  noteInvalid_noted (enterOutage_recorded .switchInvalid h).cause (enterOutage_recorded .switchInvalid h).flag

/-- Nor does an APPLY executed in OUTAGE after that move change the cause or clear the flag. -/
theorem noteInvalid_applied {p : Part} (h : p.mgmt.deferred = none) :
    noteInvalid (executeApply (enterOutage .switchInvalid p)) = executeApply (enterOutage .switchInvalid p) := by
  have hRecorded := enterOutage_recorded (p := p) .switchInvalid h
  refine noteInvalid_noted ?_ (executeApply_kept hRecorded.flag)
  rw [executeApply_off (by rw [hRecorded.state]; rfl), applyLimited_cause, hRecorded.cause]

/-! ### The obligation -/

/-- A change of position that changes the state to NORMAL or OUTAGE, with a request waiting (R10, R11, R171). -/
theorem takePosition_request {p : Part} {new : Position} (hNew : p.sup.position ≠ new)
    (h : ((new = .opened ∨ new = .invalid) ∧ openLike p.sup.position = false ∧ p.sup.state ≠ .outage)
      ∨ (new = .utility ∧ p.sup.state ≠ .normal)) :
    (p.mgmt.deferred = some .apply → takePosition new p = executeApply (takePosition new p.freed))
    ∧ (p.mgmt.deferred = some .startService → takePosition new p = takePosition new p.freed) := by
  have hNewFreed : p.freed.sup.position ≠ new := hNew
  have hEmpty : (positioned new p).freed.mgmt.deferred = none := rfl
  obtain ⟨rfl | rfl, hPosition, hState⟩ | ⟨rfl, hState⟩ := h
  · have hMove : ∀ x : Part, x.sup = p.sup → takePosition .opened x = enterOutage .switchOpen (positioned .opened x) := fun x hx => by
      rw [takePosition_opened (hx ▸ hNew), hx, if_neg (Bool.eq_false_iff.mp hPosition),
        reactOpen_else (p := positioned .opened x) _ (by rw [← hx] at hState; exact hState)]
    rw [hMove p rfl, hMove p.freed rfl]
    exact enterOutage_request .switchOpen (positioned .opened p)
  · have hMove : ∀ x : Part, x.sup = p.sup →
        takePosition .invalid x = noteInvalid (enterOutage .switchInvalid (positioned .invalid x)) := fun x hx => by
      rw [takePosition_invalid (hx ▸ hNew), hx, if_neg (Bool.eq_false_iff.mp hPosition),
        reactOpen_else (p := positioned .invalid x) _ (by rw [← hx] at hState; exact hState)]
    have hFreed : takePosition .invalid p.freed = enterOutage .switchInvalid (positioned .invalid p).freed :=
      (hMove p.freed rfl).trans (noteInvalid_enterOutage hEmpty)
    obtain ⟨hApply, hStart⟩ := enterOutage_request .switchInvalid (positioned .invalid p)
    rw [hMove p rfl, hFreed]
    refine ⟨fun hWaits => ?_, fun hWaits => ?_⟩
    · rw [hApply hWaits, noteInvalid_applied hEmpty]
    · rw [hStart hWaits, noteInvalid_enterOutage hEmpty]
  · have hMove : ∀ x : Part, x.sup = p.sup → takePosition .utility x = enterNormal (positioned .utility x) := fun x hx => by
      rw [takePosition_utility (hx ▸ hNew), reactUtility_else (p := positioned .utility x) (by rw [← hx] at hState; exact hState)]
    rw [hMove p rfl, hMove p.freed rfl]
    exact enterNormal_request (positioned .utility p)

end Sys2Proof.Machine
end

section
/-! The deferred requests as a whole (R171, R172). -/

namespace Sys2Proof.Machine

/-! ### APPLY and START SERVICE served (R171) -/

theorem serveApply_now {p : Part} (h : p.mgmt.deferred = none) (hNow : p.mayExecute = true) :
    serveApply [] p = answer .done (attempt (executeApply p)) := by
  unfold serveApply
  rw [h]
  exact if_pos hNow

theorem serveApply_waits {p : Part} (h : p.mgmt.deferred = none) (hNow : ¬ p.mayExecute = true) :
    serveApply [] p = answer .pending { p with mgmt.deferred := some .apply } := by
  unfold serveApply
  rw [h]
  exact if_neg hNow

theorem serveApply_busy {p : Part} (h : p.mgmt.deferred ≠ none) : serveApply [] p = answer .busy p :=
  if_pos (Option.isSome_iff_ne_none.mpr h)

theorem serveStartService_wrong {p : Part} (h : p.sup.state ≠ .recall) : serveStartService [] p = answer .wrongState p := if_pos h

theorem serveStartService_busy {p : Part} (hState : p.sup.state = .recall) (h : p.mgmt.deferred ≠ none) :
    serveStartService [] p = answer .busy p :=
  (if_neg fun hNot => hNot hState).trans (if_pos (Option.isSome_iff_ne_none.mpr h))

theorem serveStartService_now {p : Part} (hState : p.sup.state = .recall) (h : p.mgmt.deferred = none) (hNow : p.mayExecute = true) :
    serveStartService [] p = answer .done (endRecall p) := by
  unfold serveStartService executeStartService
  rw [if_neg fun hNot => hNot hState, h, if_pos hState]
  exact if_pos hNow

theorem serveStartService_waits {p : Part} (hState : p.sup.state = .recall) (h : p.mgmt.deferred = none)
    (hNow : ¬ p.mayExecute = true) : serveStartService [] p = answer .pending { p with mgmt.deferred := some .startService } := by
  unfold serveStartService
  rw [if_neg fun hNot => hNot hState, h]
  exact if_neg hNow

/-- In RECALL a request is executed at once only while the gap is OPEN. -/
theorem mayExecute_recall {p : Part} (h : p.sup.state = .recall) : p.mayExecute = true ↔ p.gapOpen = true := by
  rw [mayExecute_iff, h]
  simp

theorem DutyOnly.keepsRuns {p q : Part} (h : DutyOnly p q) (i : CarIdx) :
    (q.car i).run = (p.car i).run ∧ (q.car i).m = (p.car i).m ∧ (q.car i).r = (p.car i).r := by
  rw [h.car i]
  exact ⟨rfl, rfl, rfl⟩

/-- The end of recall with no retransfer held keeps every run and commitment. -/
theorem endRecall_keepsRuns {p : Part} (h : p.retransferHeld = false) (i : CarIdx) : ((endRecall p).car i).run = (p.car i).run
    ∧ ((endRecall p).car i).m = (p.car i).m ∧ ((endRecall p).car i).r = (p.car i).r := by
  rw [endRecall_noRetransfer p h]
  exact (serviceSelection_dutyOnly (stopRecallLimit (moveState .service .recallDone (raiseEvent .recallDone p)))).keepsRuns i

/-- An APPLY outside the states of the generator leaves the gap closed. -/
theorem executeApply_gapClosed {p : Part} (h : p.sup.state.onGenerator = false) : (executeApply p).gapOpen = false := by
  refine gapOpen_off ?_
  rw [executeApply_off h]
  exact (congrArg TransferState.onGenerator (limited_state p)).trans h

/-- An APPLY leaves the shadow tables, the link and the sums of the commitments. -/
theorem executeApply_keeps (p : Part) : (executeApply p).shadow = p.shadow ∧ (executeApply p).link = p.link
    ∧ (executeApply p).adm.sumM = p.adm.sumM ∧ (executeApply p).adm.sumR = p.adm.sumR := by
  rw [(executeApply_sequenced p).same]
  exact ⟨rfl, rfl, rfl, rfl⟩

/-- An APPLY clears a record's UNFIT, and leaves its commitments, snapshot and identity. -/
theorem executeApply_car (p : Part) (i : CarIdx) : ((executeApply p).car i).unfit = none
    ∧ ((executeApply p).car i).m = (p.car i).m ∧ ((executeApply p).car i).r = (p.car i).r
    ∧ ((executeApply p).car i).snapshot = (p.car i).snapshot ∧ ((executeApply p).car i).address = (p.car i).address
    ∧ ((executeApply p).car i).lines = (p.car i).lines := by
  rw [(executeApply_sequenced p).car i, car_appliedTables]
  exact ⟨rfl, rfl, rfl, rfl, rfl, rfl⟩

/-- Settles O58: the test for an execution at once, an APPLY in its steps, the request that waits, and the moves that execute it. -/
theorem deferredRequests : Obligations.DeferredRequests := by
  refine ⟨fun s hServes => ?served, fun p => ?apply, fun p => ?waits, fun p new hNew hMoves => ?moves⟩
  case served =>
    intro q atOnce becomes
    have hAtOnce : atOnce ↔ q.mayExecute = true := (mayExecute_iff q).symm
    have hApply : ∀ {code : Result} {x : Part}, serveApply [] q = answer code x → becomes (.apply []) (resultCode code) x :=
      fun h => exec_served (payload := [4]) rfl hServes ⟨by decide, by decide⟩ h
    have hStart : ∀ {code : Result} {x : Part}, serveStartService [] q = answer code x →
        becomes (.startService []) (resultCode code) x :=
      fun h => exec_served (payload := [5]) rfl hServes ⟨by decide, by decide⟩ h
    clear_value becomes atOnce q
    refine ⟨fun hEmpty hClosed hNow => ?applyNow, fun hEmpty hOpen => ?applyGap,
      fun hEmpty hLater => hApply (serveApply_waits hEmpty fun h => hLater (hAtOnce.mpr h)),
      fun hTaken => hApply (serveApply_busy hTaken), fun hState => hStart (serveStartService_wrong hState),
      fun hState => ⟨fun hTaken => hStart (serveStartService_busy hState hTaken), fun hEmpty hClosed => ?startWaits,
        fun hEmpty hOpen => ?startNow⟩⟩
    case applyNow =>
      have hOff : q.sup.state.onGenerator = false := by
        obtain h | h | h | h := (mayExecute_iff q).mp (hAtOnce.mp hNow)
        · rw [h]; rfl
        · rw [h]; rfl
        · rw [h]; rfl
        · exact absurd (hClosed.symm.trans h) Bool.false_ne_true
      have hServed := serveApply_now hEmpty (hAtOnce.mp hNow)
      rw [attempt_closed (executeApply_gapClosed hOff)] at hServed
      exact hApply hServed
    case applyGap =>
      have hServed := serveApply_now hEmpty ((mayExecute_iff q).mpr (.inr (.inr (.inr hOpen))))
      exact hApply hServed
    case startWaits =>
      exact hStart (serveStartService_waits hState hEmpty fun h =>
        Bool.false_ne_true (hClosed.symm.trans ((mayExecute_recall hState).mp h)))
    case startNow =>
      have hHeld := retransferHeld_gapOpen hOpen
      refine ⟨endRecall q, hStart (serveStartService_now hState hEmpty ((mayExecute_recall hState).mpr hOpen)), ?_⟩
      obtain ⟨x, hSame, -, hDone, hMoved, -, hEnds, -⟩ := endRecall_endsRecall q
      have hRuns := endRecall_keepsRuns hHeld
      have hSup : x.sup = _ := congrArg Part.sup hSame
      rw [hEnds hHeld] at hRuns ⊢
      rw [hSup]
      exact ⟨rfl, hState, rfl, rfl, rfl, hDone, hMoved, hRuns⟩
  case apply =>
    intro t
    obtain ⟨hShadow, hLink, hM, hR⟩ := executeApply_keeps p
    have hOld := overAge_applied p
    refine ⟨(executeApply_active p).trans (copyTables_eq _ _ _), hShadow, hLink, executeApply_applied p, hM, hR, executeApply_car p,
      appliedTables p, ageReport (deriveActions (appliedTables p)), retestParked (applyLimited p), ?_⟩
    intro derived limited older
    have hState : limited.sup.state = p.sup.state := limited_state p
    have hAged : older → ageReport derived = becomeStale derived := fun h => ageReport_old (hOld.mpr h)
    refine ⟨?applied, car_appliedTables p, ?flag, fun e he => ?flags, fun h => ageReport_young fun hIs => h (hOld.mp hIs),
      fun h => ⟨?stale, ?staleFlag, fun e he => ?staleFlags⟩, (retestParked_dutyOnly (applyLimited p)).same,
      car_retestParked (applyLimited p), fun h => sequenceApply_recall (hState.trans h),
      fun h => ?service, fun h => sequenceApply_returning (hState.trans h), fun h => executeApply_off h⟩
    case applied =>
      have hActive : t.active = _ := executeApply_active p
      rw [hActive]
      rfl
    case flag => rw [flag_appliedTables]; exact Bool.or_true _
    case flags =>
      rw [flag_appliedTables, decide_eq_false fun h => he h.symm, Bool.or_false]
    case stale => rw [hAged h]; rfl
    case staleFlag =>
      rw [hAged h]
      unfold becomeStale
      rw [flag_raiseEvent]
      exact Bool.or_true _
    case staleFlags =>
      rw [hAged h]
      unfold becomeStale
      rw [flag_raiseEvent, decide_eq_false fun h => he h.symm, Bool.or_false]
      rfl
    case service =>
      have hSelects : t = serviceSelection (retestParked (applyLimited p)) := sequenceApply_service (hState.trans h)
      rw [hSelects]
      exact ⟨(serviceSelection_dutyOnly _).same, fun hLists i => car_serviceSelection _ (fun g => hLists.1.1 g) i⟩
  case waits =>
    intro freed
    obtain ⟨hNone, hApply, hStart⟩ := executeDeferred_executes p
    refine ⟨hNone, hApply, fun hWaits => ⟨fun hState => (hStart hWaits).trans (if_neg hState), fun hState => ?_⟩⟩
    rw [hStart hWaits]
    exact executeStartService_ends freed hState
  case moves => exact takePosition_request hNew hMoves

end Sys2Proof.Machine
end

section
/-! The last steps of a report intake (R26, R63, R64, R66, R92, R100): joining or leaving the queue, the new numbering of the queue,
and the two checks of a PARKED record. -/

namespace Sys2Proof.Machine

/-! ### The new numbering of the queue (R64) -/

/-- In a list without repeats the position of a car is where it stands. -/
theorem position_getElem {j : CarIdx} : ∀ {l : List CarIdx} {n : Nat}, l.Nodup → l[n]? = some j → position j l = some n
  | [], n, _, h => by rw [List.getElem?_nil] at h; exact absurd h.symm (Option.some_ne_none j)
  | k :: l, 0, _, h => by
    rw [List.getElem?_cons_zero] at h
    exact if_pos (Option.some.inj h)
  | k :: l, n + 1, hNodup, h => by
    rw [List.getElem?_cons_succ] at h
    obtain ⟨hHead, hTail⟩ := List.nodup_cons.mp hNodup
    have hOther : ¬ k = j := fun hIs => hHead (hIs ▸ List.mem_of_getElem? h)
    refine (if_neg hOther).trans ?_
    rw [position_getElem hTail h]
    rfl

theorem length_insertCar (before : CarIdx → CarIdx → Bool) (i : CarIdx) :
    ∀ l, (insertCar before i l).length = l.length + 1
  | [] => rfl
  | j :: l => by
    unfold insertCar
    split
    · exact congrArg (· + 1) (length_insertCar before i l)
    · rfl

theorem length_sortCars (before : CarIdx → CarIdx → Bool) : ∀ l, (sortCars before l).length = l.length
  | [] => rfl
  | i :: l => (length_insertCar before i (sortCars before l)).trans (congrArg (· + 1) (length_sortCars before l))

theorem mem_bySequence (p : Part) (j : CarIdx) : j ∈ p.bySequence ↔ (p.car j).run = .queued := by
  unfold Part.bySequence Part.queuedCars
  rw [mem_sortCars, List.mem_filter, beq_iff_eq]
  exact and_iff_right (mem_allCars j)

theorem nodup_bySequence (p : Part) : p.bySequence.Nodup := nodup_sortCars _ _ (nodup_allCars.filter _)

theorem pairwise_bySequence (p : Part) :
    p.bySequence.Pairwise fun j k => (p.car j).joinSeq.getD 0 ≤ (p.car k).joinSeq.getD 0 := by
  have hSorted := pairwise_sortCars (fun i j => decide (((p.car i).joinSeq).getD 0 < ((p.car j).joinSeq).getD 0))
    (fun i j h => decide_eq_false (by have := of_decide_eq_true h; omega))
    (fun i j k h1 h2 => decide_eq_false (by
      have := of_decide_eq_false h1
      have := of_decide_eq_false h2
      omega)) p.queuedCars
  exact hSorted.imp fun h => Nat.not_lt.mp (of_decide_eq_false h)

/-- A walk that changes records alone leaves the rest of the part. -/
theorem foldl_modCar_same (f : CarIdx → Car → Car) : ∀ (l : List CarIdx) (p : Part),
    l.foldl (fun p i => p.modCar i (f i)) p = { p with cars := (l.foldl (fun p i => p.modCar i (f i)) p).cars }
  | [], _ => rfl
  | i :: l, p => by
    rw [List.foldl_cons]
    exact foldl_modCar_same f l (p.modCar i (f i))

theorem renumber_same (p : Part) : renumber p = { p with
    cars := (renumber p).cars
    adm := { p.adm with joinCounter := p.bySequence.length } } := by
  have hSame := foldl_modCar_same (fun i c => { c with joinSeq := position i p.bySequence }) p.bySequence p
  unfold renumber
  dsimp only
  rw [hSame]

theorem car_renumber (p : Part) (j : CarIdx) : (renumber p).car j =
    if (p.car j).run = .queued then { p.car j with joinSeq := position j p.bySequence } else p.car j := by
  have hWalk := foldl_ownCar (fun p' i => p'.modCar i fun c => { c with joinSeq := position i p.bySequence })
    (fun p' i => { p'.car i with joinSeq := position i p.bySequence }) (fun p' i j => car_modCar p' i j _)
    (fun q r i _ hCar => by rw [hCar]) (fun _ _ => rfl) p.bySequence p (nodup_bySequence p) j
  simp only [mem_bySequence] at hWalk
  exact hWalk

/-! ### Joining (R63, R64) -/

/-- The record of a car that joins the queue with a join sequence (R64). -/
def joinedCar (l : Live) (c : Car) (sequence : Nat) : Car :=
  { c with
    run := .queued
    priority := some (if l.zone = .zoneOut then .trapped else if c.duty = .recall then .recall else .service)
    joinSeq := some sequence
    skipCount := 0 }

theorem joinClass_heard {c : Car} {l : Live} (h : c.live = some l) :
    joinClass c = if l.zone = .zoneOut then .trapped else if c.duty = .recall then .recall else .service := by
  unfold joinClass
  rw [h]

theorem join_below {p : Part} {i : CarIdx} {l : Live} (h : (p.car i).live = some l) (k : p.adm.joinCounter < 65535) :
    join i p = { p.setCar i (joinedCar l (p.car i) p.adm.joinCounter) with
      adm := { p.adm with joinCounter := p.adm.joinCounter + 1 } } := by
  rw [join_eq p i k, joinClass_heard h]
  rfl

/-- At the last number the queue is numbered anew before the car joins (R64). -/
theorem join_full {p : Part} {i : CarIdx} {l : Live} (h : (p.car i).live = some l) (hIdle : (p.car i).run = .idle)
    (k : 65535 ≤ p.adm.joinCounter) :
    join i p = { (renumber p).setCar i (joinedCar l (p.car i) p.bySequence.length) with
      adm := { p.adm with joinCounter := p.bySequence.length + 1 } } := by
  have hCar : (renumber p).car i = p.car i := by
    rw [car_renumber, if_neg fun hQueued => Run.noConfusion (hIdle.symm.trans hQueued)]
  have hAdm : (renumber p).adm = { p.adm with joinCounter := p.bySequence.length } := by rw [renumber_same]
  have hLength : p.bySequence.length ≤ 48 := by
    unfold Part.bySequence
    rw [length_sortCars]
    exact Nat.le_trans (List.length_filter_le _ _) (Nat.le_of_eq List.length_finRange)
  have hRoom : (renumber p).adm.joinCounter < 65535 := by
    rw [hAdm]
    exact Nat.lt_of_le_of_lt hLength (by decide)
  have hJoined : join i p = join i (renumber p) := by
    unfold join
    rw [if_pos k, if_neg (Nat.not_le.mpr hRoom)]
  rw [hJoined, join_below (hCar ▸ h) hRoom, hCar, hAdm]

/-! ### The report as the record holds it -/

/-- BLOCKED by the faults of a report (R27). -/
def Live.blocks (l : Live) : Bool := l.faults.safetyOpen || l.faults.driveFault || l.faults.inspection

theorem blocked_heard {c : Car} {l : Live} (h : c.live = some l) : c.blocked = l.blocks := by
  unfold Car.blocked
  rw [h]
  rfl

theorem mayJoin_iff {p : Part} {i : CarIdx} {l : Live} (h : (p.car i).live = some l) : p.mayJoin i = true ↔
    l.request ≠ .none ∧ l.motion = .stopped ∧ ((p.car i).duty = .recall ∨ (p.car i).duty = .service) ∧ (p.car i).run = .idle
      ∧ l.blocks = false ∧ (p.car i).unfit = none ∧ (p.car i).isolatePending = false ∧ (p.car i).disablePending = false
      ∧ (p.sup.state = .recall ∨ p.sup.state = .service) := by
  rw [mayJoin_heard p i l h, blocked_heard h]
  simp only [Bool.and_eq_true, Bool.or_eq_true, bne_iff_ne, beq_iff_eq, Bool.not_eq_true', Option.isNone_iff_eq_none, and_assoc]

/-! ### Step 6 of R26 -/

theorem handToAdmission_joins {p : Part} {i : CarIdx} (l : Live) (h : (p.car i).run ≠ .queued) (k : p.mayJoin i = true) :
    handToAdmission i l p = attempt (join i p) := by
  have hLeft : (if (p.car i).run = .queued ∧ (l.request = .none ∨ (p.car i).blocked) then leaveQueue i p else p) = p :=
    if_neg fun hLeaves => h hLeaves.1
  unfold handToAdmission
  dsimp only
  rw [hLeft]
  exact if_pos k

theorem handToAdmission_still {p : Part} {i : CarIdx} {l : Live}
    (h : ¬ ((p.car i).run = .queued ∧ (l.request = .none ∨ (p.car i).blocked = true))) (k : ¬ p.mayJoin i = true) :
    handToAdmission i l p = p := by
  have hLeft : (if (p.car i).run = .queued ∧ (l.request = .none ∨ (p.car i).blocked) then leaveQueue i p else p) = p := if_neg h
  unfold handToAdmission
  dsimp only
  rw [hLeft]
  exact if_neg k

/-- The record of a car that leaves the queue (R66). -/
def leftQueue (c : Car) : Car := { c with run := .idle, priority := none, joinSeq := none }

theorem leaveQueue_eq (p : Part) (i : CarIdx) : leaveQueue i p = { p.setCar i (leftQueue (p.car i)) with
    adm := { p.adm with
      joinCounter := if (∃ j, ((p.setCar i (leftQueue (p.car i))).car j).run = .queued) then p.adm.joinCounter else 0 } } :=
  settleJoinCounter_eq (p.setCar i (leftQueue (p.car i)))

theorem handToAdmission_leaves {p : Part} {i : CarIdx} {l : Live} (h : (p.car i).live = some l) (hRun : (p.car i).run = .queued)
    (k : l.request = .none ∨ l.blocks = true) : handToAdmission i l p = leaveQueue i p := by
  have hBlocked := blocked_heard h
  have hCar : (leaveQueue i p).car i = leftQueue (p.car i) := by
    unfold leaveQueue
    rw [car_settleJoinCounter, car_modCar_self]
    rfl
  have hLive : ((leaveQueue i p).car i).live = some l := by
    rw [hCar]
    exact h
  have hNot : ¬ (leaveQueue i p).mayJoin i = true := fun hJoins => by
    obtain ⟨hRequest, _, _, _, hFree, _⟩ := (mayJoin_iff hLive).mp hJoins
    exact k.elim hRequest fun hBlocks => Bool.false_ne_true (hFree.symm.trans hBlocks)
  have hLeft : (if (p.car i).run = .queued ∧ (l.request = .none ∨ (p.car i).blocked) then leaveQueue i p else p)
      = leaveQueue i p := if_pos ⟨hRun, by rw [hBlocked]; exact k⟩
  unfold handToAdmission
  dsimp only
  rw [hLeft]
  exact if_neg hNot

/-! ### After the last step (R92, R100) -/

theorem afterIntake_elsewhere {p : Part} {i : CarIdx} (wasBlocked : Bool) (h : (p.car i).duty ≠ .parked) :
    afterIntake i wasBlocked p = p := if_neg h

theorem afterIntake_drifts {p : Part} {i : CarIdx} (wasBlocked : Bool) (h : (p.car i).duty = .parked)
    (hState : p.sup.state.onGenerator = true) (hFails : passesStanding (p.recallFloor i) (p.car i) = false) :
    afterIntake i wasBlocked p
      = handDutyChange .parked .recall (p.setCar i { p.car i with duty := .recall, pendingRecall := false }) := by
  have hMoves : ¬ (p.car i).duty = .recall := fun hIs => Duty.noConfusion (h.symm.trans hIs)
  unfold afterIntake
  rw [if_pos h, hState, hFails]
  refine (if_pos rfl).trans ?_
  rw [changeDuty_differs hMoves, h]
  rfl

theorem afterIntake_keeps {p : Part} {i : CarIdx} (wasBlocked : Bool) (h : (p.car i).duty = .parked)
    (hStays : ¬ (p.sup.state.onGenerator = true ∧ passesStanding (p.recallFloor i) (p.car i) = false)) :
    afterIntake i wasBlocked p
      = if p.sup.state = .service ∧ wasBlocked = true ∧ (p.car i).blocked = false then serviceSelection p else p := by
  unfold afterIntake
  rw [if_pos h]
  refine if_neg fun hDrifts => hStays ?_
  rwa [Bool.and_eq_true, Bool.not_eq_true'] at hDrifts

end Sys2Proof.Machine
end

section
/-! What a report is read as, and the steps of its intake that come last, as a whole (R63, R64, R66, R92, R100, R132). -/

namespace Sys2Proof.Machine

/-! ### The codes of a report (R132) -/

/-- A code that is read by the values 1 and 2: what 1 stands for is read from 1 alone. -/
theorem readCode_one {α : Type} {a b c : α} (hb : b ≠ a) (hc : c ≠ a) (x : Byte) :
    (if x = 1 then a else if x = 2 then b else c) = a ↔ x = 1 := by
  by_cases hOne : x = 1
  · rw [if_pos hOne]
    exact iff_of_true rfl hOne
  · rw [if_neg hOne]
    refine iff_of_false ?_ hOne
    by_cases hTwo : x = 2
    · rwa [if_pos hTwo]
    · rwa [if_neg hTwo]

theorem readCode_two {α : Type} {a b c : α} (ha : a ≠ b) (hc : c ≠ b) (x : Byte) :
    (if x = 1 then a else if x = 2 then b else c) = b ↔ x = 2 := by
  by_cases hOne : x = 1
  · rw [if_pos hOne, hOne]
    exact iff_of_false ha (by decide)
  · rw [if_neg hOne]
    by_cases hTwo : x = 2
    · rw [if_pos hTwo]
      exact iff_of_true rfl hTwo
    · rw [if_neg hTwo]
      exact iff_of_false hc hTwo

theorem directionOf_up (b : Byte) : directionOf b = .up ↔ b = 1 := readCode_one (by decide) (by decide) b

theorem directionOf_down (b : Byte) : directionOf b = .down ↔ b = 2 := readCode_two (by decide) (by decide) b

theorem motionOf_moving (b : Byte) : motionOf b = .moving ↔ b = 1 := readCode_one (by decide) (by decide) b

theorem motionOf_levelling (b : Byte) : motionOf b = .levelling ↔ b = 2 := readCode_two (by decide) (by decide) b

theorem doorOf_closed (b : Byte) : doorOf b = .closed ↔ b = 1 := readCode_one (by decide) (by decide) b

theorem doorOf_moving (b : Byte) : doorOf b = .moving ↔ b = 2 := readCode_two (by decide) (by decide) b

theorem reportLive_zone (r : ReportPayload) : (reportLive r).zone = .zoneIn ↔ r.status.getLsbD 0 = true := by
  change (if r.status.getLsbD 0 = true then Zone.zoneIn else .zoneOut) = .zoneIn ↔ _
  by_cases hIn : r.status.getLsbD 0 = true
  · rw [if_pos hIn]
    exact iff_of_true rfl hIn
  · rw [if_neg hIn]
    exact iff_of_false (by decide) hIn

theorem takeReport_found {p : Part} {address : Byte} {i : CarIdx} (l : Live) (h : p.findEnabled address = some i) :
    takeReport address l p = intake i l p := by
  unfold takeReport
  rw [h]

theorem takeReport_nobody {p : Part} {address : Byte} (l : Live) (h : p.findEnabled address = none) :
    takeReport address l p = p := by
  unfold takeReport
  rw [h]

/-! ### The part that a join leaves (R64) -/

/-- The records after a join at the last number: the queue in the order it had, numbered from 0, and the car behind it. -/
theorem join_renumbers {p : Part} {i : CarIdx} {l : Live} (h : (p.car i).live = some l) (hIdle : (p.car i).run = .idle)
    (k : 65535 ≤ p.adm.joinCounter) : ∃ order : List CarIdx,
      order.Nodup ∧ (∀ j, j ∈ order ↔ (p.car j).run = .queued)
      ∧ order.Pairwise (fun j k => (p.car j).joinSeq.getD 0 ≤ (p.car k).joinSeq.getD 0)
      ∧ join i p = { p with
          cars := (join i p).cars
          adm := { p.adm with joinCounter := order.length + 1 } }
      ∧ (join i p).car i = joinedCar l (p.car i) order.length
      ∧ (∀ n j, order[n]? = some j → (join i p).car j = { p.car j with joinSeq := some n })
      ∧ ∀ j, j ≠ i → j ∉ order → (join i p).car j = p.car j := by
  have hCar : ∀ j, (join i p).car j = if i = j then joinedCar l (p.car i) p.bySequence.length else (renumber p).car j := fun j => by
    rw [join_full h hIdle k]
    exact car_setCar (renumber p) i j _
  refine ⟨p.bySequence, nodup_bySequence p, mem_bySequence p, pairwise_bySequence p, ?_, by rw [hCar, if_pos rfl],
    fun n j hAt => ?_, fun j hOther hOut => ?_⟩
  · rw [join_full h hIdle k, renumber_same]
    rfl
  · have hQueued := (mem_bySequence p j).mp (List.mem_of_getElem? hAt)
    have hOther : i ≠ j := fun hIs => Run.noConfusion (hIdle.symm.trans (hIs ▸ hQueued))
    rw [hCar, if_neg hOther, car_renumber, if_pos hQueued, position_getElem (nodup_bySequence p) hAt]
  · rw [hCar, if_neg hOther.symm, car_renumber, if_neg fun hQueued => hOut ((mem_bySequence p j).mpr hQueued)]

/-- The gap looks at the STARTING cars, the hold-off timer and the supervisor alone (R68). -/
theorem gapOpen_congr {p q : Part} (hCars : ∀ j, (q.car j).run = .starting ↔ (p.car j).run = .starting)
    (hHold : q.adm.holdOff = p.adm.holdOff) (hSup : q.sup = p.sup) : q.gapOpen = p.gapOpen := by
  have hAny : allCars.any (fun j => (q.car j).run == .starting) = allCars.any fun j => (p.car j).run == .starting := by
    congr 1
    funext j
    rw [Bool.eq_iff_iff, beq_iff_eq, beq_iff_eq]
    exact hCars j
  unfold Part.gapOpen Part.retransferHeld
  rw [hAny, hHold, hSup]

theorem join_gapOpen {p : Part} {i : CarIdx} {l : Live} (h : (p.car i).live = some l) (hIdle : (p.car i).run = .idle) :
    (join i p).gapOpen = p.gapOpen := by
  have hJoined : ∀ (q : Part) (n : Nat) (j : CarIdx), (∀ k, (q.car k).run = (p.car k).run) →
      (((q.setCar i (joinedCar l (p.car i) n)).car j).run = .starting ↔ (p.car j).run = .starting) := fun q n j hRuns => by
    rw [car_setCar]
    by_cases hij : i = j
    · subst hij
      rw [if_pos rfl, hIdle]
      exact iff_of_false Run.noConfusion Run.noConfusion
    · rw [if_neg hij, hRuns]
  by_cases hCounter : p.adm.joinCounter < 65535
  · rw [join_below h hCounter]
    exact gapOpen_congr (fun j => hJoined p p.adm.joinCounter j fun _ => rfl) rfl rfl
  · rw [join_full h hIdle (Nat.not_lt.mp hCounter)]
    have hSup : (renumber p).sup = p.sup := by rw [renumber_same]
    refine gapOpen_congr (fun j => hJoined (renumber p) p.bySequence.length j fun k => ?_) rfl hSup
    rw [car_renumber]
    split <;> rfl

end Sys2Proof.Machine
end

section
/-! Report intake for a record without a run (R26, R29, R32, R92, R100), and the steps that every intake shares. -/

namespace Sys2Proof.Machine

/-! ### The intake in its steps (R26) -/

/-- The last steps of an intake: joining, and the checks of a PARKED record. -/
def finishIntake (i : CarIdx) (l : Live) (wasBlocked : Bool) (x : Part) : Part := afterIntake i wasBlocked (handToAdmission i l x)

theorem intake_steps (i : CarIdx) (l : Live) (p : Part) : intake i l p = finishIntake i l (p.car i).blocked
    (endLossOrHear (p.car i).live.isNone i
      (evaluateTrip i (baselineOf (p.car i)) l (p.setCar i (takeLive p.now l (p.car i))))) := rfl

theorem evaluateTrip_noRun {p : Part} {i : CarIdx} {c : Car} (baseline : Option Word16) (l : Live) (h : c.holdsRun = false) :
    evaluateTrip i baseline l (p.setCar i c) = p.setCar i c := by
  unfold evaluateTrip
  rw [car_setCar_self, h]
  rfl

theorem evaluateTrip_moving {p : Part} {i : CarIdx} {c : Car} {l : Live} (baseline : Option Word16) (h : c.holdsRun = true)
    (k : l.motion ≠ .stopped) : evaluateTrip i baseline l (p.setCar i c) = countTrip i baseline l (p.setCar i c) := by
  unfold evaluateTrip
  rw [car_setCar_self, if_pos h]
  exact if_neg k

theorem evaluateTrip_stopped {p : Part} {i : CarIdx} {c : Car} {l : Live} (baseline : Option Word16) (h : c.holdsRun = true)
    (k : l.motion = .stopped) :
    evaluateTrip i baseline l (p.setCar i c) = endTrip i l (countTrip i baseline l (p.setCar i c)) := by
  unfold evaluateTrip
  rw [car_setCar_self, if_pos h]
  exact if_pos k

theorem endLossOrHear_lost {p : Part} {i : CarIdx} (first : Bool) (h : (p.car i).duty = .lost) :
    endLossOrHear first i p = endLoss i p := if_pos h

theorem endLossOrHear_known {p : Part} {i : CarIdx} (h : (p.car i).duty ≠ .lost) : endLossOrHear false i p = p :=
  (if_neg h).trans (if_neg Bool.false_ne_true)

theorem endLossOrHear_first {p : Part} {i : CarIdx} (h : (p.car i).duty ≠ .lost) :
    endLossOrHear true i p = firstHearing i p := (if_neg h).trans (if_pos rfl)

/-! ### The standing test on a report (R21) -/

/-- A report that shows its car standing at a floor. -/
def Live.standsAt (l : Live) (floor : Nat) : Bool := l.motion = .stopped ∧ l.zone = .zoneIn ∧ l.floor = floor

theorem passesStanding_idle {c : Car} {l : Live} (h : c.live = some l) (hIdle : c.run = .idle) (floor : Nat) :
    passesStanding floor c = l.standsAt floor := by
  unfold passesStanding Live.standsAt
  rw [h, hIdle]
  simp only [beq_self_eq_true, Bool.true_and, Bool.decide_and, Bool.and_assoc]
  rfl

theorem passesStanding_run {c : Car} (h : c.run ≠ .idle) (floor : Nat) : passesStanding floor c = false := by
  unfold passesStanding
  cases c.live with
  | none => rfl
  | some l =>
    rw [beq_false_of_ne h]
    rfl

theorem firstHearing_parks {p : Part} {i : CarIdx} (hState : p.sup.state.onGenerator = true) (hDuty : (p.car i).duty = .recall)
    (hStands : passesStanding (p.recallFloor i) (p.car i) = true) : firstHearing i p
      = handDutyChange .recall .parked (p.setCar i { p.car i with duty := .parked, pendingRecall := false }) := by
  have hMoves : (p.car i).duty ≠ .parked := fun hIs => Duty.noConfusion (hDuty.symm.trans hIs)
  unfold firstHearing
  rw [if_pos ⟨hState, hDuty, hStands⟩, changeDuty_differs hMoves, hDuty]
  rfl

theorem firstHearing_still {p : Part} {i : CarIdx} (h : ¬ (p.sup.state.onGenerator = true ∧ (p.car i).duty = .recall
    ∧ passesStanding (p.recallFloor i) (p.car i) = true)) : firstHearing i p = p := if_neg h

/-! ### The end of a loss (R32) -/

/-- The duty a LOST record comes back with, by the transfer state, its prior duty, and whether it stands (R21, R32). -/
def backDuty (state : TransferState) (prior : Duty) (stands : Bool) : Duty :=
  if prior = .isolated then .isolated
  else match state with
    | .normal => .normal
    | .outage => .stopped
    | .standby => .stopped
    | _ => if stands then .parked else .recall

theorem backDuty_ne_lost (state : TransferState) (prior : Duty) (stands : Bool) : backDuty state prior stands ≠ .lost := by
  unfold backDuty
  split
  · decide
  · cases stands <;> cases state <;> decide

theorem backDuty_parked {state : TransferState} {prior : Duty} {stands : Bool} (h : backDuty state prior stands = .parked) :
    stands = true := by
  cases stands with
  | true => rfl
  | false =>
    unfold backDuty at h
    by_cases hIsolated : prior = .isolated
    · rw [if_pos hIsolated] at h
      exact absurd h (by decide)
    · rw [if_neg hIsolated] at h
      cases state <;> exact absurd h (by decide)

theorem endLoss_back {p : Part} {i : CarIdx} {prior : Duty} {stands : Bool} (h : (p.car i).duty = .lost)
    (hPrior : (p.car i).prior = some prior) (hStands : passesStanding (p.recallFloor i) (p.car i) = stands) :
    endLoss i p = handDutyChange .lost (backDuty p.sup.state prior stands) (p.setCar i { p.car i with
      prior := none
      duty := backDuty p.sup.state prior stands
      pendingRecall := false }) := by
  have hBack : (if (p.car i).prior = some .isolated then Duty.isolated else p.restoredDuty i)
      = backDuty p.sup.state prior stands := by
    unfold backDuty Part.restoredDuty
    rw [hPrior, hStands]
    by_cases hIsolated : prior = .isolated
    · rw [if_pos (congrArg some hIsolated), if_pos hIsolated]
    · exact (if_neg fun hIs => hIsolated (Option.some.inj hIs)).trans (if_neg hIsolated).symm
  have hDuty : ((p.modCar i fun c => { c with prior := none }).car i).duty = .lost := by
    rw [car_modCar_self]
    exact h
  have hChanges : endLoss i p = changeDuty i (backDuty p.sup.state prior stands) (p.modCar i fun c => { c with prior := none }) :=
    congrArg (fun d => changeDuty i d (p.modCar i fun c => { c with prior := none })) hBack
  rw [hChanges, changeDuty_differs (by rw [hDuty]; exact (backDuty_ne_lost _ _ _).symm), hDuty]
  unfold setDuty
  rw [modCar_modCar]
  rfl

/-! ### Where the last steps have nothing to do -/

/-- The car of a report holds a run still, and is not PARKED: the last steps change nothing. -/
theorem finishIntake_run {p : Part} {i : CarIdx} (l : Live) (wasBlocked : Bool) (h : (p.car i).holdsRun = true)
    (k : (p.car i).duty ≠ .parked) : finishIntake i l wasBlocked p = p :=
  intake_tail i l wasBlocked p (notQueued_holdsRun h)
    (mayJoin_busy p i fun hIdle => notHoldsRun_idle hIdle h) fun hParked => absurd hParked k

theorem mayJoin_unheard {p : Part} {i : CarIdx} (h : (p.car i).live = none) : p.mayJoin i = false := by
  unfold Part.mayJoin
  dsimp only
  rw [h]

/-- Nor do they where the record has been disabled. -/
theorem finishIntake_disabled {p : Part} {i : CarIdx} (l : Live) (wasBlocked : Bool) (h : (p.car i).live = none)
    (hIdle : (p.car i).run = .idle) (k : (p.car i).duty ≠ .parked) : finishIntake i l wasBlocked p = p :=
  intake_tail i l wasBlocked p (fun hQueued => Run.noConfusion (hIdle.symm.trans hQueued)) (mayJoin_unheard h)
    fun hParked => absurd hParked k

/-- The car of a report holds no run and stands where it is PARKED, as a part x has it that the intake at p has reached. -/
structure Rests (i : CarIdx) (l : Live) (p x : Part) : Prop where
  live : (x.car i).live = some l
  idle : (x.car i).run = .idle
  parked : (x.car i).duty = .parked → passesStanding (x.recallFloor i) (x.car i) = true
  state : p.sup.state ≠ .recall → p.sup.state ≠ .service → x.sup.state = p.sup.state

/-- The last steps change nothing of such a part where the report can cause no join and does not end BLOCKED. -/
theorem Rests.finish {i : CarIdx} {l : Live} {p x : Part} (h : Rests i l p x) {wasBlocked : Bool}
    (hNoJoin : l.request = .none ∨ (p.sup.state ≠ .recall ∧ p.sup.state ≠ .service))
    (hBlocked : wasBlocked = false ∨ l.blocks = true) : finishIntake i l wasBlocked x = x := by
  have hMay : x.mayJoin i = false := by
    obtain hNone | ⟨hRecall, hService⟩ := hNoJoin
    · exact mayJoin_noRequest x i l h.live hNone
    · have hState := h.state hRecall hService
      exact mayJoin_elsewhere x i (hState ▸ hRecall) (hState ▸ hService)
  refine intake_tail i l wasBlocked x (fun hQueued => Run.noConfusion (h.idle.symm.trans hQueued)) hMay fun hParked =>
    ⟨fun _ => h.parked hParked, fun hWas hNow => ?_⟩
  rw [blocked_heard h.live] at hNow
  obtain hNot | hBlocks := hBlocked
  · exact absurd (hNot.symm.trans hWas) Bool.false_ne_true
  · exact absurd (hNow.symm.trans hBlocks) Bool.false_ne_true

/-- A change of duty handed on keeps it so. -/
theorem Rests.handed {i : CarIdx} {l : Live} {p x : Part} (h : Rests i l p x) (a b : Duty) : Rests i l p (handDutyChange a b x) := by
  have hKeeps := handDutyChange_keepsStanding i a b x
  have hIdle := hKeeps.idle h.idle
  refine ⟨hKeeps.live.trans h.live, hIdle, fun hParked => ?_, fun hRecall hService => ?_⟩
  · have hStood : passesStanding (x.recallFloor i) (x.car i) = true :=
      (hKeeps.parked h.idle hParked).elim h.parked id
    rwa [recallFloor_congr hKeeps.active, passesStanding_congr _ hKeeps.live (hIdle.trans h.idle.symm)]
  · have hState := h.state hRecall hService
    rw [handDutyChange_elsewhere a b x (hState ▸ hRecall) (hState ▸ hService), hState]

/-- A record of the intake's car as it is stored, where it stands if it is PARKED. -/
theorem Rests.stored {i : CarIdx} {l : Live} {p x : Part} {c : Car} (hLive : c.live = some l) (hIdle : c.run = .idle)
    (hParked : c.duty = .parked → l.standsAt (p.recallFloor i) = true) (hActive : x.active = p.active)
    (hState : x.sup.state = p.sup.state) (hCar : x.car i = c) : Rests i l p x := by
  refine ⟨by rw [hCar, hLive], by rw [hCar, hIdle], fun hIs => ?_, fun _ _ => hState⟩
  rw [hCar] at hIs ⊢
  rw [passesStanding_idle hLive hIdle, recallFloor_congr hActive]
  exact hParked hIs

theorem Rests.ofStored {i : CarIdx} {l : Live} {p : Part} {c : Car} (a : Admission) (hLive : c.live = some l) (hIdle : c.run = .idle)
    (hParked : c.duty = .parked → l.standsAt (p.recallFloor i) = true) : Rests i l p { p.setCar i c with adm := a } :=
  Rests.stored hLive hIdle hParked rfl rfl (car_setCar_self p i c)

/-- So does a duty stored for the car. -/
theorem Rests.withDuty {i : CarIdx} {l : Live} {p x : Part} (h : Rests i l p x) (hActive : x.active = p.active) {d : Duty}
    (hParked : d = .parked → l.standsAt (p.recallFloor i) = true) :
    Rests i l p (x.setCar i { x.car i with duty := d, pendingRecall := false }) := by
  have hCar : (x.setCar i { x.car i with duty := d, pendingRecall := false }).car i
      = { x.car i with duty := d, pendingRecall := false } := car_setCar_self x i _
  refine ⟨by rw [hCar]; exact h.live, by rw [hCar]; exact h.idle, fun hIs => ?_, h.state⟩
  rw [hCar] at hIs ⊢
  rw [passesStanding_idle (c := { x.car i with duty := d, pendingRecall := false }) h.live h.idle]
  have hFloor : (x.setCar i { x.car i with duty := d, pendingRecall := false }).recallFloor i = p.recallFloor i :=
    recallFloor_congr (p := p) (q := x.setCar i { x.car i with duty := d, pendingRecall := false }) hActive i
  rw [hFloor]
  exact hParked hIs

end Sys2Proof.Machine
end

section
/-! Report intake for a record without a run: each kind of record in turn (R26, R29, R32, R63, R66, R92, R100). -/

namespace Sys2Proof.Machine

theorem holdsRun_waiting {c : Car} (h : c.run = .idle ∨ c.run = .queued) : c.holdsRun = false := by
  unfold Car.holdsRun
  obtain hIdle | hQueued := h
  · rw [hIdle]; rfl
  · rw [hQueued]; rfl

/-- The part that holds a report of a car and has done nothing more (R26, steps 1 to 3). -/
def Part.heard (p : Part) (i : CarIdx) (l : Live) : Part := p.setCar i (takeLive p.now l (p.car i))

theorem car_heard (p : Part) (i : CarIdx) (l : Live) : (p.heard i l).car i = takeLive p.now l (p.car i) := car_setCar_self p i _

/-- Without a run, a loss or a first hearing that parks it, a record goes from the report to the last steps. -/
theorem intake_waiting {p : Part} {i : CarIdx} {l : Live} (hRun : (p.car i).run = .idle ∨ (p.car i).run = .queued)
    (hFound : (p.car i).duty ≠ .lost)
    (hFirst : (p.car i).live = none → (p.car i).duty = .recall → p.sup.state.onGenerator = true →
      l.standsAt (p.recallFloor i) = false) :
    intake i l p = finishIntake i l (p.car i).blocked (p.heard i l) := by
  have hRunNow : (takeLive p.now l (p.car i)).holdsRun = false := holdsRun_waiting (c := takeLive p.now l (p.car i)) hRun
  have hFoundNow : ((p.heard i l).car i).duty ≠ .lost := by
    rw [car_heard]
    exact hFound
  have hHears : endLossOrHear (p.car i).live.isNone i (p.heard i l) = p.heard i l := by
    cases hLive : (p.car i).live with
    | some old => exact endLossOrHear_known hFoundNow
    | none =>
      refine (endLossOrHear_first hFoundNow).trans (firstHearing_still ?_)
      rintro ⟨hState, hDuty, hStands⟩
      rw [car_heard] at hDuty hStands
      by_cases hIdle : (p.car i).run = .idle
      · rw [passesStanding_idle (c := takeLive p.now l (p.car i)) rfl hIdle] at hStands
        exact Bool.false_ne_true ((hFirst hLive hDuty hState).symm.trans hStands)
      · rw [passesStanding_run (c := takeLive p.now l (p.car i)) hIdle] at hStands
        exact Bool.false_ne_true hStands
  rw [intake_steps, evaluateTrip_noRun _ l hRunNow]
  exact congrArg (finishIntake i l (p.car i).blocked) hHears

theorem finishIntake_still {p : Part} {i : CarIdx} (l : Live) (wasBlocked : Bool) (hRun : (p.car i).run ≠ .queued)
    (hMay : p.mayJoin i = false) (hDuty : (p.car i).duty ≠ .parked) : finishIntake i l wasBlocked p = p :=
  intake_tail i l wasBlocked p hRun hMay fun hParked => absurd hParked hDuty

/-- In NORMAL a report changes what is held alone. -/
theorem intake_normal {p : Part} {i : CarIdx} (l : Live) (hState : p.sup.state = .normal) (hIdle : (p.car i).run = .idle)
    (hFound : (p.car i).duty ≠ .lost) (hDuty : (p.car i).duty ≠ .parked) : intake i l p = p.heard i l := by
  have hOff : p.sup.state.onGenerator = false := by rw [hState]; rfl
  rw [intake_waiting (.inl hIdle) hFound fun _ _ hOn => absurd (hOff.symm.trans hOn) Bool.false_ne_true]
  refine finishIntake_still l _ ?_ (mayJoin_elsewhere _ i ?_ ?_) ?_
  · rw [car_heard]
    exact fun hQueued => Run.noConfusion (hIdle.symm.trans hQueued)
  · exact fun hIs => TransferState.noConfusion (hState.symm.trans hIs)
  · exact fun hIs => TransferState.noConfusion (hState.symm.trans hIs)
  · rw [car_heard]
    exact hDuty

/-- With the gap closed a report that lets its car join puts it in the queue (R63, R64). -/
theorem intake_joins {p : Part} {i : CarIdx} {l : Live} (hKnown : (p.car i).live ≠ none) (hIdle : (p.car i).run = .idle)
    (hDuty : (p.car i).duty = .recall ∨ (p.car i).duty = .service) (hCounter : p.adm.joinCounter < 65535)
    (hGap : p.gapOpen = false) (hMay : (p.heard i l).mayJoin i = true) :
    intake i l p = { p.setCar i (joinedCar l (takeLive p.now l (p.car i)) p.adm.joinCounter) with
      adm := { p.adm with joinCounter := p.adm.joinCounter + 1 } } := by
  have hFound : (p.car i).duty ≠ .lost := fun hLost => hDuty.elim
    (fun h => Duty.noConfusion (hLost.symm.trans h)) fun h => Duty.noConfusion (hLost.symm.trans h)
  have hLive : ((p.heard i l).car i).live = some l := by rw [car_heard]; rfl
  have hIdleNow : ((p.heard i l).car i).run = .idle := by rw [car_heard]; exact hIdle
  have hGapNow : (p.heard i l).gapOpen = false := by
    refine (gapOpen_congr (p := p) (q := p.heard i l) (fun j => ?_) rfl rfl).trans hGap
    unfold Part.heard
    rw [car_setCar]
    by_cases hij : i = j
    · subst hij
      rw [if_pos rfl]
      exact Iff.rfl
    · rw [if_neg hij]
  have hJoined : join i (p.heard i l) = { p.setCar i (joinedCar l (takeLive p.now l (p.car i)) p.adm.joinCounter) with
      adm := { p.adm with joinCounter := p.adm.joinCounter + 1 } } := by
    rw [join_below hLive hCounter, car_heard]
    unfold Part.heard
    rw [setCar_setCar]
    rfl
  have hHands : handToAdmission i l (p.heard i l) = join i (p.heard i l) := by
    rw [handToAdmission_joins l (fun hQueued => Run.noConfusion (hIdleNow.symm.trans hQueued)) hMay,
      attempt_closed ((join_gapOpen hLive hIdleNow).trans hGapNow)]
  have hNotParked : ((join i (p.heard i l)).car i).duty ≠ .parked := by
    rw [hJoined]
    intro hIs
    have hStored : ((p.setCar i (joinedCar l (takeLive p.now l (p.car i)) p.adm.joinCounter)).car i).duty = .parked := hIs
    rw [car_setCar_self] at hStored
    exact hDuty.elim (fun h => Duty.noConfusion (h.symm.trans hStored)) fun h => Duty.noConfusion (h.symm.trans hStored)
  rw [intake_waiting (.inl hIdle) hFound fun hNone => absurd hNone hKnown]
  unfold finishIntake
  rw [hHands, afterIntake_elsewhere _ hNotParked, hJoined]

/-- A report that takes its car out of the queue (R66). -/
theorem intake_leaves {p : Part} {i : CarIdx} {l : Live} (hQueued : (p.car i).run = .queued) (hKnown : (p.car i).live ≠ none)
    (hDuty : (p.car i).duty = .recall ∨ (p.car i).duty = .service) (hLeaves : l.request = .none ∨ l.blocks = true) :
    intake i l p = { p.setCar i (leftQueue (takeLive p.now l (p.car i))) with
      adm := { p.adm with
        joinCounter :=
          if (∃ j, ((p.setCar i (leftQueue (takeLive p.now l (p.car i)))).car j).run = .queued) then p.adm.joinCounter else 0 } } := by
  have hFound : (p.car i).duty ≠ .lost := fun hLost => hDuty.elim
    (fun h => Duty.noConfusion (hLost.symm.trans h)) fun h => Duty.noConfusion (hLost.symm.trans h)
  have hLeft : handToAdmission i l (p.heard i l) = leaveQueue i (p.heard i l) :=
    handToAdmission_leaves (by rw [car_heard]; rfl) (by rw [car_heard]; exact hQueued) hLeaves
  have hNotParked : ((leaveQueue i (p.heard i l)).car i).duty ≠ .parked := by
    unfold leaveQueue
    rw [car_settleJoinCounter, car_modCar_self, car_heard]
    exact fun hIs => hDuty.elim (fun h => Duty.noConfusion (h.symm.trans hIs)) fun h => Duty.noConfusion (h.symm.trans hIs)
  rw [intake_waiting (.inr hQueued) hFound fun hNone => absurd hNone hKnown]
  unfold finishIntake
  rw [hLeft, afterIntake_elsewhere _ hNotParked, leaveQueue_eq, car_heard]
  unfold Part.heard
  rw [setCar_setCar]
  rfl

/-! ### The first hearing (R29) -/

theorem intake_firstHearing {p : Part} {i : CarIdx} {l : Live} (hState : p.sup.state.onGenerator = true)
    (hUnheard : (p.car i).live = none) (hDuty : (p.car i).duty = .recall) (hIdle : (p.car i).run = .idle)
    (hStands : l.standsAt (p.recallFloor i) = true) : intake i l p = finishIntake i l (p.car i).blocked
      (handDutyChange .recall .parked (p.setCar i { takeLive p.now l (p.car i) with duty := .parked, pendingRecall := false })) := by
  have hRunNow : (takeLive p.now l (p.car i)).holdsRun = false := holdsRun_waiting (c := takeLive p.now l (p.car i)) (.inl hIdle)
  have hFoundNow : ((p.heard i l).car i).duty ≠ .lost := by
    rw [car_heard]
    exact fun hLost => Duty.noConfusion (hDuty.symm.trans hLost)
  have hStandsNow : passesStanding ((p.heard i l).recallFloor i) ((p.heard i l).car i) = true := by
    rw [car_heard, passesStanding_idle (c := takeLive p.now l (p.car i)) rfl hIdle]
    exact hStands
  have hParks : endLossOrHear (p.car i).live.isNone i (p.heard i l) = handDutyChange .recall .parked
      (p.setCar i { takeLive p.now l (p.car i) with duty := .parked, pendingRecall := false }) := by
    rw [hUnheard]
    refine (endLossOrHear_first hFoundNow).trans ((firstHearing_parks (p := p.heard i l) hState ?_ hStandsNow).trans ?_)
    · rw [car_heard]
      exact hDuty
    · rw [car_heard]
      unfold Part.heard
      rw [setCar_setCar]
  rw [intake_steps, evaluateTrip_noRun _ l hRunNow]
  exact congrArg (finishIntake i l (p.car i).blocked) hParks

/-! ### The end of a loss without a run (R32) -/

theorem intake_endLoss {p : Part} {i : CarIdx} (l : Live) {prior : Duty} (hLost : (p.car i).duty = .lost)
    (hPrior : (p.car i).prior = some prior) (hIdle : (p.car i).run = .idle) :
    intake i l p = finishIntake i l (p.car i).blocked
      (handDutyChange .lost (backDuty p.sup.state prior (l.standsAt (p.recallFloor i))) (p.setCar i { takeLive p.now l (p.car i) with
        prior := none
        duty := backDuty p.sup.state prior (l.standsAt (p.recallFloor i))
        pendingRecall := false })) := by
  have hRunNow : (takeLive p.now l (p.car i)).holdsRun = false := holdsRun_waiting (c := takeLive p.now l (p.car i)) (.inl hIdle)
  have hLostNow : ((p.heard i l).car i).duty = .lost := by
    rw [car_heard]
    exact hLost
  have hStandsNow : passesStanding ((p.heard i l).recallFloor i) ((p.heard i l).car i) = l.standsAt (p.recallFloor i) := by
    rw [car_heard, passesStanding_idle (c := takeLive p.now l (p.car i)) rfl hIdle]
    rfl
  have hEnds : endLossOrHear (p.car i).live.isNone i (p.heard i l) = handDutyChange .lost
      (backDuty p.sup.state prior (l.standsAt (p.recallFloor i))) (p.setCar i { takeLive p.now l (p.car i) with
        prior := none
        duty := backDuty p.sup.state prior (l.standsAt (p.recallFloor i))
        pendingRecall := false }) := by
    refine (endLossOrHear_lost _ hLostNow).trans ((endLoss_back (prior := prior) hLostNow ?_ hStandsNow).trans ?_)
    · rw [car_heard]
      exact hPrior
    · rw [car_heard]
      unfold Part.heard
      rw [setCar_setCar]
      rfl
  rw [intake_steps, evaluateTrip_noRun _ l hRunNow]
  exact congrArg (finishIntake i l (p.car i).blocked) hEnds

/-! ### A PARKED record (R92, R100) -/

theorem intake_parked {p : Part} {i : CarIdx} (l : Live) (hDuty : (p.car i).duty = .parked) (hIdle : (p.car i).run = .idle) :
    intake i l p = afterIntake i (p.car i).blocked (p.heard i l) := by
  have hFound : (p.car i).duty ≠ .lost := fun hLost => Duty.noConfusion (hDuty.symm.trans hLost)
  have hMay : (p.heard i l).mayJoin i = false := by
    refine mayJoin_duty _ i ?_ ?_
    · rw [car_heard]
      exact fun hIs => Duty.noConfusion (hDuty.symm.trans hIs)
    · rw [car_heard]
      exact fun hIs => Duty.noConfusion (hDuty.symm.trans hIs)
  rw [intake_waiting (.inl hIdle) hFound fun _ hRecall => Duty.noConfusion (hDuty.symm.trans hRecall)]
  unfold finishIntake
  rw [handToAdmission_still ?_ (Bool.eq_false_iff.mp hMay)]
  rw [car_heard]
  exact fun h => Run.noConfusion (hIdle.symm.trans h.1)

theorem intake_drifts {p : Part} {i : CarIdx} {l : Live} (hDuty : (p.car i).duty = .parked) (hIdle : (p.car i).run = .idle)
    (hState : p.sup.state.onGenerator = true) (hStands : l.standsAt (p.recallFloor i) = false) :
    intake i l p
      = handDutyChange .parked .recall (p.setCar i { takeLive p.now l (p.car i) with duty := .recall, pendingRecall := false }) := by
  have hFails : passesStanding ((p.heard i l).recallFloor i) ((p.heard i l).car i) = false := by
    rw [car_heard, passesStanding_idle (c := takeLive p.now l (p.car i)) rfl hIdle]
    exact hStands
  rw [intake_parked l hDuty hIdle, afterIntake_drifts (p := p.heard i l) _ (by rw [car_heard]; exact hDuty) hState hFails, car_heard]
  unfold Part.heard
  rw [setCar_setCar]

theorem intake_staysParked {p : Part} {i : CarIdx} {l : Live} (hDuty : (p.car i).duty = .parked) (hIdle : (p.car i).run = .idle)
    (hStays : p.sup.state.onGenerator = false ∨ l.standsAt (p.recallFloor i) = true) : intake i l p
      = if p.sup.state = .service ∧ (p.car i).blocked = true ∧ l.blocks = false then serviceSelection (p.heard i l)
        else p.heard i l := by
  have hBlocked : ((p.heard i l).car i).blocked = l.blocks := blocked_heard (by rw [car_heard]; rfl)
  rw [intake_parked l hDuty hIdle, afterIntake_keeps _ (by rw [car_heard]; exact hDuty) ?_, hBlocked]
  · rfl
  · rintro ⟨hState, hFails⟩
    rw [car_heard, passesStanding_idle (c := takeLive p.now l (p.car i)) rfl hIdle] at hFails
    obtain hOff | hStands := hStays
    · exact Bool.false_ne_true (hOff.symm.trans hState)
    · exact Bool.false_ne_true (hFails.symm.trans hStands)

end Sys2Proof.Machine
end

section
/-! A report for a car that holds a run (R34 to R41): progress and the stall test, the release of the run with its settlement, and
the ending of the trip, each as a rule on the stored record. -/

namespace Sys2Proof.Machine

/-! ### A record stored together with the admission unit -/

theorem setCar_stored (p : Part) (i : CarIdx) (c d : Car) (a : Admission) :
    ({ p.setCar i c with adm := a } : Part).setCar i d = { p.setCar i d with adm := a } := by
  rw [← setCar_setCar p i c d]
  rfl

theorem car_stored (p : Part) (i : CarIdx) (c : Car) (a : Admission) : ({ p.setCar i c with adm := a } : Part).car i = c :=
  car_setCar_self p i c

theorem modCar_stored (p : Part) (i : CarIdx) (c : Car) (a : Admission) (f : Car → Car) :
    ({ p.setCar i c with adm := a } : Part).modCar i f = { p.setCar i (f c) with adm := a } := by
  unfold Part.modCar
  rw [car_stored, setCar_stored]

theorem nothingWaits_setCar {p : Part} {i : CarIdx} {c : Car} (h : p.nothingWaits) (k : c.run ≠ .queued) :
    (p.setCar i c).nothingWaits := by
  refine ⟨(queuedCars_nil_iff _).mpr fun j => ?_, h.2⟩
  rw [car_setCar]
  by_cases hij : i = j
  · rwa [if_pos hij]
  · rw [if_neg hij]
    exact (queuedCars_nil_iff p).mp h.1 j

/-! ### Release and settlement (R38, R39, R84, R85) -/

/-- The admission unit without a car's run: its commitments out of the sums, and its window ended. -/
def withoutRun (i : CarIdx) (m r : Nat) (a : Admission) : Admission :=
  let cut : Admission := { a with sumM := a.sumM - m, sumR := a.sumR - r }
  match a.window with
  | some w => if w.car = i then { cut with window := none, settle := .stopped, recovery := .stopped } else cut
  | none => cut

/-- The record of a released car with its commitments 0. -/
def freedCar (c : Car) : Car := releasedCar { c with m := 0, r := 0 }

theorem releaseRun_setCar (p : Part) (i : CarIdx) (c : Car) :
    releaseRun i (p.setCar i c) = { p.setCar i (freedCar c) with adm := withoutRun i c.m c.r p.adm } := by
  have hCut : (setCommit i 0 0 (p.setCar i c)).modCar i releasedCar = { p.setCar i (freedCar c) with
      adm := { p.adm with sumM := p.adm.sumM - c.m, sumR := p.adm.sumR - c.r } } := by
    rw [setCommit_modCar, car_setCar_self, setCar_setCar]
    rfl
  unfold releaseRun endWindowOf withoutRun
  rw [hCut]
  dsimp only [setCar_adm]
  cases p.adm.window with
  | none => rfl
  | some w =>
    by_cases hCar : w.car = i
    · simp only [hCar, if_true]
      rfl
    · simp only [hCar, if_false]

theorem release_setCar {p : Part} {i : CarIdx} {c : Car} (h : p.nothingWaits) (k : c.run ≠ .queued) : release i (p.setCar i c)
    = handSettlement i c.duty (settleDuty c i { p.setCar i (freedCar c) with adm := withoutRun i c.m c.r p.adm }) := by
  rw [release_nothingWaits i (nothingWaits_setCar h k), car_setCar_self, releaseRun_setCar]

theorem settleDuty_settles {p : Part} {i : CarIdx} {before c : Car} (a : Admission) (hFound : c.duty ≠ .lost)
    (hKept : before.disablePending = false) : settleDuty before i { p.setCar i c with adm := a }
      = { p.setCar i { c with duty := releasedDuty before c.duty, pendingRecall := false } with adm := a } := by
  unfold settleDuty
  dsimp only
  rw [car_stored, if_neg hFound, settledDuty_eq, if_neg (Bool.eq_false_iff.mp hKept)]
  exact (if_neg hFound).trans (modCar_stored p i c a _)

theorem settleDuty_disables {p : Part} {i : CarIdx} {before c : Car} (a : Admission) (hM : c.m = 0) (hR : c.r = 0)
    (hDisable : before.disablePending = true) : settleDuty before i { p.setCar i c with adm := a }
      = { p.setCar i { ({} : Car) with address := c.address, lines := c.lines } with adm := a } := by
  unfold settleDuty
  dsimp only
  rw [settledDuty_eq, if_pos hDisable]
  unfold disableRecord
  dsimp only
  rw [setCommit_modCar, car_stored, setCar_stored, hM, hR]
  rfl

/-- The part with a run released and its settled duty stored, no DISABLE pending (R38, R39). -/
def releasedPart (p : Part) (i : CarIdx) (c : Car) : Part :=
  { p.setCar i { freedCar c with duty := releasedDuty c c.duty, pendingRecall := false } with
    adm := withoutRun i c.m c.r p.adm }

/-- And with the change of duty handed on, where there is one. -/
def settledPart (p : Part) (i : CarIdx) (c : Car) : Part :=
  if releasedDuty c c.duty = c.duty then releasedPart p i c
  else handDutyChange c.duty (releasedDuty c c.duty) (releasedPart p i c)

theorem release_settles {p : Part} {i : CarIdx} {c : Car} (h : p.nothingWaits) (k : c.run ≠ .queued) (hFound : c.duty ≠ .lost)
    (hKept : c.disablePending = false) : release i (p.setCar i c) = settledPart p i c := by
  have hSettled : settleDuty c i { p.setCar i (freedCar c) with adm := withoutRun i c.m c.r p.adm } = releasedPart p i c :=
    settleDuty_settles (c := freedCar c) (withoutRun i c.m c.r p.adm) hFound hKept
  have hCar : ((releasedPart p i c).car i).duty = releasedDuty c c.duty := congrArg Car.duty (car_stored p i _ _)
  rw [release_setCar h k, hSettled]
  unfold handSettlement
  rw [hCar]
  rfl

/-- A record that a DISABLE waits for is disabled, and the change is handed on. -/
theorem release_disables {p : Part} {i : CarIdx} {c : Car} (h : p.nothingWaits) (k : c.run ≠ .queued)
    (hOn : c.duty ≠ .disabled) (hDisable : c.disablePending = true) : release i (p.setCar i c)
      = handDutyChange c.duty .disabled { p.setCar i { ({} : Car) with address := c.address, lines := c.lines } with
          adm := withoutRun i c.m c.r p.adm } := by
  have hSettled := settleDuty_disables (p := p) (i := i) (before := c) (c := freedCar c) (withoutRun i c.m c.r p.adm) rfl rfl hDisable
  rw [release_setCar h k, hSettled]
  unfold handSettlement
  rw [car_stored]
  exact if_neg fun hIs => hOn hIs.symm

/-- A LOST record that no DISABLE waits for settles into its prior duty, and hands nothing on. -/
theorem release_staysLost {p : Part} {i : CarIdx} {c : Car} {prior : Duty} (h : p.nothingWaits) (k : c.run ≠ .queued)
    (hLost : c.duty = .lost) (hPrior : c.prior = some prior) (hKept : c.disablePending = false) : release i (p.setCar i c)
      = { p.setCar i { freedCar c with prior := some (releasedDuty c prior), pendingRecall := false } with
          adm := withoutRun i c.m c.r p.adm } := by
  have hPriorFreed : (freedCar c).prior = some prior := hPrior
  have hSettled : settleDuty c i { p.setCar i (freedCar c) with adm := withoutRun i c.m c.r p.adm }
      = { p.setCar i { freedCar c with prior := some (releasedDuty c prior), pendingRecall := false } with
          adm := withoutRun i c.m c.r p.adm } := by
    rw [settleDuty_lost (by rw [car_stored]; exact hLost) hKept, car_stored, setCar_stored]
    unfold lostSettled
    rw [hPriorFreed]
    rfl
  rw [release_setCar h k, hSettled]
  unfold handSettlement
  rw [car_stored]
  exact if_pos rfl

/-! ### Progress and the stall test (R34, R35, R37) -/

/-- The record after a report in motion has been noted and, against a count held before, counted (R34, R35). -/
def countedCar (minProgress : Nat) (f : Figures) (baseline pulses : Word16) (c : Car) : Car :=
  countProgress minProgress f.dir (pulses - baseline).toInt c

theorem countProgress_keeps (n : Nat) (d : Travel) (x : Int) (c : Car) : countProgress n d x c = { c with
    stagnant := (countProgress n d x c).stagnant
    reverse := (countProgress n d x c).reverse
    goodRun := (countProgress n d x c).goodRun } := by
  unfold countProgress
  dsimp only
  split
  · split <;> rfl
  · rfl

/-- The stall limit is reached by a car that has not stalled (R35). -/
def atStallLimit (limit : Nat) (c : Car) : Bool := c.stalled = false ∧ (limit ≤ c.stagnant ∨ limit ≤ c.reverse)

theorem countTrip_noBaseline {p : Part} {i : CarIdx} {l : Live} (c : Car) : countTrip i none l (p.setCar i c)
    = p.setCar i (if l.motion = .stopped then c else noteMotion c) := by
  unfold countTrip
  by_cases hStopped : l.motion = .stopped
  · simp only [if_pos hStopped]
  · simp only [if_neg hStopped]
    exact modCar_setCar p i c noteMotion

theorem countTrip_baseline {p : Part} {i : CarIdx} {l : Live} (baseline : Word16) (c : Car) :
    countTrip i (some baseline) l (p.setCar i c)
      = evaluateProgress i baseline l (p.setCar i (if l.motion = .stopped then c else noteMotion c)) := by
  unfold countTrip
  by_cases hStopped : l.motion = .stopped
  · simp only [if_pos hStopped]
  · simp only [if_neg hStopped]
    rw [modCar_setCar]

theorem evaluateProgress_stalled {p : Part} {i : CarIdx} {c : Car} (baseline : Word16) (l : Live) (h : c.stalled = true) :
    evaluateProgress i baseline l (p.setCar i c) = p.setCar i c := by
  unfold evaluateProgress
  rw [car_setCar_self]
  exact if_pos h

/-- The stall test on the record as it has been counted. -/
theorem evaluateProgress_tests {p : Part} {i : CarIdx} {l : Live} {baseline : Word16} {c counted : Car} (h : c.stalled = false)
    (hCounted : countReport i baseline l (p.setCar i c) = p.setCar i counted) (hStalled : counted.stalled = false) :
    evaluateProgress i baseline l (p.setCar i c)
      = if atStallLimit p.active.plant.stallLimit counted = true then stall i (p.setCar i counted) else p.setCar i counted := by
  have hLimit : atStallLimit p.active.plant.stallLimit counted = true
      ↔ p.active.plant.stallLimit ≤ counted.stagnant ∨ p.active.plant.stallLimit ≤ counted.reverse := by
    unfold atStallLimit
    rw [decide_eq_true_iff]
    exact and_iff_right hStalled
  unfold evaluateProgress
  rw [car_setCar_self, if_neg (Bool.eq_false_iff.mp h), hCounted]
  dsimp only
  rw [car_setCar_self]
  exact ite_congr (propext hLimit.symm) (fun _ => rfl) fun _ => rfl

theorem countReport_stopped {p : Part} {l : Live} (i : CarIdx) (baseline : Word16) (h : l.motion = .stopped) :
    countReport i baseline l p = p := if_pos h

theorem countReport_moving {p : Part} {i : CarIdx} {l : Live} {c : Car} {f : Figures} (baseline : Word16) (h : l.motion ≠ .stopped)
    (k : c.snapshot = some f) : countReport i baseline l (p.setCar i c)
      = p.setCar i (countedCar (p.classOf i).minProgress f baseline l.pulses c) := by
  have hTravel : grantedTravel c = f.dir := by
    unfold grantedTravel
    rw [k]
  refine (if_neg h).trans ?_
  rw [modCar_setCar, hTravel]
  rfl

/-! ### The ending of the trip (R40, R41) -/

theorem stopAtLanding_iff {c : Car} (h : c.holdsRun = true) :
    c.stopAtLanding = true ↔ c.shed = true ∨ c.stalled = true ∨ c.isolatePending = true := by
  unfold Car.stopAtLanding
  rw [h, Bool.true_and, Bool.or_eq_true, Bool.or_eq_true, or_assoc]

theorem endTrip_arrives {p : Part} {i : CarIdx} {c : Car} (l : Live) (h : c.moved = true) :
    endTrip i l (p.setCar i c) = parkOnArrival i l (release i (p.setCar i { c with arrivalTime := p.now })) := by
  unfold endTrip arrive
  rw [car_setCar_self, if_pos h, modCar_setCar]
  rfl

theorem endTrip_releases {p : Part} {i : CarIdx} {c : Car} {l : Live} (h : c.moved = false)
    (k : l.request = .none ∨ c.stopAtLanding = true) : endTrip i l (p.setCar i c) = release i (p.setCar i c) := by
  unfold endTrip
  rw [car_setCar_self, if_neg (Bool.eq_false_iff.mp h)]
  exact if_pos k

theorem endTrip_goesOn {p : Part} {i : CarIdx} {c : Car} {l : Live} (h : c.moved = false)
    (k : ¬ (l.request = .none ∨ c.stopAtLanding = true)) : endTrip i l (p.setCar i c) = p.setCar i c := by
  unfold endTrip
  rw [car_setCar_self, if_neg (Bool.eq_false_iff.mp h)]
  exact if_neg k

theorem parkOnArrival_parks {p : Part} {i : CarIdx} {l : Live} (h : (p.car i).duty = .recall) (hZone : l.zone = .zoneIn)
    (hFloor : l.floor = p.recallFloor i) : parkOnArrival i l p
      = handDutyChange .recall .parked (p.setCar i { p.car i with duty := .parked, pendingRecall := false }) := by
  have hMoves : (p.car i).duty ≠ .parked := fun hIs => Duty.noConfusion (h.symm.trans hIs)
  unfold parkOnArrival
  rw [if_pos ⟨h, hZone, hFloor⟩, changeDuty_differs hMoves, h]
  rfl

theorem parkOnArrival_still {p : Part} {i : CarIdx} {l : Live}
    (h : (p.car i).duty ≠ .recall ∨ l.zone ≠ .zoneIn ∨ l.floor ≠ p.recallFloor i) : parkOnArrival i l p = p := by
  refine if_neg ?_
  rintro ⟨hDuty, hZone, hFloor⟩
  exact h.elim (· hDuty) fun hOther => hOther.elim (· hZone) (· hFloor)

end Sys2Proof.Machine
end

section
/-! Report intake for a RECALL or SERVICE car that holds a run (R34 to R41). -/

namespace Sys2Proof.Machine

theorem evaluateTrip_heardMoving {p : Part} {i : CarIdx} {l : Live} (baseline : Option Word16) (h : (p.car i).holdsRun = true)
    (k : l.motion ≠ .stopped) : evaluateTrip i baseline l (p.heard i l) = countTrip i baseline l (p.heard i l) :=
  evaluateTrip_moving (c := takeLive p.now l (p.car i)) baseline h k

theorem evaluateTrip_heardStopped {p : Part} {i : CarIdx} {l : Live} (baseline : Option Word16) (h : (p.car i).holdsRun = true)
    (k : l.motion = .stopped) : evaluateTrip i baseline l (p.heard i l) = endTrip i l (countTrip i baseline l (p.heard i l)) :=
  evaluateTrip_stopped (c := takeLive p.now l (p.car i)) baseline h k

theorem baselineOf_known {c : Car} {old : Live} (h : c.live = some old) (k : c.duty ≠ .lost) : baselineOf c = some old.pulses := by
  unfold baselineOf
  rw [h]
  exact if_neg k

theorem baselineOf_lost {c : Car} (h : c.duty = .lost) : baselineOf c = none := by
  unfold baselineOf
  cases c.live with
  | none => rfl
  | some old => exact if_pos h

/-- A record that has been heard before and is not LOST goes from its trip to the last steps. -/
theorem intake_known {p x : Part} {i : CarIdx} {l old : Live} (hKnown : (p.car i).live = some old)
    (hTrip : evaluateTrip i (baselineOf (p.car i)) l (p.heard i l) = x) (hFound : (x.car i).duty ≠ .lost) :
    intake i l p = finishIntake i l (p.car i).blocked x := by
  have hHears : endLossOrHear (p.car i).live.isNone i x = x := by
    rw [hKnown]
    exact endLossOrHear_known hFound
  have hSteps : intake i l p = finishIntake i l (p.car i).blocked (endLossOrHear (p.car i).live.isNone i
      (evaluateTrip i (baselineOf (p.car i)) l (p.heard i l))) := intake_steps i l p
  rw [hSteps, hTrip, hHears]

/-- Where its run goes on the intake ends there. -/
theorem intake_runGoesOn {p x : Part} {i : CarIdx} {l old : Live} (hKnown : (p.car i).live = some old)
    (hDuty : (p.car i).duty = .recall ∨ (p.car i).duty = .service)
    (hTrip : evaluateTrip i (baselineOf (p.car i)) l (p.heard i l) = x) (hRun : (x.car i).holdsRun = true)
    (hSame : (x.car i).duty = (p.car i).duty) : intake i l p = x := by
  have hNot : ∀ d, d ≠ .recall → d ≠ .service → (x.car i).duty ≠ d := fun d hRecall hService hIs =>
    hDuty.elim (fun h => hRecall (hIs.symm.trans (hSame.trans h))) fun h => hService (hIs.symm.trans (hSame.trans h))
  rw [intake_known hKnown hTrip (hNot .lost (by decide) (by decide)),
    finishIntake_run l _ hRun (hNot .parked (by decide) (by decide))]

/-! ### A report in motion (R34, R35, R37) -/

theorem noteMotion_keeps (c : Car) : noteMotion c = { c with
    moved := (noteMotion c).moved
    startTimer := (noteMotion c).startTimer } := by
  unfold noteMotion
  split <;> rfl

theorem intake_movesStalled {p : Part} {i : CarIdx} {l old : Live} (hKnown : (p.car i).live = some old)
    (hDuty : (p.car i).duty = .recall ∨ (p.car i).duty = .service) (hRun : (p.car i).holdsRun = true)
    (hMoves : l.motion ≠ .stopped) (hStalled : (p.car i).stalled = true) :
    intake i l p = p.setCar i (noteMotion (takeLive p.now l (p.car i))) := by
  have hFound : (p.car i).duty ≠ .lost := fun hLost => hDuty.elim
    (fun h => Duty.noConfusion (hLost.symm.trans h)) fun h => Duty.noConfusion (hLost.symm.trans h)
  have hNoted : (noteMotion (takeLive p.now l (p.car i))).stalled = true := by
    rw [noteMotion_keeps]
    exact hStalled
  refine intake_runGoesOn hKnown hDuty ?_ ?_ ?_
  · rw [evaluateTrip_heardMoving _ hRun hMoves, baselineOf_known hKnown hFound]
    refine (countTrip_baseline old.pulses _).trans ?_
    rw [if_neg hMoves, evaluateProgress_stalled old.pulses l hNoted]
  · rw [car_setCar_self, noteMotion_keeps]
    exact hRun
  · rw [car_setCar_self, noteMotion_keeps]
    rfl

/-- The record of a car with a report in motion noted and counted. -/
def movedCar (p : Part) (i : CarIdx) (l old : Live) (f : Figures) : Car :=
  countedCar (p.classOf i).minProgress f old.pulses l.pulses (noteMotion (takeLive p.now l (p.car i)))

theorem movedCar_keeps (p : Part) (i : CarIdx) (l old : Live) (f : Figures) : (movedCar p i l old f).run = (p.car i).run
    ∧ (movedCar p i l old f).duty = (p.car i).duty ∧ (movedCar p i l old f).stalled = (p.car i).stalled
    ∧ (movedCar p i l old f).snapshot = (p.car i).snapshot := by
  unfold movedCar countedCar
  rw [countProgress_keeps, noteMotion_keeps]
  exact ⟨rfl, rfl, rfl, rfl⟩

theorem evaluateTrip_counts {p : Part} {i : CarIdx} {l old : Live} {f : Figures} (hKnown : (p.car i).live = some old)
    (hFound : (p.car i).duty ≠ .lost) (hRun : (p.car i).holdsRun = true) (hMoves : l.motion ≠ .stopped)
    (hStalled : (p.car i).stalled = false) (hSnapshot : (p.car i).snapshot = some f) :
    evaluateTrip i (baselineOf (p.car i)) l (p.heard i l)
      = if atStallLimit p.active.plant.stallLimit (movedCar p i l old f) = true then stall i (p.setCar i (movedCar p i l old f))
        else p.setCar i (movedCar p i l old f) := by
  have hNoted : (noteMotion (takeLive p.now l (p.car i))).stalled = false
      ∧ (noteMotion (takeLive p.now l (p.car i))).snapshot = some f := by
    rw [noteMotion_keeps]
    exact ⟨hStalled, hSnapshot⟩
  obtain ⟨-, -, hStalledNow, -⟩ := movedCar_keeps p i l old f
  rw [evaluateTrip_heardMoving _ hRun hMoves, baselineOf_known hKnown hFound]
  refine (countTrip_baseline old.pulses _).trans ?_
  rw [if_neg hMoves]
  exact evaluateProgress_tests hNoted.1 (countReport_moving old.pulses hMoves hNoted.2) (hStalledNow.trans hStalled)

theorem holdsRun_of_run {c d : Car} (h : c.holdsRun = true) (k : d.run = c.run) : d.holdsRun = true := by
  unfold Car.holdsRun at h ⊢
  rwa [k]

theorem intake_movesOn {p : Part} {i : CarIdx} {l old : Live} {f : Figures} (hKnown : (p.car i).live = some old)
    (hDuty : (p.car i).duty = .recall ∨ (p.car i).duty = .service) (hRun : (p.car i).holdsRun = true)
    (hMoves : l.motion ≠ .stopped) (hStalled : (p.car i).stalled = false) (hSnapshot : (p.car i).snapshot = some f)
    (hBelow : atStallLimit p.active.plant.stallLimit (movedCar p i l old f) = false) :
    intake i l p = p.setCar i (movedCar p i l old f) := by
  have hFound : (p.car i).duty ≠ .lost := fun hLost => hDuty.elim
    (fun h => Duty.noConfusion (hLost.symm.trans h)) fun h => Duty.noConfusion (hLost.symm.trans h)
  obtain ⟨hRunNow, hDutyNow, -, -⟩ := movedCar_keeps p i l old f
  refine intake_runGoesOn hKnown hDuty ?_ ?_ ?_
  · rw [evaluateTrip_counts hKnown hFound hRun hMoves hStalled hSnapshot, if_neg (Bool.eq_false_iff.mp hBelow)]
  · rw [car_setCar_self]
    exact holdsRun_of_run hRun hRunNow
  · rw [car_setCar_self, hDutyNow]

theorem intake_stallsRunning {p : Part} {i : CarIdx} {l old : Live} {f : Figures} (hKnown : (p.car i).live = some old)
    (hDuty : (p.car i).duty = .recall ∨ (p.car i).duty = .service) (hRun : (p.car i).run = .running)
    (hMoves : l.motion ≠ .stopped) (hStalled : (p.car i).stalled = false) (hSnapshot : (p.car i).snapshot = some f)
    (hLimit : atStallLimit p.active.plant.stallLimit (movedCar p i l old f) = true) :
    intake i l p = stallMarked i (movedCar p i l old f) p := by
  have hFound : (p.car i).duty ≠ .lost := fun hLost => hDuty.elim
    (fun h => Duty.noConfusion (hLost.symm.trans h)) fun h => Duty.noConfusion (hLost.symm.trans h)
  obtain ⟨hRunNow, hDutyNow, -, -⟩ := movedCar_keeps p i l old f
  have hCar : (stallMarked i (movedCar p i l old f) p).car i = { movedCar p i l old f with
      stalled := true
      stallCount := satInc 255 (movedCar p i l old f).stallCount } := car_setCar_self p i _
  refine intake_runGoesOn hKnown hDuty ?_ ?_ ?_
  · rw [evaluateTrip_counts hKnown hFound (holdsRun_running hRun) hMoves hStalled hSnapshot, if_pos hLimit,
      stall_setCar_running (hRunNow.trans hRun)]
  · rw [hCar]
    exact holdsRun_of_run (holdsRun_running hRun) hRunNow
  · rw [hCar]
    exact hDutyNow

theorem car_stepCompleted (p : Part) (i j : CarIdx) (f : Figures) : (p.stepCompleted i f).car j
    = if i = j then { p.car i with run := .running, m := f.mRun } else p.car j :=
  car_modCar p i j fun c => { c with run := .running, m := f.mRun }

theorem stepCompleted_nothingWaits {p : Part} {i : CarIdx} {f : Figures} (h : p.nothingWaits) :
    (p.stepCompleted i f).nothingWaits := by
  refine ⟨(queuedCars_nil_iff _).mpr fun j => ?_, h.2⟩
  rw [car_stepCompleted]
  by_cases hij : i = j
  · rw [if_pos hij]
    exact Run.noConfusion
  · rw [if_neg hij]
    exact (queuedCars_nil_iff p).mp h.1 j

theorem intake_stallsStarting {p : Part} {i : CarIdx} {l old : Live} {f : Figures} (hKnown : (p.car i).live = some old)
    (hDuty : (p.car i).duty = .recall ∨ (p.car i).duty = .service) (hRun : (p.car i).run = .starting) (hWaits : p.nothingWaits)
    (hMoves : l.motion ≠ .stopped) (hStalled : (p.car i).stalled = false) (hSnapshot : (p.car i).snapshot = some f)
    (hLimit : atStallLimit p.active.plant.stallLimit (movedCar p i l old f) = true) :
    intake i l p = (stallMarked i (movedCar p i l old f) p).stepCompleted i f := by
  have hFound : (p.car i).duty ≠ .lost := fun hLost => hDuty.elim
    (fun h => Duty.noConfusion (hLost.symm.trans h)) fun h => Duty.noConfusion (hLost.symm.trans h)
  obtain ⟨hRunNow, hDutyNow, -, hSnapshotNow⟩ := movedCar_keeps p i l old f
  have hMarked : (stallMarked i (movedCar p i l old f) p).car i = { movedCar p i l old f with
      stalled := true
      stallCount := satInc 255 (movedCar p i l old f).stallCount } := car_setCar_self p i _
  have hCar := (car_stepCompleted (stallMarked i (movedCar p i l old f) p) i i f).trans (if_pos rfl)
  have hStill : (stallMarked i (movedCar p i l old f) p).nothingWaits :=
    nothingWaits_setCar hWaits fun hQueued => notQueued_holdsRun (holdsRun_starting hRun) (hRunNow.symm.trans hQueued)
  refine intake_runGoesOn hKnown hDuty ?_ ?_ ?_
  · rw [evaluateTrip_counts hKnown hFound (holdsRun_starting hRun) hMoves hStalled hSnapshot, if_pos hLimit,
      stall_setCar_starting (hRunNow.trans hRun) (hSnapshotNow.trans hSnapshot),
      judgeGap_nothingWaits _ (stepCompleted_nothingWaits hStill)]
  · rw [hCar]
    exact holdsRun_running rfl
  · rw [hCar, hMarked]
    exact hDutyNow

end Sys2Proof.Machine
end

section
/-! Report intake at a STOPPED report of a RECALL or SERVICE car that holds a run: the stall test, and then the arrival, the withdrawn
start, or no change (R35, R37 to R41). -/

namespace Sys2Proof.Machine

/-! ### The stall test at a STOPPED report (R35, R37) -/

/-- The record after the marks of a stall (R37). -/
def stalledCar (c : Car) : Car := { c with stalled := true, stallCount := satInc 255 c.stallCount }

/-- The record after the stall test, with no report in motion to count. -/
def testedCar (limit : Nat) (c : Car) : Car := if atStallLimit limit c = true then stalledCar c else c

/-- The part around it: the event of a stall. -/
def testedPart (limit : Nat) (c : Car) (p : Part) : Part := if atStallLimit limit c = true then raiseEvent .stall p else p

theorem testedCar_keeps (limit : Nat) (c : Car) : testedCar limit c = { c with
    stalled := (testedCar limit c).stalled
    stallCount := (testedCar limit c).stallCount } := by
  unfold testedCar
  split <;> rfl

theorem testedPart_keeps (limit : Nat) (c : Car) (p : Part) : testedPart limit c p = { p with
    mgmt := { p.mgmt with flags := (testedPart limit c p).mgmt.flags } } := by
  unfold testedPart
  split <;> rfl

theorem testedPart_nothingWaits {p : Part} (limit : Nat) (c : Car) (h : p.nothingWaits) : (testedPart limit c p).nothingWaits := by
  rw [testedPart_keeps]
  exact h

theorem testedPart_unchanged (limit : Nat) (c : Car) (p : Part) : (testedPart limit c p).active = p.active
    ∧ (testedPart limit c p).sup = p.sup ∧ (testedPart limit c p).adm = p.adm ∧ (testedPart limit c p).now = p.now := by
  rw [testedPart_keeps]
  exact ⟨rfl, rfl, rfl, rfl⟩

theorem countTrip_stopped {p : Part} {i : CarIdx} {l : Live} {c : Car} (baseline : Word16) (hStopped : l.motion = .stopped)
    (h : c.run = .running ∨ atStallLimit p.active.plant.stallLimit c = false) :
    countTrip i (some baseline) l (p.setCar i c)
      = (testedPart p.active.plant.stallLimit c p).setCar i (testedCar p.active.plant.stallLimit c) := by
  rw [countTrip_baseline, if_pos hStopped]
  unfold testedPart testedCar
  by_cases hStalled : c.stalled = true
  · have hNot : ¬ atStallLimit p.active.plant.stallLimit c = true := fun hIs =>
      Bool.false_ne_true ((of_decide_eq_true hIs).1.symm.trans hStalled)
    rw [evaluateProgress_stalled baseline l hStalled, if_neg hNot, if_neg hNot]
  · have hFree := Bool.eq_false_iff.mpr hStalled
    rw [evaluateProgress_tests hFree (countReport_stopped i baseline hStopped) hFree]
    by_cases hLimit : atStallLimit p.active.plant.stallLimit c = true
    · have hRunning : c.run = .running := h.resolve_right fun hBelow => Bool.false_ne_true (hBelow.symm.trans hLimit)
      rw [if_pos hLimit, if_pos hLimit, if_pos hLimit, stall_setCar_running hRunning]
      rfl
    · rw [if_neg hLimit, if_neg hLimit, if_neg hLimit]

/-! ### The trip's ending (R38 to R41) -/

section
variable {p : Part} {i : CarIdx} {l old : Live}

/-- The record of the car as a STOPPED report finds it for the ending of its trip. -/
def stoppedCar (p : Part) (i : CarIdx) (l : Live) : Car := testedCar p.active.plant.stallLimit (takeLive p.now l (p.car i))

/-- The part around it. -/
def stoppedPart (p : Part) (i : CarIdx) (l : Live) : Part := testedPart p.active.plant.stallLimit (takeLive p.now l (p.car i)) p

theorem stoppedCar_keeps (p : Part) (i : CarIdx) (l : Live) : (stoppedCar p i l).run = (p.car i).run
    ∧ (stoppedCar p i l).duty = (p.car i).duty ∧ (stoppedCar p i l).moved = (p.car i).moved
    ∧ (stoppedCar p i l).disablePending = (p.car i).disablePending ∧ (stoppedCar p i l).live = some l := by
  unfold stoppedCar
  rw [testedCar_keeps]
  exact ⟨rfl, rfl, rfl, rfl, rfl⟩

theorem evaluateTrip_ends (hKnown : (p.car i).live = some old) (hFound : (p.car i).duty ≠ .lost) (hRun : (p.car i).holdsRun = true)
    (hStopped : l.motion = .stopped)
    (hTest : (p.car i).run = .running ∨ atStallLimit p.active.plant.stallLimit (takeLive p.now l (p.car i)) = false) :
    evaluateTrip i (baselineOf (p.car i)) l (p.heard i l) = endTrip i l ((stoppedPart p i l).setCar i (stoppedCar p i l)) := by
  rw [evaluateTrip_heardStopped _ hRun hStopped, baselineOf_known hKnown hFound]
  exact congrArg (endTrip i l) (countTrip_stopped (c := takeLive p.now l (p.car i)) old.pulses hStopped hTest)

/-- The trip goes on where the car has not moved and is neither withdrawn nor to stop at the landing (R41). -/
theorem intake_tripGoesOn (hKnown : (p.car i).live = some old) (hDuty : (p.car i).duty = .recall ∨ (p.car i).duty = .service)
    (hRun : (p.car i).holdsRun = true) (hStopped : l.motion = .stopped)
    (hTest : (p.car i).run = .running ∨ atStallLimit p.active.plant.stallLimit (takeLive p.now l (p.car i)) = false)
    (hMoved : (p.car i).moved = false) (hGoesOn : ¬ (l.request = .none ∨ (stoppedCar p i l).stopAtLanding = true)) :
    intake i l p = (stoppedPart p i l).setCar i (stoppedCar p i l) := by
  have hFound : (p.car i).duty ≠ .lost := fun hLost => hDuty.elim
    (fun h => Duty.noConfusion (hLost.symm.trans h)) fun h => Duty.noConfusion (hLost.symm.trans h)
  obtain ⟨hRunNow, hDutyNow, hMovedNow, -, -⟩ := stoppedCar_keeps p i l
  refine intake_runGoesOn hKnown hDuty ?_ ?_ ?_
  · rw [evaluateTrip_ends hKnown hFound hRun hStopped hTest, endTrip_goesOn (hMovedNow.trans hMoved) hGoesOn]
  · rw [car_setCar_self]
    exact holdsRun_of_run hRun hRunNow
  · rw [car_setCar_self, hDutyNow]

/-- The record of the car as its release finds it: an arrival is noted first (R40). -/
def endingCar (p : Part) (i : CarIdx) (l : Live) : Car :=
  if (p.car i).moved = true then { stoppedCar p i l with arrivalTime := p.now } else stoppedCar p i l

theorem endingCar_keeps (p : Part) (i : CarIdx) (l : Live) : endingCar p i l = { stoppedCar p i l with
    arrivalTime := (endingCar p i l).arrivalTime } := by
  unfold endingCar
  split <;> rfl

theorem endingCar_still (h : (p.car i).moved = false) :
    endingCar p i l = { stoppedCar p i l with arrivalTime := (p.car i).arrivalTime } := by
  have hTime : (stoppedCar p i l).arrivalTime = (p.car i).arrivalTime := by
    unfold stoppedCar
    rw [testedCar_keeps]
    rfl
  unfold endingCar
  rw [if_neg (Bool.eq_false_iff.mp h), ← hTime]

theorem stoppedCar_pendingRecall (p : Part) (i : CarIdx) (l : Live) :
    (stoppedCar p i l).pendingRecall = (p.car i).pendingRecall := by
  unfold stoppedCar
  rw [testedCar_keeps]
  rfl

/-- What the release reads of the record as it was before the report. -/
theorem endingCar_kept (p : Part) (i : CarIdx) (l : Live) : (endingCar p i l).run = (p.car i).run
    ∧ (endingCar p i l).duty = (p.car i).duty ∧ (endingCar p i l).disablePending = (p.car i).disablePending
    ∧ (endingCar p i l).live = some l ∧ (endingCar p i l).m = (p.car i).m ∧ (endingCar p i l).r = (p.car i).r
    ∧ (endingCar p i l).address = (p.car i).address ∧ (endingCar p i l).lines = (p.car i).lines := by
  rw [endingCar_keeps]
  unfold stoppedCar
  rw [testedCar_keeps]
  exact ⟨rfl, rfl, rfl, rfl, rfl, rfl, rfl, rfl⟩

theorem stoppedPart_nothingWaits (i : CarIdx) (l : Live) (h : p.nothingWaits) : (stoppedPart p i l).nothingWaits :=
  testedPart_nothingWaits _ _ h

theorem stoppedPart_unchanged (p : Part) (i : CarIdx) (l : Live) : (stoppedPart p i l).active = p.active
    ∧ (stoppedPart p i l).sup = p.sup ∧ (stoppedPart p i l).adm = p.adm ∧ (stoppedPart p i l).now = p.now :=
  testedPart_unchanged _ _ p

theorem endTrip_ending (hEnds : (p.car i).moved = true ∨ l.request = .none ∨ (stoppedCar p i l).stopAtLanding = true) :
    endTrip i l ((stoppedPart p i l).setCar i (stoppedCar p i l)) =
      if (p.car i).moved = true then parkOnArrival i l (release i ((stoppedPart p i l).setCar i (endingCar p i l)))
      else release i ((stoppedPart p i l).setCar i (endingCar p i l)) := by
  obtain ⟨-, -, hMovedNow, -, -⟩ := stoppedCar_keeps p i l
  obtain ⟨-, -, -, hNow⟩ := stoppedPart_unchanged p i l
  unfold endingCar
  by_cases hMoved : (p.car i).moved = true
  · rw [if_pos hMoved, if_pos hMoved, endTrip_arrives l (hMovedNow.trans hMoved)]
    rw [hNow]
  · rw [if_neg hMoved, if_neg hMoved]
    exact endTrip_releases (hMovedNow.trans (Bool.eq_false_iff.mpr hMoved)) (hEnds.resolve_left hMoved)

/-- The record that a DISABLE leaves. -/
def blankCar (c : Car) : Car := { ({} : Car) with address := c.address, lines := c.lines }

/-- A change to DISABLED handed on leaves the blank record, and the last steps do nothing for it. -/
theorem handed_blank (i : CarIdx) (c : Car) (d : Duty) (a : Admission) (q : Part) :
    (handDutyChange d .disabled { q.setCar i (blankCar c) with adm := a }).car i = blankCar c := by
  have hCar : ({ q.setCar i (blankCar c) with adm := a } : Part).car i = blankCar c := car_stored q i (blankCar c) a
  rw [handDutyChange_outOfService i d .disabled _ ?_ ?_, hCar]
  · unfold Part.outOfService
    rw [hCar]
    exact ⟨Duty.noConfusion, Duty.noConfusion⟩
  · rw [hCar]
    exact Run.noConfusion

theorem intake_disables (hKnown : (p.car i).live = some old) (hDuty : (p.car i).duty = .recall ∨ (p.car i).duty = .service)
    (hRun : (p.car i).holdsRun = true) (hStopped : l.motion = .stopped)
    (hTest : (p.car i).run = .running ∨ atStallLimit p.active.plant.stallLimit (takeLive p.now l (p.car i)) = false)
    (hDisable : (p.car i).disablePending = true)
    (hEnds : (p.car i).moved = true ∨ l.request = .none ∨ (stoppedCar p i l).stopAtLanding = true) (hWaits : p.nothingWaits) :
    intake i l p = handDutyChange (p.car i).duty .disabled { (stoppedPart p i l).setCar i (blankCar (p.car i)) with
      adm := withoutRun i (p.car i).m (p.car i).r p.adm } := by
  have hNot : ∀ d, d ≠ .recall → d ≠ .service → (p.car i).duty ≠ d := fun d hRecall hService hIs =>
    hDuty.elim (fun h => hRecall (hIs.symm.trans h)) fun h => hService (hIs.symm.trans h)
  have hBlank := handed_blank i (p.car i) (p.car i).duty (withoutRun i (p.car i).m (p.car i).r p.adm) (stoppedPart p i l)
  have hReleased : release i ((stoppedPart p i l).setCar i (endingCar p i l)) = handDutyChange (p.car i).duty .disabled
      { (stoppedPart p i l).setCar i (blankCar (p.car i)) with adm := withoutRun i (p.car i).m (p.car i).r p.adm } := by
    obtain ⟨hRunNow, hDutyNow, hDisableNow, -, hM, hR, hAddress, hLines⟩ := endingCar_kept p i l
    obtain ⟨-, -, hAdm, -⟩ := stoppedPart_unchanged p i l
    rw [release_disables (stoppedPart_nothingWaits i l hWaits) (hRunNow ▸ notQueued_holdsRun hRun)
      (hDutyNow ▸ hNot .disabled (by decide) (by decide)) (hDisableNow.trans hDisable), hDutyNow, hM, hR, hAddress, hLines, hAdm]
    rfl
  have hEnded : endTrip i l ((stoppedPart p i l).setCar i (stoppedCar p i l)) = handDutyChange (p.car i).duty .disabled
      { (stoppedPart p i l).setCar i (blankCar (p.car i)) with adm := withoutRun i (p.car i).m (p.car i).r p.adm } := by
    rw [endTrip_ending hEnds, hReleased, parkOnArrival_still, ite_self]
    rw [hBlank]
    exact .inl Duty.noConfusion
  rw [intake_known hKnown (evaluateTrip_ends hKnown (hNot .lost (by decide) (by decide)) hRun hStopped hTest), hEnded]
  · exact finishIntake_disabled l _ (by rw [hBlank]; rfl) (by rw [hBlank]; rfl) (by rw [hBlank]; exact Duty.noConfusion)
  · rw [hEnded, hBlank]
    exact Duty.noConfusion

/-- A settled release leaves the car where it rests. -/
theorem settledPart_rests (hDuty : (p.car i).duty = .recall ∨ (p.car i).duty = .service) :
    Rests i l p (settledPart (stoppedPart p i l) i (endingCar p i l)) := by
  obtain ⟨hActive, hSup, -, -⟩ := stoppedPart_unchanged p i l
  obtain ⟨-, hDutyNow, -, hLive, -⟩ := endingCar_kept p i l
  have hReleased : Rests i l p (releasedPart (stoppedPart p i l) i (endingCar p i l)) := by
    refine Rests.stored (c := { freedCar (endingCar p i l) with
      duty := releasedDuty (endingCar p i l) (endingCar p i l).duty
      pendingRecall := false }) hLive rfl (fun hParked => ?_) hActive (congrArg Supervisor.state hSup) (car_stored _ i _ _)
    have hSettled : releasedDuty (endingCar p i l) (endingCar p i l).duty = .parked := hParked
    unfold releasedDuty at hSettled
    rw [hDutyNow] at hSettled
    split at hSettled
    · exact Duty.noConfusion hSettled
    split at hSettled
    · exact Duty.noConfusion hSettled
    exact hDuty.elim (fun h => Duty.noConfusion (h.symm.trans hSettled)) fun h => Duty.noConfusion (h.symm.trans hSettled)
  unfold settledPart
  split
  · exact hReleased
  · exact hReleased.handed _ _

theorem settledPart_unchanged (q : Part) (c : Car) : (settledPart q i c).active = q.active := by
  unfold settledPart
  split
  · rfl
  · exact (handDutyChange_keepsStanding i _ _ _).active

/-- The part that the release leaves, with the time of arrival that it stores. -/
theorem settledPart_ending {time : Time} (hTime : endingCar p i l = { stoppedCar p i l with arrivalTime := time }) :
    settledPart (stoppedPart p i l) i (endingCar p i l) =
      let released : Part := { ((stoppedPart p i l).setCar i (stoppedCar p i l)).setCar i { freedCar (stoppedCar p i l) with
          arrivalTime := time
          duty := releasedDuty (stoppedCar p i l) (p.car i).duty
          pendingRecall := false } with
        adm := withoutRun i (p.car i).m (p.car i).r p.adm }
      if releasedDuty (stoppedCar p i l) (p.car i).duty = (p.car i).duty then released
      else handDutyChange (p.car i).duty (releasedDuty (stoppedCar p i l) (p.car i).duty) released := by
  obtain ⟨-, hDuty, -, -, hM, hR, -⟩ := endingCar_kept p i l
  obtain ⟨-, -, hAdm, -⟩ := stoppedPart_unchanged p i l
  have hSettled : releasedDuty (endingCar p i l) (p.car i).duty = releasedDuty (stoppedCar p i l) (p.car i).duty := by
    rw [hTime]
    rfl
  have hFreed : freedCar (endingCar p i l) = { freedCar (stoppedCar p i l) with arrivalTime := time } := by
    rw [hTime]
    rfl
  unfold settledPart releasedPart
  rw [hDuty, hSettled, hFreed, hM, hR, hAdm, setCar_setCar]

theorem settledPart_found (hDuty : (p.car i).duty = .recall ∨ (p.car i).duty = .service) :
    ((settledPart (stoppedPart p i l) i (endingCar p i l)).car i).duty ≠ .lost := by
  obtain ⟨-, hEnding, -⟩ := endingCar_kept p i l
  have hReleased : ((releasedPart (stoppedPart p i l) i (endingCar p i l)).car i).duty ≠ .lost := by
    have hCar : ((releasedPart (stoppedPart p i l) i (endingCar p i l)).car i).duty
        = releasedDuty (endingCar p i l) (endingCar p i l).duty := congrArg Car.duty (car_stored _ i _ _)
    rw [hCar, hEnding]
    unfold releasedDuty
    split
    · decide
    · split
      · decide
      · exact fun hLost => hDuty.elim (fun h => Duty.noConfusion (hLost.symm.trans h)) fun h => Duty.noConfusion (hLost.symm.trans h)
  unfold settledPart
  split
  · exact hReleased
  · exact (handDutyChange_keepsStanding i _ _ _).found hReleased

theorem release_ending (hDuty : (p.car i).duty = .recall ∨ (p.car i).duty = .service) (hRun : (p.car i).holdsRun = true)
    (hKept : (p.car i).disablePending = false) (hWaits : p.nothingWaits) :
    release i ((stoppedPart p i l).setCar i (endingCar p i l)) = settledPart (stoppedPart p i l) i (endingCar p i l) := by
  obtain ⟨hRunNow, hDutyNow, hKeptNow, -⟩ := endingCar_kept p i l
  refine release_settles (stoppedPart_nothingWaits i l hWaits) ?_ ?_ (hKeptNow.trans hKept)
  · rw [hRunNow]
    exact notQueued_holdsRun hRun
  · rw [hDutyNow]
    exact fun hLost => hDuty.elim (fun h => Duty.noConfusion (hLost.symm.trans h)) fun h => Duty.noConfusion (hLost.symm.trans h)

/-- A withdrawn start, or a stop before motion: the release alone (R41). -/
theorem intake_withdrawn (hKnown : (p.car i).live = some old) (hDuty : (p.car i).duty = .recall ∨ (p.car i).duty = .service)
    (hRun : (p.car i).holdsRun = true) (hStopped : l.motion = .stopped)
    (hTest : (p.car i).run = .running ∨ atStallLimit p.active.plant.stallLimit (takeLive p.now l (p.car i)) = false)
    (hKept : (p.car i).disablePending = false) (hWaits : p.nothingWaits) (hMoved : (p.car i).moved = false)
    (hEnds : l.request = .none ∨ (stoppedCar p i l).stopAtLanding = true) :
    intake i l p = finishIntake i l (p.car i).blocked (settledPart (stoppedPart p i l) i (endingCar p i l)) := by
  have hFound : (p.car i).duty ≠ .lost := fun hLost => hDuty.elim
    (fun h => Duty.noConfusion (hLost.symm.trans h)) fun h => Duty.noConfusion (hLost.symm.trans h)
  refine intake_known hKnown ?_ (settledPart_found hDuty)
  rw [evaluateTrip_ends hKnown hFound hRun hStopped hTest, endTrip_ending (.inr hEnds), if_neg (Bool.eq_false_iff.mp hMoved),
    release_ending hDuty hRun hKept hWaits]

/-- An arrival: the release, and the parking check on the part that it leaves (R40). -/
theorem intake_arrives (hKnown : (p.car i).live = some old) (hDuty : (p.car i).duty = .recall ∨ (p.car i).duty = .service)
    (hRun : (p.car i).holdsRun = true) (hStopped : l.motion = .stopped)
    (hTest : (p.car i).run = .running ∨ atStallLimit p.active.plant.stallLimit (takeLive p.now l (p.car i)) = false)
    (hKept : (p.car i).disablePending = false) (hWaits : p.nothingWaits) (hMoved : (p.car i).moved = true) {x : Part}
    (hParks : parkOnArrival i l (settledPart (stoppedPart p i l) i (endingCar p i l)) = x) (hFoundNow : (x.car i).duty ≠ .lost) :
    intake i l p = finishIntake i l (p.car i).blocked x := by
  have hFound : (p.car i).duty ≠ .lost := fun hLost => hDuty.elim
    (fun h => Duty.noConfusion (hLost.symm.trans h)) fun h => Duty.noConfusion (hLost.symm.trans h)
  refine intake_known hKnown ?_ hFoundNow
  rw [evaluateTrip_ends hKnown hFound hRun hStopped hTest, endTrip_ending (.inl hMoved), if_pos hMoved,
    release_ending hDuty hRun hKept hWaits, hParks]

end

end Sys2Proof.Machine
end

section
/-! Report intake for a LOST record that still holds a run: the report is a baseline report, after which the loss ends (R32). -/

namespace Sys2Proof.Machine

section
variable {p : Part} {i : CarIdx} {l : Live} {prior : Duty}

/-- A LOST record goes from its trip to the end of the loss. -/
theorem intake_lost {x : Part} (hTrip : evaluateTrip i none l (p.heard i l) = x) (hLost : (p.car i).duty = .lost)
    (hLostNow : (x.car i).duty = .lost) : intake i l p = finishIntake i l (p.car i).blocked (endLoss i x) := by
  have hSteps : intake i l p = finishIntake i l (p.car i).blocked (endLossOrHear (p.car i).live.isNone i
      (evaluateTrip i (baselineOf (p.car i)) l (p.heard i l))) := intake_steps i l p
  rw [hSteps, baselineOf_lost hLost, hTrip, endLossOrHear_lost _ hLostNow]

theorem backDuty_outOfService (state : TransferState) (d : Duty) :
    backDuty state d false ≠ .service ∧ backDuty state d false ≠ .parked := by
  unfold backDuty
  by_cases hIsolated : d = .isolated
  · rw [if_pos hIsolated]
    decide
  · rw [if_neg hIsolated]
    cases state <;> decide

/-- Where the run goes on, the loss ends in a duty of a car that does not stand. -/
theorem intake_lostGoesOn {c : Car} (hTrip : evaluateTrip i none l (p.heard i l) = p.setCar i c) (hLost : (p.car i).duty = .lost)
    (hLostNow : c.duty = .lost) (hPrior : c.prior = some prior) (hRun : c.holdsRun = true) :
    intake i l p = handDutyChange .lost (backDuty p.sup.state prior false) (p.setCar i { c with
      prior := none
      duty := backDuty p.sup.state prior false
      pendingRecall := false }) := by
  have hCar : (p.setCar i c).car i = c := car_setCar_self p i c
  have hNotIdle : c.run ≠ .idle := fun hIdle => notHoldsRun_idle hIdle hRun
  have hEnds : endLoss i (p.setCar i c) = handDutyChange .lost (backDuty p.sup.state prior false) (p.setCar i { c with
      prior := none
      duty := backDuty p.sup.state prior false
      pendingRecall := false }) := by
    refine (endLoss_back (prior := prior) (stands := false) (by rw [hCar]; exact hLostNow) (by rw [hCar]; exact hPrior) ?_).trans ?_
    · rw [hCar]
      exact passesStanding_run hNotIdle _
    · rw [hCar, setCar_setCar]
      rfl
  have hStored : (p.setCar i { c with prior := none, duty := backDuty p.sup.state prior false, pendingRecall := false }).car i
      = { c with prior := none, duty := backDuty p.sup.state prior false, pendingRecall := false } := car_setCar_self p i _
  have hHanded := handDutyChange_outOfService i .lost (backDuty p.sup.state prior false)
    (p.setCar i { c with prior := none, duty := backDuty p.sup.state prior false, pendingRecall := false })
    (by unfold Part.outOfService; rw [hStored]; exact backDuty_outOfService _ _)
    (by rw [hStored]; exact notQueued_holdsRun hRun)
  rw [intake_lost hTrip hLost (by rw [hCar]; exact hLostNow), hEnds, finishIntake_run l]
  · rw [hHanded, hStored]
    exact hRun
  · rw [hHanded, hStored]
    exact (backDuty_outOfService _ _).2

theorem evaluateTrip_lostMoving (hRun : (p.car i).holdsRun = true) (hMoves : l.motion ≠ .stopped) :
    evaluateTrip i none l (p.heard i l) = p.setCar i (noteMotion (takeLive p.now l (p.car i))) := by
  rw [evaluateTrip_heardMoving none hRun hMoves]
  exact (countTrip_noBaseline (takeLive p.now l (p.car i))).trans (by rw [if_neg hMoves])

theorem evaluateTrip_lostStopped (hRun : (p.car i).holdsRun = true) (hStopped : l.motion = .stopped) :
    evaluateTrip i none l (p.heard i l) = endTrip i l (p.heard i l) := by
  have hCounted : countTrip i none l (p.heard i l) = p.heard i l :=
    (countTrip_noBaseline (takeLive p.now l (p.car i))).trans (by rw [if_pos hStopped]; rfl)
  rw [evaluateTrip_heardStopped none hRun hStopped, hCounted]

/-- The LOST record as its release finds it: an arrival is noted first (R40). -/
def lostEnding (p : Part) (i : CarIdx) (l : Live) : Car :=
  if (p.car i).moved = true then { takeLive p.now l (p.car i) with arrivalTime := p.now } else takeLive p.now l (p.car i)

theorem lostEnding_eq (p : Part) (i : CarIdx) (l : Live) : lostEnding p i l = { takeLive p.now l (p.car i) with
    arrivalTime := if (p.car i).moved = true then p.now else (p.car i).arrivalTime } := by
  unfold lostEnding
  by_cases hMoved : (p.car i).moved = true
  · rw [if_pos hMoved, if_pos hMoved]
  · rw [if_neg hMoved, if_neg hMoved]
    rfl

/-- The ending of a LOST record's trip, where its release leaves a record that no arrival parks. -/
theorem evaluateTrip_lostEnds {x : Part} (hRun : (p.car i).holdsRun = true) (hStopped : l.motion = .stopped)
    (hEnds : (p.car i).moved = true ∨ l.request = .none ∨ (takeLive p.now l (p.car i)).stopAtLanding = true)
    (hReleased : release i (p.setCar i (lostEnding p i l)) = x) (hNotRecall : (x.car i).duty ≠ .recall) :
    evaluateTrip i none l (p.heard i l) = x := by
  have hEnd : endTrip i l (p.heard i l)
      = if (p.car i).moved = true then parkOnArrival i l (release i (p.setCar i (lostEnding p i l)))
        else release i (p.setCar i (lostEnding p i l)) := by
    unfold lostEnding
    by_cases hMoved : (p.car i).moved = true
    · rw [if_pos hMoved, if_pos hMoved]
      exact endTrip_arrives (c := takeLive p.now l (p.car i)) l hMoved
    · rw [if_neg hMoved, if_neg hMoved]
      exact endTrip_releases (c := takeLive p.now l (p.car i)) (Bool.eq_false_iff.mpr hMoved) (hEnds.resolve_left hMoved)
  rw [evaluateTrip_lostStopped hRun hStopped, hEnd, hReleased, parkOnArrival_still (.inl hNotRecall), ite_self]

theorem endLossOrHear_other {q : Part} (first : Bool) (h : (q.car i).duty ≠ .lost) (k : (q.car i).duty ≠ .recall) :
    endLossOrHear first i q = q := by
  cases first with
  | false => exact endLossOrHear_known h
  | true => exact (endLossOrHear_first h).trans (firstHearing_still fun hParks => k hParks.2.1)

theorem intake_lostDisables (hLost : (p.car i).duty = .lost) (hRun : (p.car i).holdsRun = true) (hStopped : l.motion = .stopped)
    (hEnds : (p.car i).moved = true ∨ l.request = .none ∨ (takeLive p.now l (p.car i)).stopAtLanding = true)
    (hWaits : p.nothingWaits) (hDisable : (p.car i).disablePending = true) :
    intake i l p = handDutyChange .lost .disabled { p.setCar i (blankCar (p.car i)) with
      adm := withoutRun i (p.car i).m (p.car i).r p.adm } := by
  have hBlank := handed_blank i (p.car i) .lost (withoutRun i (p.car i).m (p.car i).r p.adm) p
  have hReleased : release i (p.setCar i (lostEnding p i l)) = handDutyChange .lost .disabled
      { p.setCar i (blankCar (p.car i)) with adm := withoutRun i (p.car i).m (p.car i).r p.adm } := by
    rw [lostEnding_eq]
    refine (release_disables (c := { takeLive p.now l (p.car i) with
      arrivalTime := if (p.car i).moved = true then p.now else (p.car i).arrivalTime }) hWaits (notQueued_holdsRun hRun) ?_
        hDisable).trans ?_
    · exact fun hIs => Duty.noConfusion (hLost.symm.trans hIs)
    · have hDuty : (takeLive p.now l (p.car i)).duty = .lost := hLost
      dsimp only
      rw [hDuty]
      rfl
  have hSteps : intake i l p = finishIntake i l (p.car i).blocked (endLossOrHear (p.car i).live.isNone i
      (evaluateTrip i (baselineOf (p.car i)) l (p.heard i l))) := intake_steps i l p
  rw [hSteps, baselineOf_lost hLost,
    evaluateTrip_lostEnds hRun hStopped hEnds hReleased (by rw [hBlank]; exact Duty.noConfusion), endLossOrHear_other,
    finishIntake_disabled]
  all_goals rw [hBlank]
  · rfl
  · rfl
  · exact Duty.noConfusion
  · exact Duty.noConfusion
  · exact Duty.noConfusion

/-- The LOST record after its run has been released, the settlement in its prior duty (R39). -/
def lostFreed (p : Part) (i : CarIdx) (l : Live) (prior : Duty) : Car :=
  { freedCar (takeLive p.now l (p.car i)) with
    arrivalTime := if (p.car i).moved = true then p.now else (p.car i).arrivalTime
    prior := some (releasedDuty (p.car i) prior)
    pendingRecall := false }

theorem release_lostEnding (hLost : (p.car i).duty = .lost) (hPrior : (p.car i).prior = some prior)
    (hRun : (p.car i).holdsRun = true) (hWaits : p.nothingWaits) (hKept : (p.car i).disablePending = false) :
    release i (p.setCar i (lostEnding p i l)) = { p.setCar i (lostFreed p i l prior) with
      adm := withoutRun i (p.car i).m (p.car i).r p.adm } := by
  rw [lostEnding_eq]
  exact release_staysLost (c := { takeLive p.now l (p.car i) with
    arrivalTime := if (p.car i).moved = true then p.now else (p.car i).arrivalTime }) hWaits (notQueued_holdsRun hRun) hLost hPrior
    hKept

/-- The LOST record after its run has been released and the loss has ended. -/
def backCar (p : Part) (i : CarIdx) (l : Live) (d : Duty) : Car :=
  { freedCar (takeLive p.now l (p.car i)) with
    arrivalTime := if (p.car i).moved = true then p.now else (p.car i).arrivalTime
    prior := none
    duty := d
    pendingRecall := false }

/-- The settlement goes into the prior duty first, and then the loss ends (R32, R39). -/
theorem intake_lostReturns (hLost : (p.car i).duty = .lost) (hPrior : (p.car i).prior = some prior)
    (hRun : (p.car i).holdsRun = true) (hStopped : l.motion = .stopped)
    (hEnds : (p.car i).moved = true ∨ l.request = .none ∨ (takeLive p.now l (p.car i)).stopAtLanding = true)
    (hWaits : p.nothingWaits) (hKept : (p.car i).disablePending = false) {d : Duty}
    (hBack : backDuty p.sup.state (releasedDuty (p.car i) prior) (l.standsAt (p.recallFloor i)) = d) :
    intake i l p = finishIntake i l (p.car i).blocked (handDutyChange .lost d
      { p.setCar i (backCar p i l d) with adm := withoutRun i (p.car i).m (p.car i).r p.adm }) := by
  have hReleased := release_lostEnding (l := l) hLost hPrior hRun hWaits hKept
  have hCar := car_stored p i (lostFreed p i l prior) (withoutRun i (p.car i).m (p.car i).r p.adm)
  have hDuty : (lostFreed p i l prior).duty = .lost := hLost
  have hReturns := endLoss_back (prior := releasedDuty (p.car i) prior) (stands := l.standsAt (p.recallFloor i))
    (p := { p.setCar i (lostFreed p i l prior) with adm := withoutRun i (p.car i).m (p.car i).r p.adm }) (i := i)
    (by rw [hCar]; exact hDuty) (by rw [hCar]; rfl)
    (by rw [hCar]; exact passesStanding_idle (c := lostFreed p i l prior) rfl rfl _)
  have hTrip := evaluateTrip_lostEnds hRun hStopped hEnds hReleased
    (by rw [hCar, hDuty]; exact Duty.noConfusion)
  rw [intake_lost hTrip hLost (by rw [hCar]; exact hDuty), hReturns, hCar, setCar_stored]
  subst hBack
  rfl

end

end Sys2Proof.Machine
end

section
/-! Report intake as a whole (R26 to R41, R63, R64, R66, R92, R100). -/

namespace Sys2Proof.Machine

/-- Settles O49: each kind of record in turn, without a run, LOST, PARKED, and with a run, and where the last steps do nothing. -/
theorem reportIntake : Obligations.ReportIntake := by
  intro p i l c taken heard withDuty blocks stands noJoin lastSteps ends limit stalling halts settled freed disabled cut endedRun
  have hEnds : ∀ {x : Part}, intake i l p = finishIntake i l c.blocked x → Rests i l p x → ends x := fun h hRests =>
    ⟨h, fun hNo hBlocked => h.trans (hRests.finish hNo hBlocked)⟩
  refine ⟨fun address => ⟨takeReport_found l, takeReport_nobody l⟩,
    fun r => ⟨rfl, rfl, rfl, rfl, reportLive_zone r, directionOf_up _, directionOf_down _, directionOf_up _, directionOf_down _,
      motionOf_moving _, motionOf_levelling _, doorOf_closed _, doorOf_moving _, rfl⟩,
    fun hState hIdle hFound hDuty => intake_normal l hState hIdle hFound hDuty, fun x => ?admission, fun x wasBlocked => ?after,
    fun hRun hFound hFirst => intake_waiting hRun hFound hFirst, ?joins, ?leaves, ?first, ?lost, ?lostRun, ?parked, ?run⟩
  case admission =>
    intro y joins queued left hLive
    have hMay : x.mayJoin i = true ↔ joins := mayJoin_iff hLive
    refine ⟨fun hJoins => ?_, fun hRun hLeaves => (handToAdmission_leaves hLive hRun hLeaves).trans (leaveQueue_eq x i),
      fun hStays hNot => handToAdmission_still (fun hLeaves => ?_) fun hJoins => hNot (hMay.mp hJoins)⟩
    · have hIdle : (x.car i).run = .idle := hJoins.2.2.2.1
      have hHands : handToAdmission i l x = attempt (join i x) :=
        handToAdmission_joins l (fun hQueued => Run.noConfusion (hIdle.symm.trans hQueued)) (hMay.mpr hJoins)
      exact ⟨join i x, fun hRoom => join_below hLive hRoom, fun hFull => join_renumbers hLive hIdle hFull,
        fun hGap => hHands.trans (attempt_closed ((join_gapOpen hLive hIdle).trans hGap)), fun _ => hHands⟩
    · rw [blocked_heard hLive] at hLeaves
      obtain hRun | ⟨hRequest, hFree⟩ := hStays
      · exact hRun hLeaves.1
      · exact hLeaves.2.elim hRequest fun hBlocks => Bool.false_ne_true (hFree.symm.trans hBlocks)
  case after =>
    intro y z drifts selects
    exact ⟨afterIntake_elsewhere wasBlocked, fun hParked => ⟨fun hDrifts => afterIntake_drifts wasBlocked hParked hDrifts.1 hDrifts.2,
      fun hStays => ⟨fun hSelects => (afterIntake_keeps wasBlocked hParked hStays).trans (if_pos hSelects),
        fun hNot => (afterIntake_keeps wasBlocked hParked hStays).trans (if_neg hNot)⟩⟩⟩
  case joins =>
    intro hState hKnown hIdle hDuty hIsolate hDisable hFit hRequest hStopped hSafety hDrive hInspection hRoom hGap
    have hFree : l.blocks = false := by
      unfold Live.blocks
      rw [hSafety, hDrive, hInspection]
      rfl
    refine intake_joins hKnown hIdle hDuty hRoom hGap ((mayJoin_iff (l := l) ?_).mpr ?_)
    · rw [car_heard]
      rfl
    · rw [car_heard]
      exact ⟨hRequest, hStopped, hDuty, hIdle, hFree, hFit, hIsolate, hDisable, hState⟩
  case leaves =>
    intro hQueued hKnown hDuty hLeaves left
    exact intake_leaves hQueued hKnown hDuty hLeaves
  case first =>
    intro hState hUnheard hDuty hIdle
    refine ⟨fun hStands => hEnds (intake_firstHearing hState hUnheard hDuty hIdle hStands)
        ((Rests.ofStored (c := withDuty taken .parked) p.adm rfl hIdle fun _ => hStands).handed _ _),
      fun hNot => hEnds (intake_waiting (.inl hIdle) (fun hLost => Duty.noConfusion (hDuty.symm.trans hLost)) fun _ _ _ => hNot)
        (Rests.ofStored (c := taken) p.adm rfl hIdle fun hParked => Duty.noConfusion (hDuty.symm.trans hParked))⟩
  case lost =>
    intro d hLost hPrior hIdle back
    exact hEnds (intake_endLoss l hLost hPrior hIdle)
      ((Rests.ofStored (c := withDuty { taken with prior := none } back) p.adm rfl hIdle fun hParked => backDuty_parked hParked).handed
        _ _)
  case parked =>
    intro hDuty hIdle
    refine ⟨fun hOff => ?_, fun hState hNot => intake_drifts hDuty hIdle hState hNot, fun hState hStands =>
      ⟨fun hService hWas hFree => (intake_staysParked hDuty hIdle (.inr hStands)).trans (if_pos ⟨hService, hWas, hFree⟩),
        fun hNot => (intake_staysParked hDuty hIdle (.inr hStands)).trans (if_neg fun hSelects => ?_)⟩⟩
    · refine (intake_staysParked hDuty hIdle (.inl hOff)).trans (if_neg fun hSelects => ?_)
      rw [hSelects.1] at hOff
      exact absurd hOff (by decide)
    · obtain hOther | hFree | hBlocks := hNot
      · exact hOther hSelects.1
      · exact Bool.false_ne_true (hFree.symm.trans hSelects.2.1)
      · exact Bool.false_ne_true (hSelects.2.2.symm.trans hBlocks)
  case lostRun =>
    intro d0 hLost hPrior hRun back goesOn
    have hNoted : (noteMotion taken).duty = .lost ∧ (noteMotion taken).prior = some d0 ∧ (noteMotion taken).holdsRun = true := by
      rw [noteMotion_keeps]
      exact ⟨hLost, hPrior, hRun⟩
    have hStops : taken.stopAtLanding = true ↔ halts c := stopAtLanding_iff (c := taken) hRun
    refine ⟨fun hMoves => intake_lostGoesOn (c := noteMotion taken) (evaluateTrip_lostMoving hRun hMoves) hLost hNoted.1 hNoted.2.1
        hNoted.2.2,
      fun hStopped hStill hRequest hGoesOn => ?_, fun hStopped hEnding hWaits => ?_⟩
    · have hNot : ¬ (l.request = .none ∨ taken.stopAtLanding = true) := fun h => h.elim hRequest fun hIs => hGoesOn (hStops.mp hIs)
      have hTrip : evaluateTrip i none l (p.heard i l) = p.setCar i taken :=
        (evaluateTrip_lostStopped hRun hStopped).trans (endTrip_goesOn (c := taken) hStill hNot)
      exact intake_lostGoesOn (c := taken) hTrip hLost hLost hPrior hRun
    · rw [← hStops] at hEnding
      refine ⟨fun hDisable => intake_lostDisables hLost hRun hStopped hEnding hWaits hDisable, fun hKept => ?_⟩
      intro d
      exact hEnds (intake_lostReturns hLost hPrior hRun hStopped hEnding hWaits hKept (d := d) rfl)
        ((Rests.ofStored (c := backCar p i l d) _ rfl rfl fun hParked => backDuty_parked hParked).handed _ _)
  case run =>
    intro old hKnown hDuty hRun
    refine ⟨fun hMoves => ?moving, fun hStopped => ?stopped⟩
    case moving =>
      intro noted
      refine ⟨fun hStalled => intake_movesStalled hKnown hDuty hRun hMoves hStalled, fun f hStalled hSnapshot => ?_⟩
      intro counted stalls
      have hFree : counted.stalled = false := (movedCar_keeps p i l old f).2.2.1.trans hStalled
      refine ⟨fun hStagnant hReverse => intake_movesOn hKnown hDuty hRun hMoves hStalled hSnapshot (decide_eq_false fun hAt =>
        hAt.2.elim (Nat.not_le.mpr hStagnant) (Nat.not_le.mpr hReverse)),
        fun hAt => ⟨fun hRunning => ?_, fun hStarting hWaits => ?_⟩⟩
      · exact intake_stallsRunning hKnown hDuty hRunning hMoves hStalled hSnapshot (decide_eq_true ⟨hFree, hAt⟩)
      · exact intake_stallsStarting hKnown hDuty hStarting hWaits hMoves hStalled hSnapshot (decide_eq_true ⟨hFree, hAt⟩)
    case stopped =>
      intro atLimit tested testedPart d released handed hTest
      have hPart : testedPart = (stoppedPart p i l).setCar i (stoppedCar p i l) := by
        by_cases hAt : atStallLimit limit taken = true
        · have hObliged : testedPart = raiseEvent .stall (p.setCar i tested) := if_pos hAt
          have hBase : stoppedPart p i l = raiseEvent .stall p := if_pos hAt
          rw [hObliged, hBase]
          rfl
        · have hObliged : testedPart = p.setCar i tested := if_neg hAt
          have hBase : stoppedPart p i l = p := if_neg hAt
          rw [hObliged, hBase]
          rfl
      obtain ⟨hRunNow, -⟩ := stoppedCar_keeps p i l
      have hStops : tested.stopAtLanding = true ↔ halts tested := stopAtLanding_iff (holdsRun_of_run (d := tested) hRun hRunNow)
      have hHanded : ∀ time, endingCar p i l = { tested with arrivalTime := time } →
          settledPart (stoppedPart p i l) i (endingCar p i l) = handed time := fun time hTime => by
        have hDutyNow : releasedDuty (stoppedCar p i l) (p.car i).duty = d := by
          unfold releasedDuty
          rw [stoppedCar_pendingRecall]
          rfl
        have hSettled := settledPart_ending hTime
        rw [← hPart, hDutyNow] at hSettled
        exact hSettled
      refine ⟨fun hStill hRequest hGoesOn => ?goesOn, fun hDisable hEnding hWaits => ?disables, fun hKept hWaits =>
        ⟨fun hStill hEnding => ?withdrawn, fun hMoved => ?arrives⟩⟩
      case goesOn =>
        refine (intake_tripGoesOn hKnown hDuty hRun hStopped hTest hStill fun h => ?_).trans hPart.symm
        exact h.elim hRequest fun hIs => hGoesOn (hStops.mp hIs)
      case disables =>
        have hDisabled := intake_disables hKnown hDuty hRun hStopped hTest hDisable
          (hEnding.imp_right fun h => h.imp_right hStops.mpr) hWaits
        rw [hPart, setCar_setCar]
        exact hDisabled
      case withdrawn =>
        have hTime : endingCar p i l = { tested with arrivalTime := c.arrivalTime } := endingCar_still hStill
        rw [← hHanded _ hTime]
        exact hEnds (intake_withdrawn hKnown hDuty hRun hStopped hTest hKept hWaits hStill (hEnding.imp_right hStops.mpr))
          (settledPart_rests hDuty)
      case arrives =>
        intro x
        have hTime : endingCar p i l = { tested with arrivalTime := p.now } := if_pos hMoved
        have hSettled : settledPart (stoppedPart p i l) i (endingCar p i l) = x := hHanded _ hTime
        have hRests : Rests i l p x := hSettled ▸ settledPart_rests hDuty
        have hFound : (x.car i).duty ≠ .lost := hSettled ▸ settledPart_found hDuty
        have hActive : x.active = p.active := hSettled ▸ (settledPart_unchanged _ _).trans (stoppedPart_unchanged p i l).1
        have hFloor : x.recallFloor i = p.recallFloor i := recallFloor_congr hActive i
        refine ⟨fun hRecall hZone hAt => ?_, fun hNot => ?_⟩
        · have hParks := parkOnArrival_parks (p := x) hRecall hZone (hAt.trans hFloor.symm)
          have hStored := hRests.withDuty hActive (d := .parked) fun _ => decide_eq_true ⟨hStopped, hZone, hAt⟩
          refine hEnds (intake_arrives hKnown hDuty hRun hStopped hTest hKept hWaits hMoved
            ((congrArg (parkOnArrival i l) hSettled).trans hParks) ?_) (hStored.handed _ _)
          refine (handDutyChange_keepsStanding i _ _ _).found ?_
          rw [car_setCar_self]
          exact Duty.noConfusion
        · have hStays := parkOnArrival_still (p := x) (hFloor.symm ▸ hNot)
          exact hEnds (intake_arrives hKnown hDuty hRun hStopped hTest hKept hWaits hMoved
            ((congrArg (parkOnArrival i l) hSettled).trans hStays) hFound) hRests

end Sys2Proof.Machine
end
